-- ==== Sys2Proof/Word.lean ====
section
/-! DEFINITION. The word types of the X9 and their plainest arithmetic (spec/00 R1, R2; spec/02 R33). -/

namespace Sys2Proof

/-- A byte of memory or of the pad. -/
abbrev Byte := BitVec 8
/-- A lane register, a kernel argument, an accumulator element (R33). -/
abbrev Word := BitVec 32
/-- A 64-bit value: a virtual address, a program counter, a register pair (R34). -/
abbrev DWord := BitVec 64
/-- The number of a lane register, v0 to v127 (R33). -/
abbrev Reg := BitVec 7

end Sys2Proof
end

