-- ==== Sys2Proof/Machine/Store.lean ====
section
/-! DEFINITION. Stores by key: a finite list of (key, value) pairs over a value that every unlisted key
reads as. Memory, pads, tiles and the tables of the machine are such lists. The canonical form has keys
strictly rising and no entry equal to the unlisted value. -/

namespace Sys2Proof.Machine

/-- A store: pairs of a key and a value. -/
abbrev Store (α : Type) := List (Nat × α)

/-- The value of a key, `d` where the key is not listed. -/
def Store.get {α : Type} (d : α) : Store α → Nat → α
  | [], _ => d
  | (k, v) :: m, i => if k = i then v else Store.get d m i

/-- The store without a key. -/
def Store.erase {α : Type} : Store α → Nat → Store α
  | [], _ => []
  | (k, v) :: m, i => if k = i then Store.erase m i else (k, v) :: Store.erase m i

/-- Puts a pair before the first larger key. -/
def Store.place {α : Type} : Store α → Nat → α → Store α
  | [], i, x => [(i, x)]
  | (k, v) :: m, i, x => if i < k then (i, x) :: (k, v) :: m else (k, v) :: Store.place m i x

/-- Writes a key; a value equal to the unlisted one removes the entry. -/
def Store.set {α : Type} [DecidableEq α] (d : α) (m : Store α) (i : Nat) (x : α) : Store α :=
  if x = d then Store.erase m i else Store.place (Store.erase m i) i x

/-- The keys listed. -/
def Store.keys {α : Type} (m : Store α) : List Nat := m.map (·.1)

/-- Keys strictly rising, all at least `lo`, and no entry equal to the unlisted value. -/
def Store.wfFrom {α : Type} [DecidableEq α] (d : α) : Nat → Store α → Bool
  | _, [] => true
  | lo, (k, v) :: m => decide (lo ≤ k) && !decide (v = d) && Store.wfFrom d (k + 1) m

/-- The canonical form. -/
def Store.wf {α : Type} [DecidableEq α] (d : α) (m : Store α) : Bool := Store.wfFrom d 0 m

/-- `n` consecutive values from key `i`. -/
def Store.getN {α : Type} (d : α) (m : Store α) (i : Nat) : Nat → List α
  | 0 => []
  | n + 1 => Store.get d m i :: Store.getN d m (i + 1) n

/-- Consecutive values written from key `i`. -/
def Store.setN {α : Type} [DecidableEq α] (d : α) (m : Store α) (i : Nat) : List α → Store α
  | [] => m
  | x :: xs => Store.setN d (Store.set d m i x) (i + 1) xs

/-- Little-endian value of bytes (R1). -/
def leNat : List Byte → Nat
  | [] => 0
  | b :: bs => b.toNat + 256 * leNat bs

/-- The `n` little-endian bytes of a number (R1). -/
def leBytes : Nat → Nat → List Byte
  | 0, _ => []
  | n + 1, x => BitVec.ofNat 8 x :: leBytes n (x / 256)

/-- Bits [hi:lo] of a number (R2). -/
def bits (x hi lo : Nat) : Nat := (x / 2 ^ lo) % 2 ^ (hi + 1 - lo)

/-- `x` with bits [hi:lo] set to `v`. -/
def putBits (x hi lo v : Nat) : Nat :=
  x - bits x hi lo * 2 ^ lo + (v % 2 ^ (hi + 1 - lo)) * 2 ^ lo

/-- One bit of a number. -/
def bit (x n : Nat) : Bool := (x / 2 ^ n) % 2 = 1

/-- A Bool as a number. -/
def b2n (b : Bool) : Nat := if b then 1 else 0

/-- `x` rounded up to a multiple of `m`. -/
def roundUp (x m : Nat) : Nat := (x + m - 1) / m * m

/-- The quotient rounded up. -/
def ceilDiv (x y : Nat) : Nat := (x + y - 1) / y

/-- `n` bits of `x` as a two's-complement number. -/
def toSigned (n x : Nat) : Int := if 2 * (x % 2 ^ n) < 2 ^ n then (x % 2 ^ n : Nat) else (x % 2 ^ n : Nat) - (2 ^ n : Nat)

/-- The value of the first entry of a list that has one. -/
def firstSome {α β : Type} (f : α → Option β) : List α → Option β
  | [] => none
  | a :: as => match f a with
    | some b => some b
    | none => firstSome f as

/-- The list with its `n`-th element replaced, where there is one. -/
def setAt {α : Type} : List α → Nat → α → List α
  | [], _, _ => []
  | _ :: as, 0, x => x :: as
  | a :: as, n + 1, x => a :: setAt as n x

/-- Puts an element before the first that does not come before it. -/
def insertOne {α : Type} (le : α → α → Bool) (x : α) : List α → List α
  | [] => [x]
  | y :: ys => if le x y then x :: y :: ys else y :: insertOne le x ys
/-- The list in order, equal elements as they stood. -/
def insertSort {α : Type} (le : α → α → Bool) : List α → List α
  | [] => []
  | x :: xs => insertOne le x (insertSort le xs)

end Sys2Proof.Machine
end

