-- ==== Sys2Proof/Syntax.lean ====
section
/-! DEFINITION. The instruction set as syntax: one constructor of `Instr` for each row of
spec/opcode_table.json. The rows that have words carry the fields of their word, lowest bits first
(spec/02 R21 to R27); the rows that are machine events (spec/95) carry what names the object they act on. -/

namespace Sys2Proof

/-- An access by an agent outside the package (R255, R332): a load of `n` bytes, a store, or an atomic
whose operation is numbered as ATOM's f (R262), with its operand and its new value. -/
inductive AgentOp where
  | load (n : Nat)
  | store (bytes : List Byte)
  | atomic (f : BitVec 4) (b c : BitVec 128)
  deriving DecidableEq, Repr

/-- A host access that reaches device HBM (R255, R320). -/
structure HostReq where
  pa : Nat
  op : AgentOp
  deriving DecidableEq, Repr

/-- A request of a peer device, with the tenant number it carries (R332). -/
structure PeerReq where
  tenant : BitVec 16
  pa : Nat
  op : AgentOp
  deriving DecidableEq, Repr

/-- An incoming migration request (R96): the requesting peer and its tenant, the VF, ASID and page,
the frame its leaf names on this device, the frame it holds for the page (DEDUCED, log 31), and the migration count of its leaf. -/
structure MigRequest where
  peer : BitVec 4
  tenant : BitVec 16
  vf : Nat
  asid : BitVec 16
  page : BitVec 64
  frame : Nat
  held : Nat
  mcount : BitVec 2
  deriving DecidableEq, Repr

/-- The holder's answer to a migration request of this device (R96, R332): the page with the new
migration count and whether this settles it, a refusal because the holder's leaf is remote or in transit,
any other refusal, or a refusal by the holder's export table. -/
inductive MigReply where
  | page (bytes : List Byte) (n : BitVec 2)
  | moved
  | refused
  | denied
  deriving DecidableEq, Repr

/-- A firmware image measured at boot (R333): its bytes and its ML-DSA-87 signature. -/
structure FwImage where
  bytes : List Byte
  sig : List Byte
  deriving DecidableEq, Repr

/-- Where an uncorrectable error is found (R338, R339): a sector of HBM, a sector of L2, the own state of
a team (registers, pad, tiles, handles, carafe), or the management core. -/
inductive MemError where
  | hbm (pa : Nat)
  | l2 (pa : Nat)
  | team (unit : Nat) (key : Nat)
  | management
  deriving DecidableEq, Repr

/-- The instructions and machine events of the X9 (spec/opcode_table.json). -/
inductive Instr where
  /-- ILL (R18): The all-zero halfword is decoded as ILL and raises an ILL trap with sub-code 0x01. -/
  | ill
  /-- PFX (R31): Prefixes the next 32-bit instruction with a guard, a fourth register and extension bits; the pair issues as one instruction. -/
  | pfx (p : BitVec 5) (n : BitVec 1) (c : BitVec 7) (x : BitVec 12)
  /-- GRD (R28): Sets the thread's guard span so that the next 1-16 instructions execute only when pN XOR negate holds. -/
  | grd (p : BitVec 5) (g : BitVec 1) (s : BitVec 4)
  /-- ADD (R162): vd := (va + vb) mod 2^32. -/
  | add (d : BitVec 7) (a : BitVec 7) (b : BitVec 7)
  /-- SUB (R162): vd := (va - vb) mod 2^32. -/
  | sub (d : BitVec 7) (a : BitVec 7) (b : BitVec 7)
  /-- MUL (R162): vd := low 32 bits of va times vb. -/
  | mul (d : BitVec 7) (a : BitVec 7) (b : BitVec 7)
  /-- MULH_S32 (R162): vd := high 32 bits of the signed 64-bit product. -/
  | mulhS32 (d : BitVec 7) (a : BitVec 7) (b : BitVec 7)
  /-- MULH_N32 (R162): vd := high 32 bits of the unsigned 64-bit product. -/
  | mulhN32 (d : BitVec 7) (a : BitVec 7) (b : BitVec 7)
  /-- MIN_S32 (R162): vd := the smaller of va and vb as signed values. -/
  | minS32 (d : BitVec 7) (a : BitVec 7) (b : BitVec 7)
  /-- MIN_N32 (R162): vd := the smaller of va and vb as unsigned values. -/
  | minN32 (d : BitVec 7) (a : BitVec 7) (b : BitVec 7)
  /-- MAX_S32 (R162): vd := the larger of va and vb as signed values. -/
  | maxS32 (d : BitVec 7) (a : BitVec 7) (b : BitVec 7)
  /-- MAX_N32 (R162): vd := the larger of va and vb as unsigned values. -/
  | maxN32 (d : BitVec 7) (a : BitVec 7) (b : BitVec 7)
  /-- AND (R162): vd := va AND vb. -/
  | andB (d : BitVec 7) (a : BitVec 7) (b : BitVec 7)
  /-- OR (R162): vd := va OR vb. -/
  | orB (d : BitVec 7) (a : BitVec 7) (b : BitVec 7)
  /-- XOR (R162): vd := va XOR vb. -/
  | xorB (d : BitVec 7) (a : BitVec 7) (b : BitVec 7)
  /-- SHL (R162): Shifts va left by the whole of vb; the result is 0 when vb is 32 or more. -/
  | shl (d : BitVec 7) (a : BitVec 7) (b : BitVec 7)
  /-- SHR (R162): Shifts va right by vb with zero fill. -/
  | shr (d : BitVec 7) (a : BitVec 7) (b : BitVec 7)
  /-- SAR (R162): Shifts va right by vb with sign fill. -/
  | sar (d : BitVec 7) (a : BitVec 7) (b : BitVec 7)
  /-- ANDN (R162): vd := va AND NOT vb. -/
  | andn (d : BitVec 7) (a : BitVec 7) (b : BitVec 7)
  /-- MAD (R163): vd := (va * vb + c) mod 2^32, where c is vd or vc. -/
  | mad (d : BitVec 7) (a : BitVec 7) (b : BitVec 7)
  /-- MADW_S32 (R163): Signed widening multiply-add into a register pair. -/
  | madwS32 (d : BitVec 7) (a : BitVec 7) (b : BitVec 7)
  /-- MADW_N32 (R163): Unsigned widening multiply-add into a register pair. -/
  | madwN32 (d : BitVec 7) (a : BitVec 7) (b : BitVec 7)
  /-- ADD_B64 (R163): Adds two 64-bit pairs mod 2^64. -/
  | addB64 (d : BitVec 7) (a : BitVec 7) (b : BitVec 7)
  /-- SUB_B64 (R163): Subtracts two 64-bit pairs mod 2^64. -/
  | subB64 (d : BitVec 7) (a : BitVec 7) (b : BitVec 7)
  /-- LEA_0 (R163): vd pair := va pair + zext(vb). -/
  | lea0 (d : BitVec 7) (a : BitVec 7) (b : BitVec 7)
  /-- LEA_1 (R163): vd pair := va pair + (zext(vb) << 1). -/
  | lea1 (d : BitVec 7) (a : BitVec 7) (b : BitVec 7)
  /-- LEA_2 (R163): vd pair := va pair + (zext(vb) << 2). -/
  | lea2 (d : BitVec 7) (a : BitVec 7) (b : BitVec 7)
  /-- LEA_3 (R163): vd pair := va pair + (zext(vb) << 3). -/
  | lea3 (d : BitVec 7) (a : BitVec 7) (b : BitVec 7)
  /-- DIV_S32 (R164): Signed division truncating towards zero, with fixed results for a zero divisor and for overflow. -/
  | divS32 (d : BitVec 7) (a : BitVec 7) (b : BitVec 7)
  /-- DIV_N32 (R164): Unsigned division; a zero divisor gives 0xFFFF_FFFF. -/
  | divN32 (d : BitVec 7) (a : BitVec 7) (b : BitVec 7)
  /-- REM_S32 (R164): Signed remainder, taking the sign of the dividend. -/
  | remS32 (d : BitVec 7) (a : BitVec 7) (b : BitVec 7)
  /-- REM_N32 (R164): Unsigned remainder; a zero divisor gives va. -/
  | remN32 (d : BitVec 7) (a : BitVec 7) (b : BitVec 7)
  /-- ABSD_S32 (R163): vd := |sext(va) - sext(vb)|, exact, as an unsigned value. -/
  | absdS32 (d : BitVec 7) (a : BitVec 7) (b : BitVec 7)
  /-- PRMT (R165): Builds each result byte from a selector over the bytes of va and the old vd. -/
  | prmt (d : BitVec 7) (a : BitVec 7) (b : BitVec 7)
  /-- ROT (R163): Rotates va left by vb[4:0]. -/
  | rot (d : BitVec 7) (a : BitVec 7) (b : BitVec 7)
  /-- ADDI (R166): vd := va + sign-extended imm11. -/
  | addi (d : BitVec 7) (a : BitVec 7) (i : BitVec 11)
  /-- ANDI (R166): vd := va AND sign-extended imm11. -/
  | andi (d : BitVec 7) (a : BitVec 7) (i : BitVec 11)
  /-- ORI (R166): vd := va OR sign-extended imm11. -/
  | ori (d : BitVec 7) (a : BitVec 7) (i : BitVec 11)
  /-- XORI (R166): vd := va XOR sign-extended imm11. -/
  | xori (d : BitVec 7) (a : BitVec 7) (i : BitVec 11)
  /-- SHLI (R166): Shifts va left by an immediate amount. -/
  | shli (d : BitVec 7) (a : BitVec 7) (s : BitVec 5)
  /-- SHRI (R166): Shifts va right by an immediate amount with zero fill. -/
  | shri (d : BitVec 7) (a : BitVec 7) (s : BitVec 5)
  /-- SARI (R166): Shifts va right by an immediate amount with sign fill. -/
  | sari (d : BitVec 7) (a : BitVec 7) (s : BitVec 5)
  /-- ROTI (R166): Rotates va left by an immediate amount. -/
  | roti (d : BitVec 7) (a : BitVec 7) (s : BitVec 5)
  /-- MOVI (R22): vd := sign-extended imm18. -/
  | movi (d : BitVec 7) (i : BitVec 18)
  /-- MOVHI (R22): vd := imm18 << 14, keeping vd[13:0]. -/
  | movhi (d : BitVec 7) (i : BitVec 18)
  /-- MOV (R167): vd := va. -/
  | mov (d : BitVec 7) (a : BitVec 7)
  /-- POPC (R167): Counts the 1 bits of va. -/
  | popc (d : BitVec 7) (a : BitVec 7)
  /-- CLZ (R167): Counts the leading zero bits of va. -/
  | clz (d : BitVec 7) (a : BitVec 7)
  /-- BREV (R167): Reverses the bits of va. -/
  | brev (d : BitVec 7) (a : BitVec 7)
  /-- FFS (R167): Gives the index of the lowest 1 bit of va, or 32. -/
  | ffs (d : BitVec 7) (a : BitVec 7)
  /-- SEXT8 (R167): Sign-extends va[7:0]. -/
  | sext8 (d : BitVec 7) (a : BitVec 7)
  /-- SEXT16 (R167): Sign-extends va[15:0]. -/
  | sext16 (d : BitVec 7) (a : BitVec 7)
  /-- ZEXT8 (R167): Zero-extends va[7:0]. -/
  | zext8 (d : BitVec 7) (a : BitVec 7)
  /-- ZEXT16 (R167): Zero-extends va[15:0]. -/
  | zext16 (d : BitVec 7) (a : BitVec 7)
  /-- BFE_S32 (R167): Extracts a bit field and sign-extends it. -/
  | bfeS32 (d : BitVec 7) (a : BitVec 7) (b : BitVec 7)
  /-- BFE_N32 (R167): Extracts a bit field and zero-extends it. -/
  | bfeN32 (d : BitVec 7) (a : BitVec 7) (b : BitVec 7)
  /-- BFI (R167): Inserts va[len-1:0] into a base, vd or vc, at pos. -/
  | bfi (d : BitVec 7) (a : BitVec 7) (b : BitVec 7)
  /-- MOV_B64 (R167): Copies a register pair. -/
  | movB64 (d : BitVec 7) (a : BitVec 7)
  /-- NOT (R167): vd := NOT va. -/
  | notB (d : BitVec 7) (a : BitVec 7)
  /-- CMP (R168): Compares va with vb under condition c and writes pd through combine mode g. -/
  | cmp (p : BitVec 5) (g : BitVec 2) (a : BitVec 7) (b : BitVec 7) (c : BitVec 4)
  /-- CMPI (R168): Compares va with sign-extended imm7 and writes pd through combine mode g. -/
  | cmpi (p : BitVec 5) (g : BitVec 2) (a : BitVec 7) (c : BitVec 4) (i : BitVec 7)
  /-- PAND (R169): pd := pa AND pb. -/
  | pand (d : BitVec 7) (a : BitVec 7) (b : BitVec 7)
  /-- POR (R169): pd := pa OR pb. -/
  | por (d : BitVec 7) (a : BitVec 7) (b : BitVec 7)
  /-- PXOR (R169): pd := pa XOR pb. -/
  | pxor (d : BitVec 7) (a : BitVec 7) (b : BitVec 7)
  /-- PANDN (R169): pd := pa AND NOT pb. -/
  | pandn (d : BitVec 7) (a : BitVec 7) (b : BitVec 7)
  /-- PNOT (R169): pd := NOT pa. -/
  | pnot (d : BitVec 7) (a : BitVec 7)
  /-- PTOV (R169): Copies all 32 predicates into a lane register. -/
  | ptov (d : BitVec 7)
  /-- VTOP (R169): Sets the predicates that the mask vb names from va. -/
  | vtop (a : BitVec 7) (b : BitVec 7)
  /-- SEL (R170): vd := va if p_q is set, else vb. -/
  | sel (d : BitVec 7) (a : BitVec 7) (b : BitVec 7) (q : BitVec 4)
  /-- VOTE_ANY (R171): pd := 1 if any member has pa set. -/
  | voteAny (d : BitVec 7) (a : BitVec 7)
  /-- VOTE_ALL (R171): pd := 1 if every member has pa set. -/
  | voteAll (d : BitVec 7) (a : BitVec 7)
  /-- VOTE_BALLOT (R171): vd := mask of the members with pa set. -/
  | voteBallot (d : BitVec 7) (a : BitVec 7)
  /-- VOTE_MATCH (R171): vd := mask of the members whose va equals this thread's. -/
  | voteMatch (d : BitVec 7) (a : BitVec 7)
  /-- VOTE_ACTIVE (R171): vd := mask of the member set. -/
  | voteActive (d : BitVec 7)
  /-- VOTE_POPN (R171): vd := number of members with pa set. -/
  | votePopn (d : BitVec 7) (a : BitVec 7)
  /-- SHFL_IDX (R172): Reads va from an indexed member lane. -/
  | shflIdx (d : BitVec 7) (a : BitVec 7) (b : BitVec 7)
  /-- SHFL_UP (R172): Reads va from lane l - n. -/
  | shflUp (d : BitVec 7) (a : BitVec 7) (b : BitVec 7)
  /-- SHFL_DOWN (R172): Reads va from lane l + n. -/
  | shflDown (d : BitVec 7) (a : BitVec 7) (b : BitVec 7)
  /-- SHFL_XOR (R172): Reads va from lane l XOR n. -/
  | shflXor (d : BitVec 7) (a : BitVec 7) (b : BitVec 7)
  /-- SHFL_RDX (R173): Reduces va over the member set in ascending lane order and writes the result to every member. -/
  | shflRdx (d : BitVec 7) (a : BitVec 7) (f : BitVec 4)
  /-- FADD (R175): FP32 addition, rounded. -/
  | fadd (d : BitVec 7) (a : BitVec 7) (b : BitVec 7)
  /-- FSUB (R175): FP32 subtraction, rounded. -/
  | fsub (d : BitVec 7) (a : BitVec 7) (b : BitVec 7)
  /-- FMUL (R175): FP32 multiplication, rounded. -/
  | fmul (d : BitVec 7) (a : BitVec 7) (b : BitVec 7)
  /-- FFMA (R175): Fused FP32 va*vb + c with a single rounding. -/
  | ffma (d : BitVec 7) (a : BitVec 7) (b : BitVec 7)
  /-- FMIN (R176): NaN-propagating FP32 minimum. -/
  | fmin (d : BitVec 7) (a : BitVec 7) (b : BitVec 7)
  /-- FMAX (R176): NaN-propagating FP32 maximum. -/
  | fmax (d : BitVec 7) (a : BitVec 7) (b : BitVec 7)
  /-- FMINN (R176): Number-preferring FP32 minimum. -/
  | fminn (d : BitVec 7) (a : BitVec 7) (b : BitVec 7)
  /-- FMAXN (R176): Number-preferring FP32 maximum. -/
  | fmaxn (d : BitVec 7) (a : BitVec 7) (b : BitVec 7)
  /-- FCOPYS (R175): Copies the sign of vb onto the magnitude of va, moving bits only. -/
  | fcopys (d : BitVec 7) (a : BitVec 7) (b : BitVec 7)
  /-- FNMA (R175): Fused -(va*vb) + c with a single rounding. -/
  | fnma (d : BitVec 7) (a : BitVec 7) (b : BitVec 7)
  /-- FLDX (R175): vd := round(va * 2^vb). -/
  | fldx (d : BitVec 7) (a : BitVec 7) (b : BitVec 7)
  /-- HADD2 (R177): Packed FP16 addition per half. -/
  | hadd2 (d : BitVec 7) (a : BitVec 7) (b : BitVec 7)
  /-- HMUL2 (R177): Packed FP16 multiplication per half. -/
  | hmul2 (d : BitVec 7) (a : BitVec 7) (b : BitVec 7)
  /-- HFMA2 (R177): Packed FP16 fused multiply-add per half. -/
  | hfma2 (d : BitVec 7) (a : BitVec 7) (b : BitVec 7)
  /-- HMIN2 (R177): Packed FP16 minimum per half. -/
  | hmin2 (d : BitVec 7) (a : BitVec 7) (b : BitVec 7)
  /-- HMAX2 (R177): Packed FP16 maximum per half. -/
  | hmax2 (d : BitVec 7) (a : BitVec 7) (b : BitVec 7)
  /-- HPK (R177): Converts va and vb to FP16 and packs them. -/
  | hpk (d : BitVec 7) (a : BitVec 7) (b : BitVec 7)
  /-- BPK (R177): Converts va and vb to BF16 and packs them. -/
  | bpk (d : BitVec 7) (a : BitVec 7) (b : BitVec 7)
  /-- BADD2 (R177): Packed BF16 addition per half. -/
  | badd2 (d : BitVec 7) (a : BitVec 7) (b : BitVec 7)
  /-- BMUL2 (R177): Packed BF16 multiplication per half. -/
  | bmul2 (d : BitVec 7) (a : BitVec 7) (b : BitVec 7)
  /-- BFMA2 (R177): Packed BF16 fused multiply-add per half. -/
  | bfma2 (d : BitVec 7) (a : BitVec 7) (b : BitVec 7)
  /-- BMIN2 (R177): Packed BF16 minimum per half. -/
  | bmin2 (d : BitVec 7) (a : BitVec 7) (b : BitVec 7)
  /-- BMAX2 (R177): Packed BF16 maximum per half. -/
  | bmax2 (d : BitVec 7) (a : BitVec 7) (b : BitVec 7)
  /-- HTOF (R177): Widens FP16 half s of va exactly to FP32. -/
  | htof (d : BitVec 7) (a : BitVec 7) (s : BitVec 7)
  /-- BTOF (R177): Widens BF16 half s of va exactly to FP32. -/
  | btof (d : BitVec 7) (a : BitVec 7) (s : BitVec 7)
  /-- DADD (R178): FP64 addition on register pairs. -/
  | dadd (d : BitVec 7) (a : BitVec 7) (b : BitVec 7)
  /-- DSUB (R178): FP64 subtraction on register pairs. -/
  | dsub (d : BitVec 7) (a : BitVec 7) (b : BitVec 7)
  /-- DMUL (R178): FP64 multiplication on register pairs. -/
  | dmul (d : BitVec 7) (a : BitVec 7) (b : BitVec 7)
  /-- DFMA (R178): FP64 fused multiply-add on register pairs. -/
  | dfma (d : BitVec 7) (a : BitVec 7) (b : BitVec 7)
  /-- DMIN (R178): FP64 minimum on register pairs. -/
  | dmin (d : BitVec 7) (a : BitVec 7) (b : BitVec 7)
  /-- DMAX (R178): FP64 maximum on register pairs. -/
  | dmax (d : BitVec 7) (a : BitVec 7) (b : BitVec 7)
  /-- FCMP (R179): Floating comparison on FP32 or FP64 operands, writing pd through combine mode g. -/
  | fcmp (p : BitVec 5) (g : BitVec 2) (a : BitVec 7) (b : BitVec 7) (c : BitVec 4)
  /-- EX2 (R180): Correctly rounded 2^x. -/
  | ex2 (d : BitVec 7) (a : BitVec 7)
  /-- LG2 (R180): Correctly rounded log2 x. -/
  | lg2 (d : BitVec 7) (a : BitVec 7)
  /-- RCP (R180): Correctly rounded 1/x. -/
  | rcp (d : BitVec 7) (a : BitVec 7)
  /-- RSQ (R180): Correctly rounded 1/sqrt x. -/
  | rsq (d : BitVec 7) (a : BitVec 7)
  /-- SQRT (R180): Correctly rounded square root. -/
  | sqrt (d : BitVec 7) (a : BitVec 7)
  /-- SIN (R180): Correctly rounded sine. -/
  | sin (d : BitVec 7) (a : BitVec 7)
  /-- COS (R180): Correctly rounded cosine. -/
  | cos (d : BitVec 7) (a : BitVec 7)
  /-- TANH (R180): Correctly rounded hyperbolic tangent. -/
  | tanh (d : BitVec 7) (a : BitVec 7)
  /-- RNDN (R180): Rounds to an integral value, to nearest even. -/
  | rndn (d : BitVec 7) (a : BitVec 7)
  /-- RNDZ (R180): Rounds to an integral value, towards zero. -/
  | rndz (d : BitVec 7) (a : BitVec 7)
  /-- RNDD (R180): Rounds to an integral value, towards minus infinity. -/
  | rndd (d : BitVec 7) (a : BitVec 7)
  /-- RNDU (R180): Rounds to an integral value, towards plus infinity. -/
  | rndu (d : BitVec 7) (a : BitVec 7)
  /-- FCLASS (R180): Writes the one-hot class mask of va. -/
  | fclass (d : BitVec 7) (a : BitVec 7)
  /-- SIG (R180): Correctly rounded logistic sigmoid. -/
  | sig (d : BitVec 7) (a : BitVec 7)
  /-- FCVT (R55): Converts a value between two format codes under rounding and saturation. -/
  | fcvt (d : BitVec 7) (a : BitVec 7) (w : BitVec 5) (r : BitVec 5) (t : BitVec 1)
  /-- LD (R155): Loads 1-16 bytes from global memory through W, S or memory. -/
  | ld (d : BitVec 7) (a : BitVec 7) (z : BitVec 3) (o : BitVec 8)
  /-- ST (R155): Enters an ordinary store of 1-16 bytes into the team's write buffer. -/
  | st (d : BitVec 7) (a : BitVec 7) (z : BitVec 3) (o : BitVec 8)
  /-- LDP (R155): Loads from the team's pad. -/
  | ldp (d : BitVec 7) (a : BitVec 7) (z : BitVec 3) (o : BitVec 8)
  /-- STP (R155): Stores to the team's pad. -/
  | stp (d : BitVec 7) (a : BitVec 7) (z : BitVec 3) (o : BitVec 8)
  /-- LDQ (R256): Acquire load from memory that publishes the covering W entries and refreshes S. -/
  | ldq (d : BitVec 7) (a : BitVec 7) (z : BitVec 1) (s : BitVec 2) (o : BitVec 8)
  /-- STL (R256): Release store that publishes W at its scope and then writes its value. -/
  | stl (d : BitVec 7) (a : BitVec 7) (z : BitVec 1) (s : BitVec 2) (o : BitVec 8)
  /-- ATOM (R263): Global atomic at the slice's atomic unit, with scope, order and no-return options. -/
  | atom (d : BitVec 7) (a : BitVec 7) (b : BitVec 7) (f : BitVec 4)
  /-- ATOMP (R263): Pad atomic, team scope. -/
  | atomp (d : BitVec 7) (a : BitVec 7) (b : BitVec 7) (f : BitVec 4)
  /-- PHASE_TEAM (R257): Publishes W at team scope and refreshes S. -/
  | phaseTeam
  /-- PHASE_DEV (R257): Publishes W at device scope and refreshes S. -/
  | phaseDev
  /-- PHASE_SYS (R257): Publishes W at system scope and refreshes S. -/
  | phaseSys
  /-- FENCE_OP (R257): Makes the thread's earlier pad stores, ATOMP and ACCX accesses visible to matrix operands. -/
  | fenceOp
  /-- FENCE_ENG (R257): Publishes W at device scope before later engine commands issue. -/
  | fenceEng
  /-- PREF (R159): Brings a line into L2 without trapping or faulting. -/
  | pref (a : BitVec 7)
  /-- WAITA (R122): Waits until a pad word equals vb, then refreshes S. -/
  | waita (a : BitVec 7) (b : BitVec 7)
  /-- CLK (R290): Reads $clock into a pair, in program order. -/
  | clk (d : BitVec 7)
  /-- WAITC (R120): Waits until the ld, st, cp and tl counters fall to the given values; cp or tl waits refresh S. -/
  | waitc (l : BitVec 4) (s : BitVec 4) (c : BitVec 4) (t : BitVec 4)
  /-- ACCRD (R151): Reads one accumulator element into vd as bits. -/
  | accrd (d : BitVec 7) (a : BitVec 7) (b : BitVec 7)
  /-- ACCWR (R151): Writes vd into one accumulator element as bits. -/
  | accwr (d : BitVec 7) (a : BitVec 7) (b : BitVec 7)
  /-- MZERO (R151): Clears a whole accumulator tile to +0. -/
  | mzero (b : BitVec 7)
  /-- TLOAD (R112): Queues a copy of a tile box from a tensor into the pad. -/
  | tload (d : BitVec 7) (a : BitVec 7) (b : BitVec 7)
  /-- TSTORE (R112): Queues a copy of a tile box from the pad into a tensor. -/
  | tstore (d : BitVec 7) (a : BitVec 7) (b : BitVec 7)
  /-- TGATH (R112): Queues a gather of tensor rows by an index list into the pad. -/
  | tgath (d : BitVec 7) (a : BitVec 7) (b : BitVec 7)
  /-- TSCAT (R112): Queues a scatter of pad rows into tensor rows by index. -/
  | tscat (d : BitVec 7) (a : BitVec 7) (b : BitVec 7)
  /-- TSCATA (R113): Queues an atomic addition of pad rows into tensor rows by index. -/
  | tscata (d : BitVec 7) (a : BitVec 7) (b : BitVec 7)
  /-- TMCAST (R125): Queues a tile read once and written into the pad of every team of the bond. -/
  | tmcast (d : BitVec 7) (a : BitVec 7) (b : BitVec 7)
  /-- TPREF (R129): Brings the lines of a tile box into L2. -/
  | tpref (a : BitVec 7) (b : BitVec 7)
  /-- BINIT (R121): Initialises a counting barrier in the pad. -/
  | binit (a : BitVec 7) (b : BitVec 7)
  /-- BARR (R121): Returns the barrier's parity and arrives with vb units. -/
  | barr (d : BitVec 7) (a : BitVec 7) (b : BitVec 7)
  /-- BWAIT (R121): Waits until the barrier's parity differs from vb[0], then refreshes S. -/
  | bwait (a : BitVec 7) (b : BitVec 7)
  /-- BTEST (R121): Tests whether the barrier phase has completed, without refreshing. -/
  | btest (d : BitVec 7) (a : BitVec 7) (b : BitVec 7)
  /-- TBAR (R293): Arrives at the team barrier; completes when every live thread waits in it, then refreshes S and releases all. -/
  | tbar
  /-- PFREE (R124): After ld reaches zero, sets the team's buffer-free bits named by a mask. -/
  | pfree (a : BitVec 7)
  /-- RAWAIT (R130): Waits until a ring is not empty and returns the address of entry rp. -/
  | rawait (d : BitVec 7) (a : BitVec 7)
  /-- RREL (R130): Publishes W and advances a ring's rp. -/
  | rrel (a : BitVec 7)
  /-- RPUSH (R130): Publishes W, copies a pad entry into a ring and advances wp. -/
  | rpush (d : BitVec 7) (a : BitVec 7) (b : BitVec 7)
  /-- CHAIN (R132): Publishes W and starts a chain channel at a record, unless the channel is out of range or busy. -/
  | chain (d : BitVec 7) (a : BitVec 7) (b : BitVec 7)
  /-- QLAUNCH (R281): Pushes a device launch packet into a listed launch ring. -/
  | qlaunch (d : BitVec 7) (a : BitVec 7) (b : BitVec 7)
  /-- FORK (R282): Pushes a fork packet and suspends the issuing team by swapping it to its carafe. -/
  | fork (d : BitVec 7) (a : BitVec 7) (b : BitVec 7)
  /-- MMA (R209): Dense A times B added into accumulator tile D, optionally drained. -/
  | mma (c : BitVec 5) (a : BitVec 6) (b : BitVec 6) (p : BitVec 5)
  /-- MMAZ (R209): Dense A times B into a D started at +0, optionally drained. -/
  | mmaz (c : BitVec 5) (a : BitVec 6) (b : BitVec 6) (p : BitVec 5)
  /-- MMAS (R210): 2:4 sparse A times B added into D. -/
  | mmas (c : BitVec 5) (a : BitVec 6) (b : BitVec 6) (p : BitVec 5)
  /-- MMASZ (R210): 2:4 sparse A times B into a D started at +0. -/
  | mmasz (c : BitVec 5) (a : BitVec 6) (b : BitVec 6) (p : BitVec 5)
  /-- MMAC (R212): Accumulator tile A times B added into D. -/
  | mmac (c : BitVec 5) (a : BitVec 6) (b : BitVec 6) (p : BitVec 5)
  /-- MMACZ (R212): Accumulator tile A times B into a D started at +0. -/
  | mmacz (c : BitVec 5) (a : BitVec 6) (b : BitVec 6) (p : BitVec 5)
  /-- GANG (R204): Sets the laneset's gang membership mask. -/
  | gang (a : BitVec 7)
  /-- DPLOAD (R227): Copies 128 pad bytes into a drain slot, unchecked. -/
  | dpload (d : BitVec 7) (a : BitVec 7)
  /-- THSET (R201): Writes a handle entry from 64 pad bytes. -/
  | thset (d : BitVec 7) (a : BitVec 7)
  /-- THCUR (R201): Sets a handle's cursor row and column. -/
  | thcur (d : BitVec 7) (a : BitVec 7) (b : BitVec 7)
  /-- THGET (R201): Copies a handle entry into 64 pad bytes. -/
  | thget (d : BitVec 7) (a : BitVec 7)
  /-- MHAD (R213): Scales an accumulator tile by a 64x64, 64x1 or 1x64 operand, element by element. -/
  | mhad (d : BitVec 7) (a : BitVec 7) (b : BitVec 7)
  /-- MDRAIN (R235): Drains a tile through a drain slot without any multiplication. -/
  | mdrain (d : BitVec 7) (b : BitVec 7)
  /-- MODE (R236): Updates the masked fields of $mode indivisibly. -/
  | mode (a : BitVec 7) (b : BitVec 7)
  /-- SCUPD (R237): Computes a new superblock scale from the statistics record and clears the record. -/
  | scupd (d : BitVec 7) (a : BitVec 7)
  /-- TRES (R102): Creates a resident range and fills it from memory. -/
  | tres (d : BitVec 7) (a : BitVec 7) (b : BitVec 7)
  /-- TUNRES (R103): Ends the grid's resident range at a given offset. -/
  | tunres (d : BitVec 7)
  /-- FOLD (R188): Arrives at a fold instance; at completion the members with equal keys merge into the lowest $tid and the others retire. -/
  | fold (d : BitVec 7) (a : BitVec 7) (b : BitVec 7) (f : BitVec 4)
  /-- JOIN (R192): Arrives at a join instance; at completion a thread is spawned for each key match, from the cursor on. -/
  | join (d : BitVec 7) (a : BitVec 7) (b : BitVec 7)
  /-- RANK (R194): Arrives at a rank instance; each arrival receives its position in key order. -/
  | rank (d : BitVec 7) (a : BitVec 7) (b : BitVec 7)
  /-- REBAL (R195): Arrives at a rebalance instance; each arrival receives an even share of the summed work and the table is recorded. -/
  | rebal (d : BitVec 7) (a : BitVec 7) (b : BitVec 7)
  /-- RBTOT (R196): Maps a work item to its owner and its index in the owner's list through the last REBAL table. -/
  | rbtot (d : BitVec 7) (a : BitVec 7)
  /-- RGIVE (R146): Laneset-wide arrival that, once all live threads arrive, gives k register blocks to the team account. -/
  | rgive (k : BitVec 7)
  /-- RTAKE (R146): Laneset-wide arrival that queues a claim for k blocks from the team account. -/
  | rtake (k : BitVec 7)
  /-- RQRY (R149): Returns the laneset's register count and the team's account. -/
  | rqry (d : BitVec 7)
  /-- WALK (R241): Takes one decision-tree step and absorbs it into the path trail. -/
  | walk (d : BitVec 7) (a : BitVec 7) (h : BitVec 4)
  /-- TRCLR (R244): Clears the thread's path trail. -/
  | trclr
  /-- PDIG (R245): Closes the trail into a SHA3-256 digest and writes an audit record, waiting for room in the ring. -/
  | pdig (d : BitVec 7) (a : BitVec 7) (b : BitVec 7)
  /-- BRA (R287): Conditional PC-relative branch. -/
  | bra (p : BitVec 5) (n : BitVec 1) (o : BitVec 19)
  /-- CALL (R287): Conditional PC-relative call that sets $lr. -/
  | call (p : BitVec 5) (n : BitVec 1) (o : BitVec 19)
  /-- BRX (R288): Indirect branch to a register pair. -/
  | brx (a : BitVec 7)
  /-- CALLX (R288): Indirect call through a register pair. -/
  | callx (a : BitVec 7)
  /-- RET (R288): Returns to $lr. -/
  | ret
  /-- EXIT (R294): Waits for the counters to reach zero, delivers pending failures, then exits the thread and retires the laneset or ends the team. -/
  | exit
  /-- YIELD (R289): Requests an active/pending exchange for the laneset. -/
  | yield
  /-- RCVSET (R291): Sets reconvergence barrier bN to the mask of the issue group. -/
  | rcvset (d : BitVec 7)
  /-- RCVWAIT (R291): Arrives at reconvergence barrier bN and waits for the lanes its mask names. -/
  | rcvwait (d : BitVec 7)
  /-- PASS (R289): Holds the laneset back from the round robin until a fixed set of other lanesets has issued, or 64 clocks pass. -/
  | pass
  /-- BRK (R314): Traps BRK after completing. -/
  | brk
  /-- TRAP (R314): Traps SWTRAP with an immediate after completing. -/
  | trap (n : BitVec 7)
  /-- RTT (R315): Leaves handler mode, restoring the span and the PC from $tpc. -/
  | rtt
  /-- SOFTI (R316): Publishes W at system scope and signals a wake to the management core or to a ring's host interrupt. -/
  | softi (d : BitVec 7) (a : BitVec 7) (b : BitVec 7)
  /-- SLEEPC (R289): Blocks the thread until $clock has advanced by va clocks. -/
  | sleepc (a : BitVec 7)
  /-- NOP32 (R288): Does nothing. -/
  | nop32
  /-- SYSR (R317): Reads a system register by number. -/
  | sysr (d : BitVec 7) (n : BitVec 11)
  /-- SYSW (R317): Writes a system register by number. -/
  | sysw (a : BitVec 7) (n : BitVec 11)
  /-- TLBI_VA (R87): Publishes W and invalidates one page's TLB entries and L1 lines, then waits for accesses in flight. -/
  | tlbiVa (a : BitVec 7) (b : BitVec 7)
  /-- TLBI_ASID (R87): Invalidates all entries of an address space. -/
  | tlbiAsid (b : BitVec 7)
  /-- TLBI_ALL (R87): Invalidates all TLB and nested TLB entries of a VMID. -/
  | tlbiAll (b : BitVec 7)
  /-- MOV_C (R26): 16-bit MOV. -/
  | movC (d : BitVec 5) (s : BitVec 5)
  /-- MOVI_C (R26): 16-bit MOVI with sign-extended imm5. -/
  | moviC (d : BitVec 5) (i : BitVec 5)
  /-- ADD_C (R26): 16-bit two-address ADD. -/
  | addC (d : BitVec 5) (s : BitVec 5)
  /-- ADDI_C (R26): 16-bit two-address ADDI. -/
  | addiC (d : BitVec 5) (i : BitVec 5)
  /-- SUB_C (R26): 16-bit two-address SUB. -/
  | subC (d : BitVec 5) (s : BitVec 5)
  /-- AND_C (R26): 16-bit two-address AND. -/
  | andC (d : BitVec 5) (s : BitVec 5)
  /-- OR_C (R26): 16-bit two-address OR. -/
  | orC (d : BitVec 5) (s : BitVec 5)
  /-- XOR_C (R26): 16-bit two-address XOR. -/
  | xorC (d : BitVec 5) (s : BitVec 5)
  /-- SHLI_C (R26): 16-bit shift left by an immediate. -/
  | shliC (d : BitVec 5) (n : BitVec 5)
  /-- SHRI_C (R26): 16-bit logical shift right by an immediate. -/
  | shriC (d : BitVec 5) (n : BitVec 5)
  /-- SARI_C (R26): 16-bit arithmetic shift right by an immediate. -/
  | sariC (d : BitVec 5) (n : BitVec 5)
  /-- FADD_C (R26): 16-bit two-address FADD. -/
  | faddC (d : BitVec 5) (s : BitVec 5)
  /-- FMUL_C (R26): 16-bit two-address FMUL. -/
  | fmulC (d : BitVec 5) (s : BitVec 5)
  /-- FMAX_C (R26): 16-bit two-address FMAX. -/
  | fmaxC (d : BitVec 5) (s : BitVec 5)
  /-- MIN_S32_C (R26): 16-bit two-address MIN.s32. -/
  | minS32C (d : BitVec 5) (s : BitVec 5)
  /-- MAX_S32_C (R26): 16-bit two-address MAX.s32. -/
  | maxS32C (d : BitVec 5) (s : BitVec 5)
  /-- BRA_S (R27): Short branch that is always taken. -/
  | braS (o : BitVec 10)
  /-- NOP_C (R27): 16-bit NOP. -/
  | nopC
  /-- YIELD_C (R27): 16-bit YIELD. -/
  | yieldC
  /-- EXIT_C (R27): 16-bit EXIT. -/
  | exitC
  /-- RET_C (R27): 16-bit RET. -/
  | retC
  /-- TRANSLATION_WALK (R82): A TLB miss walk completes at the slice and delivers a translation, a fault or PROT to every request attached to it. -/
  | translationWalk (w : Nat)
  /-- SNAPSHOT_PREFETCH (R252): The machine fills an empty sector of a team's snapshot S from memory. -/
  | snapshotPrefetch (team : Nat) (va : BitVec 64)
  /-- SNAPSHOT_EMPTY (R252): The machine empties a filled sector of a team's snapshot S. -/
  | snapshotEmpty (team : Nat) (va : BitVec 64)
  /-- WRITE_BUFFER_DRAIN (R252): The machine writes a write-buffer entry with no older overlap to memory, as unreleased. -/
  | writeBufferDrain (team : Nat) (n : Nat)
  /-- OUTBOUND_PERFORM (R255): A queued write to a peer window or host memory is performed at its destination. -/
  | outboundPerform (n : Nat)
  /-- COPY_PIECE (R112): The copy engine translates and moves one piece of a queued copy command. -/
  | copyPiece (c : Nat)
  /-- COPY_COMPLETE (R117): A copy command applies its completion, lowers cp and frees its queue entry. -/
  | copyComplete (c : Nat)
  /-- TMCAST_BUFFER_CLAIM (R125): Once buffer-free bit buf is set in every resident team of the bond, a held TMCAST clears it and writes every pad. -/
  | tmcastBufferClaim (c : Nat)
  /-- TILE_FETCH (R214): The tile fetch unit translates the operand pages and checks the metadata before the array starts. -/
  | tileFetch (o : Nat)
  /-- MATRIX_LEAVE_GRANT (R219): The governor grants leave and the array starts the operation. -/
  | matrixLeaveGrant (o : Nat)
  /-- ARRAY_ACCUMULATE (R209): The array finishes and writes the accumulated tile. -/
  | arrayAccumulate (o : Nat)
  /-- DRAIN_ROW_COMMIT (R229): A drain row is computed and committed whole after its translations, or the drain parks or fails. -/
  | drainRowCommit (o : Nat)
  /-- CHAIN_RECORD_READ (R133): A chain channel reads a record and checks its ownership and form. -/
  | chainRecordRead (ch : Nat)
  /-- CHAIN_CHUNK (R133): A chain channel translates and moves one chunk of a record. -/
  | chainChunk (ch : Nat)
  /-- CHAIN_RECORD_COMPLETE (R133): A chain channel writes the record's done status, writes its completion and follows next. -/
  | chainRecordComplete (ch : Nat)
  /-- PROMOTION (R91): A page-promotion engine decrypts a tier page into an HBM frame, sets the leaf local and releases the parked records. -/
  | promotion (f : Nat)
  /-- MIGRATION_REQUEST (R96): The holder's engine handles a peer migration request by sending the page, or refuses it. -/
  | migrationRequest (r : MigRequest)
  /-- MIGRATION_COMPLETE (R96): The requester's engine installs the migrated page or handles the refusal. -/
  | migrationComplete (m : Nat) (r : MigReply)
  /-- PEER_REQUEST (R332): An incoming peer load, store or atomic is performed or refused against the export table. -/
  | peerRequest (r : PeerReq)
  /-- FAULT_REPLAY (R300): A resolved park record is replayed in order, translating afresh. -/
  | faultReplay (p : Nat)
  /-- PARK_AGE_TRIGGER (R302): The oldest park record reaches the park threshold and the team's swap starts. -/
  | parkAgeTrigger (team : Nat)
  /-- PARK_SHARE_TRIGGER (R302): Half the live threads are parked and 4,096 clocks pass without issue, so the team's swap starts. -/
  | parkShareTrigger (team : Nat)
  /-- SWAP_COMPLETE (R303): Once the engines are saveable, the dispatcher writes the carafe and releases the team's resources. -/
  | swapComplete (team : Nat)
  /-- READMIT (R308): A swapped team is reloaded onto a core, its S refreshed and its resolved records replayed. -/
  | readmit (team : Nat)
  /-- PLACE_TEAM (R279): The dispatcher places the next candidate team on the lowest core that fits it. -/
  | placeTeam
  /-- PACKET_NOP (R276): The dispatcher starts a NOP packet, writing its completion. -/
  | packetNop (vf ring : Nat)
  /-- PACKET_BARRIER (R276): The dispatcher starts a BARRIER packet once the ring's earlier grids have ended, writing its completion. -/
  | packetBarrier (vf ring : Nat)
  /-- PACKET_LAUNCH (R276): The dispatcher starts a LAUNCH packet, creating a grid or refusing it. -/
  | packetLaunch (vf ring : Nat)
  /-- GRID_END (R277): After the last team ends and its writes are performed, the dispatcher writes the grid's completion. -/
  | gridEnd (g : Nat)
  /-- STALL (R198): After every live thread has been team-blocked for 4,096 clocks, all take STALL and their waits are withdrawn. -/
  | stall (team : Nat)
  /-- LANESET_EXCHANGE (R284): A pending laneset that held a ready thread for 2,048 clocks swaps places with the longest-active laneset. -/
  | lanesetExchange (q : Nat)
  /-- PASS_HOLD_END (R289): A PASS hold ends after 64 clocks. -/
  | passHoldEnd (q : Nat)
  /-- SLEEPC_WAKE (R289): A sleeping thread becomes ready once its clock interval has elapsed. -/
  | sleepcWake (team tid : Nat)
  /-- AUDIT_BLOCK_CLOSE (R248): After 4,096 records the management core chains and signs the audit block. -/
  | auditBlockClose (vf : Nat)
  /-- EVENT_RECORD_WRITE (R329): A held event record is written once the host's rp advance leaves room. -/
  | eventRecordWrite (fn : Nat)
  /-- RESOLVE (R299): Management command that resolves a major fault so that its records replay. -/
  | resolveCmd (fn : Nat)
  /-- REJECT (R299): Management command that fails every record of a major fault with PAGE. -/
  | rejectCmd (fn : Nat)
  /-- DEMOTE (R93): Management command that encrypts a page into the tier, or refuses. -/
  | demoteCmd (fn : Nat)
  /-- SEAL (R98): Management command that seals a range, measures it and extends the seal chain. -/
  | sealCmd (fn : Nat)
  /-- FREE (R99): Management command that invalidates, zeroes and unseals a sealed range. -/
  | freeCmd (fn : Nat)
  /-- VACATE (R309): Management command that swaps a grid's teams off n cores and closes them to that grid. -/
  | vacateCmd (fn : Nat)
  /-- RELEASE (R328): Management command that reopens the cores closed by a VACATE. -/
  | releaseCmd (fn : Nat)
  /-- AUDITTAKE (R328): Management command that advances the host's taken count of signed audit records. -/
  | audittakeCmd (fn : Nat)
  /-- AUDITFLUSH (R248): Management command that closes and signs the open audit block. -/
  | auditflushCmd (fn : Nat)
  /-- ATTEST (R334): Management command that writes a signed attestation report. -/
  | attestCmd (fn : Nat)
  /-- LOADKEY (R335): Management command that decapsulates and unwraps a tenant key into the function's slot. -/
  | loadkeyCmd (fn : Nat)
  /-- EXPORT (R332): Management command that grants or revokes a tenant's peer access to frames. -/
  | exportCmd (fn : Nat)
  /-- DBGNONCE (R328): Management command that writes a fresh debug nonce. -/
  | dbgnonceCmd (fn : Nat)
  /-- DEBUG (R336): Management command that changes the debug state, with a token for invasive debug. -/
  | debugCmd (fn : Nat)
  /-- MQ_UNKNOWN_OP (R328): A management command with an unassigned op is answered with status 1. -/
  | mqUnknownOp (fn : Nat)
  /-- VF_RESET (R326): Writing enable := 0 resets a VF: its teams are aborted, its channels stopped and its key slot cleared. -/
  | vfReset (vf : Nat)
  /-- FUNCTION_LEVEL_RESET (R326): A function-level reset resets the VF as a write of enable := 0 does. -/
  | functionLevelReset (vf : Nat)
  /-- VFCFG_WRITE (R323): Configures a VF's VMID, link, chain window and tenant, under the enable rules. -/
  | vfcfgWrite (vf : Nat) (v : BitVec 128)
  /-- RINGTAB_WRITE (R324): A write of RINGTAB makes the dispatcher reread the VF's ring table. -/
  | ringtabWrite (vf : Nat) (v : BitVec 64)
  /-- PSTATE_WRITE (R337): Requests power state 0, 1 or 4; other values are ignored. -/
  | pstateWrite (v : BitVec 32)
  /-- POWERCAP_WRITE (R337): Sets the package power limit, entering or leaving the capped state. -/
  | powercapWrite (v : BitVec 32)
  /-- REGISTER_WRITE (R322): A write to a function register without behaviour of its own, such as VMTBASE, PEERID, PFMQ, MQHDR or PEERROUTE. -/
  | registerWrite (fn : Nat) (off : Nat) (v : BitVec 64)
  /-- DEVICE_RESET (R333): Reset boots the management core: firmware is measured and verified and keys are derived. -/
  | deviceReset (images : List FwImage)
  /-- THERMAL_HIGH (R337): A junction temperature above 105 C enters P2 at half clock. -/
  | thermalHigh
  /-- THERMAL_LOW (R337): A temperature below 95 C leaves P2. -/
  | thermalLow
  /-- IDLE_ENTRY (R337): After 1 ms without work the device enters P3 idle. -/
  | idleEntry
  /-- IDLE_WAKE (R337): A doorbell, a management-queue write, or a host or peer access leaves P3. -/
  | idleWake
  /-- PEER_PORT_FAIL (R331): A failed peer port's traffic moves to the other ports of its set, or the peer becomes unreachable. -/
  | peerPortFail (port : Nat)
  /-- MEMORY_ERROR_DETECT (R338): An uncorrectable error poisons its sector and is reported once. -/
  | memoryErrorDetect (e : MemError)
  /-- CORRECTED_ERROR_REPORT (R338): Corrected errors are reported at most once per unit per second with their count. -/
  | correctedErrorReport (unit k : Nat)
  /-- HOST_ACCESS (R255): A host load, store or atomic over PCI Express reaches device HBM through its slice, and is performed, dropped at a sealed frame, checked by the race detector, or serves as a ring doorbell. -/
  | hostAccess (r : HostReq)
  /-- WAKE_REGISTER_ACTION (R340): The management core takes a wake delivered by SOFTI and flushes the VF's audit block or raises MSI-X vector 0, in SOFTI order. -/
  | wakeRegisterAction
  /-- PF_RESET (R339): A reset of the physical function clears the fatal condition, after which launches are accepted again. -/
  | pfReset
  deriving DecidableEq, Repr

end Sys2Proof
end

