-- ==== Sys2Proof/Machine/Static.lean ====
section
/-! DEFINITION. What makes an instruction illegal whatever the thread's state (spec/02 R18, R23 to R25, R31 to R34; spec/12
R264; spec/08 R187): each check with its ILL sub-code, and which prefix an instruction accepts (R32). -/

namespace Sys2Proof.Machine

/-- What an instruction accepts of a prefix (R32). -/
inductive PrefixKind where
  | none | guard | fourth | rounding | fourthRounding | atomic | padAtomic | fold | rank | rebal
  deriving DecidableEq, Repr

def oddReg (r : BitVec 7) : Bool := r.toNat % 2 = 1
def notQuad (r : BitVec 7) : Bool := r.toNat % 4 ≠ 0
/-- A field beyond the members of its kind (R23). -/
def beyond (n : Nat) (r : BitVec 7) : Bool := n ≤ r.toNat

/-- The format codes of FCVT's integers and packed bits that take no saturation, and of its pairs (R54, R55). -/
def noSat (w : Nat) : Bool := decide (10 ≤ w ∧ w ≤ 16) || decide (28 ≤ w)
def wide (w : Nat) : Bool := w = 0 || w = 30 || w = 31
def noFormat (w : Nat) : Bool := decide (17 ≤ w ∧ w ≤ 27)

/-- A system register of two words (R35). -/
def pairSys (n : Nat) : Bool := [0x10, 0x12, 0x14, 0x16, 0x18, 0x22].contains n

/-- The prefix that each instruction accepts (R32). A 16-bit instruction and a machine event accept none (R31). -/
def prefixKind : Instr → PrefixKind
  | .bra .. | .call .. | .waitc .. | .mma .. | .mmaz .. | .mmas .. | .mmasz .. | .mmac .. | .mmacz .. | .pfx .. => .none
  | .ffma .. | .fnma .. | .hfma2 .. | .bfma2 .. | .dfma .. => .fourthRounding
  | .mad .. | .madwS32 .. | .madwN32 .. | .bfi .. => .fourth
  | .fadd .. | .fsub .. | .fmul .. | .fmin .. | .fmax .. | .fminn .. | .fmaxn .. | .fldx .. | .hadd2 .. | .hmul2 .. | .hmin2 ..
  | .hmax2 .. | .hpk .. | .bpk .. | .badd2 .. | .bmul2 .. | .bmin2 .. | .bmax2 .. | .htof .. | .btof .. | .dadd .. | .dsub ..
  | .dmul .. | .dmin .. | .dmax .. | .fcvt .. => .rounding
  | .atom .. => .atomic
  | .atomp .. => .padAtomic
  | .fold .. => .fold
  | .rank .. => .rank
  | .rebal .. => .rebal
  | .add .. | .sub .. | .mul .. | .mulhS32 .. | .mulhN32 .. | .minS32 .. | .minN32 .. | .maxS32 .. | .maxN32 .. | .andB ..
  | .orB .. | .xorB .. | .shl .. | .shr .. | .sar .. | .andn .. | .addB64 .. | .subB64 .. | .lea0 .. | .lea1 .. | .lea2 ..
  | .lea3 .. | .divS32 .. | .divN32 .. | .remS32 .. | .remN32 .. | .absdS32 .. | .prmt .. | .rot .. | .addi .. | .andi ..
  | .ori .. | .xori .. | .shli .. | .shri .. | .sari .. | .roti .. | .movi .. | .movhi .. | .mov .. | .popc .. | .clz ..
  | .brev .. | .ffs .. | .sext8 .. | .sext16 .. | .zext8 .. | .zext16 .. | .bfeS32 .. | .bfeN32 .. | .movB64 .. | .notB ..
  | .cmp .. | .cmpi .. | .pand .. | .por .. | .pxor .. | .pandn .. | .pnot .. | .ptov .. | .vtop .. | .sel .. | .voteAny ..
  | .voteAll .. | .voteBallot .. | .voteMatch .. | .voteActive .. | .votePopn .. | .shflIdx .. | .shflUp .. | .shflDown ..
  | .shflXor .. | .shflRdx .. | .fcopys .. | .fcmp .. | .ex2 .. | .lg2 .. | .rcp .. | .rsq .. | .sqrt .. | .sin .. | .cos ..
  | .tanh .. | .rndn .. | .rndz .. | .rndd .. | .rndu .. | .fclass .. | .sig .. | .ld .. | .st .. | .ldp .. | .stp ..
  | .ldq .. | .stl .. | .phaseTeam | .phaseDev | .phaseSys | .fenceOp | .fenceEng | .pref .. | .waita .. | .clk ..
  | .accrd .. | .accwr .. | .mzero .. | .tload .. | .tstore .. | .tgath .. | .tscat .. | .tscata .. | .tmcast .. | .tpref ..
  | .binit .. | .barr .. | .bwait .. | .btest .. | .tbar | .pfree .. | .rawait .. | .rrel .. | .rpush .. | .chain ..
  | .qlaunch .. | .fork .. | .gang .. | .dpload .. | .thset .. | .thcur .. | .thget .. | .mhad .. | .mdrain .. | .mode ..
  | .scupd .. | .tres .. | .tunres .. | .join .. | .rbtot .. | .rgive .. | .rtake .. | .rqry .. | .walk .. | .trclr
  | .pdig .. | .brx .. | .callx .. | .ret | .exit | .yield | .rcvset .. | .rcvwait .. | .pass | .brk | .trap .. | .rtt
  | .softi .. | .sleepc .. | .nop32 | .sysr .. | .sysw .. | .tlbiVa .. | .tlbiAsid .. | .tlbiAll .. => .guard
  | .ill | .grd .. | .movC .. | .moviC .. | .addC .. | .addiC .. | .subC .. | .andC .. | .orC .. | .xorC .. | .shliC ..
  | .shriC .. | .sariC .. | .faddC .. | .fmulC .. | .fmaxC .. | .minS32C .. | .maxS32C .. | .braS .. | .nopC | .yieldC
  | .exitC | .retC | .translationWalk .. | .snapshotPrefetch .. | .snapshotEmpty .. | .writeBufferDrain ..
  | .outboundPerform .. | .copyPiece .. | .copyComplete .. | .tmcastBufferClaim .. | .tileFetch .. | .matrixLeaveGrant ..
  | .arrayAccumulate .. | .drainRowCommit .. | .chainRecordRead .. | .chainChunk .. | .chainRecordComplete .. | .promotion ..
  | .migrationRequest .. | .migrationComplete .. | .peerRequest .. | .faultReplay .. | .parkAgeTrigger ..
  | .parkShareTrigger .. | .swapComplete .. | .readmit .. | .placeTeam | .packetNop .. | .packetBarrier .. | .packetLaunch ..
  | .gridEnd .. | .stall .. | .lanesetExchange .. | .passHoldEnd .. | .sleepcWake .. | .auditBlockClose ..
  | .eventRecordWrite .. | .resolveCmd .. | .rejectCmd .. | .demoteCmd .. | .sealCmd .. | .freeCmd .. | .vacateCmd ..
  | .releaseCmd .. | .audittakeCmd .. | .auditflushCmd .. | .attestCmd .. | .loadkeyCmd .. | .exportCmd .. | .dbgnonceCmd ..
  | .debugCmd .. | .mqUnknownOp .. | .vfReset .. | .functionLevelReset .. | .vfcfgWrite .. | .ringtabWrite ..
  | .pstateWrite .. | .powercapWrite .. | .registerWrite .. | .deviceReset .. | .thermalHigh | .thermalLow | .idleEntry
  | .idleWake | .peerPortFail .. | .memoryErrorDetect .. | .correctedErrorReport .. | .hostAccess .. | .wakeRegisterAction
  | .pfReset => .none

/-- Scope, order and no-return of an atomic's prefix (R32, R264). -/
def atomPrefix (d vc : BitVec 7) (cas : Bool) (x : BitVec 12) : List (Nat × Bool) :=
  [(4, x.getLsbD 4 && d != 0), (6, x.getLsbD 4 && cas && vc == 0), (6, vc != 0 && !cas), (6, decide (32 ≤ x.toNat))]

/-- The checks of a prefix's vc and x against what the instruction accepts (R31, R32). -/
def prefixFaults (k : PrefixKind) (vc : BitVec 7) (x : BitVec 12) : List (Nat × Bool) :=
  match k with
  | .none => [(6, true)]
  | .guard => [(6, vc != 0), (6, x != 0)]
  | .fourth => [(6, x != 0)]
  | .rounding => [(6, vc != 0), (6, decide (4 < x.toNat))]
  | .fourthRounding => [(6, decide (4 < x.toNat))]
  | .atomic => [(6, decide (x.toNat % 4 = 3))]
  | .padAtomic => [(6, decide (x.toNat % 4 ≠ 0))]
  | .fold => [(6, vc != 0), (6, decide (64 ≤ x.toNat))]
  | .rank => [(6, vc != 0), (6, decide (64 ≤ x.toNat)), (6, decide (x.toNat % 16 ≠ 0))]
  | .rebal => [(6, vc != 0), (6, x != 0 && x != 0x20)]

/-- The checks of an instruction's own fields, with the vc and x of its prefix (0 without one). -/
def ownFaults (vc : BitVec 7) (x : BitVec 12) : Instr → List (Nat × Bool)
  | .ill => [(1, true)]
  | .movC d s => [(1, d == 0 && s == 0)]
  | .grd p g _ => [(9, p == 0 && g == 1)]
  | .bra p n _ | .call p n _ => [(9, p == 0 && n == 1)]
  | .pfx p n _ _ => [(9, p == 0 && n == 1)]
  | .madwS32 d _ _ | .madwN32 d _ _ => [(7, oddReg d), (7, oddReg vc)]
  | .addB64 d a b | .subB64 d a b => [(7, oddReg d), (7, oddReg a), (7, oddReg b)]
  | .dadd d a b | .dsub d a b | .dmul d a b | .dmin d a b | .dmax d a b => [(7, oddReg d), (7, oddReg a), (7, oddReg b)]
  | .dfma d a b => [(7, oddReg d), (7, oddReg a), (7, oddReg b), (7, oddReg vc)]
  | .lea0 d a _ | .lea1 d a _ | .lea2 d a _ | .lea3 d a _ => [(7, oddReg d), (7, oddReg a)]
  | .movB64 d a => [(7, oddReg d), (7, oddReg a)]
  | .cmp _ _ a b c => [(7, decide (10 ≤ c.toNat) && oddReg a), (7, decide (10 ≤ c.toNat) && oddReg b)]
  | .cmpi _ _ _ c _ => [(3, decide (10 ≤ c.toNat))]
  | .fcmp _ _ a b c => [(7, decide (8 ≤ c.toNat) && oddReg a), (7, decide (8 ≤ c.toNat) && oddReg b)]
  | .pand d a b | .por d a b | .pxor d a b | .pandn d a b => [(8, beyond 32 d), (8, beyond 32 a), (8, beyond 32 b)]
  | .pnot d a | .voteAny d a | .voteAll d a => [(8, beyond 32 d), (8, beyond 32 a)]
  | .voteBallot _ a | .votePopn _ a => [(8, beyond 32 a)]
  | .shflRdx _ _ f => [(3, decide (f.toNat < 4)), (3, decide (f.toNat = 15))]
  | .htof _ _ s | .btof _ _ s => [(8, beyond 2 s)]
  | .fcvt d a w r t =>
    [(3, noFormat w.toNat), (3, noFormat r.toNat), (3, w == r), (4, t == 1 && noSat w.toNat), (7, wide w.toNat && oddReg d), (7, wide r.toNat && oddReg a)]
  | .ld d a z _ => [(3, decide (z.toNat = 7)), (7, oddReg a), (7, decide (z.toNat = 5) && oddReg d), (7, decide (z.toNat = 6) && notQuad d)]
  | .ldp d _ z _ => [(3, decide (z.toNat = 7)), (7, decide (z.toNat = 5) && oddReg d), (7, decide (z.toNat = 6) && notQuad d)]
  | .st d a z _ => [(3, decide (5 ≤ z.toNat)), (7, oddReg a), (7, decide (z.toNat = 3) && oddReg d), (7, decide (z.toNat = 4) && notQuad d)]
  | .stp d _ z _ => [(3, decide (5 ≤ z.toNat)), (7, decide (z.toNat = 3) && oddReg d), (7, decide (z.toNat = 4) && notQuad d)]
  | .ldq d a z s _ | .stl d a z s _ => [(3, s == 3), (7, oddReg a), (7, z == 1 && oddReg d)]
  | .atom d a b f =>
    let n := f.toNat
    let bad (r : BitVec 7) : Bool := ((n = 13 || n = 14) && oddReg r) || (n = 15 && notQuad r)
    [(7, oddReg a), (7, bad d), (7, bad b), (7, bad vc)] ++ atomPrefix d vc (n = 9 || n = 14 || n = 15) x
  | .atomp d _ _ f => (3, decide (13 ≤ f.toNat)) :: atomPrefix d vc (f.toNat = 9) x
  | .pref a | .rrel a | .gang a | .brx a | .callx a => [(7, oddReg a)]
  | .clk d | .rebal d _ _ | .rbtot d _ | .walk d _ _ => [(7, oddReg d)]
  | .accrd _ _ b | .accwr _ _ b | .mzero b => [(8, beyond 32 b)]
  | .tload _ a b | .tstore _ a b | .tgath _ a b | .tscat _ a b | .tscata _ a b | .tmcast _ a b | .tpref a b => [(7, notQuad a), (8, beyond 64 b)]
  | .rawait d a => [(7, oddReg d), (7, oddReg a)]
  | .rpush _ a _ | .chain _ a _ | .qlaunch _ a _ | .fork _ a _ | .tres _ a _ | .softi _ a _ | .tlbiVa a _ => [(7, oddReg a)]
  | .mmac _ a _ _ | .mmacz _ a _ _ => [(8, decide (32 ≤ a.toNat))]
  | .dpload d _ => [(8, d == 0), (8, beyond 32 d)]
  | .thset d _ | .thcur d _ _ | .thget d _ | .scupd d _ => [(8, beyond 64 d)]
  | .mhad d a b => [(8, beyond 32 d), (8, beyond 32 a), (8, beyond 64 b)]
  | .mdrain d b => [(8, beyond 32 d), (8, b == 0), (8, beyond 32 b)]
  | .fold _ a b f =>
    [(6, f == 12 && x.toNat % 16 != 0), (7, f == 13 && (oddReg b || x.toNat % 2 == 0)), (7, x.getLsbD 4 && oddReg a)]
  | .rank _ a _ => [(7, x.getLsbD 4 && oddReg a)]
  | .rgive k | .rtake k => [(8, k == 0), (8, beyond 16 k)]
  | .pdig d a _ => [(7, oddReg d), (7, oddReg a)]
  | .rcvset d | .rcvwait d => [(8, beyond 16 d)]
  | .sysr d n => [(7, pairSys n.toNat && oddReg d)]
  | .sysw a n => [(7, pairSys n.toNat && oddReg a)]
  | .add .. | .sub .. | .mul .. | .mulhS32 .. | .mulhN32 .. | .minS32 .. | .minN32 .. | .maxS32 .. | .maxN32 .. | .andB ..
  | .orB .. | .xorB .. | .shl .. | .shr .. | .sar .. | .andn .. | .mad .. | .divS32 .. | .divN32 .. | .remS32 .. | .remN32 ..
  | .absdS32 .. | .prmt .. | .rot .. | .addi .. | .andi .. | .ori .. | .xori .. | .shli .. | .shri .. | .sari .. | .roti ..
  | .movi .. | .movhi .. | .mov .. | .popc .. | .clz .. | .brev .. | .ffs .. | .sext8 .. | .sext16 .. | .zext8 ..
  | .zext16 .. | .bfeS32 .. | .bfeN32 .. | .bfi .. | .notB .. | .ptov .. | .vtop .. | .sel .. | .voteMatch ..
  | .voteActive .. | .shflIdx .. | .shflUp .. | .shflDown .. | .shflXor .. | .fadd .. | .fsub .. | .fmul .. | .ffma ..
  | .fmin .. | .fmax .. | .fminn .. | .fmaxn .. | .fcopys .. | .fnma .. | .fldx .. | .hadd2 .. | .hmul2 .. | .hfma2 ..
  | .hmin2 .. | .hmax2 .. | .hpk .. | .bpk .. | .badd2 .. | .bmul2 .. | .bfma2 .. | .bmin2 .. | .bmax2 .. | .ex2 .. | .lg2 ..
  | .rcp .. | .rsq .. | .sqrt .. | .sin .. | .cos .. | .tanh .. | .rndn .. | .rndz .. | .rndd .. | .rndu .. | .fclass ..
  | .sig .. | .phaseTeam | .phaseDev | .phaseSys | .fenceOp | .fenceEng | .waita .. | .waitc .. | .binit .. | .barr ..
  | .bwait .. | .btest .. | .tbar | .pfree .. | .mma .. | .mmaz .. | .mmas .. | .mmasz .. | .mode .. | .tunres .. | .join ..
  | .rqry .. | .trclr | .ret | .exit | .yield | .pass | .brk | .trap .. | .rtt | .sleepc .. | .nop32 | .tlbiAsid ..
  | .tlbiAll .. | .moviC .. | .addC .. | .addiC .. | .subC .. | .andC .. | .orC .. | .xorC .. | .shliC .. | .shriC ..
  | .sariC .. | .faddC .. | .fmulC .. | .fmaxC .. | .minS32C .. | .maxS32C .. | .braS .. | .nopC | .yieldC | .exitC | .retC
  | .translationWalk .. | .snapshotPrefetch .. | .snapshotEmpty .. | .writeBufferDrain .. | .outboundPerform ..
  | .copyPiece .. | .copyComplete .. | .tmcastBufferClaim .. | .tileFetch .. | .matrixLeaveGrant .. | .arrayAccumulate ..
  | .drainRowCommit .. | .chainRecordRead .. | .chainChunk .. | .chainRecordComplete .. | .promotion ..
  | .migrationRequest .. | .migrationComplete .. | .peerRequest .. | .faultReplay .. | .parkAgeTrigger ..
  | .parkShareTrigger .. | .swapComplete .. | .readmit .. | .placeTeam | .packetNop .. | .packetBarrier .. | .packetLaunch ..
  | .gridEnd .. | .stall .. | .lanesetExchange .. | .passHoldEnd .. | .sleepcWake .. | .auditBlockClose ..
  | .eventRecordWrite .. | .resolveCmd .. | .rejectCmd .. | .demoteCmd .. | .sealCmd .. | .freeCmd .. | .vacateCmd ..
  | .releaseCmd .. | .audittakeCmd .. | .auditflushCmd .. | .attestCmd .. | .loadkeyCmd .. | .exportCmd .. | .dbgnonceCmd ..
  | .debugCmd .. | .mqUnknownOp .. | .vfReset .. | .functionLevelReset .. | .vfcfgWrite .. | .ringtabWrite ..
  | .pstateWrite .. | .powercapWrite .. | .registerWrite .. | .deviceReset .. | .thermalHigh | .thermalLow | .idleEntry
  | .idleWake | .peerPortFail .. | .memoryErrorDetect .. | .correctedErrorReport .. | .hostAccess .. | .wakeRegisterAction
  | .pfReset => []

/-- The lowest sub-code of the checks that an instruction breaks (R25). -/
def lowest : List (Nat × Bool) → Option Nat
  | [] => none
  | (c, b) :: l => match lowest l with
    | none => if b then some c else none
    | some m => if b then some (min c m) else some m

/-- The ILL sub-code of an instruction without a prefix. -/
def staticFault (i : Instr) : Option Nat := lowest (ownFaults 0 0 i)
/-- The ILL sub-code of an instruction under a prefix with these fields. -/
def prefixedFault (vc : BitVec 7) (x : BitVec 12) (i : Instr) : Option Nat :=
  lowest (prefixFaults (prefixKind i) vc x ++ ownFaults vc x i)

end Sys2Proof.Machine
end

