-- ==== Sys2Proof/WellFormed.lean ====
section
/-! DEFINITION. The instructions that have a word and break none of the rules of R25 that a word shows by itself. -/

namespace Sys2Proof

/-- The instruction has a word: it is no machine event (spec/95). -/
def Instr.hasWord : Instr → Bool
  | .translationWalk .. | .snapshotPrefetch .. | .snapshotEmpty .. | .writeBufferDrain .. | .outboundPerform ..
  | .copyPiece .. | .copyComplete .. | .tmcastBufferClaim .. | .tileFetch .. | .matrixLeaveGrant .. | .arrayAccumulate ..
  | .drainRowCommit .. | .chainRecordRead .. | .chainChunk .. | .chainRecordComplete .. | .promotion ..
  | .migrationRequest .. | .migrationComplete .. | .peerRequest .. | .faultReplay .. | .parkAgeTrigger ..
  | .parkShareTrigger .. | .swapComplete .. | .readmit .. | .placeTeam | .packetNop .. | .packetBarrier ..
  | .packetLaunch .. | .gridEnd .. | .stall .. | .lanesetExchange .. | .passHoldEnd .. | .sleepcWake ..
  | .auditBlockClose .. | .eventRecordWrite .. | .resolveCmd .. | .rejectCmd .. | .demoteCmd .. | .sealCmd ..
  | .freeCmd .. | .vacateCmd .. | .releaseCmd .. | .audittakeCmd .. | .auditflushCmd .. | .attestCmd .. | .loadkeyCmd ..
  | .exportCmd .. | .dbgnonceCmd .. | .debugCmd .. | .mqUnknownOp .. | .vfReset .. | .functionLevelReset ..
  | .vfcfgWrite .. | .ringtabWrite .. | .pstateWrite .. | .powercapWrite .. | .registerWrite .. | .deviceReset ..
  | .thermalHigh | .thermalLow | .idleEntry | .idleWake | .peerPortFail .. | .memoryErrorDetect ..
  | .correctedErrorReport .. | .hostAccess .. | .wakeRegisterAction | .pfReset => false
  | .ill | .pfx .. | .grd .. | .add .. | .sub .. | .mul .. | .mulhS32 .. | .mulhN32 .. | .minS32 .. | .minN32 ..
  | .maxS32 .. | .maxN32 .. | .andB .. | .orB .. | .xorB .. | .shl .. | .shr .. | .sar .. | .andn .. | .mad ..
  | .madwS32 .. | .madwN32 .. | .addB64 .. | .subB64 .. | .lea0 .. | .lea1 .. | .lea2 .. | .lea3 .. | .divS32 ..
  | .divN32 .. | .remS32 .. | .remN32 .. | .absdS32 .. | .prmt .. | .rot .. | .addi .. | .andi .. | .ori .. | .xori ..
  | .shli .. | .shri .. | .sari .. | .roti .. | .movi .. | .movhi .. | .mov .. | .popc .. | .clz .. | .brev .. | .ffs ..
  | .sext8 .. | .sext16 .. | .zext8 .. | .zext16 .. | .bfeS32 .. | .bfeN32 .. | .bfi .. | .movB64 .. | .notB .. | .cmp ..
  | .cmpi .. | .pand .. | .por .. | .pxor .. | .pandn .. | .pnot .. | .ptov .. | .vtop .. | .sel .. | .voteAny ..
  | .voteAll .. | .voteBallot .. | .voteMatch .. | .voteActive .. | .votePopn .. | .shflIdx .. | .shflUp .. | .shflDown ..
  | .shflXor .. | .shflRdx .. | .fadd .. | .fsub .. | .fmul .. | .ffma .. | .fmin .. | .fmax .. | .fminn .. | .fmaxn ..
  | .fcopys .. | .fnma .. | .fldx .. | .hadd2 .. | .hmul2 .. | .hfma2 .. | .hmin2 .. | .hmax2 .. | .hpk .. | .bpk ..
  | .badd2 .. | .bmul2 .. | .bfma2 .. | .bmin2 .. | .bmax2 .. | .htof .. | .btof .. | .dadd .. | .dsub .. | .dmul ..
  | .dfma .. | .dmin .. | .dmax .. | .fcmp .. | .ex2 .. | .lg2 .. | .rcp .. | .rsq .. | .sqrt .. | .sin .. | .cos ..
  | .tanh .. | .rndn .. | .rndz .. | .rndd .. | .rndu .. | .fclass .. | .sig .. | .fcvt .. | .ld .. | .st .. | .ldp ..
  | .stp .. | .ldq .. | .stl .. | .atom .. | .atomp .. | .phaseTeam | .phaseDev | .phaseSys | .fenceOp | .fenceEng
  | .pref .. | .waita .. | .clk .. | .waitc .. | .accrd .. | .accwr .. | .mzero .. | .tload .. | .tstore .. | .tgath ..
  | .tscat .. | .tscata .. | .tmcast .. | .tpref .. | .binit .. | .barr .. | .bwait .. | .btest .. | .tbar | .pfree ..
  | .rawait .. | .rrel .. | .rpush .. | .chain .. | .qlaunch .. | .fork .. | .mma .. | .mmaz .. | .mmas .. | .mmasz ..
  | .mmac .. | .mmacz .. | .gang .. | .dpload .. | .thset .. | .thcur .. | .thget .. | .mhad .. | .mdrain .. | .mode ..
  | .scupd .. | .tres .. | .tunres .. | .fold .. | .join .. | .rank .. | .rebal .. | .rbtot .. | .rgive .. | .rtake ..
  | .rqry .. | .walk .. | .trclr | .pdig .. | .bra .. | .call .. | .brx .. | .callx .. | .ret | .exit | .yield
  | .rcvset .. | .rcvwait .. | .pass | .brk | .trap .. | .rtt | .softi .. | .sleepc .. | .nop32 | .sysr .. | .sysw ..
  | .tlbiVa .. | .tlbiAsid .. | .tlbiAll .. | .movC .. | .moviC .. | .addC .. | .addiC .. | .subC .. | .andC .. | .orC ..
  | .xorC .. | .shliC .. | .shriC .. | .sariC .. | .faddC .. | .fmulC .. | .fmaxC .. | .minS32C .. | .maxS32C ..
  | .braS .. | .nopC | .yieldC | .exitC | .retC => true

/-- The instruction has a word, and the word by itself is not illegal (R25). -/
def Instr.wellFormed (i : Instr) : Bool := i.hasWord && (Machine.staticFault i).isNone

end Sys2Proof
end

