-- ==== Sys2Proof/Decode.lean ====
section
/-! DEFINITION. Decoding (spec/02 R17 to R27): the instruction a word stands for, or the ILL sub-code of the first rule it
breaks among those that the word alone shows (R25); the checks of an instruction's own operands are Machine/Static.lean's. After
it the encoder, from the same tables. -/

namespace Sys2Proof

open Machine (leNat leBytes bits)

/-- Why bytes are no instruction: too few, or an ILL sub-code (R25). -/
inductive DecodeError where
  | short
  | ill (sub : Nat)
  deriving DecidableEq, Repr

/-- The register fields of the R format (R21). -/
def regD (w : Nat) : BitVec 7 := BitVec.ofNat 7 (bits w 13 7)
def regA (w : Nat) : BitVec 7 := BitVec.ofNat 7 (bits w 20 14)
def regB (w : Nat) : BitVec 7 := BitVec.ofNat 7 (bits w 27 21)

/-- The instruction, or sub-code 0x04 where an unused field is not zero (R23). -/
def zeroed (unused : Nat) (i : Instr) : Except Nat Instr := if unused = 0 then .ok i else .error 4

/-- Major opcode 0x01 (R24). -/
def decInta (w : Nat) : Except Nat Instr :=
  match bits w 31 28 with
  | 0 => .ok (.add (regD w) (regA w) (regB w))
  | 1 => .ok (.sub (regD w) (regA w) (regB w))
  | 2 => .ok (.mul (regD w) (regA w) (regB w))
  | 3 => .ok (.mulhS32 (regD w) (regA w) (regB w))
  | 4 => .ok (.mulhN32 (regD w) (regA w) (regB w))
  | 5 => .ok (.minS32 (regD w) (regA w) (regB w))
  | 6 => .ok (.minN32 (regD w) (regA w) (regB w))
  | 7 => .ok (.maxS32 (regD w) (regA w) (regB w))
  | 8 => .ok (.maxN32 (regD w) (regA w) (regB w))
  | 9 => .ok (.andB (regD w) (regA w) (regB w))
  | 10 => .ok (.orB (regD w) (regA w) (regB w))
  | 11 => .ok (.xorB (regD w) (regA w) (regB w))
  | 12 => .ok (.shl (regD w) (regA w) (regB w))
  | 13 => .ok (.shr (regD w) (regA w) (regB w))
  | 14 => .ok (.sar (regD w) (regA w) (regB w))
  | _ => .ok (.andn (regD w) (regA w) (regB w))

/-- Major opcode 0x02 (R24). -/
def decIntb (w : Nat) : Except Nat Instr :=
  match bits w 31 28 with
  | 0 => .ok (.mad (regD w) (regA w) (regB w))
  | 1 => .ok (.madwS32 (regD w) (regA w) (regB w))
  | 2 => .ok (.madwN32 (regD w) (regA w) (regB w))
  | 3 => .ok (.addB64 (regD w) (regA w) (regB w))
  | 4 => .ok (.subB64 (regD w) (regA w) (regB w))
  | 5 => .ok (.lea0 (regD w) (regA w) (regB w))
  | 6 => .ok (.lea1 (regD w) (regA w) (regB w))
  | 7 => .ok (.lea2 (regD w) (regA w) (regB w))
  | 8 => .ok (.lea3 (regD w) (regA w) (regB w))
  | 9 => .ok (.divS32 (regD w) (regA w) (regB w))
  | 10 => .ok (.divN32 (regD w) (regA w) (regB w))
  | 11 => .ok (.remS32 (regD w) (regA w) (regB w))
  | 12 => .ok (.remN32 (regD w) (regA w) (regB w))
  | 13 => .ok (.absdS32 (regD w) (regA w) (regB w))
  | 14 => .ok (.prmt (regD w) (regA w) (regB w))
  | _ => .ok (.rot (regD w) (regA w) (regB w))

/-- Major opcode 0x07: the kind in imm[6:5], imm[10:7] zero (R22, R24). -/
def decShfi (w : Nat) : Except Nat Instr :=
  match bits w 27 26 with
  | 0 => zeroed (bits w 31 28) (.shli (regD w) (regA w) (BitVec.ofNat 5 (bits w 25 21)))
  | 1 => zeroed (bits w 31 28) (.shri (regD w) (regA w) (BitVec.ofNat 5 (bits w 25 21)))
  | 2 => zeroed (bits w 31 28) (.sari (regD w) (regA w) (BitVec.ofNat 5 (bits w 25 21)))
  | _ => zeroed (bits w 31 28) (.roti (regD w) (regA w) (BitVec.ofNat 5 (bits w 25 21)))

/-- Major opcode 0x0A (R24). -/
def decBits (w : Nat) : Except Nat Instr :=
  match bits w 31 28 with
  | 0 => zeroed (bits w 27 21) (.mov (regD w) (regA w))
  | 1 => zeroed (bits w 27 21) (.popc (regD w) (regA w))
  | 2 => zeroed (bits w 27 21) (.clz (regD w) (regA w))
  | 3 => zeroed (bits w 27 21) (.brev (regD w) (regA w))
  | 4 => zeroed (bits w 27 21) (.ffs (regD w) (regA w))
  | 5 => zeroed (bits w 27 21) (.sext8 (regD w) (regA w))
  | 6 => zeroed (bits w 27 21) (.sext16 (regD w) (regA w))
  | 7 => zeroed (bits w 27 21) (.zext8 (regD w) (regA w))
  | 8 => zeroed (bits w 27 21) (.zext16 (regD w) (regA w))
  | 9 => .ok (.bfeS32 (regD w) (regA w) (regB w))
  | 10 => .ok (.bfeN32 (regD w) (regA w) (regB w))
  | 11 => .ok (.bfi (regD w) (regA w) (regB w))
  | 12 => zeroed (bits w 27 21) (.movB64 (regD w) (regA w))
  | 13 => zeroed (bits w 27 21) (.notB (regD w) (regA w))
  | _ => .error 3

/-- Major opcode 0x0D (R24). -/
def decPred (w : Nat) : Except Nat Instr :=
  match bits w 31 28 with
  | 0 => .ok (.pand (regD w) (regA w) (regB w))
  | 1 => .ok (.por (regD w) (regA w) (regB w))
  | 2 => .ok (.pxor (regD w) (regA w) (regB w))
  | 3 => .ok (.pandn (regD w) (regA w) (regB w))
  | 4 => zeroed (bits w 27 21) (.pnot (regD w) (regA w))
  | 5 => zeroed (bits w 20 14 + bits w 27 21) (.ptov (regD w))
  | 6 => zeroed (bits w 13 7) (.vtop (regA w) (regB w))
  | _ => .error 3

/-- Major opcode 0x0F (R24). -/
def decVote (w : Nat) : Except Nat Instr :=
  match bits w 31 28 with
  | 0 => zeroed (bits w 27 21) (.voteAny (regD w) (regA w))
  | 1 => zeroed (bits w 27 21) (.voteAll (regD w) (regA w))
  | 2 => zeroed (bits w 27 21) (.voteBallot (regD w) (regA w))
  | 3 => zeroed (bits w 27 21) (.voteMatch (regD w) (regA w))
  | 4 => zeroed (bits w 20 14 + bits w 27 21) (.voteActive (regD w))
  | 5 => zeroed (bits w 27 21) (.votePopn (regD w) (regA w))
  | _ => .error 3

/-- Major opcode 0x10 (R24). -/
def decShfl (w : Nat) : Except Nat Instr :=
  match bits w 31 28 with
  | 0 => .ok (.shflIdx (regD w) (regA w) (regB w))
  | 1 => .ok (.shflUp (regD w) (regA w) (regB w))
  | 2 => .ok (.shflDown (regD w) (regA w) (regB w))
  | 3 => .ok (.shflXor (regD w) (regA w) (regB w))
  | 15 => .error 3
  | _ => zeroed (bits w 27 21) (.shflRdx (regD w) (regA w) (BitVec.ofNat 4 (bits w 31 28)))

/-- Major opcode 0x11 (R24). -/
def decFpa (w : Nat) : Except Nat Instr :=
  match bits w 31 28 with
  | 0 => .ok (.fadd (regD w) (regA w) (regB w))
  | 1 => .ok (.fsub (regD w) (regA w) (regB w))
  | 2 => .ok (.fmul (regD w) (regA w) (regB w))
  | 3 => .ok (.ffma (regD w) (regA w) (regB w))
  | 4 => .ok (.fmin (regD w) (regA w) (regB w))
  | 5 => .ok (.fmax (regD w) (regA w) (regB w))
  | 6 => .ok (.fminn (regD w) (regA w) (regB w))
  | 7 => .ok (.fmaxn (regD w) (regA w) (regB w))
  | 8 => .ok (.fcopys (regD w) (regA w) (regB w))
  | 9 => .ok (.fnma (regD w) (regA w) (regB w))
  | 10 => .ok (.fldx (regD w) (regA w) (regB w))
  | _ => .error 3

/-- Major opcode 0x12 (R24). -/
def decFph (w : Nat) : Except Nat Instr :=
  match bits w 31 28 with
  | 0 => .ok (.hadd2 (regD w) (regA w) (regB w))
  | 1 => .ok (.hmul2 (regD w) (regA w) (regB w))
  | 2 => .ok (.hfma2 (regD w) (regA w) (regB w))
  | 3 => .ok (.hmin2 (regD w) (regA w) (regB w))
  | 4 => .ok (.hmax2 (regD w) (regA w) (regB w))
  | 5 => .ok (.hpk (regD w) (regA w) (regB w))
  | 6 => .ok (.bpk (regD w) (regA w) (regB w))
  | 8 => .ok (.badd2 (regD w) (regA w) (regB w))
  | 9 => .ok (.bmul2 (regD w) (regA w) (regB w))
  | 10 => .ok (.bfma2 (regD w) (regA w) (regB w))
  | 11 => .ok (.bmin2 (regD w) (regA w) (regB w))
  | 12 => .ok (.bmax2 (regD w) (regA w) (regB w))
  | 13 => .ok (.htof (regD w) (regA w) (regB w))
  | 14 => .ok (.btof (regD w) (regA w) (regB w))
  | _ => .error 3

/-- Major opcode 0x13 (R24). -/
def decFpd (w : Nat) : Except Nat Instr :=
  match bits w 31 28 with
  | 0 => .ok (.dadd (regD w) (regA w) (regB w))
  | 1 => .ok (.dsub (regD w) (regA w) (regB w))
  | 2 => .ok (.dmul (regD w) (regA w) (regB w))
  | 3 => .ok (.dfma (regD w) (regA w) (regB w))
  | 4 => .ok (.dmin (regD w) (regA w) (regB w))
  | 5 => .ok (.dmax (regD w) (regA w) (regB w))
  | _ => .error 3

/-- Major opcode 0x15 (R24). -/
def decFspec (w : Nat) : Except Nat Instr :=
  match bits w 31 28 with
  | 0 => zeroed (bits w 27 21) (.ex2 (regD w) (regA w))
  | 1 => zeroed (bits w 27 21) (.lg2 (regD w) (regA w))
  | 2 => zeroed (bits w 27 21) (.rcp (regD w) (regA w))
  | 3 => zeroed (bits w 27 21) (.rsq (regD w) (regA w))
  | 4 => zeroed (bits w 27 21) (.sqrt (regD w) (regA w))
  | 5 => zeroed (bits w 27 21) (.sin (regD w) (regA w))
  | 6 => zeroed (bits w 27 21) (.cos (regD w) (regA w))
  | 7 => zeroed (bits w 27 21) (.tanh (regD w) (regA w))
  | 8 => zeroed (bits w 27 21) (.rndn (regD w) (regA w))
  | 9 => zeroed (bits w 27 21) (.rndz (regD w) (regA w))
  | 10 => zeroed (bits w 27 21) (.rndd (regD w) (regA w))
  | 11 => zeroed (bits w 27 21) (.rndu (regD w) (regA w))
  | 12 => zeroed (bits w 27 21) (.fclass (regD w) (regA w))
  | 13 => zeroed (bits w 27 21) (.sig (regD w) (regA w))
  | _ => .error 3

/-- Major opcode 0x20 (R24). -/
def decMemc (w : Nat) : Except Nat Instr :=
  match bits w 31 28 with
  | 0 => zeroed (bits w 13 7 + bits w 20 14 + bits w 27 21) (.phaseTeam)
  | 1 => zeroed (bits w 13 7 + bits w 20 14 + bits w 27 21) (.phaseDev)
  | 2 => zeroed (bits w 13 7 + bits w 20 14 + bits w 27 21) (.phaseSys)
  | 3 => zeroed (bits w 13 7 + bits w 20 14 + bits w 27 21) (.fenceOp)
  | 4 => zeroed (bits w 13 7 + bits w 20 14 + bits w 27 21) (.fenceEng)
  | 5 => zeroed (bits w 13 7 + bits w 27 21) (.pref (regA w))
  | 6 => zeroed (bits w 13 7) (.waita (regA w) (regB w))
  | 8 => zeroed (bits w 20 14 + bits w 27 21) (.clk (regD w))
  | _ => .error 3

/-- Major opcode 0x22 (R24). -/
def decAccx (w : Nat) : Except Nat Instr :=
  match bits w 31 28 with
  | 0 => .ok (.accrd (regD w) (regA w) (regB w))
  | 1 => .ok (.accwr (regD w) (regA w) (regB w))
  | 2 => zeroed (bits w 13 7 + bits w 20 14) (.mzero (regB w))
  | _ => .error 3

/-- Major opcode 0x23 (R24). -/
def decTcp (w : Nat) : Except Nat Instr :=
  match bits w 31 28 with
  | 0 => .ok (.tload (regD w) (regA w) (regB w))
  | 1 => .ok (.tstore (regD w) (regA w) (regB w))
  | 2 => .ok (.tgath (regD w) (regA w) (regB w))
  | 3 => .ok (.tscat (regD w) (regA w) (regB w))
  | 4 => .ok (.tscata (regD w) (regA w) (regB w))
  | 5 => .ok (.tmcast (regD w) (regA w) (regB w))
  | 6 => zeroed (bits w 13 7) (.tpref (regA w) (regB w))
  | _ => .error 3

/-- Major opcode 0x24 (R24). -/
def decBar (w : Nat) : Except Nat Instr :=
  match bits w 31 28 with
  | 0 => zeroed (bits w 13 7) (.binit (regA w) (regB w))
  | 1 => .ok (.barr (regD w) (regA w) (regB w))
  | 2 => zeroed (bits w 13 7) (.bwait (regA w) (regB w))
  | 3 => .ok (.btest (regD w) (regA w) (regB w))
  | 4 => zeroed (bits w 13 7 + bits w 20 14 + bits w 27 21) (.tbar)
  | 5 => zeroed (bits w 13 7 + bits w 27 21) (.pfree (regA w))
  | _ => .error 3

/-- Major opcode 0x25 (R24). -/
def decRing (w : Nat) : Except Nat Instr :=
  match bits w 31 28 with
  | 0 => zeroed (bits w 27 21) (.rawait (regD w) (regA w))
  | 1 => zeroed (bits w 13 7 + bits w 27 21) (.rrel (regA w))
  | 2 => .ok (.rpush (regD w) (regA w) (regB w))
  | 3 => .ok (.chain (regD w) (regA w) (regB w))
  | 4 => .ok (.qlaunch (regD w) (regA w) (regB w))
  | 5 => .ok (.fork (regD w) (regA w) (regB w))
  | _ => .error 3

/-- Major opcode 0x26 (R24). -/
def decMma (w : Nat) : Except Nat Instr :=
  match bits w 31 29 with
  | 0 => .ok (.mma (BitVec.ofNat 5 (bits w 11 7)) (BitVec.ofNat 6 (bits w 17 12)) (BitVec.ofNat 6 (bits w 23 18)) (BitVec.ofNat 5 (bits w 28 24)))
  | 1 => .ok (.mmaz (BitVec.ofNat 5 (bits w 11 7)) (BitVec.ofNat 6 (bits w 17 12)) (BitVec.ofNat 6 (bits w 23 18)) (BitVec.ofNat 5 (bits w 28 24)))
  | 2 => .ok (.mmas (BitVec.ofNat 5 (bits w 11 7)) (BitVec.ofNat 6 (bits w 17 12)) (BitVec.ofNat 6 (bits w 23 18)) (BitVec.ofNat 5 (bits w 28 24)))
  | 3 => .ok (.mmasz (BitVec.ofNat 5 (bits w 11 7)) (BitVec.ofNat 6 (bits w 17 12)) (BitVec.ofNat 6 (bits w 23 18)) (BitVec.ofNat 5 (bits w 28 24)))
  | 4 => .ok (.mmac (BitVec.ofNat 5 (bits w 11 7)) (BitVec.ofNat 6 (bits w 17 12)) (BitVec.ofNat 6 (bits w 23 18)) (BitVec.ofNat 5 (bits w 28 24)))
  | 5 => .ok (.mmacz (BitVec.ofNat 5 (bits w 11 7)) (BitVec.ofNat 6 (bits w 17 12)) (BitVec.ofNat 6 (bits w 23 18)) (BitVec.ofNat 5 (bits w 28 24)))
  | _ => .error 3

/-- Major opcode 0x27 (R24). -/
def decMctl (w : Nat) : Except Nat Instr :=
  match bits w 31 28 with
  | 0 => zeroed (bits w 13 7 + bits w 27 21) (.gang (regA w))
  | 1 => zeroed (bits w 27 21) (.dpload (regD w) (regA w))
  | 2 => zeroed (bits w 27 21) (.thset (regD w) (regA w))
  | 3 => .ok (.thcur (regD w) (regA w) (regB w))
  | 4 => zeroed (bits w 27 21) (.thget (regD w) (regA w))
  | 5 => .ok (.mhad (regD w) (regA w) (regB w))
  | 6 => zeroed (bits w 20 14) (.mdrain (regD w) (regB w))
  | 7 => zeroed (bits w 13 7) (.mode (regA w) (regB w))
  | 8 => zeroed (bits w 27 21) (.scupd (regD w) (regA w))
  | 9 => .ok (.tres (regD w) (regA w) (regB w))
  | 10 => zeroed (bits w 20 14 + bits w 27 21) (.tunres (regD w))
  | _ => .error 3

/-- Major opcode 0x29 (R24). -/
def decRel (w : Nat) : Except Nat Instr :=
  match bits w 31 28 with
  | 0 => .ok (.join (regD w) (regA w) (regB w))
  | 1 => .ok (.rank (regD w) (regA w) (regB w))
  | 2 => .ok (.rebal (regD w) (regA w) (regB w))
  | 3 => zeroed (bits w 27 21) (.rbtot (regD w) (regA w))
  | _ => .error 3

/-- Major opcode 0x2A (R24). -/
def decRegs (w : Nat) : Except Nat Instr :=
  match bits w 31 28 with
  | 0 => zeroed (bits w 13 7 + bits w 20 14) (.rgive (regB w))
  | 1 => zeroed (bits w 13 7 + bits w 20 14) (.rtake (regB w))
  | 2 => zeroed (bits w 20 14 + bits w 27 21) (.rqry (regD w))
  | _ => .error 3

/-- Major opcode 0x2C (R24). -/
def decTrail (w : Nat) : Except Nat Instr :=
  match bits w 31 28 with
  | 0 => zeroed (bits w 13 7 + bits w 20 14 + bits w 27 21) (.trclr)
  | 1 => .ok (.pdig (regD w) (regA w) (regB w))
  | _ => .error 3

/-- Major opcode 0x2F (R24). -/
def decFlow (w : Nat) : Except Nat Instr :=
  match bits w 31 28 with
  | 0 => zeroed (bits w 13 7 + bits w 27 21) (.brx (regA w))
  | 1 => zeroed (bits w 13 7 + bits w 27 21) (.callx (regA w))
  | 2 => zeroed (bits w 13 7 + bits w 20 14 + bits w 27 21) (.ret)
  | 3 => zeroed (bits w 13 7 + bits w 20 14 + bits w 27 21) (.exit)
  | 4 => zeroed (bits w 13 7 + bits w 20 14 + bits w 27 21) (.yield)
  | 5 => zeroed (bits w 20 14 + bits w 27 21) (.rcvset (regD w))
  | 6 => zeroed (bits w 20 14 + bits w 27 21) (.rcvwait (regD w))
  | 7 => zeroed (bits w 13 7 + bits w 20 14 + bits w 27 21) (.pass)
  | 8 => zeroed (bits w 13 7 + bits w 20 14 + bits w 27 21) (.brk)
  | 9 => zeroed (bits w 13 7 + bits w 20 14) (.trap (regB w))
  | 10 => zeroed (bits w 13 7 + bits w 20 14 + bits w 27 21) (.rtt)
  | 11 => .ok (.softi (regD w) (regA w) (regB w))
  | 12 => zeroed (bits w 13 7 + bits w 27 21) (.sleepc (regA w))
  | 13 => zeroed (bits w 13 7 + bits w 20 14 + bits w 27 21) (.nop32)
  | _ => .error 3

/-- Major opcode 0x32 (R24). -/
def decTlbi (w : Nat) : Except Nat Instr :=
  match bits w 31 28 with
  | 0 => zeroed (bits w 13 7) (.tlbiVa (regA w) (regB w))
  | 1 => zeroed (bits w 13 7 + bits w 20 14) (.tlbiAsid (regB w))
  | 2 => zeroed (bits w 13 7 + bits w 20 14) (.tlbiAll (regB w))
  | _ => .error 3

/-- A 32-bit word by its major opcode in bits [6:1] (R21, R24). -/
def decode32 (w : Nat) : Except Nat Instr :=
  match bits w 6 1 with
  | 0x00 => .ok (.pfx (BitVec.ofNat 5 (bits w 11 7)) (BitVec.ofNat 1 (bits w 12 12)) (BitVec.ofNat 7 (bits w 19 13)) (BitVec.ofNat 12 (bits w 31 20)))
  | 0x01 => decInta w
  | 0x02 => decIntb w
  | 0x03 => .ok (.addi (regD w) (regA w) (BitVec.ofNat 11 (bits w 31 21)))
  | 0x04 => .ok (.andi (regD w) (regA w) (BitVec.ofNat 11 (bits w 31 21)))
  | 0x05 => .ok (.ori (regD w) (regA w) (BitVec.ofNat 11 (bits w 31 21)))
  | 0x06 => .ok (.xori (regD w) (regA w) (BitVec.ofNat 11 (bits w 31 21)))
  | 0x07 => decShfi w
  | 0x08 => .ok (.movi (regD w) (BitVec.ofNat 18 (bits w 31 14)))
  | 0x09 => .ok (.movhi (regD w) (BitVec.ofNat 18 (bits w 31 14)))
  | 0x0A => decBits w
  | 0x0B => .ok (.cmp (BitVec.ofNat 5 (bits w 11 7)) (BitVec.ofNat 2 (bits w 13 12)) (regA w) (regB w) (BitVec.ofNat 4 (bits w 31 28)))
  | 0x0C => .ok (.cmpi (BitVec.ofNat 5 (bits w 11 7)) (BitVec.ofNat 2 (bits w 13 12)) (regA w) (BitVec.ofNat 4 (bits w 24 21)) (BitVec.ofNat 7 (bits w 31 25)))
  | 0x0D => decPred w
  | 0x0E => .ok (.sel (regD w) (regA w) (regB w) (BitVec.ofNat 4 (bits w 31 28)))
  | 0x0F => decVote w
  | 0x10 => decShfl w
  | 0x11 => decFpa w
  | 0x12 => decFph w
  | 0x13 => decFpd w
  | 0x14 => .ok (.fcmp (BitVec.ofNat 5 (bits w 11 7)) (BitVec.ofNat 2 (bits w 13 12)) (regA w) (regB w) (BitVec.ofNat 4 (bits w 31 28)))
  | 0x15 => decFspec w
  | 0x16 => .ok (.fcvt (regD w) (regA w) (BitVec.ofNat 5 (bits w 25 21)) (BitVec.ofNat 5 (bits w 30 26)) (BitVec.ofNat 1 (bits w 31 31)))
  | 0x18 => .ok (.ld (regD w) (regA w) (BitVec.ofNat 3 (bits w 23 21)) (BitVec.ofNat 8 (bits w 31 24)))
  | 0x19 => .ok (.st (regD w) (regA w) (BitVec.ofNat 3 (bits w 23 21)) (BitVec.ofNat 8 (bits w 31 24)))
  | 0x1A => .ok (.ldp (regD w) (regA w) (BitVec.ofNat 3 (bits w 23 21)) (BitVec.ofNat 8 (bits w 31 24)))
  | 0x1B => .ok (.stp (regD w) (regA w) (BitVec.ofNat 3 (bits w 23 21)) (BitVec.ofNat 8 (bits w 31 24)))
  | 0x1C => .ok (.ldq (regD w) (regA w) (BitVec.ofNat 1 (bits w 21 21)) (BitVec.ofNat 2 (bits w 23 22)) (BitVec.ofNat 8 (bits w 31 24)))
  | 0x1D => .ok (.stl (regD w) (regA w) (BitVec.ofNat 1 (bits w 21 21)) (BitVec.ofNat 2 (bits w 23 22)) (BitVec.ofNat 8 (bits w 31 24)))
  | 0x1E => .ok (.atom (regD w) (regA w) (regB w) (BitVec.ofNat 4 (bits w 31 28)))
  | 0x1F => .ok (.atomp (regD w) (regA w) (regB w) (BitVec.ofNat 4 (bits w 31 28)))
  | 0x20 => decMemc w
  | 0x21 => zeroed (bits w 31 23) (.waitc (BitVec.ofNat 4 (bits w 10 7)) (BitVec.ofNat 4 (bits w 14 11)) (BitVec.ofNat 4 (bits w 18 15)) (BitVec.ofNat 4 (bits w 22 19)))
  | 0x22 => decAccx w
  | 0x23 => decTcp w
  | 0x24 => decBar w
  | 0x25 => decRing w
  | 0x26 => decMma w
  | 0x27 => decMctl w
  | 0x28 => .ok (.fold (regD w) (regA w) (regB w) (BitVec.ofNat 4 (bits w 31 28)))
  | 0x29 => decRel w
  | 0x2A => decRegs w
  | 0x2B => zeroed (bits w 27 21) (.walk (regD w) (regA w) (BitVec.ofNat 4 (bits w 31 28)))
  | 0x2C => decTrail w
  | 0x2D => .ok (.bra (BitVec.ofNat 5 (bits w 11 7)) (BitVec.ofNat 1 (bits w 12 12)) (BitVec.ofNat 19 (bits w 31 13)))
  | 0x2E => .ok (.call (BitVec.ofNat 5 (bits w 11 7)) (BitVec.ofNat 1 (bits w 12 12)) (BitVec.ofNat 19 (bits w 31 13)))
  | 0x2F => decFlow w
  | 0x30 => zeroed (bits w 20 14) (.sysr (regD w) (BitVec.ofNat 11 (bits w 31 21)))
  | 0x31 => zeroed (bits w 13 7) (.sysw (regA w) (BitVec.ofNat 11 (bits w 31 21)))
  | 0x32 => decTlbi w
  | _ => .error 2

/-- MISC, op16 18 (R27). -/
def decMisc (w : Nat) : Except Nat Instr :=
  match bits w 15 6 with
  | 0 => .ok .nopC
  | 1 => .ok .yieldC
  | 2 => .ok .exitC
  | 3 => .ok .retC
  | _ => .error 5

/-- A 16-bit word by op16 in bits [5:1] (R18, R26, R27). -/
def decode16 (w : Nat) : Except Nat Instr :=
  if w = 0 then .ok .ill
  else match bits w 5 1 with
  | 0 => .ok (.movC (BitVec.ofNat 5 (bits w 10 6)) (BitVec.ofNat 5 (bits w 15 11)))
  | 1 => .ok (.moviC (BitVec.ofNat 5 (bits w 10 6)) (BitVec.ofNat 5 (bits w 15 11)))
  | 2 => .ok (.addC (BitVec.ofNat 5 (bits w 10 6)) (BitVec.ofNat 5 (bits w 15 11)))
  | 3 => .ok (.addiC (BitVec.ofNat 5 (bits w 10 6)) (BitVec.ofNat 5 (bits w 15 11)))
  | 4 => .ok (.subC (BitVec.ofNat 5 (bits w 10 6)) (BitVec.ofNat 5 (bits w 15 11)))
  | 5 => .ok (.andC (BitVec.ofNat 5 (bits w 10 6)) (BitVec.ofNat 5 (bits w 15 11)))
  | 6 => .ok (.orC (BitVec.ofNat 5 (bits w 10 6)) (BitVec.ofNat 5 (bits w 15 11)))
  | 7 => .ok (.xorC (BitVec.ofNat 5 (bits w 10 6)) (BitVec.ofNat 5 (bits w 15 11)))
  | 8 => .ok (.shliC (BitVec.ofNat 5 (bits w 10 6)) (BitVec.ofNat 5 (bits w 15 11)))
  | 9 => .ok (.shriC (BitVec.ofNat 5 (bits w 10 6)) (BitVec.ofNat 5 (bits w 15 11)))
  | 10 => .ok (.sariC (BitVec.ofNat 5 (bits w 10 6)) (BitVec.ofNat 5 (bits w 15 11)))
  | 11 => .ok (.faddC (BitVec.ofNat 5 (bits w 10 6)) (BitVec.ofNat 5 (bits w 15 11)))
  | 12 => .ok (.fmulC (BitVec.ofNat 5 (bits w 10 6)) (BitVec.ofNat 5 (bits w 15 11)))
  | 13 => .ok (.fmaxC (BitVec.ofNat 5 (bits w 10 6)) (BitVec.ofNat 5 (bits w 15 11)))
  | 14 => .ok (.minS32C (BitVec.ofNat 5 (bits w 10 6)) (BitVec.ofNat 5 (bits w 15 11)))
  | 15 => .ok (.maxS32C (BitVec.ofNat 5 (bits w 10 6)) (BitVec.ofNat 5 (bits w 15 11)))
  | 17 => .ok (.braS (BitVec.ofNat 10 (bits w 15 6)))
  | 16 => .ok (.grd (BitVec.ofNat 5 (bits w 10 6)) (BitVec.ofNat 1 (bits w 11 11)) (BitVec.ofNat 4 (bits w 15 12)))
  | 18 => decMisc w
  | _ => .error 5

/-- The instruction at the head of bytes and the bytes after it: bit 0 of the first halfword gives its length (R17). -/
def decode : List Byte → Except DecodeError (Instr × List Byte)
  | b0 :: b1 :: rest =>
    if b0.toNat % 2 = 0 then
      match decode16 (leNat [b0, b1]) with
      | .ok i => .ok (i, rest)
      | .error e => .error (.ill e)
    else match rest with
      | b2 :: b3 :: rest =>
        match decode32 (leNat [b0, b1, b2, b3]) with
        | .ok i => .ok (i, rest)
        | .error e => .error (.ill e)
      | _ => .error .short
  | _ => .error .short

/-- The instruction of a word numbered as spec/opcode_table.json numbers it; the bits above it are zero. -/
def decodeTableWord (nbits w : Nat) : Option Instr :=
  match decode (leBytes (nbits / 8) w ++ List.replicate 8 0) with
  | .ok (i, _) => some i
  | .error _ => none

/-- The number of bits of an instruction's word; 0 for a machine event, which has none (R17). -/
def Instr.nbits : Instr → Nat
  | .ill | .grd .. | .movC .. | .moviC .. | .addC .. | .addiC .. | .subC .. | .andC .. | .orC .. | .xorC .. | .shliC ..
  | .shriC .. | .sariC .. | .faddC .. | .fmulC .. | .fmaxC .. | .minS32C .. | .maxS32C .. | .braS .. | .nopC | .yieldC
  | .exitC | .retC => 16
  | .translationWalk .. | .snapshotPrefetch .. | .snapshotEmpty .. | .writeBufferDrain .. | .outboundPerform ..
  | .copyPiece .. | .copyComplete .. | .tmcastBufferClaim .. | .tileFetch .. | .matrixLeaveGrant .. | .arrayAccumulate ..
  | .drainRowCommit .. | .chainRecordRead .. | .chainChunk .. | .chainRecordComplete .. | .promotion ..
  | .migrationRequest .. | .migrationComplete .. | .peerRequest .. | .faultReplay .. | .parkAgeTrigger ..
  | .parkShareTrigger .. | .swapComplete .. | .readmit .. | .placeTeam | .packetNop .. | .packetBarrier ..
  | .packetLaunch .. | .gridEnd .. | .stall .. | .lanesetExchange .. | .passHoldEnd .. | .sleepcWake ..
  | .auditBlockClose .. | .eventRecordWrite .. | .resolveCmd .. | .rejectCmd .. | .demoteCmd .. | .sealCmd ..
  | .freeCmd .. | .vacateCmd .. | .releaseCmd .. | .audittakeCmd .. | .auditflushCmd .. | .attestCmd .. | .loadkeyCmd ..
  | .exportCmd .. | .dbgnonceCmd .. | .debugCmd .. | .mqUnknownOp .. | .vfReset .. | .functionLevelReset ..
  | .vfcfgWrite .. | .ringtabWrite .. | .pstateWrite .. | .powercapWrite .. | .registerWrite .. | .deviceReset ..
  | .thermalHigh | .thermalLow | .idleEntry | .idleWake | .peerPortFail .. | .memoryErrorDetect ..
  | .correctedErrorReport .. | .hostAccess .. | .wakeRegisterAction | .pfReset => 0
  | .pfx .. | .add .. | .sub .. | .mul .. | .mulhS32 .. | .mulhN32 .. | .minS32 .. | .minN32 .. | .maxS32 .. | .maxN32 ..
  | .andB .. | .orB .. | .xorB .. | .shl .. | .shr .. | .sar .. | .andn .. | .mad .. | .madwS32 .. | .madwN32 ..
  | .addB64 .. | .subB64 .. | .lea0 .. | .lea1 .. | .lea2 .. | .lea3 .. | .divS32 .. | .divN32 .. | .remS32 ..
  | .remN32 .. | .absdS32 .. | .prmt .. | .rot .. | .addi .. | .andi .. | .ori .. | .xori .. | .shli .. | .shri ..
  | .sari .. | .roti .. | .movi .. | .movhi .. | .mov .. | .popc .. | .clz .. | .brev .. | .ffs .. | .sext8 ..
  | .sext16 .. | .zext8 .. | .zext16 .. | .bfeS32 .. | .bfeN32 .. | .bfi .. | .movB64 .. | .notB .. | .cmp .. | .cmpi ..
  | .pand .. | .por .. | .pxor .. | .pandn .. | .pnot .. | .ptov .. | .vtop .. | .sel .. | .voteAny .. | .voteAll ..
  | .voteBallot .. | .voteMatch .. | .voteActive .. | .votePopn .. | .shflIdx .. | .shflUp .. | .shflDown .. | .shflXor ..
  | .shflRdx .. | .fadd .. | .fsub .. | .fmul .. | .ffma .. | .fmin .. | .fmax .. | .fminn .. | .fmaxn .. | .fcopys ..
  | .fnma .. | .fldx .. | .hadd2 .. | .hmul2 .. | .hfma2 .. | .hmin2 .. | .hmax2 .. | .hpk .. | .bpk .. | .badd2 ..
  | .bmul2 .. | .bfma2 .. | .bmin2 .. | .bmax2 .. | .htof .. | .btof .. | .dadd .. | .dsub .. | .dmul .. | .dfma ..
  | .dmin .. | .dmax .. | .fcmp .. | .ex2 .. | .lg2 .. | .rcp .. | .rsq .. | .sqrt .. | .sin .. | .cos .. | .tanh ..
  | .rndn .. | .rndz .. | .rndd .. | .rndu .. | .fclass .. | .sig .. | .fcvt .. | .ld .. | .st .. | .ldp .. | .stp ..
  | .ldq .. | .stl .. | .atom .. | .atomp .. | .phaseTeam | .phaseDev | .phaseSys | .fenceOp | .fenceEng | .pref ..
  | .waita .. | .clk .. | .waitc .. | .accrd .. | .accwr .. | .mzero .. | .tload .. | .tstore .. | .tgath .. | .tscat ..
  | .tscata .. | .tmcast .. | .tpref .. | .binit .. | .barr .. | .bwait .. | .btest .. | .tbar | .pfree .. | .rawait ..
  | .rrel .. | .rpush .. | .chain .. | .qlaunch .. | .fork .. | .mma .. | .mmaz .. | .mmas .. | .mmasz .. | .mmac ..
  | .mmacz .. | .gang .. | .dpload .. | .thset .. | .thcur .. | .thget .. | .mhad .. | .mdrain .. | .mode .. | .scupd ..
  | .tres .. | .tunres .. | .fold .. | .join .. | .rank .. | .rebal .. | .rbtot .. | .rgive .. | .rtake .. | .rqry ..
  | .walk .. | .trclr | .pdig .. | .bra .. | .call .. | .brx .. | .callx .. | .ret | .exit | .yield | .rcvset ..
  | .rcvwait .. | .pass | .brk | .trap .. | .rtt | .softi .. | .sleepc .. | .nop32 | .sysr .. | .sysw .. | .tlbiVa ..
  | .tlbiAsid .. | .tlbiAll .. => 32

/-- The word of an R-format instruction (R21): major opcode, function, fields. -/
def wordR (m f : Nat) (d a b : BitVec 7) : Nat := 1 + 2 * m + 2 ^ 7 * d.toNat + 2 ^ 14 * a.toNat + 2 ^ 21 * b.toNat + 2 ^ 28 * f
/-- I format. -/
def wordI (m : Nat) (d a : BitVec 7) (i : BitVec 11) : Nat := 1 + 2 * m + 2 ^ 7 * d.toNat + 2 ^ 14 * a.toNat + 2 ^ 21 * i.toNat
/-- SHFI: kind and amount in the immediate (R22). -/
def wordK (k : Nat) (d a : BitVec 7) (s : BitVec 5) : Nat := 1 + 2 * 7 + 2 ^ 7 * d.toNat + 2 ^ 14 * a.toNat + 2 ^ 21 * s.toNat + 2 ^ 26 * k
/-- U format. -/
def wordU (m : Nat) (d : BitVec 7) (i : BitVec 18) : Nat := 1 + 2 * m + 2 ^ 7 * d.toNat + 2 ^ 14 * i.toNat
/-- M format. -/
def wordM (m : Nat) (d a : BitVec 7) (z : BitVec 3) (o : BitVec 8) : Nat :=
  1 + 2 * m + 2 ^ 7 * d.toNat + 2 ^ 14 * a.toNat + 2 ^ 21 * z.toNat + 2 ^ 24 * o.toNat
/-- M format of LDQ and STL: size and scope in z (R24). -/
def wordQ (m : Nat) (d a : BitVec 7) (z : BitVec 1) (s : BitVec 2) (o : BitVec 8) : Nat :=
  1 + 2 * m + 2 ^ 7 * d.toNat + 2 ^ 14 * a.toNat + 2 ^ 21 * z.toNat + 2 ^ 22 * s.toNat + 2 ^ 24 * o.toNat
/-- C format. -/
def wordC (m : Nat) (p : BitVec 5) (g : BitVec 2) (a b : BitVec 7) (c : BitVec 4) : Nat :=
  1 + 2 * m + 2 ^ 7 * p.toNat + 2 ^ 12 * g.toNat + 2 ^ 14 * a.toNat + 2 ^ 21 * b.toNat + 2 ^ 28 * c.toNat
/-- CI format. -/
def wordCI (p : BitVec 5) (g : BitVec 2) (a : BitVec 7) (c : BitVec 4) (i : BitVec 7) : Nat :=
  1 + 2 * 0x0C + 2 ^ 7 * p.toNat + 2 ^ 12 * g.toNat + 2 ^ 14 * a.toNat + 2 ^ 21 * c.toNat + 2 ^ 25 * i.toNat
/-- B format. -/
def wordB (m : Nat) (p : BitVec 5) (n : BitVec 1) (o : BitVec 19) : Nat := 1 + 2 * m + 2 ^ 7 * p.toNat + 2 ^ 12 * n.toNat + 2 ^ 13 * o.toNat
/-- T format. -/
def wordT (f : Nat) (c : BitVec 5) (a b : BitVec 6) (p : BitVec 5) : Nat :=
  1 + 2 * 0x26 + 2 ^ 7 * c.toNat + 2 ^ 12 * a.toNat + 2 ^ 18 * b.toNat + 2 ^ 24 * p.toNat + 2 ^ 29 * f
/-- W format. -/
def wordW (l s c t : BitVec 4) : Nat := 1 + 2 * 0x21 + 2 ^ 7 * l.toNat + 2 ^ 11 * s.toNat + 2 ^ 15 * c.toNat + 2 ^ 19 * t.toNat
/-- P format. -/
def wordP (p : BitVec 5) (n : BitVec 1) (c : BitVec 7) (x : BitVec 12) : Nat :=
  1 + 2 ^ 7 * p.toNat + 2 ^ 12 * n.toNat + 2 ^ 13 * c.toNat + 2 ^ 20 * x.toNat
/-- F format. -/
def wordF (d a : BitVec 7) (w r : BitVec 5) (t : BitVec 1) : Nat :=
  1 + 2 * 0x16 + 2 ^ 7 * d.toNat + 2 ^ 14 * a.toNat + 2 ^ 21 * w.toNat + 2 ^ 26 * r.toNat + 2 ^ 31 * t.toNat
/-- A 16-bit word with two five-bit fields (R26). -/
def wordH (op : Nat) (d v : BitVec 5) : Nat := 2 * op + 2 ^ 6 * d.toNat + 2 ^ 11 * v.toNat
/-- GRD (R27). -/
def wordG (p : BitVec 5) (g : BitVec 1) (s : BitVec 4) : Nat := 2 * 16 + 2 ^ 6 * p.toNat + 2 ^ 11 * g.toNat + 2 ^ 12 * s.toNat

/-- The word of an instruction, as a number of its `nbits` bits; a machine event has none, and gives 0. -/
def encode : Instr → Nat
  | .ill => 0
  | .pfx p n c x => wordP p n c x
  | .grd p g s => wordG p g s
  | .add d a b => wordR 0x01 0 d a b
  | .sub d a b => wordR 0x01 1 d a b
  | .mul d a b => wordR 0x01 2 d a b
  | .mulhS32 d a b => wordR 0x01 3 d a b
  | .mulhN32 d a b => wordR 0x01 4 d a b
  | .minS32 d a b => wordR 0x01 5 d a b
  | .minN32 d a b => wordR 0x01 6 d a b
  | .maxS32 d a b => wordR 0x01 7 d a b
  | .maxN32 d a b => wordR 0x01 8 d a b
  | .andB d a b => wordR 0x01 9 d a b
  | .orB d a b => wordR 0x01 10 d a b
  | .xorB d a b => wordR 0x01 11 d a b
  | .shl d a b => wordR 0x01 12 d a b
  | .shr d a b => wordR 0x01 13 d a b
  | .sar d a b => wordR 0x01 14 d a b
  | .andn d a b => wordR 0x01 15 d a b
  | .mad d a b => wordR 0x02 0 d a b
  | .madwS32 d a b => wordR 0x02 1 d a b
  | .madwN32 d a b => wordR 0x02 2 d a b
  | .addB64 d a b => wordR 0x02 3 d a b
  | .subB64 d a b => wordR 0x02 4 d a b
  | .lea0 d a b => wordR 0x02 5 d a b
  | .lea1 d a b => wordR 0x02 6 d a b
  | .lea2 d a b => wordR 0x02 7 d a b
  | .lea3 d a b => wordR 0x02 8 d a b
  | .divS32 d a b => wordR 0x02 9 d a b
  | .divN32 d a b => wordR 0x02 10 d a b
  | .remS32 d a b => wordR 0x02 11 d a b
  | .remN32 d a b => wordR 0x02 12 d a b
  | .absdS32 d a b => wordR 0x02 13 d a b
  | .prmt d a b => wordR 0x02 14 d a b
  | .rot d a b => wordR 0x02 15 d a b
  | .addi d a i => wordI 0x03 d a i
  | .andi d a i => wordI 0x04 d a i
  | .ori d a i => wordI 0x05 d a i
  | .xori d a i => wordI 0x06 d a i
  | .shli d a s => wordK 0 d a s
  | .shri d a s => wordK 1 d a s
  | .sari d a s => wordK 2 d a s
  | .roti d a s => wordK 3 d a s
  | .movi d i => wordU 0x08 d i
  | .movhi d i => wordU 0x09 d i
  | .mov d a => wordR 0x0a 0 d a 0
  | .popc d a => wordR 0x0a 1 d a 0
  | .clz d a => wordR 0x0a 2 d a 0
  | .brev d a => wordR 0x0a 3 d a 0
  | .ffs d a => wordR 0x0a 4 d a 0
  | .sext8 d a => wordR 0x0a 5 d a 0
  | .sext16 d a => wordR 0x0a 6 d a 0
  | .zext8 d a => wordR 0x0a 7 d a 0
  | .zext16 d a => wordR 0x0a 8 d a 0
  | .bfeS32 d a b => wordR 0x0a 9 d a b
  | .bfeN32 d a b => wordR 0x0a 10 d a b
  | .bfi d a b => wordR 0x0a 11 d a b
  | .movB64 d a => wordR 0x0a 12 d a 0
  | .notB d a => wordR 0x0a 13 d a 0
  | .cmp p g a b c => wordC 0x0b p g a b c
  | .cmpi p g a c i => wordCI p g a c i
  | .pand d a b => wordR 0x0d 0 d a b
  | .por d a b => wordR 0x0d 1 d a b
  | .pxor d a b => wordR 0x0d 2 d a b
  | .pandn d a b => wordR 0x0d 3 d a b
  | .pnot d a => wordR 0x0d 4 d a 0
  | .ptov d => wordR 0x0d 5 d 0 0
  | .vtop a b => wordR 0x0d 6 0 a b
  | .sel d a b q => wordR 0x0e q.toNat d a b
  | .voteAny d a => wordR 0x0f 0 d a 0
  | .voteAll d a => wordR 0x0f 1 d a 0
  | .voteBallot d a => wordR 0x0f 2 d a 0
  | .voteMatch d a => wordR 0x0f 3 d a 0
  | .voteActive d => wordR 0x0f 4 d 0 0
  | .votePopn d a => wordR 0x0f 5 d a 0
  | .shflIdx d a b => wordR 0x10 0 d a b
  | .shflUp d a b => wordR 0x10 1 d a b
  | .shflDown d a b => wordR 0x10 2 d a b
  | .shflXor d a b => wordR 0x10 3 d a b
  | .shflRdx d a f => wordR 0x10 f.toNat d a 0
  | .fadd d a b => wordR 0x11 0 d a b
  | .fsub d a b => wordR 0x11 1 d a b
  | .fmul d a b => wordR 0x11 2 d a b
  | .ffma d a b => wordR 0x11 3 d a b
  | .fmin d a b => wordR 0x11 4 d a b
  | .fmax d a b => wordR 0x11 5 d a b
  | .fminn d a b => wordR 0x11 6 d a b
  | .fmaxn d a b => wordR 0x11 7 d a b
  | .fcopys d a b => wordR 0x11 8 d a b
  | .fnma d a b => wordR 0x11 9 d a b
  | .fldx d a b => wordR 0x11 10 d a b
  | .hadd2 d a b => wordR 0x12 0 d a b
  | .hmul2 d a b => wordR 0x12 1 d a b
  | .hfma2 d a b => wordR 0x12 2 d a b
  | .hmin2 d a b => wordR 0x12 3 d a b
  | .hmax2 d a b => wordR 0x12 4 d a b
  | .hpk d a b => wordR 0x12 5 d a b
  | .bpk d a b => wordR 0x12 6 d a b
  | .badd2 d a b => wordR 0x12 8 d a b
  | .bmul2 d a b => wordR 0x12 9 d a b
  | .bfma2 d a b => wordR 0x12 10 d a b
  | .bmin2 d a b => wordR 0x12 11 d a b
  | .bmax2 d a b => wordR 0x12 12 d a b
  | .htof d a s => wordR 0x12 13 d a s
  | .btof d a s => wordR 0x12 14 d a s
  | .dadd d a b => wordR 0x13 0 d a b
  | .dsub d a b => wordR 0x13 1 d a b
  | .dmul d a b => wordR 0x13 2 d a b
  | .dfma d a b => wordR 0x13 3 d a b
  | .dmin d a b => wordR 0x13 4 d a b
  | .dmax d a b => wordR 0x13 5 d a b
  | .fcmp p g a b c => wordC 0x14 p g a b c
  | .ex2 d a => wordR 0x15 0 d a 0
  | .lg2 d a => wordR 0x15 1 d a 0
  | .rcp d a => wordR 0x15 2 d a 0
  | .rsq d a => wordR 0x15 3 d a 0
  | .sqrt d a => wordR 0x15 4 d a 0
  | .sin d a => wordR 0x15 5 d a 0
  | .cos d a => wordR 0x15 6 d a 0
  | .tanh d a => wordR 0x15 7 d a 0
  | .rndn d a => wordR 0x15 8 d a 0
  | .rndz d a => wordR 0x15 9 d a 0
  | .rndd d a => wordR 0x15 10 d a 0
  | .rndu d a => wordR 0x15 11 d a 0
  | .fclass d a => wordR 0x15 12 d a 0
  | .sig d a => wordR 0x15 13 d a 0
  | .fcvt d a w r t => wordF d a w r t
  | .ld d a z o => wordM 0x18 d a z o
  | .st d a z o => wordM 0x19 d a z o
  | .ldp d a z o => wordM 0x1a d a z o
  | .stp d a z o => wordM 0x1b d a z o
  | .ldq d a z s o => wordQ 0x1c d a z s o
  | .stl d a z s o => wordQ 0x1d d a z s o
  | .atom d a b f => wordR 0x1e f.toNat d a b
  | .atomp d a b f => wordR 0x1f f.toNat d a b
  | .phaseTeam => wordR 0x20 0 0 0 0
  | .phaseDev => wordR 0x20 1 0 0 0
  | .phaseSys => wordR 0x20 2 0 0 0
  | .fenceOp => wordR 0x20 3 0 0 0
  | .fenceEng => wordR 0x20 4 0 0 0
  | .pref a => wordR 0x20 5 0 a 0
  | .waita a b => wordR 0x20 6 0 a b
  | .clk d => wordR 0x20 8 d 0 0
  | .waitc l s c t => wordW l s c t
  | .accrd d a b => wordR 0x22 0 d a b
  | .accwr d a b => wordR 0x22 1 d a b
  | .mzero b => wordR 0x22 2 0 0 b
  | .tload d a b => wordR 0x23 0 d a b
  | .tstore d a b => wordR 0x23 1 d a b
  | .tgath d a b => wordR 0x23 2 d a b
  | .tscat d a b => wordR 0x23 3 d a b
  | .tscata d a b => wordR 0x23 4 d a b
  | .tmcast d a b => wordR 0x23 5 d a b
  | .tpref a b => wordR 0x23 6 0 a b
  | .binit a b => wordR 0x24 0 0 a b
  | .barr d a b => wordR 0x24 1 d a b
  | .bwait a b => wordR 0x24 2 0 a b
  | .btest d a b => wordR 0x24 3 d a b
  | .tbar => wordR 0x24 4 0 0 0
  | .pfree a => wordR 0x24 5 0 a 0
  | .rawait d a => wordR 0x25 0 d a 0
  | .rrel a => wordR 0x25 1 0 a 0
  | .rpush d a b => wordR 0x25 2 d a b
  | .chain d a b => wordR 0x25 3 d a b
  | .qlaunch d a b => wordR 0x25 4 d a b
  | .fork d a b => wordR 0x25 5 d a b
  | .mma c a b p => wordT 0 c a b p
  | .mmaz c a b p => wordT 1 c a b p
  | .mmas c a b p => wordT 2 c a b p
  | .mmasz c a b p => wordT 3 c a b p
  | .mmac c a b p => wordT 4 c a b p
  | .mmacz c a b p => wordT 5 c a b p
  | .gang a => wordR 0x27 0 0 a 0
  | .dpload d a => wordR 0x27 1 d a 0
  | .thset d a => wordR 0x27 2 d a 0
  | .thcur d a b => wordR 0x27 3 d a b
  | .thget d a => wordR 0x27 4 d a 0
  | .mhad d a b => wordR 0x27 5 d a b
  | .mdrain d b => wordR 0x27 6 d 0 b
  | .mode a b => wordR 0x27 7 0 a b
  | .scupd d a => wordR 0x27 8 d a 0
  | .tres d a b => wordR 0x27 9 d a b
  | .tunres d => wordR 0x27 10 d 0 0
  | .fold d a b f => wordR 0x28 f.toNat d a b
  | .join d a b => wordR 0x29 0 d a b
  | .rank d a b => wordR 0x29 1 d a b
  | .rebal d a b => wordR 0x29 2 d a b
  | .rbtot d a => wordR 0x29 3 d a 0
  | .rgive k => wordR 0x2a 0 0 0 k
  | .rtake k => wordR 0x2a 1 0 0 k
  | .rqry d => wordR 0x2a 2 d 0 0
  | .walk d a h => wordR 0x2b h.toNat d a 0
  | .trclr => wordR 0x2c 0 0 0 0
  | .pdig d a b => wordR 0x2c 1 d a b
  | .bra p n o => wordB 0x2d p n o
  | .call p n o => wordB 0x2e p n o
  | .brx a => wordR 0x2f 0 0 a 0
  | .callx a => wordR 0x2f 1 0 a 0
  | .ret => wordR 0x2f 2 0 0 0
  | .exit => wordR 0x2f 3 0 0 0
  | .yield => wordR 0x2f 4 0 0 0
  | .rcvset d => wordR 0x2f 5 d 0 0
  | .rcvwait d => wordR 0x2f 6 d 0 0
  | .pass => wordR 0x2f 7 0 0 0
  | .brk => wordR 0x2f 8 0 0 0
  | .trap n => wordR 0x2f 9 0 0 n
  | .rtt => wordR 0x2f 10 0 0 0
  | .softi d a b => wordR 0x2f 11 d a b
  | .sleepc a => wordR 0x2f 12 0 a 0
  | .nop32 => wordR 0x2f 13 0 0 0
  | .sysr d n => wordI 0x30 d 0 n
  | .sysw a n => wordI 0x31 0 a n
  | .tlbiVa a b => wordR 0x32 0 0 a b
  | .tlbiAsid b => wordR 0x32 1 0 0 b
  | .tlbiAll b => wordR 0x32 2 0 0 b
  | .movC d s => wordH 0 d s
  | .moviC d i => wordH 1 d i
  | .addC d s => wordH 2 d s
  | .addiC d i => wordH 3 d i
  | .subC d s => wordH 4 d s
  | .andC d s => wordH 5 d s
  | .orC d s => wordH 6 d s
  | .xorC d s => wordH 7 d s
  | .shliC d n => wordH 8 d n
  | .shriC d n => wordH 9 d n
  | .sariC d n => wordH 10 d n
  | .faddC d s => wordH 11 d s
  | .fmulC d s => wordH 12 d s
  | .fmaxC d s => wordH 13 d s
  | .minS32C d s => wordH 14 d s
  | .maxS32C d s => wordH 15 d s
  | .braS o => 2 * 17 + 2 ^ 6 * o.toNat
  | .nopC => wordH 18 0 0
  | .yieldC => wordH 18 1 0
  | .exitC => wordH 18 2 0
  | .retC => wordH 18 3 0
  | .translationWalk .. | .snapshotPrefetch .. | .snapshotEmpty .. | .writeBufferDrain .. | .outboundPerform ..
  | .copyPiece .. | .copyComplete .. | .tmcastBufferClaim .. | .tileFetch .. | .matrixLeaveGrant .. | .arrayAccumulate ..
  | .drainRowCommit .. | .chainRecordRead .. | .chainChunk .. | .chainRecordComplete .. | .promotion ..
  | .migrationRequest .. | .migrationComplete .. | .peerRequest .. | .faultReplay .. | .parkAgeTrigger ..
  | .parkShareTrigger .. | .swapComplete .. | .readmit .. | .placeTeam | .packetNop .. | .packetBarrier ..
  | .packetLaunch .. | .gridEnd .. | .stall .. | .lanesetExchange .. | .passHoldEnd .. | .sleepcWake ..
  | .auditBlockClose .. | .eventRecordWrite .. | .resolveCmd .. | .rejectCmd .. | .demoteCmd .. | .sealCmd ..
  | .freeCmd .. | .vacateCmd .. | .releaseCmd .. | .audittakeCmd .. | .auditflushCmd .. | .attestCmd .. | .loadkeyCmd ..
  | .exportCmd .. | .dbgnonceCmd .. | .debugCmd .. | .mqUnknownOp .. | .vfReset .. | .functionLevelReset ..
  | .vfcfgWrite .. | .ringtabWrite .. | .pstateWrite .. | .powercapWrite .. | .registerWrite .. | .deviceReset ..
  | .thermalHigh | .thermalLow | .idleEntry | .idleWake | .peerPortFail .. | .memoryErrorDetect ..
  | .correctedErrorReport .. | .hostAccess .. | .wakeRegisterAction | .pfReset => 0

/-- The bytes of an instruction, as they stand in memory (R1, R17). -/
def Instr.bytes (i : Instr) : List Byte := leBytes (i.nbits / 8) (encode i)

end Sys2Proof
end

