-- ==== Sys2Proof/Machine/Num.lean ====
section
/-! DEFINITION. Numbers (spec/03): the format codes, decoded values, rounding and conversion, and the exact
sums and products behind every floating-point result. A decoded value is exact; each result is rounded once. -/

namespace Sys2Proof.Machine

/-- A rounding mode, numbered as `$mode.rnd` numbers it (R50). -/
inductive Rnd where
  | rne | rz | rd | ru
  deriving DecidableEq, Repr

/-- The mode with a number of two bits (R50). -/
def rndOf (n : Nat) : Rnd := if n % 4 = 0 then .rne else if n % 4 = 1 then .rz else if n % 4 = 2 then .rd else .ru

/-- What the all-ones exponent of a floating format holds (R45). -/
inductive Special where
  | ieee      -- infinities and NaNs
  | nanOnly   -- one NaN pattern of each sign
  | plain     -- numbers only
  deriving DecidableEq, Repr

/-- A floating format: exponent bits, mantissa bits, bias and special values (R43, R45). -/
structure Flt where
  eb : Nat
  mb : Nat
  bias : Nat
  sp : Special
  deriving DecidableEq, Repr

/-- The kinds of format codes 0 to 31 (R43). -/
inductive Fmt where
  | flt (f : Flt)
  | int (signed : Bool) (w : Nat)
  | b1
  | book (lq : Bool)
  deriving DecidableEq, Repr

def f64 : Flt := ⟨11, 52, 1023, .ieee⟩
def f32 : Flt := ⟨8, 23, 127, .ieee⟩
def f16 : Flt := ⟨5, 10, 15, .ieee⟩
def bf16 : Flt := ⟨8, 7, 127, .ieee⟩
def e4m3 : Flt := ⟨4, 3, 7, .nanOnly⟩
def e5m2 : Flt := ⟨5, 2, 15, .ieee⟩
def e3m4 : Flt := ⟨3, 4, 3, .nanOnly⟩
def e3m2 : Flt := ⟨3, 2, 3, .plain⟩
def e2m3 : Flt := ⟨2, 3, 1, .plain⟩
def e2m1 : Flt := ⟨2, 1, 1, .plain⟩

/-- The base format of a code; a blocked code has the format of its elements (R43). -/
def fmtOf : Nat → Fmt
  | 0 => .flt f64 | 1 => .flt f32 | 2 => .flt f16 | 3 => .flt bf16 | 4 => .flt e4m3 | 5 => .flt e5m2
  | 6 => .flt e3m4 | 7 => .flt e3m2 | 8 => .flt e2m3 | 9 => .flt e2m1
  | 10 => .int true 16 | 11 => .int true 8 | 12 => .int false 8 | 13 => .int true 4 | 14 => .int false 4
  | 15 => .int true 2 | 16 => .b1 | 17 => .book false | 18 => .book true
  | 19 => .flt e4m3 | 20 => .flt e5m2 | 21 => .flt e3m2 | 22 => .flt e2m3 | 23 => .flt e2m1
  | 24 => .int true 8 | 25 => .int true 4 | 26 => .int false 4 | 27 => .int true 2
  | 28 => .int true 32 | 29 => .int false 32 | 30 => .int true 64 | _ => .int false 64

/-- The width of an element in bits (R43). -/
def Fmt.width : Fmt → Nat
  | .flt f => 1 + f.eb + f.mb
  | .int _ w => w
  | .b1 => 1
  | .book _ => 4

/-- The width of a format code's element. -/
def fmtWidth (code : Nat) : Nat := (fmtOf code).width

/-- A blocked format (R48). -/
def blocked (code : Nat) : Bool := 17 ≤ code && code ≤ 27

/-- The matrix operand classes (R43, R203). -/
inductive OpClass where
  | fp64 | fp32 | b16 | b8 | b4 | b1 | lane
  deriving DecidableEq, Repr

/-- The class of a format code (R43). -/
def opClass (code : Nat) : OpClass :=
  if code = 0 then .fp64 else if code = 1 then .fp32
  else if code = 2 || code = 3 || code = 10 then .b16
  else if code = 16 then .b1
  else if 28 ≤ code then .lane
  else if [9, 13, 14, 15, 17, 18, 23, 25, 26, 27].contains code then .b4
  else .b8

/-- A NaN source: its sign and its mantissa of `w` bits (R53; DEDUCED, log 26). -/
structure NanSrc where
  neg : Bool
  frac : Nat
  w : Nat
  deriving DecidableEq, Repr

/-- An exact value: ±mag·2^exp (a zero keeps its sign), an infinity, or a NaN with the source it came
from, if any (R52, R53). -/
inductive Val where
  | num (neg : Bool) (mag : Nat) (exp : Int)
  | inf (neg : Bool)
  | nan (src : Option NanSrc)
  deriving DecidableEq, Repr

def Val.isNan : Val → Bool
  | .nan _ => true
  | _ => false

def Val.isZero : Val → Bool
  | .num _ 0 _ => true
  | _ => false

def Val.neg : Val → Val
  | .num s m e => .num (!s) m e
  | .inf s => .inf (!s)
  | .nan n => .nan n

def Val.ofInt (i : Int) : Val := .num (i < 0) i.natAbs 0

/-- Number of bits of `x`: 0 for 0, else 1 + floor(log2 x). -/
def bitLen (x : Nat) : Nat := if x = 0 then 0 else Nat.log2 x + 1

/-- Decodes a floating pattern (R43, R45). -/
def Flt.decode (f : Flt) (x : Nat) : Val :=
  let m := x % 2 ^ f.mb
  let e := (x / 2 ^ f.mb) % 2 ^ f.eb
  let s := bit x (f.mb + f.eb)
  let top := 2 ^ f.eb - 1
  if f.sp = .ieee && e = top then
    if m = 0 then .inf s else .nan (some ⟨s, m, f.mb⟩)
  else if f.sp = .nanOnly && e = top && m = 2 ^ f.mb - 1 then .nan (some ⟨s, m, f.mb⟩)
  else if e = 0 then .num s m (1 - (f.bias : Int) - (f.mb : Int))
  else .num s (2 ^ f.mb + m) ((e : Int) - (f.bias : Int) - (f.mb : Int))

/-- The magnitudes of the NQ4 and LQ4 books, in units of 1/256 (R47). -/
def bookMag (lq : Bool) (i : Nat) : Nat :=
  (if lq then [0, 14, 30, 50, 76, 112, 164, 256] else [0, 22, 46, 73, 104, 142, 190, 256]).getD (i % 8) 0

/-- Decodes an element of a format; codebook pattern 0b1000 is +0 (R43, R47). -/
def Fmt.decode : Fmt → Nat → Val
  | .flt f, x => f.decode x
  | .int true w, x => Val.ofInt (toSigned w x)
  | .int false w, x => .num false (x % 2 ^ w) 0
  | .b1, x => if x % 2 = 1 then .num false 1 0 else .num true 1 0
  | .book lq, x =>
    let m := bookMag lq (x % 8)
    .num (bit x 3 && !decide (m = 0)) m (-8)

/-- The exponent of the largest normal numbers of a format. -/
def Flt.emax (f : Flt) : Int :=
  if f.sp = .ieee then ((2 ^ f.eb : Nat) : Int) - 2 - (f.bias : Int) else ((2 ^ f.eb : Nat) : Int) - 1 - (f.bias : Int)

/-- The largest finite significand of a format, in units of its last place (R43). -/
def Flt.maxSig (f : Flt) : Nat := if f.sp = .nanOnly then 2 ^ (f.mb + 1) - 2 else 2 ^ (f.mb + 1) - 1

/-- The pattern of the largest finite value without its sign. -/
def Flt.maxBits (f : Flt) : Nat :=
  match f.sp with
  | .ieee => (2 ^ f.eb - 1) * 2 ^ f.mb - 1
  | .nanOnly => 2 ^ (f.eb + f.mb) - 2
  | .plain => 2 ^ (f.eb + f.mb) - 1

/-- Sign bit of a pattern. -/
def Flt.sign (f : Flt) (neg : Bool) : Nat := if neg then 2 ^ (f.eb + f.mb) else 0

/-- The infinity pattern without its sign. -/
def Flt.infBits (f : Flt) : Nat := (2 ^ f.eb - 1) * 2 ^ f.mb

/-- The canonical NaN (R45); a format without NaN has none and yields +0 (R55). -/
def Flt.canonical (f : Flt) : Nat :=
  match f.sp with
  | .ieee => f.infBits + 2 ^ (f.mb - 1)
  | .nanOnly => 2 ^ (f.eb + f.mb) - 1
  | .plain => 0

/-- NaN results (R53): the payload is what lies below the source's top mantissa bit, which stands for the quiet bit in .e5m2, .e4m3 and
.e3m4 too (DEDUCED, log 26). -/
def Flt.nanResult (f : Flt) (nanp : Bool) (src : Option NanSrc) : Nat :=
  match nanp, src, f.sp with
  | _, _, .plain => 0
  | true, some n, .nanOnly => f.sign n.neg + (2 ^ (f.eb + f.mb) - 1)
  | true, some n, .ieee =>
    let top := if f.mb ≤ n.w then n.frac / 2 ^ (n.w - f.mb) else n.frac * 2 ^ (f.mb - n.w)
    let q := 2 ^ (f.mb - 1)
    f.sign n.neg + f.infBits + (if bit top (f.mb - 1) then top else top + q)
  | _, _, _ => f.canonical

/-- `m / 2^k` rounded to an integer by a mode, where `sticky` says that a positive amount below the last
bit of `m` was dropped before (R52). -/
def roundShift (md : Rnd) (neg : Bool) (m k : Nat) (sticky : Bool) : Nat :=
  let far := bitLen m + 1 < k
  let q := if far then 0 else m / 2 ^ k
  let r := if far then 0 else m % 2 ^ k
  let inexact := sticky || (if far then !decide (m = 0) else !decide (r = 0))
  let half := if far || k = 0 then 0 else 2 ^ (k - 1)
  let up := match md with
    | .rne => !far && !decide (k = 0) && (decide (half < r) || (r = half && (sticky || q % 2 = 1)))
    | .rz => false
    | .rd => neg && inexact
    | .ru => !neg && inexact
  if up then q + 1 else q

/-- What an overflow gives (R52, R55): `s` is the saturation flag of the operation. -/
def Flt.overflow (f : Flt) (md : Rnd) (s neg : Bool) : Nat :=
  let toMax := match md with
    | .rne => false
    | .rz => true
    | .rd => !neg
    | .ru => neg
  match f.sp with
  | .ieee => f.sign neg + (if s || toMax then f.maxBits else f.infBits)
  | .nanOnly => f.sign neg + (if s || toMax then f.maxBits else 2 ^ (f.eb + f.mb) - 1)
  | .plain => f.sign neg + f.maxBits

/-- What an infinite value gives (R55). -/
def Flt.infinite (f : Flt) (s neg : Bool) : Nat :=
  match f.sp with
  | .ieee => f.sign neg + (if s then f.maxBits else f.infBits)
  | .nanOnly => f.sign neg + (if s then f.maxBits else 2 ^ (f.eb + f.mb) - 1)
  | .plain => f.sign neg + f.maxBits

/-- The finite value ±m·2^e (plus a dropped amount if `sticky`) rounded into a format (R52). -/
def Flt.roundNum (f : Flt) (md : Rnd) (s neg : Bool) (m : Nat) (e : Int) (sticky : Bool) : Nat :=
  if m = 0 then f.sign neg
  else
    let top : Int := e + (bitLen m : Int) - 1
    let emin : Int := 1 - (f.bias : Int)
    if f.emax + 1 < top then f.overflow md s neg
    else
      let qe : Int := max top emin - (f.mb : Int)
      let q := if e ≤ qe then roundShift md neg m (qe - e).toNat sticky else m * 2 ^ (e - qe).toNat
      let carry := q = 2 ^ (f.mb + 1)
      let q' := if carry then 2 ^ f.mb else q
      let qe' : Int := if carry then qe + 1 else qe
      let te : Int := qe' + (f.mb : Int)
      if q' < 2 ^ f.mb then f.sign neg + q'
      else if f.emax < te || (te = f.emax && f.maxSig < q') then f.overflow md s neg
      else f.sign neg + ((te + (f.bias : Int)).toNat * 2 ^ f.mb + (q' - 2 ^ f.mb))

/-- An exact value rounded into a floating format; `s` saturates (R52, R53, R55). -/
def Flt.round (f : Flt) (md : Rnd) (s nanp : Bool) : Val → Nat
  | .nan n => f.nanResult nanp n
  | .inf neg => f.infinite s neg
  | .num neg m e => f.roundNum md s neg m e false

/-- A finite value rounded to an integer (R55). -/
def roundInt (md : Rnd) (neg : Bool) (m : Nat) (e : Int) : Int :=
  let a := if 0 ≤ e then m * 2 ^ (min e.toNat 1200) else roundShift md neg m (-e).toNat false
  if neg then -(a : Int) else a

/-- Clamps a number into the range of an integer format and gives its pattern (R55). -/
def clampInt (signed : Bool) (w : Nat) (i : Int) : Nat :=
  let lo : Int := if signed then -((2 ^ (w - 1) : Nat) : Int) else 0
  let hi : Int := if signed then ((2 ^ (w - 1) : Nat) : Int) - 1 else ((2 ^ w : Nat) : Int) - 1
  (max lo (min hi i) % ((2 ^ w : Nat) : Int)).toNat

/-- The table of R55: a value converted into a format code. -/
def convert (md : Rnd) (s nanp : Bool) (f : Fmt) (v : Val) : Nat :=
  match f with
  | .flt g => g.round md s nanp v
  | .int signed w =>
    match v with
    | .nan _ => 0
    | .inf neg => clampInt signed w (if neg then -(2 ^ 70 : Int) else 2 ^ 70)
    | .num neg m e => clampInt signed w (roundInt md neg m e)
  | .b1 =>
    match v with
    | .nan _ => 1
    | .inf neg => if neg then 0 else 1
    | .num neg m _ => if neg && !decide (m = 0) then 0 else 1
  | .book _ => 0

/-- A term of an exact sum: sign, magnitude, exponent. -/
abbrev Term := Bool × Nat × Int

/-- The smallest exponent of the nonzero terms. -/
def minExp : List Term → Option Int
  | [] => none
  | (_, m, e) :: ts =>
    if m = 0 then minExp ts
    else match minExp ts with
      | none => some e
      | some e' => some (min e e')

/-- The sum of the terms in units of 2^e. -/
def sumAt (e : Int) : List Term → Int
  | [] => 0
  | (s, m, x) :: ts =>
    (if m = 0 then 0 else (if s then -1 else 1) * ((m * 2 ^ (x - e).toNat : Nat) : Int)) + sumAt e ts

/-- An exact sum, with the sign of an exact zero as R52 gives it. -/
def exactSum (md : Rnd) (ts : List Term) : Val :=
  match minExp ts with
  | none =>
    if ts.all (fun t => !t.1) then .num false 0 0
    else if ts.all (fun t => t.1) then .num true 0 0
    else .num (md = .rd) 0 0
  | some e =>
    let t := sumAt e ts
    if t = 0 then .num (md = .rd) 0 0 else .num (t < 0) t.natAbs e

/-- The first NaN of a list of sources (R53). -/
def firstNan : List Val → Option Val
  | [] => none
  | .nan s :: _ => some (.nan s)
  | _ :: vs => firstNan vs

/-- An exact product of two values that are not NaN; 0·∞ is invalid (R174). -/
def mulVal : Val → Val → Val
  | .num s m e, .num t n f => .num (s != t) (m * n) (e + f)
  | .inf s, .inf t => .inf (s != t)
  | .inf s, .num t n _ => if n = 0 then .nan none else .inf (s != t)
  | .num s m _, .inf t => if m = 0 then .nan none else .inf (s != t)
  | .nan s, _ => .nan s
  | _, .nan s => .nan s

/-- An exact sum of two values that are not NaN; ∞ − ∞ is invalid (R174). -/
def addVal (md : Rnd) : Val → Val → Val
  | .num s m e, .num t n f => exactSum md [(s, m, e), (t, n, f)]
  | .inf s, .inf t => if s = t then .inf s else .nan none
  | .inf s, .num .. => .inf s
  | .num .., .inf t => .inf t
  | .nan s, _ => .nan s
  | _, .nan s => .nan s

/-- va + vb, NaN sources in order (R174). -/
def valAdd (md : Rnd) (a b : Val) : Val := (firstNan [a, b]).getD (addVal md a b)
/-- va − vb is va + (−vb) (R52). -/
def valSub (md : Rnd) (a b : Val) : Val := (firstNan [a, b]).getD (addVal md a b.neg)
/-- va · vb. -/
def valMul (a b : Val) : Val := (firstNan [a, b]).getD (mulVal a b)
/-- va · vb + c with one rounding to come. -/
def valFma (md : Rnd) (a b c : Val) : Val := (firstNan [a, b, c]).getD (addVal md (mulVal a b) c)
/-- −(va · vb) + c. -/
def valFnma (md : Rnd) (a b c : Val) : Val := (firstNan [a, b, c]).getD (addVal md (mulVal a b).neg c)
/-- va · 2^n (FLDX, R175). -/
def valScale (a : Val) (n : Int) : Val :=
  match a with
  | .num s m e => .num s m (e + n)
  | v => v

/-- a < b on values that are not NaN; the two zeros are equal. -/
def valLt : Val → Val → Bool
  | .num s m e, .num t n f =>
    let x := min e f
    decide ((if s then -1 else 1) * ((m * 2 ^ (e - x).toNat : Nat) : Int)
      < (if t then -1 else 1) * ((n * 2 ^ (f - x).toNat : Nat) : Int))
  | .num .., .inf t => !t
  | .inf s, .num .. => s
  | .inf s, .inf t => s && !t
  | _, _ => false

/-- a = b on values that are not NaN. -/
def valEq (a b : Val) : Bool := !a.isNan && !b.isNan && !valLt a b && !valLt b a

def Val.isNeg : Val → Bool
  | .num s _ _ => s
  | .inf s => s
  | .nan _ => false

/-- a < b where −0 is less than +0 (R176). -/
def valLtZ (a b : Val) : Bool := valLt a b || (a.isZero && b.isZero && a.isNeg && !b.isNeg)

/-- The minimum and maximum forms of R176 on patterns: NaN-propagating, or preferring a number. -/
def Flt.minmax (f : Flt) (nanp isMax number : Bool) (x y : Nat) : Nat :=
  let a := f.decode x
  let b := f.decode y
  if number && a.isNan && !b.isNan then y
  else if number && b.isNan && !a.isNan then x
  else match firstNan [a, b] with
    | some (.nan n) => f.nanResult nanp n
    | _ => if isMax then (if valLtZ a b then y else x) else (if valLtZ b a then y else x)

/-- The sum behind one dot group and the accumulator (R58, R59): NaN, then infinities, then the exact sum. -/
def groupSum (acc : Val) (prods : List Val) : Val :=
  let all := acc :: prods
  if all.any Val.isNan then .nan none
  else
    let pos := all.any (fun v => v = .inf false)
    let neg := all.any (fun v => v = .inf true)
    if pos && neg then .nan none
    else if pos then .inf false
    else if neg then .inf true
    else exactSum .rne (all.map fun v => match v with | .num s m e => (s, m, e) | _ => (false, 0, 0))

end Sys2Proof.Machine
end

