-- ==== Sys2Proof/Config.lean ====
section
/-! DEFINITION. What an implementation fixes or the spec leaves open. Every constant without a body is a
free value: nothing can be proved of its value (DESIGN CHOICE, log 4, 9, 11; PRESUMED, log 8). The capacities are the spec's. -/

namespace Sys2Proof.Config

/-- The n-th undefined 32-bit value (R5). -/
opaque freeWord : Nat → BitVec 32
/-- The n-th undefined byte (R5, R115). -/
opaque freeByte : Nat → BitVec 8
/-- The n-th choice of old or new (R20), and of a peer's refusal (R332). -/
opaque freeBit : Nat → Bool

/-- ML-DSA-87 verification of a signature over a message by a public key (R333, R336). -/
opaque mldsaVerify : List Byte → List Byte → List Byte → Bool
/-- ML-DSA-87 signature of a message by the private key with a number: 0 identity, 1 audit (R248, R334). -/
opaque mldsaSign : Nat → List Byte → List Byte
/-- The 2,592-byte public keys: 0 identity, 1 audit, 2 Keralmord root (R333, R334). -/
opaque mldsaPublic : Nat → List Byte
/-- The 1,568-byte ML-KEM-1024 encapsulation public key (R334). -/
opaque mlkemPublic : List Byte
/-- ML-KEM-1024 decapsulation to a shared secret (R335). -/
opaque mlkemDecap : List Byte → List Byte
/-- The AES-256 unwrapping of a 40-byte wrapped key under a shared secret; none where its check fails (R335). -/
opaque keyUnwrap : List Byte → List Byte → Option (List Byte)
/-- The fuse settings that attestation measures (R334). -/
opaque fuses : List Byte
/-- The security state at reset: true is manufacturing (R336). -/
opaque manufacturing : Bool
/-- A fresh 32-byte debug nonce (R328). -/
opaque freshNonce : Nat → List Byte
/-- The number of 64 KiB frames that the carafe of a team of this many saved bytes takes (R304; DESIGN CHOICE, log 9). -/
opaque carafeFrames : Nat → Nat

/-- Cores in the package (R8). -/
def cores : Nat := 192
/-- Arithmetic clocks in one microsecond (R302; DESIGN CHOICE, log 10). -/
def clocksPerUs : Nat := 1500
/-- Walks that a translation unit runs at once (R82). -/
def walksPerSlice : Nat := 16
/-- Leaf entries of a slice's TLB (R79). -/
def tlbEntries : Nat := 2048
/-- Entries of a slice's nested TLB (R79). -/
def ntlbEntries : Nat := 512
/-- Operations in a core's matrix queue (R206). -/
def matrixQueue : Nat := 16
/-- Records of an audit ring (R247). -/
def auditRing : Nat := 16384
/-- Records of an audit block (R248). -/
def auditBlock : Nat := 4096
/-- Event records of one function that may wait (R329). -/
def eventsHeld : Nat := 4096

end Sys2Proof.Config
end

