-- ==== Sys2Proof/Machine/State.lean ====
section
/-! DEFINITION. The state of the X9 package as plain data (INVENTORY.md lists every field with its rule), the
reasons a step can stop, and the state right after device reset. -/

namespace Sys2Proof.Machine

/-- Why the machine stops with a fault. -/
inductive Fault where
  /-- A physical access at an address the map leaves unmapped (R64); noted by `touch` of Phys.lean and raised by `finish`
  (DESIGN CHOICE, log 5). Safe: the model stops where the spec gives no result. -/
  | unmapped (pa : Nat)
  deriving DecidableEq, Repr

/-- Why an instruction has no meaning. -/
inductive Refusal where
  /-- An instruction the model gives no meaning yet; raised by the arms of exec. Safe. -/
  | notModelled (mnemonic : String)
  deriving DecidableEq, Repr

/-- A thread's life (R182, R294). -/
inductive Life where
  | free | live | exited
  deriving DecidableEq, Repr

/-- An access under way that holds a translation over several steps: a tile operation's operand fetch (R67), a chunk of a chain
channel (R133), a packed atomic between its halves (R70). -/
inductive Flight where
  | mop (id : Nat)
  | chunk (ch rec_ k : Nat)
  | half (team tid group : Nat)
  deriving DecidableEq, Repr

/-- What a thread waits for (R197, R283). -/
inductive Wait where
  | ready
  | counters (l s c t : Nat)          -- WAITC, EXIT, relational and PFREE waits: limits on ld, st, cp, tl
  | limit                             -- an outstanding counter at 63 (R33)
  | copySlot                          -- a copy-queue entry (R107)
  | barrier (addr : Nat) (par : Bool) -- BWAIT (R121)
  | flag (addr : Nat) (v : Nat) (met : Bool) -- WAITA (R122)
  | ring (va : Nat)                   -- RAWAIT (R130)
  | audit                             -- PDIG (R245)
  | sleep (until_ : Nat)              -- SLEEPC (R289)
  | walk (w : Nat)                    -- joined a translation walk (R82)
  | tlbi (l : List Flight)            -- TLBI's final step (R87)
  | latchBusy                         -- its laneset stands in an unopened latch (R205)
  | matrixSlot                        -- an entry of the matrix queue (R206)
  | parked                            -- holds a park record (R296)
  | arrived (unit tag : Nat)          -- at an open relational instance (R185)
  | nonMember (unit tag : Nat)        -- waits for an open instance to complete (R183)
  | tbar
  | rcv (n : Nat)
  | regs (take : Bool) (k : Nat)      -- arrived at RGIVE or RTAKE (R146)
  | room (fn : Nat)                   -- room for a further event record of its function (R329)
  | claim                             -- holds a queued RTAKE claim
  | gang (mask : Nat)                 -- waits in a gang latch (R205)
  deriving DecidableEq, Repr

/-- A failure of an engine that a thread will take as a trap (R127, R215). -/
structure Failure where
  tile : Bool                         -- a tile operation's, else a copy's
  cause : Nat
  info : Nat
  tfa : Nat
  tia : Nat
  deriving DecidableEq, Repr

/-- A packed atomic between its halves (R70): its address, the old low half, and what the high half needs. `group` names the
issue group whose lanes merge (R69). -/
structure Half where
  pa : Nat
  va : Nat
  low : Nat
  f : Nat
  high : Nat
  scope : Nat
  group : Nat
  deriving DecidableEq, Repr

/-- A WALK as the walk unit has captured it at issue: the handle's entry, the node state, the feature row (R15, R249). -/
structure WalkCmd where
  handle : BitVec 512
  node : Nat
  row : Nat
  deriving DecidableEq, Repr

/-- A node read that stands in the walk unit's queue while its thread goes on (R249, R259): the command, its first register and handle
number, the node's parts as translated, and the bytes as they were then. -/
structure NodeRead where
  cmd : WalkCmd
  d : BitVec 7
  handle : Nat
  parts : List (Nat × Nat × Nat)
  bytes : List Byte
  deriving DecidableEq, Repr

/-- An issued instruction that executes further without being issued again (R70, R82, R87, R122): none where its fetch is still to be made,
the address of its 32-bit word and of the next instruction, its prefix, and the issue group it belongs to. The model's own (DESIGN CHOICE, log 49). -/
structure Resume where
  instr : Option Instr
  word : BitVec 64
  next : BitVec 64
  x : BitVec 12
  vc : BitVec 7
  group : Nat
  deriving DecidableEq, Repr

/-- A thread (R33, R35, R143, R243, R291, R311). -/
structure Thread where
  life : Life
  pc : BitVec 64
  regs : Vector (BitVec 32) 128
  preds : BitVec 32                   -- bit 0 is p0, which reads 1
  lr : BitVec 64
  tpc : BitVec 64
  tfa : BitVec 64
  tia : BitVec 64
  tcause : BitVec 32
  tinfo : BitVec 32
  spanPass : Bool
  spanLeft : Nat
  savedPass : Bool
  savedLeft : Nat
  handler : Bool
  rcvs : Vector (BitVec 32) 16
  trail : List Byte
  steps : Nat
  ld : Nat
  st : Nat
  cp : Nat
  tl : Nat
  failures : List Failure
  lastRebal : Option Nat              -- scope unit of its last REBAL (R196)
  half : Option Half
  command : Option WalkCmd            -- its WALK in the walk unit's queue (R249, R259)
  node : Option NodeRead              -- a WALK's node read still queued (R259)
  resume : Option Resume              -- its instruction has been issued and executes further (log 49)
  wait : Wait
  next : BitVec 64                    -- where it goes on when a wait inside its instruction ends
  since : Nat                         -- clock at which the wait began
  passes : Nat                        -- pass count (R285)
  deriving DecidableEq, Repr

/-- A slot that nothing has launched (DESIGN CHOICE, log 7). -/
def Thread.unused : Thread :=
  { life := .free, pc := 0, regs := Vector.replicate 128 0, preds := 1, lr := 0, tpc := 0, tfa := 0, tia := 0, tcause := 0,
    tinfo := 0, spanPass := false, spanLeft := 0, savedPass := false, savedLeft := 0, handler := false,
    rcvs := Vector.replicate 16 0, trail := [], steps := 0, ld := 0, st := 0, cp := 0, tl := 0, failures := [],
    lastRebal := Option.none, half := Option.none
    command := Option.none, node := Option.none, resume := Option.none, wait := .ready, next := 0, since := 0, passes := 0 }

/-- An entry of a write buffer W (R249): virtual address, the physical address its store was translated
to, and bytes; oldest first in the buffer (DESIGN CHOICE, log 44). -/
structure WEntry where
  va : Nat
  pa : Nat
  bytes : List Byte
  deriving DecidableEq, Repr

/-- A laneset of a team (R143, R204, R294). -/
structure Laneset where
  stage : Nat
  count : Nat                         -- registers of each thread
  gang : BitVec 64
  retired : Bool
  deriving DecidableEq, Repr

/-- A kernel descriptor (R272), tops in KiB. -/
structure Desc where
  entry : Nat
  handler : Nat
  drains : Nat
  lanesets : List Nat
  regs : List Nat
  padKiB : Nat
  copyslots : Nat
  acctiles : Nat
  nd : Nat
  park : Nat
  bond : Nat
  sig : Nat × Nat × Nat
  deriving DecidableEq, Repr

/-- A gang rendezvous latch (R205). -/
structure Latch where
  mask : Nat
  word : Instr
  issued : List (Nat × Nat × List Nat)  -- laneset, first byte of its word ($tia), threads
  counted : List Nat                  -- threads whose tl its issues raised (R207)
  deriving DecidableEq, Repr

/-- One arrival at a relational instance with its captured operands (R184). -/
structure Arrival where
  tid : Nat
  dst : Nat                           -- first value or destination register
  key : Nat
  vals : List (BitVec 32)
  mode : BitVec 32
  regs : Vector (BitVec 32) 128       -- captured for a JOIN (R192)
  preds : BitVec 32
  deriving DecidableEq, Repr

/-- An open relational instance (R183); `op` is the word of its first arrival without its destinations. -/
structure Inst where
  unit : Nat
  tag : Nat
  op : Instr
  x : Nat                             -- extension bits of its first arrival
  extra : Nat × Nat                   -- JOIN: spec address and cursor
  members : List Nat
  arrivals : List Arrival
  deriving DecidableEq, Repr

/-- A place on a core: core, team slot, base of the pad window in KiB (R137). -/
structure Place where
  core : Nat
  slot : Nat
  padBase : Nat
  deriving DecidableEq, Repr

/-- Where a team is in its life (R295, R303, R306). -/
inductive Phase where
  | unplaced | resident | swapping | away | ended
  deriving DecidableEq, Repr

/-- A reason for a swap (R302, R307, R309, R282). -/
inductive Reason where
  | park | vacate | fork (children : List (Nat × Nat × Nat))  -- FORK: vf, ring and packet pointer of its packets
  deriving DecidableEq, Repr

/-- A finished tile operation that some laneset has not waited for (R218): its mask, the tiles it read and
wrote, the handles its drain stored through, the lanesets whose WAITC covers it. -/
structure Unseen where
  mask : Nat
  reads : List Nat
  writes : List Nat
  outs : List (BitVec 512)
  seenBy : List Nat
  deriving DecidableEq, Repr

/-- A completed copy whose completion no thread has observed (R115): its number, the team and thread that issued it, its completion word, and
the pad bytes of its image, which the copy wrote where `fills` is set. -/
structure Landed where
  id : Nat
  team : Nat
  tid : Nat
  cpl : Nat
  lo : Nat
  hi : Nat
  fills : Bool
  deriving DecidableEq, Repr

/-- A team (R249, R265, R269, R305). -/
structure Team where
  phase : Phase
  grid : Nat                          -- key of its grid
  gridId : BitVec 32                  -- $grid
  index : Nat
  x : Nat
  y : Nat
  z : Nat
  vf : Nat
  vmid : Nat
  asid : Nat
  super : Bool
  place : Option Place
  lastCore : Nat
  desc : Desc
  mode : BitVec 32
  kargs : List (BitVec 32)
  handles : Vector (BitVec 512) 64
  drains : List (List (BitVec 32))    -- slot images 1 to nd
  pad : Store Byte
  unfenced : List (Nat × Byte × Nat) -- pad bytes not operand-visible: address, value before, writer (R258)
  tiles : Store (BitVec 32)           -- key 4096·tile + 64·row + column
  account : Nat
  claims : List (Nat × Nat)           -- laneset, blocks
  lanesets : List Laneset
  w : List WEntry
  snap : Store (List Byte)            -- S: key VA / 32, an empty list is an empty sector
  interval : Nat
  bufFree : BitVec 16
  latches : List Latch
  unseen : List Unseen
  landed : List Landed
  insts : List Inst
  tables : Store (List (Nat × Nat × Nat)) -- REBAL tables by scope unit: $tid, start, count
  reasons : List Reason
  swapNo : Nat                        -- order of its swap
  frames : List Nat                   -- carafe frames
  starved : Bool                      -- its swap has reported too few frames (R304)
  lastIssue : Nat
  admitted : Nat
  threads : Store Thread
  deriving DecidableEq, Repr

/-- A descriptor of nothing. -/
def Desc.zero : Desc := ⟨0, 0, 0, [], [], 0, 0, 0, 0, 0, 0, (0, 0, 0)⟩

/-- A team that does not exist. -/
def Team.absent : Team :=
  { phase := .ended, grid := 0, gridId := 0, index := 0, x := 0, y := 0, z := 0, vf := 0, vmid := 0, asid := 0, super := false,
    place := Option.none, lastCore := 0, desc := Desc.zero, mode := 0, kargs := [], handles := Vector.replicate 64 0, drains := [],
    pad := [], unfenced := [], tiles := [], account := 0, claims := [], lanesets := [], w := [], snap := [], interval := 0, bufFree := 0xFFFF,
    latches := [], unseen := [], landed := [], insts := [], tables := [], reasons := [], swapNo := 0, frames := [], starved := false, lastIssue := 0,
    admitted := 0, threads := [] }

/-- A launch packet's fields that outlive its start (R274). -/
structure Grid where
  vf : Nat
  vmid : Nat
  ring : Nat
  id : BitVec 32
  level : Nat
  x : Nat
  y : Nat
  z : Nat
  asid : Nat
  super : Bool
  mode : BitVec 32
  desc : Desc
  kargs : List (BitVec 32)
  images : List (List (BitVec 32))
  cpladdr : Nat
  cplval : Nat
  next : Nat                          -- linear index of the next team to place
  waitSince : Option Nat              -- clock since which the next team fits no core (R279)
  order : Nat
  pteam : Option (Nat × Nat)          -- FORK: parent $grid and team
  pkt : Nat                           -- packet pointer
  deriving DecidableEq, Repr

/-- A copy command's phase (R107, R125, R126). -/
inductive CopyPhase where
  | queued | parked | staged | done | failed
  deriving DecidableEq, Repr

/-- A copy command with what it captured at issue (R108). -/
structure Copy where
  id : Nat
  team : Nat
  tid : Nat
  tia : Nat
  f : Nat
  pad : Nat
  a1 : Nat                            -- row0 or index offset
  a2 : Nat                            -- col0 or count
  cpl : Nat
  flag : BitVec 32
  h : BitVec 512
  link : BitVec 512
  mode : BitVec 32
  row : Nat                           -- next piece: box row and byte in the row
  off : Nat
  idx : List Nat                      -- indices read so far (R114)
  stage : List Byte                   -- staging store of a TMCAST (R125)
  phase : CopyPhase
  clash : List (Option Nat × Nat)     -- bytes written under it: the team of the pad, or none for memory; address (R115, R158)
  arrived : Nat                       -- units that have arrived at its barrier (R117)
  deriving DecidableEq, Repr

/-- A tile operation's phase (R206, R214, R219, R229). -/
inductive MopPhase where
  | queued | fetched | granted | draining (row : Nat) | parked (row : Option Nat)
  deriving DecidableEq, Repr

/-- A tile operation with what it captured at its opening (R206, R228). -/
structure Mop where
  id : Nat
  team : Nat
  mask : Nat
  word : Instr
  issuers : List (Nat × Nat × List Nat) -- laneset, first byte of its word, threads
  ha : BitVec 512
  hb : BitVec 512
  hm : BitVec 512                     -- metadata handle
  mode : BitVec 32
  slot : List (BitVec 32)
  outs : List (Nat × BitVec 512)      -- handles of the output words
  vecs : List (Nat × List (BitVec 32)) -- captured vectors: kind·256 + number
  scales : Store (BitVec 32)          -- superblock scales by address (R228)
  pages : List (Nat × Nat)            -- page to frame of the operand pages (R214)
  phase : MopPhase
  pad : Store Byte                    -- the pad as the operand reads see it (R206)
  clash : List (Bool × Nat)           -- bytes written under it: in the pad, address (R217)
  taint : List (BitVec 512)           -- handles that unfinished or unseen operations store through (R218)
  undef : List Nat                    -- tiles that hold undefined values (R217, R218)
  counted : List Nat                  -- threads whose tl counts it (R207)
  deriving DecidableEq, Repr

/-- Who holds a park record (R297). -/
inductive Owner where
  | thread (team tid : Nat)
  | copy (id : Nat)
  | mop (id : Nat)
  | chan (ch : Nat)
  | packet (vf ring : Nat)            -- the dispatcher's reads for a launch packet (R275)
  | grid (g : Nat)                    -- a grid's completion (R277)
  deriving DecidableEq, Repr

/-- What a park record waits for. -/
inductive ParkState where
  | waiting (fault : Nat)
  | resolved (n : Nat)                -- order of its resolution (R300)
  | failed (n : Nat) (cause info : Nat)
  deriving DecidableEq, Repr

/-- The instruction of a parked access, for its replay (R300): first byte, word, next instruction, restart
piece, prefix. -/
structure Parked where
  instr : Instr
  pc : BitVec 64
  word : BitVec 64
  next : BitVec 64
  piece : Nat
  x : BitVec 12
  vc : BitVec 7
  deriving DecidableEq, Repr

/-- A park record (R297). -/
structure Park where
  id : Nat
  owner : Owner
  team : Nat
  va : Nat
  kind : Nat                          -- access kinds of R299
  time : Nat
  origin : Nat
  tid : Nat
  instr : Option Parked
  state : ParkState
  deriving DecidableEq, Repr

/-- An open fault on a page (R298, R299). -/
structure FaultRec where
  id : Nat
  vmid : Nat
  asid : Nat
  page : Nat
  vf : Nat
  pteAddr : Nat                       -- physical address of the leaf
  kind : Nat
  major : Option (Nat × Nat)          -- fid, reason
  stage : Nat                         -- stage of an entry not valid (R84)
  held : Option Nat                   -- frame held for a migration (R96)
  pend : Option (Nat × Nat)           -- reason and clock of a major fault whose record waits for room (R299, R329)
  key : Option (List Byte)            -- the key of a running promotion whose slot has been cleared (R326, R335)
  deriving DecidableEq, Repr

/-- A chain channel (R131 to R133). -/
inductive ChanPhase where
  | stopped | readRecord
  | chunk (k : Nat)                   -- chunk k is next to be translated
  | moving (k off src dst : Nat)      -- physical addresses of chunk k's first bytes
  | ending (k status tcode : Nat)     -- bytes 0 to 15 are next to be written
  | completing (status : Nat)
  | follow
  deriving DecidableEq, Repr

/-- A chain channel's state. -/
structure Chan where
  phase : ChanPhase
  rec_ : Nat
  bytes : List Byte                   -- the record as read
  vf : Nat
  vmid : Nat
  asid : Nat
  super : Bool
  deriving DecidableEq, Repr

/-- A TLB entry (R79): the slice it stands in, tags, the leaf it was filled from and the physical address
of its page. -/
structure TlbEntry where
  slice : Nat
  vmid : Nat
  asid : Nat
  page : Nat                          -- first virtual address
  big : Bool
  leaf : BitVec 64
  leafAddr : Nat
  pa : Nat
  deriving DecidableEq, Repr

/-- A nested TLB entry (R79). -/
structure NtlbEntry where
  slice : Nat
  vmid : Nat
  gpage : Nat
  big : Bool
  pa : Nat
  deriving DecidableEq, Repr

/-- What a walk finds (R80): a leaf with its address, the physical frame of the page, whether the leaf stands at the middle level, whether
the translation holds for the whole 256 MiB page, and the nested entries it used; an entry not valid, a format error (with the stage),
an invalid record, an uncorrectable error. -/
inductive Walked where
  | leaf (pte addr pa : Nat) (big wide : Bool) (fills : List NtlbEntry)
  | invalid (stage : Nat)
  | format (stage : Nat)
  | record
  | ecc
  deriving DecidableEq, Repr

/-- A walk in progress or in its queue (R82) and the requests attached to it. -/
structure Walk where
  vmid : Nat
  asid : Nat
  va : Nat
  waiters : List Owner
  deriving DecidableEq, Repr

/-- The result of a finished walk, kept for a request that was attached to it (R82). -/
structure WalkAnswer where
  owner : Owner
  vmid : Nat
  asid : Nat
  va : Nat
  result : Walked
  deriving DecidableEq, Repr

/-- A write of the outbound queue (R249). -/
structure OutWrite where
  team : Nat
  pa : Nat
  bytes : List Byte
  link : Bool
  deriving DecidableEq, Repr

/-- A resident range (R101); offset in the resident region. -/
structure Range where
  grid : Nat
  vmid : Nat
  asid : Nat
  base : Nat
  len : Nat
  off : Nat
  live : Bool
  bytes : List Byte
  filler : Nat × Nat                  -- team and thread of the TRES
  src : List Nat                      -- physical address of each piece of 256 bytes
  stale : List Nat                    -- offsets of bytes that have been written in memory since (R104)
  deriving DecidableEq, Repr

/-- A core: the signature it has taken, and its resident ranges (R101, R136). -/
structure Core where
  sig : Option (Nat × Nat × Nat)
  ranges : List Range
  deriving DecidableEq, Repr

/-- A quadrant (R284, R285, R289): lanesets named by team key and number. -/
structure Quad where
  active : List (Nat × Nat × Nat)     -- team, laneset, active since, in the order of their next turns
  pending : List (Nat × Nat × Option Nat) -- team, laneset, clock since which it has held a ready thread
  holds : List ((Nat × Nat) × List (Nat × Nat) × Nat) -- PASS: laneset, its set, clock of the PASS
  lastExchange : Nat
  deriving DecidableEq, Repr

/-- A quadrant with no laneset. -/
def Quad.idle : Quad := ⟨[], [], [], 0⟩

/-- A shadow entry of the race detector (R265): scope, interval, the writing team. -/
structure Shadow where
  scope : Nat
  interval : Nat
  team : Nat
  deriving DecidableEq, Repr

/-- A virtual function (R323, R324, R246 to R248, R334): the audit ring and the block signatures stand here, beside memory (R247;
DESIGN CHOICE, log 50). -/
structure Vf where
  cfg : BitVec 128
  ringtab : BitVec 64
  mqhdr : BitVec 64
  ringCopy : List (BitVec 128)        -- the dispatcher's copy of the ring table
  wakes : Store Nat                   -- wake counts of rings (R316)
  bells : Store (Nat × Bool)          -- per ring: wp as last signalled or read, and whether a signal is outstanding (R15, R275)
  nextFid : Nat
  auditSeq : Nat
  auditTaken : Nat
  auditSigned : Nat                   -- records of signed blocks
  auditRecs : Store (List Byte)       -- by slot of the ring
  auditChain : List Byte
  signatures : List (List Byte)
  sealChain : List Byte
  deriving DecidableEq, Repr

/-- A virtual function at reset (DESIGN CHOICE, log 7). -/
def Vf.unset : Vf := ⟨0, 0, 0, [], [], [], 0, 0, 0, 0, [], List.replicate 64 0, [], List.replicate 64 0⟩

/-- A vacate request (R309): the grid and its `$grid`, the chosen cores, the function to tell, the teams whose swaps are awaited,
whether the cores are closed to the grid, and whether its record has been written. -/
structure Vacate where
  grid : Nat
  id : BitVec 32
  vmid : Nat
  cores : List Nat
  fn : Nat
  waiting : List Nat
  closed : Bool
  done : Bool
  deriving DecidableEq, Repr

/-- A page on its way out of its frame: a demotion (R93) or a migration to a peer (R96). Its leaf is in transit; `old` is the leaf as it
was, `fn` the function that waits for it, 257 where a reset has discarded its command (R326). -/
structure Move where
  fn : Nat
  vmid : Nat
  asid : Nat
  page : Nat
  leafAddr : Nat
  old : Nat
  frame : Nat
  tier : Option Nat                   -- the tier frame of a demotion
  request : Option MigRequest
  wait : List Flight
  key : Option (List Byte)            -- the key of a demotion whose slot has been cleared (R326, R335)
  deriving DecidableEq, Repr

/-- A SEAL or FREE past its first step (R98, R99): its command, its pages' frames, and the accesses it waits for. -/
structure Job where
  fn : Nat
  cmd : Nat
  frames : List Nat
  wait : List Flight
  deriving DecidableEq, Repr

/-- The answer to a host or peer access: its bytes, a completion error, poisoned data, a refusal (R99, R332, R339). -/
inductive Reply where
  | bytes (b : List Byte)
  | error
  | poisoned
  | refused
  deriving DecidableEq, Repr

/-- The issue group being executed (R161, R285): team, laneset, its lanes, the address of the first byte
($tia), of the 32-bit word, and of the next instruction; the prefix's x and vc; and whether this is the
replay of one thread's access (R300). The model's own field (DESIGN CHOICE, log 3). -/
structure Issue where
  team : Nat
  laneset : Nat
  mask : BitVec 32
  pc : BitVec 64
  word : BitVec 64
  next : BitVec 64
  x : BitVec 12
  vc : BitVec 7
  guard : Option (BitVec 5 × BitVec 1)
  replay : Option Nat                 -- the piece a replay restarts at
  deriving DecidableEq, Repr

/-- The package. -/
structure State where
  -- the model's own
  agenda : List Instr
  follow : Option Instr
  cur : Issue
  turn : Nat
  freeCount : Nat
  halt : Option Fault
  jam : Bool                          -- a record of this step finds no room to wait (R329)
  nextKey : Nat
  -- clock and memory
  clock : Nat
  mem : List Host.Cell
  poison : List Nat
  outbound : List OutWrite
  tlb : List TlbEntry
  ntlb : List NtlbEntry
  walks : List (Nat × Walk)
  answers : List WalkAnswer
  icache : List (Nat × Nat × BitVec 16) -- halfwords that writes have replaced: key, address, old value (R20)
  sealMap : List Nat
  tierRecs : Store (Nat × List (List Byte))
  shadow : Store (Option Shadow)
  dropped : Store Nat
  -- cores and teams
  cores : Store Core
  quads : Store Quad
  teams : Store Team
  grids : Store (Option Grid)
  rrPos : Store Nat
  -- engines
  copies : List Copy
  mops : List Mop
  chans : Store Chan
  parks : List Park
  faults : List FaultRec
  moves : List Move
  jobs : List Job
  resolveNo : Nat
  -- host, management and peers
  vfs : Store Vf
  vmtbase : BitVec 64
  peerid : BitVec 32
  powercap : BitVec 32
  pstate : BitVec 32
  pfmq : BitVec 64
  peerroute : Store (BitVec 32)
  pfFid : Nat
  mqBells : Store (Nat × Bool)        -- per function: wp of its management queue as last signalled, a signal outstanding (R327)
  hostBlocks : List Nat               -- 64-byte blocks of memory that the host wrote last, which may be launch packets (R282)
  debug : BitVec 2
  fatal : Bool
  hot : Bool
  idle : Bool
  off : Bool                          -- power state P4 (R337)
  images : List FwImage               -- firmware measured at boot (R333)
  firmware : List Byte
  nonce : Option (List Byte)
  keys : Store (Option (List Byte))
  exports : Store Nat                 -- per frame: granted tenant + 1, 0 for none
  portsUp : BitVec 12
  evWait : List (Nat × List Byte)
  msix : List (Nat × Nat)
  wakeReg : List (Nat × Nat)
  vacates : List Vacate
  errCounts : Store Nat
  errClock : Store Nat
  hostReply : Reply
  peerReply : Reply
  migReply : Option MigReply
  deriving DecidableEq, Repr

/-- No issue group. -/
def Issue.idle : Issue := ⟨0, 0, 0, 0, 0, 0, 0, 0, Option.none, Option.none⟩

/-- The package right after device reset (R35, R136, R246, R265, R322 to R324, R332; DESIGN CHOICE, log 7). -/
def State.reset : State :=
  { agenda := [], follow := none, cur := Issue.idle, turn := 0, freeCount := 0, halt := none, jam := false, nextKey := 1,
    clock := 0, mem := [], poison := [], outbound := [], tlb := [], ntlb := [], walks := [], answers := [], icache := [], sealMap := [],
    tierRecs := [], shadow := [], dropped := [], cores := [], quads := [], teams := [], grids := [], rrPos := [],
    copies := [], mops := [], chans := [], parks := [], faults := [], moves := [], jobs := [], resolveNo := 0,
    vfs := [], vmtbase := 0, peerid := 0, powercap := 3000, pstate := 0, pfmq := 0, peerroute := [], pfFid := 0, mqBells := [], hostBlocks := [],
    debug := 0, fatal := false, hot := false, idle := false, off := false, images := [], firmware := List.replicate 64 0,
    nonce := none, keys := [], exports := [], portsUp := 0xFFF, evWait := [], msix := [], wakeReg := [], vacates := [],
    errCounts := [], errClock := [], hostReply := .bytes [], peerReply := .bytes [], migReply := none }

/-- What an unlisted byte of memory reads as (DESIGN CHOICE, log 6). -/
def memDefault : Byte := 0

/-- The canonical form of memory: addresses strictly rising, no entry equal to the unlisted value (DESIGN CHOICE, log 6). -/
def Memory.wf (m : List Host.Cell) : Bool := Store.wf memDefault m

end Sys2Proof.Machine
end

