-- ==== Sys2Proof/Machine/Phys.lean ====
section
/-! DEFINITION. Physical memory (R64), the outbound queue (R249, R255), free values (R5), rings at physical
addresses (R130, R273), event records (R329), the race detector's shadow (R265 to R267). -/

namespace Sys2Proof.Machine

def gib : Nat := 2 ^ 30
def tib : Nat := 2 ^ 40

/-- HBM (R64). -/
def inHbm (pa : Nat) : Bool := pa < 512 * gib
/-- The second tier (R64; DESIGN CHOICE, log 33). -/
def inTier (pa : Nat) : Bool := tib ≤ pa && pa < 3 * tib
/-- A tier frame that a leaf may map: not the top 1/128, which holds the frames' records (R90, DESIGN CHOICE, log 33). -/
def tierFrame (pa : Nat) : Bool := inTier pa && pa < 3 * tib - 16 * gib
/-- A peer window (R64). -/
def inPeer (pa : Nat) : Bool := 4 * tib ≤ pa && pa < 20 * tib
/-- Host memory (R64). -/
def inHost (pa : Nat) : Bool := 2 ^ 50 ≤ pa && pa < 2 ^ 52
/-- The physical addresses that exist (R64). -/
def mapped (pa : Nat) : Bool := inHbm pa || inTier pa || inPeer pa || inHost pa

/-- Notes a physical access to an address that does not exist (DESIGN CHOICE, log 5). -/
def touch (s : State) (pa n : Nat) : State :=
  if mapped pa && mapped (pa + n - 1) then s
  else { s with halt := match s.halt with | none => some (.unmapped pa) | some f => some f }

/-- Bytes of memory (DESIGN CHOICE, log 6). -/
def State.rd (s : State) (pa n : Nat) : List Byte := Store.getN memDefault s.mem pa n
/-- A little-endian number of memory (R1). -/
def State.rdNat (s : State) (pa n : Nat) : Nat := leNat (s.rd pa n)

/-- No port of this device leads to a peer (R331). -/
def unreachable (s : State) (peer : Nat) : Bool := Store.get 0 s.peerroute peer &&& (s.portsUp.zeroExtend 32) = 0
/-- The address lies in the window of a peer that is out of reach: accesses still outstanding complete as poisoned (R331). -/
def lost (s : State) (pa : Nat) : Bool := inPeer pa && unreachable s ((pa - 4 * tib) / tib)
/-- The slices refuse every write to a sealed frame (R99); one to a peer out of reach is lost (R331). -/
def refuses (s : State) (pa n : Nat) : Bool := lost s pa || s.sealMap.contains (pa / 2 ^ 16) || s.sealMap.contains ((pa + n - 1) / 2 ^ 16)
/-- A byte stands in a poisoned sector (R338), or at a peer out of reach (R331). -/
def poisoned (s : State) (pa n : Nat) : Bool :=
  lost s pa || s.poison.any fun q => decide (q * 32 < pa + n) && decide (pa < q * 32 + 32)

/-- The offsets in a resident range of the bytes copied from `n` physical addresses. -/
def Range.from (r : Range) (pa n : Nat) : List Nat :=
  (List.range r.bytes.length).filter fun i => match r.src[i / 256]? with
    | some x => decide (pa ≤ x + i % 256) && decide (x + i % 256 < pa + n)
    | none => false
/-- A write in memory under a range is not detected, and leaves the bytes that the range serves undefined (R104). -/
def Range.wrote (r : Range) (pa n : Nat) : Range := { r with stale := r.from pa n ++ r.stale }
def Core.wrote (c : Core) (pa n : Nat) : Core := { c with ranges := c.ranges.map fun r => r.wrote pa n }

/-- The values that halfwords lose by a write while a grid is live: its instruction caches may hold them (R20; DESIGN CHOICE, log 11). Each
is noted under the next key, for the grids of lower keys. -/
def oldHalves (s : State) (pa : Nat) (bs : List Byte) : List (Nat × Nat × BitVec 16) :=
  if s.grids.any fun e => e.2.isSome then
    let new := Store.setN memDefault s.mem pa bs
    (List.range (bs.length / 2 + 1)).filterMap fun i =>
      let a := pa / 2 * 2 + 2 * i
      let old := s.rdNat a 2
      if old = leNat (Store.getN memDefault new a 2) then none else some (s.nextKey, a, BitVec.ofNat 16 old)
  else []
/-- One write of bytes to memory; a sector it covers whole is no longer poisoned (R338), resident ranges no longer hold what
memory holds there (R104), and instruction caches may hold the old halfwords (R20). -/
def State.wr (s : State) (pa : Nat) (bs : List Byte) : State :=
  { s with mem := Store.setN memDefault s.mem pa bs
           icache := oldHalves s pa bs ++ s.icache
           poison := s.poison.filter fun q => !(decide (pa ≤ q * 32) && decide (q * 32 + 32 ≤ pa + bs.length))
           cores := s.cores.map fun e => (e.1, e.2.wrote pa bs.length) }

/-- A write at its destination, with the check that the address exists. -/
def State.put (s : State) (pa : Nat) (bs : List Byte) : State := (touch s pa bs.length).wr pa bs
/-- A write of the management core or the dispatcher, which a sealed frame refuses (R99). -/
def State.offer (s : State) (pa : Nat) (bs : List Byte) : State := if refuses s pa bs.length then s else s.put pa bs

/-- A write at device scope: HBM at once, bytes bound for outside the package into the outbound queue (R253, R255). -/
def devWrite (s : State) (team pa : Nat) (link : Bool) (bs : List Byte) : State :=
  if inPeer pa || inHost pa then { s with outbound := s.outbound ++ [⟨team, pa, bs, link⟩] } else s.put pa bs

/-- The next undefined word (R5, DESIGN CHOICE, log 4). -/
def freeWord (s : State) : BitVec 32 × State := (Config.freeWord s.freeCount, { s with freeCount := s.freeCount + 1 })
/-- The next `n` undefined bytes. -/
def freeBytes (s : State) (n : Nat) : List Byte × State :=
  ((List.range n).map fun i => Config.freeByte (s.freeCount + i), { s with freeCount := s.freeCount + n })
/-- The next open choice. -/
def freeBit (s : State) : Bool × State := (Config.freeBit s.freeCount, { s with freeCount := s.freeCount + 1 })

/-- A fresh key. -/
def fresh (s : State) : Nat × State := (s.nextKey, { s with nextKey := s.nextKey + 1 })

def State.team (s : State) (k : Nat) : Team := Store.get Team.absent s.teams k
def State.setTeam (s : State) (k : Nat) (t : Team) : State := { s with teams := Store.set Team.absent s.teams k t }
def State.modTeam (s : State) (k : Nat) (f : Team → Team) : State := s.setTeam k (f (s.team k))
def Team.thread (t : Team) (i : Nat) : Thread := Store.get Thread.unused t.threads i
def Team.setThread (t : Team) (i : Nat) (th : Thread) : Team := { t with threads := Store.set Thread.unused t.threads i th }
def State.thread (s : State) (k i : Nat) : Thread := (s.team k).thread i
def State.setThread (s : State) (k i : Nat) (th : Thread) : State := s.modTeam k fun t => t.setThread i th
def State.modThread (s : State) (k i : Nat) (f : Thread → Thread) : State := s.setThread k i (f (s.thread k i))
def State.vf (s : State) (v : Nat) : Vf := Store.get Vf.unset s.vfs v
def State.setVf (s : State) (v : Nat) (x : Vf) : State := { s with vfs := Store.set Vf.unset s.vfs v x }
def State.core (s : State) (c : Nat) : Core := Store.get ⟨none, []⟩ s.cores c
def State.setCore (s : State) (c : Nat) (x : Core) : State := { s with cores := Store.set ⟨none, []⟩ s.cores c x }
def State.quad (s : State) (q : Nat) : Quad := Store.get Quad.idle s.quads q
def State.setQuad (s : State) (q : Nat) (x : Quad) : State := { s with quads := Store.set Quad.idle s.quads q x }
def State.grid (s : State) (g : Nat) : Option Grid := Store.get none s.grids g
def State.chan (s : State) (c : Nat) : Chan := Store.get ⟨.stopped, 0, [], 0, 0, 0, false⟩ s.chans c
def State.setChan (s : State) (c : Nat) (x : Chan) : State :=
  { s with chans := Store.set ⟨.stopped, 0, [], 0, 0, 0, false⟩ s.chans c x }

/-- The number the physical function has among the functions; VF v is v. -/
def pf : Nat := 256

/-- The VMID of a function: the PF's is 0 (R78, R323). -/
def vmidOf (s : State) (fn : Nat) : Nat := if fn = pf then 0 else bits (s.vf fn).cfg.toNat 11 0
/-- Host link of a function (R323). -/
def linkOf (s : State) (fn : Nat) : Bool := if fn = pf then false else bit (s.vf fn).cfg.toNat 24
/-- The fields of a VMID record (R76), by lowest bit of 64. -/
def vmidRec (s : State) (vmid off : Nat) : Nat := s.rdNat (s.vmtbase.toNat + 64 * vmid + off) 8
/-- A ring of a VMID record: 24 hfree, 32 is free, 40 evring (R76). -/
def vmidRing (s : State) (vmid off : Nat) : Nat := vmidRec s vmid off

/-- The VF number of a VMID record (R76). -/
def recVf (s : State) (vmid : Nat) : Nat := bits (vmidRec s vmid 16) 39 32
/-- The host link that a VMID's VF uses (R323). -/
def vmidLink (s : State) (vmid : Nat) : Bool := if vmid = 0 then false else linkOf s (recVf s vmid)

/-- The second of two queued writes waits for the first: posted writes of one host link, or common bytes (R255, R321). -/
def outOrdered (a b : OutWrite) : Bool :=
  (inHost a.pa && inHost b.pa && decide (a.link = b.link)) || (decide (a.pa < b.pa + b.bytes.length) && decide (b.pa < a.pa + a.bytes.length))
/-- The queue parted into the writes that a test selects, with those ordered before them, and the rest. -/
def outSplit (p : OutWrite → Bool) : List OutWrite → List OutWrite × List OutWrite
  | [] => ([], [])
  | o :: os =>
    let (go, stay) := outSplit p os
    if p o || go.any (outOrdered o) then (o :: go, stay) else (go, o :: stay)
/-- A queued write is performed, unless its peer is out of reach (R331). -/
def outPut (s : State) (w : OutWrite) : State := if lost s w.pa then s else s.put w.pa w.bytes
/-- Performs the outbound writes that a test selects, those of a team or those that overlap a range, and the earlier ones
ordered before them, oldest first (R253, R256). -/
def flushOut (s : State) (p : OutWrite → Bool) : State :=
  let (go, stay) := outSplit p s.outbound
  go.foldl outPut { s with outbound := stay }
/-- The earlier queued writes that a write at system scope waits for: those of its link, and those of its bytes (R255, R321). -/
def settleOut (s : State) (link : Bool) (pa n : Nat) : State := flushOut s (outOrdered · ⟨0, pa, List.replicate n 0, link⟩)
/-- A write performed at system scope, after the earlier queued writes ordered before it; a sealed frame refuses it (R99). -/
def State.sysPut (s : State) (link : Bool) (pa : Nat) (bs : List Byte) : State := (settleOut s link pa bs.length).offer pa bs

/-- A ring header as read (R273). -/
structure RingHdr where
  base : Nat
  rp : Nat
  wp : Nat
  n : Nat
  esc : Nat
  prio : Nat
  formed : Bool
  okHdr : Bool
  deriving DecidableEq, Repr

/-- Reads a header's 64 bytes (R273): formed with 1 ≤ esc, n ≤ 12 and a base multiple of 8; a ring instruction asks also for zero
reserved fields, which the device ignores elsewhere (R4). -/
def parseRing (x : Nat) : RingHdr :=
  let n := bits x 131 128
  let esc := bits x 143 136
  let base := bits x 63 0
  let formed := decide (0 < esc) && decide (n ≤ 12) && decide (base % 8 = 0)
  { base := base, rp := bits x 95 64, wp := bits x 127 96, n := n, esc := esc, prio := bits x 145 144
    formed := formed, okHdr := formed && decide (bits x 135 132 = 0) && decide (bits x 511 146 = 0) }

/-- A header at a physical address. -/
def ringAt (s : State) (pa : Nat) : RingHdr := parseRing (s.rdNat pa 64)
def RingHdr.empty (r : RingHdr) : Bool := r.wp = r.rp
def RingHdr.full (r : RingHdr) : Bool := (r.wp + 2 ^ 32 - r.rp) % 2 ^ 32 = 2 ^ r.n
/-- Address of the entry of a pointer value (R130). -/
def RingHdr.entry (r : RingHdr) (p : Nat) : Nat := r.base + p % 2 ^ r.n * (8 * r.esc)

/-- Pushes an entry onto a ring at physical addresses, at system scope over a link; false where it is full or no ring (R130). -/
def pushRing (s : State) (link : Bool) (hdr : Nat) (bs : List Byte) : Bool × State :=
  let s := touch (settleOut s link hdr 64) hdr 64
  let r := ringAt s hdr
  if !r.formed || r.full then (false, s)
  else (true, (s.sysPut link (r.entry r.wp) (bs.take (8 * r.esc))).sysPut link (hdr + 12) (leBytes 4 (r.wp + 1)))

/-- The management core, the dispatcher or a reader of the VMID table consumes bytes: a poisoned one is fatal (R339). -/
def coreRead (s : State) (pa n : Nat) : State := if poisoned s pa n then { s with fatal := true } else s
/-- Pops the entry at rp of a ring at physical addresses as a number (R130); a poisoned entry is fatal and is not used (R339). -/
def popRing (s : State) (link : Bool) (hdr : Nat) : Option Nat × State :=
  let s := touch (settleOut s link hdr 64) hdr 64
  let r := ringAt s hdr
  if !r.formed || r.empty then (none, s)
  else
    let s := touch (settleOut s link (r.entry r.rp) 8) (r.entry r.rp) 8
    if poisoned s (r.entry r.rp) 8 then (none, { s with fatal := true })
    else (some (s.rdNat (r.entry r.rp) 8), s.sysPut link (hdr + 8) (leBytes 4 (r.rp + 1)))

/-- A ring that a VMID record names (R76): record and header are read (R339, DESIGN CHOICE, log 39). -/
def ownRing (s : State) (vmid off : Nat) : Nat × State :=
  let h := vmidRing s vmid off
  (h, coreRead (coreRead s (s.vmtbase.toNat + 64 * vmid) 64) h 64)
/-- Takes a frame of the free HBM-frame ring of a VMID (R76). -/
def takeFrame (s : State) (vmid : Nat) : Option Nat × State := popRing (ownRing s vmid 24).2 (vmidLink s vmid) (ownRing s vmid 24).1
/-- Pushes a frame onto the free HBM-frame ring. -/
def giveFrame (s : State) (vmid pa : Nat) : State := (pushRing (ownRing s vmid 24).2 (vmidLink s vmid) (ownRing s vmid 24).1 (leBytes 8 pa)).2
/-- Takes a frame of the free tier-frame ring. -/
def popTier (s : State) (vmid : Nat) : Option Nat × State := popRing (ownRing s vmid 32).2 (vmidLink s vmid) (ownRing s vmid 32).1
/-- Pushes a tier frame onto the free tier-frame ring. -/
def giveTier (s : State) (vmid pa : Nat) : State := (pushRing (ownRing s vmid 32).2 (vmidLink s vmid) (ownRing s vmid 32).1 (leBytes 8 pa)).2

/-- Writes an event record onto a function's ring if there is room, and raises its MSI-X vector 0 (R325, R329). -/
def tryEvent (s : State) (fn : Nat) (bs : List Byte) : Bool × State :=
  match pushRing (ownRing s (vmidOf s fn) 40).2 (linkOf s fn) (ownRing s (vmidOf s fn) 40).1 bs with
  | (true, s) => (true, { s with msix := s.msix ++ [(fn, 0)] })
  | (false, s) => (false, s)

/-- Records held for a function have reached the limit of R329. -/
def eventsFull (s : State) (fn : Nat) : Bool := Config.eventsHeld ≤ (s.evWait.filter fun e => e.1 = fn).length
/-- An event record arises: written at once, or held in order until the host leaves room; where too many are held, the agent that raises
it waits (R329; DESIGN CHOICE, log 30). -/
def postEvent (s : State) (fn : Nat) (rec_ : Nat) : State :=
  let bs := leBytes 64 rec_
  if s.evWait.any (fun e => e.1 = fn) then
    if eventsFull s fn then { s with jam := true } else { s with evWait := s.evWait ++ [(fn, bs)] }
  else match tryEvent s fn bs with
    | (true, s) => s
    | (false, s) => { s with evWait := s.evWait ++ [(fn, bs)] }

/-- A record of the common layout of R329. -/
def evRecord (s : State) (type code a0 a1 a2 : Nat) : Nat :=
  type % 2 ^ 8 + code % 2 ^ 8 * 2 ^ 8 + s.clock % 2 ^ 64 * 2 ^ 192 + a2 % 2 ^ 64 * 2 ^ 320 + a1 % 2 ^ 64 * 2 ^ 384 + a0 % 2 ^ 64 * 2 ^ 448

/-- Posts a record of the common layout. -/
def post (s : State) (fn type code a0 a1 a2 : Nat) : State := postEvent s fn (evRecord s type code a0 a1 a2)

/-- Race detector mode of an address space: 0 off, 1 log, 2 trap (R77). -/
def asRec (s : State) (vmid asid off : Nat) : Nat := s.rdNat (vmidRec s vmid 8 + 32 * asid + off) 8
def raceMode (s : State) (vmid asid : Nat) : Nat :=
  let m := bits (asRec s vmid asid 0) 3 2
  if m = 3 then 0 else m

/-- Sectors of a range. -/
def sectors (pa n : Nat) : List Nat := (List.range (ceilDiv (pa % 32 + n) 32)).map fun i => pa / 32 + i

/-- A write that enters the shadow (R265; DESIGN CHOICE, log 27). -/
def shadowWrite (s : State) (team pa n scope : Nat) : State :=
  if inHbm pa then
    { s with shadow := (sectors pa n).foldl (fun m q => Store.set none m q (some ⟨scope, (s.team team).interval, team⟩)) s.shadow }
  else s

/-- The shadow entry that an access to a sector conflicts with (R266); `outside` for peer and host agents
(DESIGN CHOICE, log 27). -/
def conflict (s : State) (team q : Nat) (outside : Bool) : Option Shadow :=
  match Store.get none s.shadow q with
  | none => none
  | some e =>
    let still := (s.team e.team).interval = e.interval
    if still && (outside || !decide (e.team = team)) then some e else none

/-- Writes one race record (R267); racelog is a physical address (DEDUCED, log 27). -/
def raceRecord (s : State) (vmid asid addr agrid ateam kind : Nat) (e : Shadow) : State :=
  let key := vmid * 2 ^ 16 + asid
  let d := Store.get 0 s.dropped key
  let w := s.team e.team
  let r := addr * 2 ^ 448 + agrid * 2 ^ 416 + ateam * 2 ^ 384 + w.gridId.toNat * 2 ^ 352 + w.index % 2 ^ 32 * 2 ^ 320
    + e.interval % 2 ^ 32 * 2 ^ 288 + d * 2 ^ 272 + kind * 2 ^ 264 + e.scope * 2 ^ 256 + s.clock % 2 ^ 64 * 2 ^ 192
  match pushRing s (vmidLink s vmid) (asRec s vmid asid 8) (leBytes 64 r) with
  | (true, s) => { s with dropped := Store.set 0 s.dropped key 0 }
  | (false, s) => { s with dropped := Store.set 0 s.dropped key (min 0xFFFF (d + 1)) }

/-- A checked access by a team to the sectors of a range writes a record for each conflict (R266, R267);
`va` is the address a record names. -/
def raceCheck (s : State) (team pa va n kind : Nat) : State :=
  let t := s.team team
  if raceMode s t.vmid t.asid = 0 || !inHbm pa then s
  else (sectors pa n).foldl (fun s q => match conflict s team q false with
    | none => s
    | some e => raceRecord s t.vmid t.asid va t.gridId.toNat t.index kind e) s

/-- An access by a peer's or the host's agent (R266): the writer's address space names the log. -/
def raceOutside (s : State) (pa n : Nat) : State :=
  (sectors pa n).foldl (fun s q => match conflict s 0 q true with
    | none => s
    | some e =>
      let w := s.team e.team
      if raceMode s w.vmid w.asid = 0 then s else raceRecord s w.vmid w.asid pa 0xFFFFFFFF 0 6 e) s

end Sys2Proof.Machine
end

