-- ==== Sys2Proof/Machine/Translate.lean ====
section
/-! DEFINITION. Page tables and translation at the slice (spec/04 R71 to R88, R95, R100, R104; spec/15 R331, R332):
the two-stage walk, its format checks, the TLB and nested TLB, accessed and dirty bits, and the checks of R83. -/

namespace Sys2Proof.Machine

/-- The kinds of an access, numbered as R84 numbers them. -/
inductive Acc where
  | load | store | fetch | atomic
  deriving DecidableEq, Repr

def Acc.code : Acc → Nat
  | .load => 0 | .store => 1 | .fetch => 2 | .atomic => 3
def Acc.writes : Acc → Bool
  | .store => true | .atomic => true | _ => false

/-- On whose behalf an access translates (R78, R82, R83, R318); the core and grid for resident ranges. -/
structure Who where
  vmid : Nat
  asid : Nat
  vf : Nat
  super : Bool
  team : Nat
  grid : Option (Nat × Nat)
  owner : Option Owner := none          -- the request, which a miss attaches to its walk (R82)
  deriving DecidableEq, Repr

/-- The fields of a PTE (R73). -/
def pteFrame (e : Nat) : Nat := bits e 51 16 * 2 ^ 16
def pteCount (e : Nat) : Nat := bits e 7 6
def pteTier (e : Nat) : Bool := bit e 5
def pteRemote (e : Nat) : Bool := bit e 63
def ptePeer (e : Nat) : Nat := bits e 59 56

/-- The states of a leaf (R74). -/
inductive Leaf where
  | local | tier | remote | transit
  deriving DecidableEq, Repr
def leafState (e : Nat) : Leaf := if pteTier e then (if pteRemote e then .transit else .tier) else if pteRemote e then .remote else .local

/-- A frame that local leaves may map (R75; DEDUCED, log 18). -/
def localFrame (pa : Nat) : Bool := pa < 511 * gib || inHost pa

/-- A stage-2 walk of a guest-physical address (R72, R78): the physical address of its page and the size (DEDUCED, log 18). -/
def walk2 (s : State) (root gpa : Nat) : Except Walked (Nat × Bool) :=
  if 511 * gib ≤ root then .error (.format 2)
  else if poisoned s (root + 8 * bits gpa 51 40) 8 then .error .ecc
  else
    let e1 := s.rdNat (root + 8 * bits gpa 51 40) 8
    if !bit e1 0 then .error (.invalid 2)
    else if !bit e1 1 || 511 * gib ≤ pteFrame e1 then .error (.format 2)
    else
      let a2 := pteFrame e1 + 8 * bits gpa 39 28
      if poisoned s a2 8 then .error .ecc
      else
        let e2 := s.rdNat a2 8
        if !bit e2 0 then .error (.invalid 2)
        else if !bit e2 1 then
          if bits e2 27 16 ≠ 0 || pteTier e2 || pteRemote e2 || bit e2 4 || bit e2 8 || !localFrame (pteFrame e2) then .error (.format 2)
          else .ok (pteFrame e2 + bits gpa 27 16 * 2 ^ 16, true)
        else if 511 * gib ≤ pteFrame e2 then .error (.format 2)
        else
          let a3 := pteFrame e2 + 8 * bits gpa 27 16
          if poisoned s a3 8 then .error .ecc
          else
            let e3 := s.rdNat a3 8
            if !bit e3 0 then .error (.invalid 2)
            else if bit e3 1 || pteTier e3 || pteRemote e3 || bit e3 8 || !localFrame (pteFrame e3) then .error (.format 2)
            else .ok (pteFrame e3, false)

/-- The nested entry that holds a guest-physical address (R79). -/
def NtlbEntry.holds (e : NtlbEntry) (slice vmid gpa : Nat) : Bool :=
  e.slice = slice && e.vmid = vmid && decide (e.gpage = (if e.big then gpa / 2 ^ 28 * 2 ^ 28 else gpa / 2 ^ 16 * 2 ^ 16))
/-- A guest-physical address through stage 2: the nested TLB of the slice first, then a walk (R79, R80). The physical address, whether
the translation holds for 256 MiB, and the nested entries so far. -/
def stage2 (s : State) (slice vmid gpa : Nat) (fills : List NtlbEntry) : Except Walked (Nat × Bool × List NtlbEntry) :=
  if vmid = 0 then .ok (gpa, true, fills)
  else match (fills ++ s.ntlb).find? fun e => e.holds slice vmid gpa with
    | some e => .ok (e.pa + gpa % (if e.big then 2 ^ 28 else 2 ^ 16), e.big, fills)
    | none => match walk2 s (vmidRec s vmid 0) gpa with
      | .error w => .error w
      | .ok (pa, big) =>
        let e : NtlbEntry := { slice := slice, vmid := vmid, big := big
                               gpage := if big then gpa / 2 ^ 28 * 2 ^ 28 else gpa / 2 ^ 16 * 2 ^ 16
                               pa := if big then pa / 2 ^ 28 * 2 ^ 28 else pa }
        .ok (pa + gpa % 2 ^ 16, big, e :: fills)
/-- A nested entry that a walk of the stage-2 tables as they stand would not give (R85). -/
def nestedOld (s : State) (e : NtlbEntry) : Bool :=
  match walk2 s (vmidRec s e.vmid 0) e.gpage with
  | .ok (pa, big) => !(decide (pa = e.pa) && decide (big = e.big))
  | .error _ => true
/-- The nested entries that one walk uses: of those that the tables no longer give, an open choice of each (R85). -/
def pickNested (slice vmid : Nat) : List NtlbEntry → State → List NtlbEntry × State
  | [], s => ([], s)
  | e :: es, s =>
    if e.slice = slice && e.vmid = vmid && nestedOld s e then
      let (new, s) := freeBit s
      let (l, s) := pickNested slice vmid es s
      (if new then l else e :: l, s)
    else
      let (l, s) := pickNested slice vmid es s
      (e :: l, s)

/-- Format errors of a leaf at the bottom or the middle level (R75). -/
def leafFormat (s : State) (vmid e : Nat) (middle : Bool) : Bool :=
  (middle && (bits e 27 16 ≠ 0 || pteTier e || pteRemote e || bit e 4)) || (vmid ≠ 0 && bits e 51 48 ≠ 0) ||
  match leafState e with
  | .local => bit e 8 || (vmid = 0 && !localFrame (pteFrame e))
  | .tier => !tierFrame (pteFrame e) || !bit e 8
  | .remote => bit e 8 || 512 * gib ≤ pteFrame e || ptePeer e = bits s.peerid.toNat 3 0 || bit e 4
  | .transit => false

/-- The leaf behind a stage-1 entry, with the frame it maps (R74, R78, R80). That its stage-2 entries are valid is asked before its
format (R83); a remote leaf's frame passes stage 2 as a local leaf's does (DEDUCED, log 18). -/
def leafOf (s : State) (slice vmid e addr va : Nat) (middle : Bool) (fills : List NtlbEntry) : Walked :=
  let bad := leafFormat s vmid e middle
  let gpa := if middle then pteFrame e / 2 ^ 28 * 2 ^ 28 + bits va 27 16 * 2 ^ 16 else pteFrame e
  if leafState e = .tier || leafState e = .transit || (vmid ≠ 0 && bits e 51 48 ≠ 0) then
    if bad then .format 1 else .leaf e addr (pteFrame e) false false fills
  else match stage2 s slice vmid gpa fills with
    | .error (.format st) => if bad then .format 1 else .format st
    | .error w => w
    | .ok (pa, big, fills) =>
      if bad then .format 1
      else
        let pa := pa / 2 ^ 16 * 2 ^ 16
        if leafState e = .local then
          if localFrame pa then .leaf e addr pa middle (middle && big) fills else .format 2
        else if pa < 512 * gib then .leaf e addr (4 * tib + ptePeer e * tib + pa) false false fills else .format 2

/-- The physical address of a guest table's entry (R80): its frame lies in [0, 511 GiB) (R75). -/
def tableEntry (s : State) (slice vmid table i : Nat) (fills : List NtlbEntry) : Except Walked (Nat × List NtlbEntry) :=
  if 511 * gib ≤ table then .error (.format 1)
  else match stage2 s slice vmid (table + 8 * i) fills with
    | .error w => .error w
    | .ok (a, _, fills) => if 511 * gib ≤ a then .error (.format 2) else if poisoned s a 8 then .error .ecc else .ok (a, fills)

/-- The walk of a virtual address (R72, R77, R80). -/
def walk (s : State) (vmid asid va : Nat) : Walked :=
  let slice := bits va 15 8
  if !bit (vmidRec s vmid 16) 0 then .record
  else if poisoned s (vmidRec s vmid 8 + 32 * asid) 32 then .ecc
  else if !bit (asRec s vmid asid 0) 0 then .record
  else match tableEntry s slice vmid (bits (asRec s vmid asid 0) 63 16 * 2 ^ 16) (bits va 51 40) [] with
    | .error w => w
    | .ok (a1, f1) =>
      let e1 := s.rdNat a1 8
      if !bit e1 0 then .invalid 1
      else if !bit e1 1 then .format 1
      else match tableEntry s slice vmid (pteFrame e1) (bits va 39 28) f1 with
        | .error w => w
        | .ok (a2, f2) =>
          let e2 := s.rdNat a2 8
          if !bit e2 0 then .invalid 1
          else if !bit e2 1 then leafOf s slice vmid e2 a2 va true f2
          else match tableEntry s slice vmid (pteFrame e2) (bits va 27 16) f2 with
            | .error w => w
            | .ok (a3, f3) =>
              let e3 := s.rdNat a3 8
              if !bit e3 0 then .invalid 1
              else if bit e3 1 then .format 1
              else leafOf s slice vmid e3 a3 va false f3

/-- The outcome of a translated access (R83): a physical address with the leaf's sealed bit, PROT with its
`$tinfo`, ECC, a minor fault with its leaf's address, a major fault with its reason; or the request waits for a walk (R82). Where the
access will be the first write through its leaf, `dirty` is that leaf's address. -/
inductive Xlat where
  | ok (pa : Nat) (sealed : Bool) (dirty : Option Nat)
  | walking (w : Nat)
  | prot (info : Nat)
  | ecc
  | minor (leafAddr : Nat) (remote : Bool)
  | major (reason : Nat) (stage : Nat)
  deriving DecidableEq, Repr

/-- `$tinfo` of a translation cause (R84). -/
def xinfo (code : Nat) (k : Acc) (stage : Nat) : Nat := code + k.code * 2 ^ 8 + stage * 2 ^ 10

/-- The entry holds an address: its page is of 64 KiB or of 256 MiB (R79). -/
def TlbEntry.holds (e : TlbEntry) (vmid asid va : Nat) : Bool :=
  e.slice = bits va 15 8 && e.vmid = vmid && e.asid = asid && decide (e.page = (if e.big then va / 2 ^ 28 * 2 ^ 28 else va / 2 ^ 16 * 2 ^ 16))
/-- The TLB entry of a slice for an address (R79). -/
def tlbHit (s : State) (vmid asid va : Nat) : Option TlbEntry := s.tlb.find? fun e => e.holds vmid asid va
/-- The frame of an address's 64 KiB page by a TLB entry. -/
def TlbEntry.frame (e : TlbEntry) (va : Nat) : Nat := if e.big then e.pa + va % 2 ^ 28 / 2 ^ 16 * 2 ^ 16 else e.pa

/-- Two TLB entries of a slice hold a page in common. -/
def TlbEntry.meets (x e : TlbEntry) : Bool :=
  x.slice = e.slice && x.vmid = e.vmid && x.asid = e.asid && decide (if x.big || e.big then x.page / 2 ^ 28 = e.page / 2 ^ 28 else x.page = e.page)
/-- Fills a TLB entry, the oldest entry of a full slice making place (R79; DESIGN CHOICE, log 46). An entry of the same page that stands
there stays before it, for the accesses that use the old one (R85; DEDUCED, log 17). -/
def tlbFill (s : State) (e : TlbEntry) : State :=
  let same := s.tlb.filter fun x => x.slice = e.slice
  let rest := if same.length < Config.tlbEntries then s.tlb
    else match same.getLast? with
      | some o => s.tlb.erase o
      | none => s.tlb
  if s.tlb.contains e then s else { s with tlb := rest.filter (·.meets e) ++ e :: rest.filter fun x => !x.meets e }

/-- Adds nested entries, the oldest of a full slice making place (R79; DESIGN CHOICE, log 46). -/
def ntlbFill (s : State) (fs : List NtlbEntry) : State :=
  fs.foldr (fun f s =>
    let same := s.ntlb.filter fun x => x.slice = f.slice
    let rest := if same.length < Config.ntlbEntries then s.ntlb
      else match same.getLast? with
        | some o => s.ntlb.erase o
        | none => s.ntlb
    { s with ntlb := f :: rest }) s

/-- Sets bits of a PTE by an atomic OR (R81), which a sealed frame refuses (R99). -/
def orPte (s : State) (addr m : Nat) : State :=
  if refuses s addr 8 then s else s.wr addr (leBytes 8 ((s.rdNat addr 8) ||| m))

/-- A walk with the fill and the accessed bit of R81; a poisoned VMID record is fatal (R339). -/
def walkFill (s : State) (vmid asid va : Nat) : Walked × State :=
  let s := touch s (s.vmtbase.toNat + 64 * vmid) 64
  if poisoned s (s.vmtbase.toNat + 64 * vmid) 64 then (.ecc, { s with fatal := true })
  else
    let (used, s) := pickNested (bits va 15 8) vmid s.ntlb s
    match walk { s with ntlb := used } vmid asid va with
    | .leaf pte addr pa big wide fills =>
      let s := ntlbFill (touch s addr 8) fills
      if leafState pte = .local || leafState pte = .remote then
        let s := if bit pte 9 then s else orPte s addr 0x200
        let pte' := pte ||| 0x200
        let e : TlbEntry := { slice := bits va 15 8, vmid := vmid, asid := asid, big := wide, leaf := BitVec.ofNat 64 pte', leafAddr := addr
                              page := if wide then va / 2 ^ 28 * 2 ^ 28 else va / 2 ^ 16 * 2 ^ 16
                              pa := if wide then pa - va % 2 ^ 28 / 2 ^ 16 * 2 ^ 16 else pa }
        (.leaf pte' addr pa big wide fills, tlbFill s e)
      else (.leaf pte addr pa big wide fills, s)
    | w => (w, s)

/-- A live resident range of a grid on a core that holds an address (R101). -/
def rangeAt (s : State) (core grid va : Nat) : Option Range :=
  (s.core core).ranges.find? fun r => r.grid = grid && r.live && decide (r.base ≤ va) && decide (va < r.base + r.len)

/-- A live resident range of a grid on a core that meets a range of addresses (R101). -/
def rangeMeets (s : State) (core grid va n : Nat) : Bool :=
  (s.core core).ranges.any fun r => r.grid = grid && r.live && decide (r.base < va + n) && decide (va < r.base + r.len)

/-- Checks 4 to 9 of R83 for `n` bytes on a leaf and its frame, and the reach of a peer (R331), without which no page migrates. -/
def checks (s : State) (w : Who) (k : Acc) (va n pte addr pa : Nat) : Xlat :=
  match leafState pte with
  | .tier => .minor addr false
  | .transit => .minor addr false
  | st =>
    if st = .remote && k.writes && decide (pteCount pte < 3) && !unreachable s (ptePeer pte) then .minor addr true
    else if !w.super && !bit pte 3 then .prot (xinfo 5 k 0)
    else if k.writes && !bit pte 2 then .prot (xinfo 4 k 0)
    else if k = .fetch && !bit pte 11 then .prot (xinfo 6 k 0)
    else if k.writes && s.sealMap.contains (pa / 2 ^ 16) then .prot (xinfo 7 k 0)
    else if k.writes && (match w.grid with | some (c, g) => rangeMeets s c g va n | none => false) then .prot (xinfo 8 k 0)
    else if st = .remote && unreachable s (ptePeer pte) then .prot (xinfo 0xC k 0)
    else .ok (pa + va % 2 ^ 16) (bit pte 4) (if k.writes && !bit pte 10 then some addr else none)

/-- What a walk that did not end in a leaf gives (R83). -/
def walkFault (k : Acc) : Walked → Xlat
  | .invalid st => .major 2 st
  | .format st => .prot (xinfo 3 k st)
  | .record => .major 0x12 0
  | .ecc => .ecc
  | .leaf .. => .ecc

/-- The checks on a leaf, then the answer of a peer (R332). -/
def finishXlat (s : State) (w : Who) (k : Acc) (va n pte addr pa : Nat) : Xlat × State :=
  match checks s w k va n pte addr pa with
  | .ok pa' sl d =>
    if inPeer pa' then
      match freeBit s with
      | (true, s) => (.prot (xinfo 0xD k 0), s)
      | (false, s) => (.ok pa' sl d, s)
    else (.ok pa' sl d, s)
  | x => (x, s)

/-- The access is performed: a write or atomic sets its leaf's dirty bit, in memory and in the entries filled from the leaf (R81). -/
def setDirty (s : State) : Option Nat → State
  | none => s
  | some a =>
    let s := orPte s a 0x400
    { s with tlb := s.tlb.map fun e => if e.leafAddr = a then { e with leaf := e.leaf ||| 0x400 } else e }

/-- A TLB entry holds a translation that a walk of the tables as they stand would not give (R85; DEDUCED, log 17). -/
def outdated (s : State) (w : Who) (va : Nat) (e : TlbEntry) : Bool :=
  match walk { s with ntlb := [] } w.vmid w.asid va with
  | .leaf pte _ pa _ _ _ => !(decide (pte ||| 0x600 = e.leaf.toNat ||| 0x600) && decide (pa = e.frame va))
  | _ => true

/-- What an access makes of the result of a walk (R81 to R83). -/
def walkedXlat (s : State) (w : Who) (k : Acc) (va n : Nat) : Walked → Xlat × State
  | .leaf pte addr pa _ _ _ => finishXlat s w k va n pte addr pa
  | x => (walkFault k x, s)

/-- Two addresses are of one page and one slice: a miss on one joins a walk of the other (R82). -/
def sameWalk (a b : Nat) : Bool := a / 2 ^ 16 = b / 2 ^ 16 && bits a 15 8 = bits b 15 8
/-- A request misses (R82): it joins the walk of its page, or starts one. -/
def joinWalk (s : State) (w : Who) (va : Nat) : Nat × State :=
  match s.walks.find? fun x => x.2.vmid = w.vmid && x.2.asid = w.asid && sameWalk x.2.va va with
  | some (i, x) =>
    let l := match w.owner with
      | some o => if x.waiters.contains o then x.waiters else x.waiters ++ [o]
      | none => x.waiters
    (i, { s with walks := s.walks.map fun e => if e = (i, x) then (i, { x with waiters := l }) else e })
  | none => (s.nextKey, { s with walks := s.walks ++ [(s.nextKey, ⟨w.vmid, w.asid, va, w.owner.toList⟩)], nextKey := s.nextKey + 1 })
/-- The result that a finished walk has left for a request, which takes it (R82; DEDUCED, log 16). -/
def answerFor (s : State) (w : Who) (va : Nat) : Option WalkAnswer :=
  match w.owner with
  | some o => s.answers.find? fun e => e.owner = o && e.vmid = w.vmid && e.asid = w.asid && sameWalk e.va va
  | none => none

/-- A write through a clean entry whose leaf has changed walks afresh (R81). -/
def staleDirty (s : State) (k : Acc) (e : TlbEntry) : Bool :=
  k.writes && !bit e.leaf.toNat 10 && decide ((s.rdNat e.leafAddr 8) ||| 0x600 ≠ e.leaf.toNat ||| 0x600)

/-- The same for a walk's result that a request has waited for. -/
def staleWalk (s : State) (k : Acc) : Walked → Bool
  | .leaf pte addr _ _ _ _ => k.writes && !bit pte 10 && decide ((s.rdNat addr 8) ||| 0x600 ≠ pte ||| 0x600)
  | _ => false
/-- The TLB entry of a slice for an address that a walk of the tables as they stand would give (R79). -/
def tlbNew (s : State) (w : Who) (va : Nat) : Option TlbEntry :=
  s.tlb.find? fun e => e.holds w.vmid w.asid va && !outdated s w va e
/-- The entries that hold an address by tables that have changed since (R85). -/
def tlbOld (s : State) (w : Who) (va : Nat) : List TlbEntry := s.tlb.filter fun e => e.holds w.vmid w.asid va && outdated s w va e
/-- An open choice of one of the old entries, or of none (R85; DEDUCED, log 17). -/
def pickOld : List TlbEntry → State → Option TlbEntry × State
  | [], s => (none, s)
  | e :: es, s => match freeBit s with
    | (true, s) => (some e, s)
    | (false, s) => pickOld es s
/-- An access by a TLB entry (R81, R83). -/
def throughEntry (s : State) (w : Who) (k : Acc) (va n : Nat) (e : TlbEntry) : Xlat × State :=
  if staleDirty s k e then let (i, s) := joinWalk { s with tlb := s.tlb.erase e } w va; (.walking i, s)
  else finishXlat s w k va n e.leaf.toNat e.leafAddr (e.frame va)
/-- A translated access of `n` bytes at the slice of its address (R71, R79 to R83): by the result of the walk it waited for, by a TLB
entry, or it waits for a walk. Where the tables have changed under entries, each access uses one of these or the tables as they
stand, by an entry filled since or by a walk (R81, R85): an open choice (DEDUCED, log 17). -/
def translate (s : State) (w : Who) (k : Acc) (va n : Nat) : Xlat × State :=
  if 2 ^ 52 ≤ va then (.prot (xinfo 1 k 0), s)
  else match answerFor s w va with
    | some e =>
      let s := { s with answers := s.answers.erase e }
      if staleWalk s k e.result then let (i, s) := joinWalk s w va; (.walking i, s) else walkedXlat s w k va n e.result
    | none => match pickOld (tlbOld s w va) s with
      | (some e, s) => throughEntry s w k va n e
      | (none, s) => match tlbNew s w va with
        | some e => throughEntry s w k va n e
        | none => let (i, s) := joinWalk s w va; (.walking i, s)
/-- Where an address lies by the TLB or the tables, for a wait that looks at memory without an access of its own. -/
def peek (s : State) (vmid asid va : Nat) : Option Nat :=
  match tlbHit s vmid asid va with
  | some e => some (e.frame va + va % 2 ^ 16)
  | none => match walk s vmid asid va with
    | .leaf pte _ pa _ _ _ => if leafState pte = .local || leafState pte = .remote then some (pa + va % 2 ^ 16) else none
    | _ => none

/-- Invalidates the TLB entries of an address space that a test selects, in all slices (R87). -/
def tlbDrop (s : State) (p : TlbEntry → Bool) : State := { s with tlb := s.tlb.filter fun e => !p e }

end Sys2Proof.Machine
end

