-- ==== Sys2Proof/Machine/Regions.lean ====
section
/-! DEFINITION. Handle entries (spec/09 R199, R200), scale arrays (spec/03 R49), and the pad and global bytes that unfinished
copies, tile operations and drains read and write, in every address space that maps them (spec/05 R115, spec/09 R217, R218,
spec/10 R231). -/

namespace Sys2Proof.Machine

/-- The fields of a handle entry (R199). -/
structure Handle where
  base : Nat
  rows : Nat
  cols : Nat
  stride : Nat
  brows : Nat
  bcols : Nat
  sb : Nat
  fmt : Nat
  kind : Nat
  space : Bool
  trans : Bool
  skew : Bool
  link : Nat
  linkv : Bool
  stats : Nat
  statv : Bool
  row : Int
  col : Int
  deriving DecidableEq, Repr

/-- Reads an entry (R199). -/
def parseHandle (e : BitVec 512) : Handle :=
  let x := e.toNat
  { base := bits x 63 0, rows := bits x 95 64, cols := bits x 127 96, stride := bits x 159 128, brows := bits x 175 160, bcols := bits x 191 176
    sb := bits x 255 192, fmt := bits x 260 256, kind := bits x 262 261, space := bit x 263, trans := bit x 264, skew := bit x 265
    link := bits x 277 272, linkv := bit x 278, stats := bits x 305 288, statv := bit x 306
    row := toSigned 32 (bits x 351 320), col := toSigned 32 (bits x 383 352) }

/-- A team's handle entry. -/
def Team.handle (t : Team) (n : Nat) : BitVec 512 := t.handles[n % 64]'(Nat.mod_lt _ (by decide))
def Team.setHandle (t : Team) (n : Nat) (v : BitVec 512) : Team :=
  { t with handles := t.handles.set (n % 64) v (Nat.mod_lt _ (by decide)) }

/-- Bits of an element. -/
def Handle.width (h : Handle) : Nat := fmtWidth h.fmt
/-- Bytes that the elements of a tensor row take. -/
def Handle.rowBytes (h : Handle) : Nat := ceilDiv (h.cols * h.width) 8
/-- The address of row `r`. -/
def Handle.rowAddr (h : Handle) (r : Nat) : Nat := h.base + r * h.stride
/-- Element (r, c) lies in the tensor (R112). -/
def Handle.inside (h : Handle) (r c : Int) : Bool := decide (0 ≤ r) && decide (r < h.rows) && decide (0 ≤ c) && decide (c < h.cols)

/-- Blocks per row, blocks, superblocks, and the code array of a blocked tensor (R49). -/
def Handle.bpr (h : Handle) : Nat := h.cols / 64
def Handle.nb (h : Handle) : Nat := h.rows * h.bpr
def Handle.ns (h : Handle) : Nat := ceilDiv h.nb 256
def Handle.cb (h : Handle) : Nat := h.sb + 64 * ceilDiv (4 * h.ns) 64
/-- The block of an element (R49). -/
def Handle.block (h : Handle) (r c : Nat) : Nat := r * h.bpr + c / 64

-- Boxes as sets of bytes

/-- The byte at an address holds bits of an element that lies in the box and the tensor. -/
def Handle.holdsElem (h : Handle) (a : Nat) : Bool :=
  if h.stride = 0 || h.width = 0 || decide (a < h.base) then false
  else
    let r : Int := ((a - h.base) / h.stride : Nat)
    let o := (a - h.base) % h.stride
    let lo : Int := (8 * o / h.width : Nat)
    let hi : Int := ((8 * o + 7) / h.width : Nat)
    decide (r < h.rows) && decide (h.row ≤ r) && decide (r < h.row + h.brows)
      && decide (max lo h.col ≤ min hi (min (h.cols - 1 : Int) (h.col + h.bcols - 1)))
/-- The byte is the scale code of a block of the box. -/
def Handle.holdsCode (h : Handle) (a : Nat) : Bool :=
  if !blocked h.fmt || h.bpr = 0 || decide (a < h.cb) || decide (h.cb + h.nb ≤ a) then false
  else
    let r : Int := ((a - h.cb) / h.bpr : Nat)
    let c : Int := ((a - h.cb) % h.bpr * 64 : Nat)
    decide (h.row ≤ r) && decide (r < h.row + h.brows) && decide (c < h.col + h.bcols) && decide (h.col < c + 64)
/-- The byte belongs to the superblock scale of a row of the box. -/
def Handle.holdsScale (h : Handle) (a : Nat) : Bool :=
  if !blocked h.fmt || h.bpr = 0 || decide (a < h.sb) || decide (h.sb + 4 * h.ns ≤ a) then false
  else
    let q := (a - h.sb) / 4
    let lo : Int := (256 * q / h.bpr : Nat)
    let hi : Int := ((256 * q + 255) / h.bpr : Nat)
    decide (lo < h.row + h.brows) && decide (h.row ≤ hi)
/-- Bytes a store through the box writes, and bytes a read of it reads. -/
def Handle.stores (h : Handle) (a : Nat) : Bool := h.holdsElem a || h.holdsCode a
def Handle.reads (h : Handle) (a : Nat) : Bool := h.holdsElem a || h.holdsCode a || h.holdsScale a

-- Boxes as ranges of bytes

/-- A virtual range cut at 64 KiB pages: address and length of each part. -/
def pageParts : Nat → Nat → Nat → List (Nat × Nat)
  | 0, _, _ => []
  | f + 1, va, n =>
    if n = 0 then []
    else
      let k := min n (65536 - va % 65536)
      (va, k) :: pageParts f (va + k) (n - k)
/-- Pages of ranges, ascending. -/
def pagesOf (l : List (Nat × Nat)) : List Nat :=
  (insertSort (fun a b => decide (a ≤ b)) (l.flatMap fun e => (pageParts (e.2 / 65536 + 2) e.1 e.2).map fun p => p.1 / 65536)).eraseDups
/-- The bytes of a box row that lie in the tensor: address, length, and the first column (R200). -/
def Handle.rowRange (h : Handle) (i : Nat) : Option (Nat × Nat × Nat) :=
  let r := h.row + i
  let c0 := max 0 h.col
  let c1 := min (h.cols : Int) (h.col + h.bcols)
  if 0 ≤ r && r < h.rows && c0 < c1 then
    let lo := (c0 * h.width / 8).toNat
    let hi := ceilDiv (c1.toNat * h.width) 8
    some (h.rowAddr r.toNat + lo, hi - lo, c0.toNat)
  else none
/-- The byte ranges of a box's elements. -/
def Handle.elemRanges (h : Handle) : List (Nat × Nat) := (List.range h.brows).filterMap fun i => (h.rowRange i).map fun e => (e.1, e.2.1)
/-- The byte ranges a box touches: elements, then codes and scales of a blocked format (R49, R214). -/
def Handle.ranges (h : Handle) : List (Nat × Nat) :=
  let sc := if !blocked h.fmt then [] else (List.range h.brows).flatMap fun i =>
    match h.rowRange i with
    | none => []
    | some _ =>
      let r := (h.row + i).toNat
      let b0 := (max 0 h.col).toNat / 64
      let b1 := ceilDiv (min (h.cols : Int) (h.col + h.bcols)).toNat 64
      let j := r * h.bpr + b0
      [(h.sb + 4 * (j / 256), 4 * ((j + (b1 - b0) - 1) / 256 - j / 256) + 4), (h.cb + j, b1 - b0)]
  h.elemRanges ++ sc

/-- A page of an address space maps the frame of a physical byte: by a TLB entry, or by the tables. -/
def mapsFrame (s : State) (vmid asid pa page : Nat) : Bool :=
  let va := page * 65536
  (s.tlb.any fun e => { e with slice := 0 }.holds vmid asid va && decide (e.frame va / 65536 = pa / 65536)) ||
    match walk { s with ntlb := [] } vmid asid va with
    | .leaf pte _ f _ _ _ => (leafState pte = .local || leafState pte = .remote) && decide (f / 65536 = pa / 65536)
    | _ => false
/-- The addresses in pages of an address space that reach a physical byte. -/
def namesOf (s : State) (vmid asid : Nat) (pages : List Nat) (pa : Nat) : List Nat :=
  (pages.filter (mapsFrame s vmid asid pa)).map fun p => p * 65536 + pa % 65536

-- Drain programs as lists of words

def uOp (w : Nat) : Nat := bits w 4 0
def uImm (w : Nat) : Nat := bits w 31 16
def uStores (op : Nat) : Bool := 17 ≤ op && op ≤ 20
/-- The operations of a slot before END, with their word numbers (R221). -/
def program (slot : List (BitVec 32)) : List (Nat × Nat) :=
  ((slot.drop 1).zipIdx.map fun e => (e.2 + 1, e.1.toNat)).takeWhile fun e => uOp e.2 ≠ 0

/-- A handle entry with its box cut to rows and columns that a drain stores (R224). -/
def cutBox (e : BitVec 512) (cols : Nat) : BitVec 512 :=
  let h := parseHandle e
  BitVec.ofNat 512 (putBits (putBits e.toNat 175 160 (min 64 h.brows)) 191 176 (min cols h.bcols))
/-- The boxes that a drain stores through, as handle entries: of a row value its first column only (R224). -/
def Mop.outEntries (m : Mop) : List (BitVec 512) :=
  (program m.slot).filterMap fun p =>
    if uStores (uOp p.2) then (m.outs.find? fun o => o.1 = uImm p.2).map fun o => cutBox o.2 (if uOp p.2 = 19 || uOp p.2 = 20 then 1 else 64)
    else none
/-- The metadata words of a sparse operand as a box (R210). -/
def metaBox (ha hm : BitVec 512) : Handle :=
  let a := parseHandle ha
  { parseHandle hm with row := if a.trans then a.col else a.row, col := (if a.trans then a.row else a.col) / 16
                        brows := 64, bcols := 64 }

/-- The boxes a tile operation's drain stores through, and those its operands read. -/
def Mop.outBoxes (m : Mop) : List Handle := m.outEntries.map parseHandle
def Mop.inBoxes (m : Mop) : List Handle := [parseHandle m.ha, parseHandle m.hb, metaBox m.ha m.hm]
/-- Rows of the operation's drain that have been committed (R229). -/
def Mop.committed (m : Mop) : Nat :=
  match m.phase with
  | .draining i => i
  | .parked (some i) => i
  | _ => 0
/-- A committed row of the drain has stored to the byte. -/
def Mop.stored (m : Mop) (pad : Bool) (a : Nat) : Bool :=
  m.outBoxes.any fun h => h.space = pad && { h with brows := min h.brows m.committed }.stores a

/-- The tile that a word drains (R208, R235). -/
def Mop.tile (m : Mop) : Nat :=
  match m.word with
  | .mma c _ _ _ | .mmaz c _ _ _ | .mmas c _ _ _ | .mmasz c _ _ _ | .mmac c _ _ _ | .mmacz c _ _ _ => c.toNat
  | .mhad d _ _ => d.toNat
  | .mdrain d _ => d.toNat
  | _ => 0

/-- Two teams work in one address space. -/
def sameSpace (s : State) (j k : Nat) : Bool := (s.team j).vmid = (s.team k).vmid && (s.team j).asid = (s.team k).asid
/-- A byte that an access reaches: of a team's pad; or of memory at a physical address, and of a team's access also at an address of its
space. -/
structure Spot where
  team : Option Nat
  pad : Bool
  va : Nat
  pa : Nat
/-- A byte of a team's pad. -/
def padSpot (k a : Nat) : Spot := ⟨some k, true, a, a⟩
/-- The spot `i` bytes on. -/
def Spot.next (x : Spot) (i : Nat) : Spot := { x with va := x.va + i, pa := x.pa + i }
/-- The addresses by which an operation knows a byte: its own, and each in a page of its boxes that maps the byte's frame, by a pinned
translation too (R214, R217). -/
def Mop.names (s : State) (m : Mop) (x : Spot) : List Nat :=
  if x.pad then (if x.team = some m.team then [x.va] else [])
  else
    let t := s.team m.team
    (if x.team.any (sameSpace s m.team) then [x.va] else [])
      ++ namesOf s t.vmid t.asid (pagesOf (((m.outBoxes ++ m.inBoxes).filter (!·.space)).flatMap Handle.ranges)) x.pa
      ++ (m.pages.filter fun p => p.2 / 65536 = x.pa / 65536).map fun p => p.1 * 65536 + x.pa % 65536
/-- An unfinished drain stores to the byte (R231). -/
def drainStores (s : State) (own : Nat) (x : Spot) : Bool :=
  s.mops.any fun m => m.id ≠ own && (m.names s x).any fun a => m.outBoxes.any fun h => h.space = x.pad && h.stores a
/-- An unfinished drain has stored to the byte. -/
def drainStored (s : State) (own : Nat) (x : Spot) : Bool :=
  s.mops.any fun m => m.id ≠ own && (m.names s x).any (m.stored x.pad)

-- Copies

/-- Teams of a team's bond that have not ended (R280). -/
def bondOf (s : State) (k : Nat) : List Nat :=
  let t := s.team k
  if t.desc.bond = 0 then [k]
  else (s.teams.filter fun e => e.2.grid = t.grid && e.2.phase ≠ .ended && e.2.index / t.desc.bond = t.index / t.desc.bond).map (·.1)
/-- The buffer-free bit of a TMCAST (R116). -/
def Copy.buf (c : Copy) : Nat := bits c.cpl 31 28
def cplMode (w : Nat) : Nat := bits w 27 24
def cplAddr (w : Nat) : Nat := 4 * bits w 23 0
/-- The index forms (R112). -/
def Copy.indexed (c : Copy) : Bool := c.f = 2 || c.f = 3 || c.f = 4
/-- Column of the box's origin (R110). -/
def Copy.col (c : Copy) : Int := (parseHandle c.h).col + (if c.indexed then 0 else toSigned 32 c.a2)
/-- The pad image's pitch of a copy (R110, R200). -/
def Handle.pitch (h : Handle) : Nat := roundUp (ceilDiv (h.bcols * h.width) 8) 16 + (if h.skew then 16 else 0)
/-- Bytes of a copy command's pad image. -/
def Copy.size (c : Copy) : Nat := (parseHandle c.h).brows * (parseHandle c.h).pitch
def Copy.holds (c : Copy) (a : Nat) : Bool := decide (c.pad ≤ a) && decide (a < c.pad + c.size)
/-- Pad bytes of a command's index list (R354). -/
def Copy.lists (c : Copy) (a : Nat) : Bool :=
  let ih := parseHandle c.link
  c.indexed && ih.space && decide (ih.base + c.a1 ≤ a) && decide (a < ih.base + c.a1 + 4 * c.a2)
/-- The command writes the pad of its team: TLOAD, TGATH; it writes memory: TSTORE, TSCAT, TSCATA. -/
def Copy.fills (c : Copy) : Bool := c.f = 0 || c.f = 2
def Copy.drains (c : Copy) : Bool := c.f = 1 || c.f = 3 || c.f = 4
/-- The command reads the byte of a team's pad. -/
def Copy.sources (c : Copy) (k a : Nat) : Bool := c.team = k && ((c.drains && c.holds a) || c.lists a)
/-- The command writes the byte of a team's pad; a TMCAST that of each team of its bond whose buffer is free for it (R125; DEDUCED,
log 21). -/
def Copy.targets (s : State) (c : Copy) (k a : Nat) : Bool :=
  c.holds a && ((c.team = k && c.fills) ||
    (c.f = 5 && c.phase ≠ .done && (s.team k).bufFree.getLsbD c.buf && (bondOf s c.team).contains k))
/-- The byte of memory belongs to the tensor elements that the command moves (R112). -/
def Copy.moves (c : Copy) (a : Nat) : Bool :=
  let h := parseHandle c.h
  let box (r : Int) (n : Nat) : Handle := { h with row := r, brows := n, col := c.col }
  if c.f = 6 then false
  else if !c.indexed then (box (h.row + toSigned 32 c.a1) h.brows).holdsElem a
  else if c.idx.length < c.a2 then (box 0 h.rows).holdsElem a
  else c.idx.any fun r => (box r 1).holdsElem a
/-- The pages of the tensor elements that the command moves. -/
def Copy.pages (c : Copy) : List Nat :=
  let h := parseHandle c.h
  let box (r : Int) (n : Nat) : Handle := { h with row := r, brows := n, col := c.col }
  if c.f = 6 then []
  else if !c.indexed then pagesOf (box (h.row + toSigned 32 c.a1) h.brows).elemRanges
  else if c.idx.length < c.a2 then pagesOf (box 0 h.rows).elemRanges
  else pagesOf (c.idx.flatMap fun r => (box (r : Nat) 1).elemRanges)
/-- The addresses by which a command knows a byte of memory (R158). -/
def Copy.names (s : State) (c : Copy) (x : Spot) : List Nat :=
  let t := s.team c.team
  (if x.team.any (sameSpace s c.team) then [x.va] else []) ++ namesOf s t.vmid t.asid c.pages x.pa

def Landed.holds (l : Landed) (a : Nat) : Bool := decide (l.lo ≤ a) && decide (a < l.hi)
/-- A copy that is unfinished, or whose completion has not been observed, writes the pad byte (R115; DEDUCED, log 20). -/
def copyStores (s : State) (k a : Nat) : Bool :=
  (s.copies.any fun c => c.targets s k a) || (s.team k).landed.any fun l => l.fills && l.holds a
/-- A thread's write to the pad byte leaves it undefined: such a copy writes it, or one whose completion has not been observed has read
it (R115; DEDUCED, log 20). -/
def copyHolds (s : State) (k a : Nat) : Bool := copyStores s k a || (s.team k).landed.any fun l => l.holds a
/-- A completed command whose completion nobody has observed, in a team's pad (R115). -/
def Copy.landIn (c : Copy) (s : State) (k : Nat) : State :=
  s.modTeam k fun t => { t with landed := ⟨c.id, c.team, c.tid, c.cpl, c.pad, c.pad + c.size, c.fills || c.f = 5⟩ :: t.landed }
/-- An access to pad bytes observes the completion words in them (R119). -/
def observe (s : State) (k a n : Nat) : State :=
  s.modTeam k fun t => { t with landed := t.landed.filter fun l =>
    !(decide (cplMode l.cpl ≠ 0) && decide (cplAddr l.cpl < a + n) && decide (a < cplAddr l.cpl + (if cplMode l.cpl = 3 then 4 else 8))) }
/-- A thread has waited for its copies (R120). -/
def observeCopies (s : State) (k tid : Nat) : State :=
  s.modTeam k fun t => { t with landed := t.landed.filter fun l => !(l.team = k && l.tid = tid) }

-- Undefined bytes

/-- The bytes with those that a test selects undefined (R5). -/
def freeWhere (p : Nat → Bool) : Nat → List Byte → State → List Byte × State
  | _, [], s => ([], s)
  | a, b :: bs, s =>
    if p a then
      let (rest, s') := freeWhere p (a + 1) bs { s with freeCount := s.freeCount + 1 }
      (Config.freeByte s.freeCount :: rest, s')
    else
      let (rest, s') := freeWhere p (a + 1) bs s
      (b :: rest, s')
/-- New bytes over old ones: where a test selects, either may remain (R231). -/
def eitherWhere (p : Nat → Bool) : Nat → List Byte → List Byte → State → List Byte × State
  | a, b :: bs, o :: os, s =>
    if p a then
      let (old, s) := freeBit s
      let (rest, s) := eitherWhere p (a + 1) bs os s
      ((if old then o else b) :: rest, s)
    else
      let (rest, s) := eitherWhere p (a + 1) bs os s
      (b :: rest, s)
  | _, bs, _, s => (bs, s)

/-- The addresses of a range that a test selects. -/
def among (p : Nat → Bool) (a n : Nat) : List Nat := ((List.range n).map (a + ·)).filter p
/-- A drain's store and those of a later operation of its mask that drains its tile keep opening order (R218). -/
def Mop.follows (m : Mop) (s : State) (own : Nat) : Bool :=
  s.mops.any fun d => d.id = own && d.team = m.team && d.mask = m.mask && d.tile = m.tile && decide (d.id < m.id)
/-- An operation's addresses of bytes from a spot on that it reads, or writes with no order to a write by the agent `own`. -/
def Mop.touched (m : Mop) (s : State) (own : Nat) (x : Spot) (n : Nat) : List Nat :=
  (List.range n).flatMap fun i => (m.names s (x.next i)).filter fun a =>
    (!m.follows s own && m.outBoxes.any fun h => h.space = x.pad && h.stores a) || m.inBoxes.any fun h => h.space = x.pad && h.reads a
/-- Marks a write to bytes under an unfinished tile operation (R217; DEDUCED, log 23). -/
def markMops (s : State) (own : Nat) (x : Spot) (n : Nat) : State :=
  { s with mops := s.mops.map fun m =>
      if m.id = own then m else { m with clash := (m.touched s own x n).eraseDups.map (fun a => (x.pad, a)) ++ m.clash } }
/-- Marks a write to pad bytes under an unfinished copy (R115); by a thread, in its destination too. -/
def markCopies (s : State) (k own a n : Nat) (thread : Bool) : State :=
  { s with copies := s.copies.map fun c =>
      if c.id ≠ own then { c with clash := (among (fun i => c.sources k i || (thread && c.targets s k i)) a n).map (fun i => (some k, i)) ++ c.clash } else c }
/-- Marks a thread's store to memory under an unfinished copy, which reads or writes it (R158). -/
def markMoves (s : State) (x : Spot) (n : Nat) : State :=
  { s with copies := s.copies.map fun c =>
      { c with clash := ((List.range n).flatMap fun i => (c.names s (x.next i)).filter c.moves).eraseDups.map (fun a => (none, a)) ++ c.clash } }
/-- An unfinished copy writes the byte of memory (R158). -/
def copyWrites (s : State) (x : Spot) : Bool := s.copies.any fun c => c.drains && (c.names s x).any c.moves

/-- Bytes bound for memory, at a virtual address of a team's space where a team writes them, and the unfinished operations told (R217): where an unfinished
drain has stored, one of the two values remains (R231); a thread's plain store under an unfinished copy is undefined (R158). -/
def globalStore (s : State) (k : Option Nat) (own : Nat) (plain : Bool) (va pa : Nat) (bs : List Byte) : List Byte × State :=
  let x : Spot := ⟨k, false, va, pa⟩
  let hit (i : Nat) : Bool := drainStored s own (x.next (i - va))
  let (bs, s) := if (among hit va bs.length).isEmpty then (bs, s) else
    let s := flushOut s fun o => decide (o.pa < pa + bs.length) && decide (pa < o.pa + o.bytes.length)
    eitherWhere hit va bs (s.rd pa bs.length) s
  let (bs, s) := if plain then freeWhere (fun i => copyWrites s (x.next (i - va))) va bs s else (bs, s)
  let s := if plain then markMoves s x bs.length else s
  (bs, markMops s own x bs.length)
/-- Bytes read from memory by a thread or an engine: undefined where an unfinished drain stores to them (R231). -/
def globalRead (s : State) (k own va pa : Nat) (bs : List Byte) : List Byte × State :=
  freeWhere (fun i => drainStores s own ⟨some k, false, i, pa + (i - va)⟩) va bs s

end Sys2Proof.Machine
end

