-- ==== Sys2Proof/Machine/Ops.lean ====
section
/-! DEFINITION. The named operations that the meanings share: the lanes of an issue group and their guards (R28, R31),
completing, trapping and returning (R310 to R315), aborting and ending a team (R295, R313), parking (R296 to R299), the pad
(R139, R140), counting barriers (R118), W and S (R251 to R255, R355). -/

namespace Sys2Proof.Machine

abbrev Out := Host.Outcome State Fault Refusal

/-- A step's outcome: the fault noted inside it, or the next state (DESIGN CHOICE, log 5). -/
def finish (s : State) : Out := match s.halt with | some f => .fault f | none => .next s

/-- The lanes of a mask, ascending. -/
def lanesOf (m : BitVec 32) : List Nat := (List.range 32).filter fun i => m.getLsbD i

/-- The team of the issue group. -/
def State.here (s : State) : Team := s.team s.cur.team
/-- The threads of the issue group, ascending. -/
def State.tids (s : State) : List Nat := (lanesOf s.cur.mask).map fun l => 32 * s.cur.laneset + l
def Team.laneset (t : Team) (i : Nat) : Laneset := (t.lanesets[i]?).getD ⟨0, 0, 0, true⟩
/-- A thread's register count (R143). -/
def Team.countOf (t : Team) (tid : Nat) : Nat := (t.laneset (tid / 32)).count
def Team.padSize (t : Team) : Nat := t.desc.padKiB * 1024

/-- A lane register. -/
def Thread.reg (t : Thread) (r : Nat) : BitVec 32 := t.regs[r % 128]'(Nat.mod_lt _ (by decide))
def Thread.setReg (t : Thread) (r : Nat) (v : BitVec 32) : Thread :=
  { t with regs := t.regs.set (r % 128) v (Nat.mod_lt _ (by decide)) }
/-- A register pair, low word first (R34). -/
def Thread.pair (t : Thread) (r : Nat) : BitVec 64 := t.reg (r + 1) ++ t.reg r
def Thread.setPair (t : Thread) (r : Nat) (v : BitVec 64) : Thread :=
  (t.setReg r (v.truncate 32)).setReg (r + 1) ((v >>> 32).truncate 32)
/-- `n` registers from `r` as a number, lowest first. -/
def Thread.regsNat (t : Thread) (r : Nat) : Nat → Nat
  | 0 => 0
  | n + 1 => (t.reg r).toNat + 2 ^ 32 * t.regsNat (r + 1) n
/-- `n` registers from `r` written from a number. -/
def Thread.setRegsNat (t : Thread) (r : Nat) : Nat → Nat → Thread
  | 0, _ => t
  | n + 1, x => (t.setReg r (BitVec.ofNat 32 x)).setRegsNat (r + 1) n (x / 2 ^ 32)
/-- A predicate; p0 reads 1 (R33). -/
def Thread.pred (t : Thread) (p : Nat) : Bool := p = 0 || t.preds.getLsbD p
/-- Writes a predicate; a write to p0 is ignored (R33). -/
def Thread.setPred (t : Thread) (p : Nat) (b : Bool) : Thread :=
  if p = 0 then t
  else { t with preds := if b then t.preds ||| BitVec.twoPow 32 p else t.preds &&& ~~~ BitVec.twoPow 32 p }

/-- The thread passes its guard span and the prefix's guard (R28, R31). -/
def passes (c : Issue) (t : Thread) : Bool :=
  (t.spanLeft = 0 || t.spanPass) && (match c.guard with | none => true | some (p, n) => t.pred p.toNat != (n == 1))

/-- A guard that never passes, which makes a prefix illegal (R25, R31). -/
def Issue.never (c : Issue) : Bool := c.guard = some (0, 1)

/-- The instruction has completed, or was suppressed, for the thread: on to the next, the span one shorter (R28). -/
def Thread.done (t : Thread) (next : BitVec 64) : Thread :=
  { t with pc := next, spanLeft := t.spanLeft - 1, wait := .ready, half := none, command := none, resume := none }
/-- A taken branch: bit 0 of the target is ignored, the span ends (R17, R28). -/
def Thread.jump (t : Thread) (target : BitVec 64) : Thread :=
  { t with pc := target &&& ~~~ (1 : BitVec 64), spanLeft := 0, wait := .ready, half := none, command := none, resume := none }

/-- The thread waits and will execute its instruction again, at its first byte: with a new fetch, but where it has been issued and
executes further (log 49). -/
def blockOn (s : State) (tid : Nat) (w : Wait) : State :=
  s.modThread s.cur.team tid fun t =>
    { t with pc := s.cur.pc, wait := w, since := if t.wait = w then t.since else s.clock, resume := t.resume.filter (·.instr.isSome) }

/-- The thread completes with a change of its own. -/
def completeWith (s : State) (tid : Nat) (f : Thread → Thread) : State :=
  s.modThread s.cur.team tid fun t => (f t).done s.cur.next
def complete (s : State) (tid : Nat) : State := completeWith s tid id

-- Atomics in memory

/-- Bytes written into the filled sectors of S that hold them (R253). -/
def snapUpdate (sn : Store (List Byte)) (a : Nat) : List Byte → Store (List Byte)
  | [] => sn
  | b :: bs =>
    let sec := Store.get [] sn (a / 32)
    snapUpdate (if sec = [] then sn else Store.set [] sn (a / 32) (setAt sec (a % 32) b)) (a + 1) bs

/-- An atomic's new bytes are stored at its unit, in the filled sectors of S at the addresses of its lanes, and in the shadow (R263,
R265), at team scope as unreleased (DESIGN CHOICE, log 50). -/
def atomStore (s : State) (k scope pa : Nat) (vas : List Nat) (bs : List Byte) : State :=
  if refuses s pa bs.length then s
  else
    let (bs, s) := globalStore s (some k) 0 false (vas.headD 0) pa bs
    let s := shadowWrite (s.sysPut (linkOf s (s.team k).vf) pa bs) k pa bs.length scope
    s.modTeam k fun t => { t with snap := vas.foldl (fun sn va => snapUpdate sn va bs) t.snap }
/-- FP addition of an atomic: RNE and canonical NaNs (R262). -/
def atomAdd (g : Flt) (a b : Nat) : Nat := g.round .rne false false (valAdd .rne (g.decode a) (g.decode b))
/-- The high halves that a group of merged lanes still has to add (R69, R70). -/
def addHighs (s : State) (k : Nat) (l : List Half) : State :=
  match l with
  | [] => s
  | h :: hs =>
    let g := if h.f = 11 then f16 else bf16
    let acc := hs.foldl (fun a x => atomAdd g a x.high) h.high
    atomStore s k h.scope (h.pa + 2) ((l.map fun x => x.va + 2).eraseDups) (leBytes 2 (atomAdd g (s.rdNat (h.pa + 2) 2) acc))
/-- Halves that merge: of one issue group, at one address. -/
def groupHalves : Nat → List Half → List (List Half)
  | 0, _ => []
  | _, [] => []
  | n + 1, h :: hs =>
    let same (x : Half) : Bool := x.group = h.group && x.pa = h.pa
    (h :: hs.filter same) :: groupHalves n (hs.filter fun x => !same x)
/-- A team's packed atomics are carried through: they have been issued (R70, R313). -/
def finishHalves (s : State) (k : Nat) : State :=
  let l := (s.team k).threads.filterMap fun e => e.2.half
  (groupHalves l.length l).foldl (fun s g => addHighs s k g) s

-- Ending a team

/-- Lanesets of a team leave their quadrants (R284). -/
def Quad.drop (q : Quad) (p : Nat × Nat → Bool) : Quad :=
  { q with active := q.active.filter (fun e => !p (e.1, e.2.1)), pending := q.pending.filter (fun e => !p (e.1, e.2.1))
           holds := (q.holds.filter fun h => !p h.1).map fun h => (h.1, h.2.1.filter (fun x => !p x), h.2.2) }
def dropQuads (s : State) (p : Nat × Nat → Bool) : State := { s with quads := s.quads.map fun (k, q) => (k, q.drop p) }

/-- A team on a core. -/
def Team.onCore (t : Team) (c : Nat) : Bool := match t.place with | some p => p.core = c | none => false

/-- A core after a team has left it: no signature without teams, no ranges of a grid without teams there (R101, R136). -/
def releaseCore (s : State) (c grid : Nat) : State :=
  let on := s.teams.filter fun e => e.2.onCore c
  if on.isEmpty then s.setCore c ⟨none, []⟩
  else if on.any (fun e => e.2.grid = grid) then s
  else s.setCore c { s.core c with ranges := (s.core c).ranges.filter fun r => !decide (r.grid = grid) }

/-- A team leaves its core (R295, R303). -/
def leaveCore (s : State) (k : Nat) : State :=
  match (s.team k).place with
  | none => s
  | some p =>
    let s := s.modTeam k fun t => { t with place := none, lastCore := p.core }
    releaseCore (dropQuads s fun e => e.1 = k) p.core (s.team k).grid

/-- The request is one of a team's. -/
def Owner.ofTeam (s : State) (k : Nat) : Owner → Bool
  | .thread j _ => j = k
  | .copy id => s.copies.any fun c => c.id = id && c.team = k
  | .mop id => s.mops.any fun m => m.id = id && m.team = k
  | _ => false
/-- Requests that are no more: walks go on without them, and what walks have left for them is forgotten (R82). -/
def forgetWalks (s : State) (p : Owner → Bool) : State :=
  { s with answers := s.answers.filter (fun e => !p e.owner)
           walks := s.walks.map fun e => (e.1, { e.2 with waiters := e.2.waiters.filter fun o => !p o }) }

/-- The team ends and its resources return; what names it to others stays (R265, R295). -/
def endTeam (s : State) (k : Nat) : State :=
  let s := leaveCore (finishHalves (forgetWalks s (Owner.ofTeam s k)) k) k
  let t := s.team k
  let s := s.setTeam k { Team.absent with grid := t.grid, gridId := t.gridId, index := t.index, vf := t.vf, vmid := t.vmid, asid := t.asid
                                          interval := t.interval, desc := t.desc, lastCore := t.lastCore }
  { s with copies := s.copies.filter fun c => !decide (c.team = k), mops := s.mops.filter fun m => !decide (m.team = k)
           parks := s.parks.filter fun p => !decide (p.team = k && (match p.owner with | .chan _ => false | _ => true)) }

/-- Aborts a team, with its record unless a reset forbids it (R313, R326). -/
def abortTeam (s : State) (k : Nat) (tell : Bool) (cause first second tid tfa tpc tinfo : Nat) : State :=
  let t := s.team k
  if t.phase = .ended then s
  else
    let frames := t.frames
    let s := endTeam s k
    let s := frames.foldl (fun s f => giveFrame s t.vmid f) s
    if tell then
      postEvent s t.vf (2 + cause % 2 ^ 8 * 2 ^ 8 + first % 2 ^ 8 * 2 ^ 16 + second % 2 ^ 8 * 2 ^ 24 + s.clock % 2 ^ 64 * 2 ^ 192 + t.gridId.toNat * 2 ^ 256
        + t.index % 2 ^ 32 * 2 ^ 288 + tid % 2 ^ 32 * 2 ^ 320 + tinfo % 2 ^ 32 * 2 ^ 352 + tpc % 2 ^ 64 * 2 ^ 384 + tfa % 2 ^ 64 * 2 ^ 448)
    else s

-- Exceptions

/-- The trap frame and handler entry of a thread (R310, R311). -/
def Thread.enter (t : Thread) (handler cause info tfa tia tpc : Nat) : Thread :=
  { t with tpc := BitVec.ofNat 64 tpc, tia := BitVec.ofNat 64 tia, tfa := BitVec.ofNat 64 tfa, tcause := BitVec.ofNat 32 cause
           tinfo := BitVec.ofNat 32 info, savedPass := t.spanPass, savedLeft := t.spanLeft, spanPass := false, spanLeft := 0
           handler := true, pc := BitVec.ofNat 64 handler, wait := .ready, half := none, command := none, resume := none }

/-- A thread takes a trap: it enters its handler, or ends the team where there is none or it is in its handler
already (R311 to R313). -/
def takeTrap (s : State) (k tid cause info tfa tia tpc : Nat) : State :=
  let t := s.team k
  if t.phase = .ended then s
  else
    let th := t.thread tid
    if th.handler then abortTeam s k true 0x12 th.tcause.toNat cause tid tfa tpc info
    else if t.desc.handler = 0 then abortTeam s k true cause 0 0 tid tfa tpc info
    else s.setThread k tid (th.enter t.desc.handler cause info tfa tia tpc)

/-- Return from a trap (R315). -/
def Thread.return (t : Thread) : Thread :=
  { t with pc := t.tpc &&& ~~~ (1 : BitVec 64), spanPass := t.savedPass, spanLeft := t.savedLeft, handler := false, wait := .ready }

/-- A trap of a thread of the issue group at its own instruction. -/
def trapHere (s : State) (tid cause info tfa : Nat) : State :=
  takeTrap s s.cur.team tid cause info tfa s.cur.pc.toNat s.cur.pc.toNat
/-- ILL with a sub-code (R25). -/
def ill (s : State) (tid sub : Nat) : State := trapHere s tid 1 sub 0

/-- A register that no thread has: an instruction that names something its team lacks names it too (R25). -/
def absent (b : Bool) : List Nat := if b then [128] else []

/-- The body for the threads that pass their guards and name no register beyond their count; a suppressed
thread only moves on (R28, R33), and a prefix that never passes is illegal (R25). -/
def guarded (regs : List Nat) (body : Nat → State → State) (tid : Nat) (s : State) : State :=
  let t := s.here.thread tid
  let missing := regs.any fun r => decide (s.here.countOf tid ≤ r)
  if s.here.phase = .ended then s
  else if s.cur.never && (t.spanLeft = 0 || t.spanPass) then ill s tid (if missing then 8 else 9)
  else if !passes s.cur t then s.modThread s.cur.team tid fun t => t.done s.cur.next
  else if missing then ill s tid 8
  else body tid s

/-- Runs a body for the threads of the issue group, ascending (R156). -/
def eachLane (regs : List Nat) (body : Nat → State → State) (s : State) : State :=
  s.tids.foldl (fun s tid => guarded regs body tid s) s

/-- A meaning made of one body per thread. -/
def lanes (regs : List Nat) (body : Nat → State → State) (s : State) : Out := finish (eachLane regs body s)

/-- A meaning that only changes each thread's own registers and predicates (R160). -/
def laneOp (regs : List Nat) (f : BitVec 32 → Thread → Thread) (s : State) : Out :=
  finish (eachLane regs (fun tid s => completeWith s tid (f s.here.mode)) s)

/-- The threads of the issue group that pass their guards. -/
def members (s : State) : List Nat := s.tids.filter fun tid => passes s.cur (s.here.thread tid)

-- The pad

/-- Bytes of a team's pad. -/
def Team.padRd (t : Team) (a n : Nat) : List Byte := Store.getN 0 t.pad a n
def Team.padNat (t : Team) (a n : Nat) : Nat := leNat (t.padRd a n)

/-- A thread waiting in WAITA has seen its value (R122). -/
def Thread.seeFlag (t : Thread) (pad : Store Byte) : Thread :=
  match t.wait with
  | .flag a v false => if leNat (Store.getN 0 pad a 4) = v then { t with wait := .flag a v true } else t
  | _ => t

/-- A write to the pad; the threads waiting in WAITA on a word it touches look at it (R122, R140). -/
def Team.padWr (t : Team) (a : Nat) (bs : List Byte) : Team :=
  let pad := Store.setN 0 t.pad a bs
  let hit (th : Thread) : Bool := match th.wait with
    | .flag f _ false => decide (f < a + bs.length) && decide (a < f + 4)
    | _ => false
  { t with pad := pad
           threads := t.threads.map fun (k, th) => (k, if hit th then th.seeFlag pad else th) }
def padWrite (s : State) (k a : Nat) (bs : List Byte) : State := s.modTeam k fun t => t.padWr a bs

/-- The first failing of alignment and pad bounds for a pad address: the trap's cause (R139, R310). -/
def padCheck (t : Team) (a n al : Nat) : Option Nat := if a % al ≠ 0 then some 2 else if t.padSize < a + n then some 0xD else none

/-- An arrival of `k` units at a counting barrier word (R118): after the first phase ends, whole phases are
taken together. -/
def arrive (x k : Nat) : Nat :=
  let par := bits x 63 63
  let reload := bits x 62 32
  let rem := bits x 31 0
  if k = 0 then x
  else if k < max rem 1 then putBits x 31 0 (rem - k)
  else
    let k' := k - max rem 1
    let ph := max reload 1
    let flips := 1 + k' / ph
    let rem' := if k' % ph = 0 then reload else reload - k' % ph
    putBits (putBits x 63 63 (par + flips)) 31 0 rem'

-- W and S

/-- A byte of an entry of W. -/
def WEntry.byte? (e : WEntry) (a : Nat) : Option Byte := if e.va ≤ a then e.bytes[a - e.va]? else none
/-- The youngest entry of W that covers a byte (R251). -/
def wByte (w : List WEntry) (a : Nat) : Option Byte := firstSome (fun e => e.byte? a) w.reverse
def WEntry.meets (e : WEntry) (a n : Nat) : Bool := decide (e.va < a + n) && decide (a < e.va + e.bytes.length)

/-- One entry of W reaches memory: written at device scope, into S, into the shadow, checked (R253, R265, R266;
DESIGN CHOICE, log 44); a frame sealed since the store refuses it (R99). -/
def writeEntry (scope k : Nat) (s : State) (e : WEntry) : State :=
  if refuses s e.pa e.bytes.length then s
  else
    let s := raceCheck s k e.pa e.va e.bytes.length 1
    let (bs, s) := globalStore s (some k) 0 true e.va e.pa e.bytes
    let s := devWrite s k e.pa (linkOf s (s.team k).vf) bs
    let s := shadowWrite s k e.pa bs.length scope
    s.modTeam k fun t => { t with snap := snapUpdate t.snap e.va bs }

/-- publish(W, scope): 0 team, 1 device, 2 system (R253). -/
def publish (s : State) (k scope : Nat) : State :=
  if scope = 0 then s
  else
    let w := (s.team k).w
    let s := s.modTeam k fun t => { t with w := [] }
    let s := w.foldl (writeEntry scope k) s
    if scope = 2 then flushOut s fun o => o.team = k else s

/-- Marks, youngest first, the entries of a partial publish: those that cover a byte of the access or overlap
a younger entry already taken (R355). -/
def takeEntries (a n : Nat) : List WEntry → List WEntry → List (WEntry × Bool)
  | [], _ => []
  | e :: es, taken =>
    let t := e.meets a n || taken.any fun x => e.meets x.va x.bytes.length
    (e, t) :: takeEntries a n es (if t then e :: taken else taken)

/-- The partial publish of R355, at a scope (R265; DEDUCED, log 28), at team scope as unreleased (DESIGN CHOICE, log 50). -/
def publishFor (s : State) (k scope a n : Nat) : State :=
  let m := (takeEntries a n (s.team k).w.reverse []).reverse
  let s := s.modTeam k fun t => { t with w := (m.filter fun e => !e.2).map (·.1) }
  ((m.filter (·.2)).map (·.1)).foldl (writeEntry scope k) s

/-- refresh(S) (R254). -/
def refresh (s : State) (k : Nat) : State := s.modTeam k fun t => { t with snap := [] }
/-- One more interval (R265). -/
def bump (s : State) (k : Nat) : State := s.modTeam k fun t => { t with interval := (t.interval + 1) % 2 ^ 32 }
/-- A refresh event. -/
def refreshEvent (s : State) (k : Nat) : State := bump (refresh s k) k
/-- A publish event. -/
def publishEvent (s : State) (k scope : Nat) : State := if scope = 0 then s else bump (publish s k scope) k

/-- The sector of S for an address, filled from memory where it is empty (R251). -/
def fillSector (s : State) (k va pa : Nat) : State :=
  let q := va / 32
  if Store.get [] (s.team k).snap q = [] then
    let base := pa / 32 * 32
    let s := flushOut s fun o => decide (o.pa < base + 32) && decide (base < o.pa + o.bytes.length)
    let s := touch s base 32
    let bs := s.rd base 32
    s.modTeam k fun t => { t with snap := Store.set [] t.snap q bs }
  else s

/-- A byte of the team's view: the youngest entry of W, else S (R251). -/
def viewByte (t : Team) (a : Nat) : Byte :=
  match wByte t.w a with
  | some b => b
  | none => ((Store.get [] t.snap (a / 32))[a % 32]?).getD 0

/-- The access needs its sector of S. -/
def needsSector (t : Team) (a n : Nat) : Bool := (List.range n).any fun i => (wByte t.w (a + i)).isNone

-- Faults and parking

/-- On whose behalf a team's access translates. -/
def whoOf (s : State) (k : Nat) : Who :=
  let t := s.team k
  { vmid := t.vmid, asid := t.asid, vf := t.vf, super := t.super, team := k
    grid := match t.place with | some p => some (p.core, t.grid) | none => none }

/-- A request of a thread of the issue group. -/
def whoThread (s : State) (tid : Nat) : Who := { whoOf s s.cur.team with owner := some (.thread s.cur.team tid) }

/-- Marks a fault of a time major and writes its record (R298, R299); where there is no room for a further record, it stays for the time
being without (R329). -/
def makeMajorAt (s : State) (id reason clock : Nat) : State :=
  match s.faults.find? fun f => f.id = id with
  | none => s
  | some f =>
    if eventsFull s f.vf then { s with faults := s.faults.map fun g => if g.id = id then { g with pend := some (reason, clock) } else g } else
    let fid := if f.vf = pf then s.pfFid else (s.vf f.vf).nextFid
    let s := if f.vf = pf then { s with pfFid := s.pfFid + 1 } else s.setVf f.vf { s.vf f.vf with nextFid := fid + 1 }
    let s := { s with faults := s.faults.map fun g => if g.id = id then { g with major := some (fid, reason), pend := none } else g }
    postEvent s f.vf (1 + clock % 2 ^ 64 * 2 ^ 192 + reason * 2 ^ 328 + f.kind * 2 ^ 336 + f.vmid % 2 ^ 12 * 2 ^ 356 + f.asid % 2 ^ 16 * 2 ^ 368
      + fid % 2 ^ 64 * 2 ^ 384 + f.page * 2 ^ 448)
/-- A fault becomes major now. -/
def makeMajor (s : State) (id reason : Nat) : State := makeMajorAt s id reason s.clock

/-- The fault on a page that an access attaches to, opened where there is none; a write through a remote leaf
takes the frame for its migration (R96, R298). -/
def openFault (s : State) (w : Who) (va kind : Nat) (x : Xlat) : Nat × State :=
  let page := va / 2 ^ 16 * 2 ^ 16
  match s.faults.find? fun f => f.vmid = w.vmid && f.asid = w.asid && f.page = page with
  | some f => (f.id, s)
  | none =>
    let (id, s) := fresh s
    let mk (leaf stage : Nat) (held : Option Nat) : FaultRec :=
      ⟨id, w.vmid, w.asid, page, w.vf, leaf, kind, none, stage, held, none, none⟩
    match x with
    | .minor leaf true =>
      (match takeFrame s w.vmid with
       | (some fr, s) => (id, { s with faults := s.faults ++ [mk leaf 0 (some fr)] })
       | (none, s) => (id, makeMajor { s with faults := s.faults ++ [mk leaf 0 none] } id 0x10))
    | .minor leaf false => (id, { s with faults := s.faults ++ [mk leaf 0 none] })
    | .major reason stage => (id, makeMajor { s with faults := s.faults ++ [mk 0 stage none] } id reason)
    | _ => (id, s)

/-- Adds a park record (R297). -/
def addPark (s : State) (owner : Owner) (team va kind tid : Nat) (instr : Option Parked) (fault : Nat) : State :=
  let (id, s) := fresh s
  { s with parks := s.parks ++ [⟨id, owner, team, va, kind, s.clock, s.clock, tid, instr, .waiting fault⟩] }

/-- A thread of the issue group parks on an access of its instruction (R158, R296): `ld` or `st` counts it. -/
def parkThread (s : State) (tid va : Nat) (k : Acc) (isStore : Bool) (i : Instr) (piece : Nat) (x : Xlat) : State :=
  let (f, s) := openFault s (whoOf s s.cur.team) va k.code x
  let p : Parked := ⟨i, s.cur.pc, s.cur.word, s.cur.next, piece, s.cur.x, s.cur.vc⟩
  let s := addPark s (.thread s.cur.team tid) s.cur.team va k.code tid (some p) f
  s.modThread s.cur.team tid fun t =>
    { t with pc := s.cur.pc, wait := .parked, since := s.clock, resume := none
             ld := if isStore || k = .fetch then t.ld else t.ld + 1, st := if isStore then t.st + 1 else t.st }

/-- The state with what a translation has changed besides memory: for an instruction that goes no further (R6). -/
def carry (s t : State) : State := { s with walks := t.walks, answers := t.answers, nextKey := t.nextKey, freeCount := t.freeCount, tlb := t.tlb }
/-- The issue group that a thread's instruction belongs to: that of its first issue; a replay's is its own (R69, R300; DESIGN CHOICE,
log 49). -/
def issueOf (s : State) (tid : Nat) : Nat :=
  match (s.here.thread tid).resume with
  | some r => r.group
  | none => s.clock * 4096 + (if s.cur.replay.isSome then tid + 1 else 0)
/-- The instruction of a thread of the issue group as issued: it executes further without another fetch, or, where its fetch is still to be
made, with it (DESIGN CHOICE, log 49). -/
def resumeOf (s : State) (tid : Nat) (i : Option Instr) : Resume := ⟨i, s.cur.word, s.cur.next, s.cur.x, s.cur.vc, issueOf s tid⟩
/-- A thread of the issue group has been issued its instruction, and executes further at a later step (log 49). -/
def remain (s : State) (tid : Nat) (i : Option Instr) : State :=
  s.modThread s.cur.team tid fun t => { t with resume := some (resumeOf s tid i) }
/-- A thread of the issue group waits at its instruction, and executes it further afterwards. -/
def stay (s : State) (tid : Nat) (w : Wait) (i : Option Instr) : State :=
  (blockOn s tid w).modThread s.cur.team tid fun t => { t with resume := some (resumeOf s tid i) }
/-- A thread of the issue group waits for a walk (R82). -/
def waitWalk (s : State) (tid w : Nat) (i : Option Instr) : State := stay s tid (.walk w) i
/-- A translation of a thread of the issue group that gave no address: the thread traps, parks, or waits for a walk (R82, R83, R296). -/
def notReached (s : State) (tid va : Nat) (k : Acc) (isStore : Bool) (i : Instr) (piece : Nat) : Xlat → State
  | .walking w => waitWalk s tid w (if k = .fetch then none else some i)
  | .prot info => trapHere s tid 3 info va
  | .ecc => trapHere s tid 6 0 va
  | x => parkThread s tid va k isStore i piece x
/-- A translated access of `n` bytes by a thread of the issue group, for a body that may yet turn it away: it gets the leaf whose dirty
bit to set (R81). -/
def accessWith (s : State) (tid va n : Nat) (k : Acc) (isStore : Bool) (i : Instr) (piece : Nat) (body : State → Nat → Bool → Option Nat → State) : State :=
  match translate s (whoThread s tid) k va n with
  | (.ok pa sl d, s) => body s pa sl d
  | (x, s) => notReached s tid va k isStore i piece x
/-- A translated access of a thread of the issue group: on success the body gets the physical address. -/
def access (s : State) (tid va n : Nat) (k : Acc) (isStore : Bool) (i : Instr) (piece : Nat) (body : State → Nat → Bool → State) : State :=
  accessWith s tid va n k isStore i piece fun s pa sl d => body (setDirty s d) pa sl

/-- A live resident range that serves a read of the team (R101). -/
def rangeFor (s : State) (k va : Nat) : Option Range :=
  match (s.team k).place with
  | some p => rangeAt s p.core (s.team k).grid va
  | none => none

/-- The page of an address no longer maps, by the tables as they stand, the memory that a range was copied from (R104). -/
def Range.moved (s : State) (r : Range) (va : Nat) : Bool :=
  match walk { s with ntlb := [] } r.vmid r.asid va, r.src[(va - r.base) / 256]? with
  | .leaf _ _ pa _ _ _, some x => !decide (pa + va % 2 ^ 16 = x + (va - r.base) % 256)
  | _, _ => true
/-- The physical address that a range's byte was copied from. -/
def Range.phys (r : Range) (va : Nat) : Nat := (r.src[(va - r.base) / 256]?).getD 0 + (va - r.base) % 256
/-- Bytes served from a resident range: undefined where their memory has been written or their page remapped since (R104). -/
def rangeRead (s : State) (r : Range) (va n : Nat) : List Byte × State :=
  freeWhere (fun a => r.stale.contains (a - r.base) || r.moved s a) va ((r.bytes.drop (va - r.base)).take n) s

end Sys2Proof.Machine
end

