-- ==== Sys2Proof/Machine/Operands.lean ====
section
/-! DEFINITION. Operand forms: registers, pairs, the fourth register and the rounding of a prefix (R31, R32), the
mode register (R50), and the shapes that many lane instructions share (R160). -/

namespace Sys2Proof.Machine

/-- vd := f va vb. -/
def rrr (d a b : Reg) (f : Word → Word → Word) (s : State) : Out :=
  laneOp [d.toNat, a.toNat, b.toNat] (fun _ t => t.setReg d.toNat (f (t.reg a.toNat) (t.reg b.toNat))) s
/-- vd := f va. -/
def rr (d a : Reg) (f : Word → Word) (s : State) : Out :=
  laneOp [d.toNat, a.toNat] (fun _ t => t.setReg d.toNat (f (t.reg a.toNat))) s
/-- Two-address 16-bit forms: vd := f vd vs (R26). -/
def short (d v : BitVec 5) (f : Word → Word → Word) (s : State) : Out :=
  rrr (d.zeroExtend 7) (d.zeroExtend 7) (v.zeroExtend 7) f s
def shortI (d : BitVec 5) (f : Word → Word) (s : State) : Out := rr (d.zeroExtend 7) (d.zeroExtend 7) f s

/-- The registers of a pair. -/
def two (r : Reg) : List Nat := [r.toNat, r.toNat + 1]
/-- The registers of a quad. -/
def four (r : Reg) : List Nat := [r.toNat, r.toNat + 1, r.toNat + 2, r.toNat + 3]

/-- The register of the third source: vc, or vd where a prefix gives none (R31, R32). -/
def third (c : Issue) (d : Reg) : Reg := if c.vc = 0 then d else c.vc

/-- The fields of `$mode` (R50). -/
def modeRnd (m : Word) : Rnd := rndOf (m.toNat % 4)
def modeSat (m : Word) : Bool := m.getLsbD 2
def modeNanp (m : Word) : Bool := m.getLsbD 3
def modeUthr (m : Word) : Nat := min 64 (bits m.toNat 15 8)
/-- The rounding of an instruction: the prefix's, else the mode's (R32). -/
def rounding (c : Issue) (m : Word) : Rnd :=
  let x := c.x.toNat % 8
  if x = 0 then modeRnd m else rndOf (x - 1)

end Sys2Proof.Machine
end

