-- ==== Sys2Proof/Machine/Handle.lean ====
section
/-! DEFINITION. The checks of handles (spec/09 R202, R203), and pad accesses beside unfinished engines (spec/05 R115,
spec/09 R217, spec/10 R231). -/

namespace Sys2Proof.Machine

/-- What a role asks of a handle (R202, R203, R210, R354). -/
structure Role where
  kind : Nat := 0
  fmtOk : Nat → Bool := fun _ => true
  box : Bool := true                  -- brows and bcols at least 1
  origin : Bool := false              -- the box origin column is on a byte
  col16 : Bool := false               -- the operand's column origin is a multiple of 16
  shape : Handle → Bool := fun _ => true
  blocks : Bool := true

/-- Code 0x06 (R200, R202): the tensor lies where it may; `sb` counts for a blocked format only (DEDUCED, log 21). -/
def Handle.placed (h : Handle) (pad : Nat) : Bool :=
  let last := h.base + (h.rows - 1) * h.stride + h.rowBytes - 1
  (if h.space then
    decide (h.base < 2 ^ 32) && decide (last < pad) &&
      (!blocked h.fmt || (decide (h.sb < 2 ^ 32) && decide (h.sb + 4 * h.ns ≤ pad) && decide (h.cb + h.nb ≤ pad)))
   else decide (h.base < 2 ^ 52) && decide (last < 2 ^ 52)) &&
  (!h.statv || decide (h.stats * 16 + 16 ≤ pad))

/-- The first failing check of R202, in ascending code. -/
def Handle.check (h : Handle) (pad : Nat) (r : Role) : Option Nat :=
  if h.kind ≠ r.kind then some 1
  else if !r.fmtOk h.fmt then some 2
  else if h.rows = 0 || h.cols = 0 || (r.box && (h.brows = 0 || h.bcols = 0)) then some 3
  else if h.base % 16 ≠ 0 || h.stride % 16 ≠ 0 || (r.origin && (h.col * h.width) % 8 ≠ 0)
      || (r.col16 && (if h.trans then h.row else h.col) % 16 ≠ 0) then some 4
  else if h.stride < h.rowBytes then some 5
  else if !h.placed pad then some 6
  else if !r.shape h then some 7
  else if r.blocks && blocked h.fmt && (h.cols % 64 ≠ 0 || h.sb % 16 ≠ 0) then some 9
  else none

/-- An index list or a metadata tensor: codes 0x01 to 0x06 (R210, R354). -/
def listRole : Role := { fmtOk := fun f => f = 29, box := false, blocks := false }

/-- Bytes of a team's pad as a thread's instruction reads them: undefined where an unfinished copy or drain
writes them (R115, R231). -/
def padRead (s : State) (k a n : Nat) : List Byte × State :=
  freeWhere (fun i => copyStores s k i || drainStores s 0 (padSpot k i)) a ((s.team k).padRd a n) s

/-- Pad bytes with an operand-visible write have no older value left for an operand (R258). -/
def Team.visible (t : Team) (a n : Nat) : Team :=
  { t with unfenced := t.unfenced.filter fun u => !(decide (a ≤ u.1) && decide (u.1 < a + n)) }
/-- Unfenced stores, newest first, after those of some writers have been fenced: with each its byte's older ones (R258). An operand that
opens later reads a fenced store or a later one, whoever has ordered it (DESIGN CHOICE, log 50). -/
def fenced (p : Nat → Bool) : List (Nat × Byte × Nat) → List Nat → List (Nat × Byte × Nat)
  | [], _ => []
  | u :: us, seen =>
    if seen.contains u.1 then fenced p us seen
    else if p u.2.2 then fenced p us (u.1 :: seen)
    else u :: fenced p us seen
/-- Bytes written to the pad by a thread (`own` is 0) or an engine, and noted at the unfinished engines (R115, R217): where an unfinished
drain has stored, one of the two values remains (R231); a thread's are undefined where a copy works on them (R115). What an engine
writes is operand-visible (R258). -/
def padStore (s : State) (k own a : Nat) (bs : List Byte) : State :=
  let thread := own = 0
  let (bs, s) := eitherWhere (fun i => drainStored s own (padSpot k i)) a bs ((s.team k).padRd a bs.length) s
  let (bs, s) := freeWhere (fun i => thread && copyHolds s k i) a bs s
  let s := markCopies (markMops s own (padSpot k a) bs.length) k own a bs.length thread
  padWrite (if thread then s else s.modTeam k fun t => t.visible a bs.length) k a bs

/-- HANDLE at the issue group's instruction (R202). -/
def handleTrap (s : State) (tid code n : Nat) : State := trapHere s tid 0xE (code + n * 2 ^ 8) 0

end Sys2Proof.Machine
end

