-- ==== Sys2Proof/Machine/Flags.lean ====
section
/-! DEFINITION. Conditions and predicates: the machine's flags are the predicates p0 to p31, which comparisons write through a
combine field (R168, R179). -/

namespace Sys2Proof.Machine

/-- The combine field g of CMP, CMPI and FCMP (R168). -/
def combine (g : BitVec 2) (old t : Bool) : Bool :=
  match g.toNat with
  | 0 => t
  | 1 => old && t
  | 2 => old || t
  | _ => !t

/-- Conditions 0 to 9 of CMP and CMPI on 32-bit values (R168). -/
def cond32 (c : Nat) (a b : Word) : Bool :=
  match c with
  | 0 => a == b
  | 1 => a != b
  | 2 => a.slt b
  | 3 => a.sle b
  | 4 => b.slt a
  | 5 => b.sle a
  | 6 => a.ult b
  | 7 => a.ule b
  | 8 => b.ult a
  | _ => b.ule a

/-- Conditions 10 to 15 of CMP on pairs (R168). -/
def cond64 (c : Nat) (a b : DWord) : Bool :=
  match c with
  | 10 => a == b
  | 11 => a != b
  | 12 => a.slt b
  | 13 => a.ult b
  | 14 => b.sle a
  | _ => b.ule a

/-- Conditions of FCMP on decoded values (R179). -/
def condF (c : Nat) (a b : Val) : Bool :=
  let un := a.isNan || b.isNan
  match c % 8 with
  | 0 => valEq a b
  | 1 => !valEq a b
  | 2 => valLt a b
  | 3 => !un && !valLt b a
  | 4 => valLt b a
  | 5 => !un && !valLt a b
  | 6 => !un
  | _ => un

/-- A thread writes a predicate through the combine field. -/
def Thread.setCond (t : Thread) (p : BitVec 5) (g : BitVec 2) (b : Bool) : Thread :=
  t.setPred p.toNat (combine g (t.pred p.toNat) b)

end Sys2Proof.Machine
end

