-- ==== Sys2Proof/Machine/Integer.lean ====
section
/-! DEFINITION. INTA, INTB, the immediate forms, BITS, CMP, CMPI, PRED, SEL and the 16-bit integer forms (spec/07 R162 to R170;
spec/02 R22, R26). -/

namespace Sys2Proof.Machine

def minS (a b : Word) : Word := if b.slt a then b else a
def maxS (a b : Word) : Word := if a.slt b then b else a
def minN (a b : Word) : Word := if b.ult a then b else a
def maxN (a b : Word) : Word := if a.ult b then b else a
/-- Shifts by the whole of vb (R162). -/
def shlW (a b : Word) : Word := if b.toNat < 32 then a <<< b.toNat else 0
def shrW (a b : Word) : Word := if b.toNat < 32 then a >>> b.toNat else 0
def sarW (a b : Word) : Word := a.sshiftRight (min b.toNat 31)
def mulhS (a b : Word) : Word := ((a.signExtend 64 * b.signExtend 64) >>> 32).truncate 32
def mulhN (a b : Word) : Word := ((a.zeroExtend 64 * b.zeroExtend 64) >>> 32).truncate 32
def rotW (a : Word) (n : Nat) : Word := a.rotateLeft (n % 32)

def execAdd (d a b : BitVec 7) : State → Out := rrr d a b (· + ·)
def execSub (d a b : BitVec 7) : State → Out := rrr d a b (· - ·)
def execMul (d a b : BitVec 7) : State → Out := rrr d a b (· * ·)
def execMulhS32 (d a b : BitVec 7) : State → Out := rrr d a b mulhS
def execMulhN32 (d a b : BitVec 7) : State → Out := rrr d a b mulhN
def execMinS32 (d a b : BitVec 7) : State → Out := rrr d a b minS
def execMinN32 (d a b : BitVec 7) : State → Out := rrr d a b minN
def execMaxS32 (d a b : BitVec 7) : State → Out := rrr d a b maxS
def execMaxN32 (d a b : BitVec 7) : State → Out := rrr d a b maxN
def execAndB (d a b : BitVec 7) : State → Out := rrr d a b (· &&& ·)
def execOrB (d a b : BitVec 7) : State → Out := rrr d a b (· ||| ·)
def execXorB (d a b : BitVec 7) : State → Out := rrr d a b (· ^^^ ·)
def execShl (d a b : BitVec 7) : State → Out := rrr d a b shlW
def execShr (d a b : BitVec 7) : State → Out := rrr d a b shrW
def execSar (d a b : BitVec 7) : State → Out := rrr d a b sarW
def execAndn (d a b : BitVec 7) : State → Out := rrr d a b fun x y => x &&& ~~~y

/-- MAD (R163). -/
def execMad (d a b : BitVec 7) (s : State) : Out :=
  let c := third s.cur d
  laneOp [d.toNat, a.toNat, b.toNat, c.toNat] (fun _ t =>
    t.setReg d.toNat (t.reg a.toNat * t.reg b.toNat + t.reg c.toNat)) s
/-- MADW over an extension of its factors (R163). -/
def madw (ext : Word → DWord) (d a b : BitVec 7) (s : State) : Out :=
  let c := third s.cur d
  laneOp (two d ++ [a.toNat, b.toNat] ++ two c) (fun _ t =>
    t.setPair d.toNat (ext (t.reg a.toNat) * ext (t.reg b.toNat) + t.pair c.toNat)) s
def execMadwS32 (d a b : BitVec 7) : State → Out := madw (·.signExtend 64) d a b
def execMadwN32 (d a b : BitVec 7) : State → Out := madw (·.zeroExtend 64) d a b
/-- Pair forms. -/
def ppp (d a b : BitVec 7) (f : DWord → DWord → DWord) (s : State) : Out :=
  laneOp (two d ++ two a ++ two b) (fun _ t => t.setPair d.toNat (f (t.pair a.toNat) (t.pair b.toNat))) s
def execAddB64 (d a b : BitVec 7) : State → Out := ppp d a b (· + ·)
def execSubB64 (d a b : BitVec 7) : State → Out := ppp d a b (· - ·)
/-- LEA.k (R163). -/
def lea (k : Nat) (d a b : BitVec 7) (s : State) : Out :=
  laneOp (two d ++ two a ++ [b.toNat]) (fun _ t =>
    t.setPair d.toNat (t.pair a.toNat + ((t.reg b.toNat).zeroExtend 64 <<< k))) s
def execLea0 (d a b : BitVec 7) : State → Out := lea 0 d a b
def execLea1 (d a b : BitVec 7) : State → Out := lea 1 d a b
def execLea2 (d a b : BitVec 7) : State → Out := lea 2 d a b
def execLea3 (d a b : BitVec 7) : State → Out := lea 3 d a b

/-- Division with its fixed results (R164). -/
def divS (a b : Word) : Word := if b = 0 then 0xFFFFFFFF else BitVec.ofInt 32 (a.toInt.tdiv b.toInt)
def divN (a b : Word) : Word := if b = 0 then 0xFFFFFFFF else a / b
def remS (a b : Word) : Word := if b = 0 then a else BitVec.ofInt 32 (a.toInt.tmod b.toInt)
def remN (a b : Word) : Word := if b = 0 then a else a % b
def execDivS32 (d a b : BitVec 7) : State → Out := rrr d a b divS
def execDivN32 (d a b : BitVec 7) : State → Out := rrr d a b divN
def execRemS32 (d a b : BitVec 7) : State → Out := rrr d a b remS
def execRemN32 (d a b : BitVec 7) : State → Out := rrr d a b remN
/-- The exact magnitude of the signed difference (R163). -/
def absd (a b : Word) : Word := BitVec.ofNat 32 (a.toInt - b.toInt).natAbs
def execAbsdS32 (d a b : BitVec 7) : State → Out := rrr d a b absd

/-- One byte of PRMT (R165): `src` is vd:va, `sel` four bits. -/
def prmtByte (src : DWord) (sel : Nat) : Nat :=
  let x := bits (src.toNat / 2 ^ (8 * (sel % 8))) 7 0
  if bit sel 3 then (if bit x 7 then 0xFF else 0) else x
def prmt (a old b : Word) : Word :=
  let src := old ++ a
  let s (i : Nat) := prmtByte src (bits b.toNat (4 * i + 3) (4 * i))
  BitVec.ofNat 32 (s 0 + 2 ^ 8 * s 1 + 2 ^ 16 * s 2 + 2 ^ 24 * s 3)
def execPrmt (d a b : BitVec 7) (s : State) : Out :=
  laneOp [d.toNat, a.toNat, b.toNat] (fun _ t =>
    t.setReg d.toNat (prmt (t.reg a.toNat) (t.reg d.toNat) (t.reg b.toNat))) s
def execRot (d a b : BitVec 7) : State → Out := rrr d a b fun x y => rotW x y.toNat

-- Immediates (R22, R166)
def execAddi (d a : BitVec 7) (i : BitVec 11) : State → Out := rr d a (· + i.signExtend 32)
def execAndi (d a : BitVec 7) (i : BitVec 11) : State → Out := rr d a (· &&& i.signExtend 32)
def execOri (d a : BitVec 7) (i : BitVec 11) : State → Out := rr d a (· ||| i.signExtend 32)
def execXori (d a : BitVec 7) (i : BitVec 11) : State → Out := rr d a (· ^^^ i.signExtend 32)
def execShli (d a : BitVec 7) (n : BitVec 5) : State → Out := rr d a (· <<< n.toNat)
def execShri (d a : BitVec 7) (n : BitVec 5) : State → Out := rr d a (· >>> n.toNat)
def execSari (d a : BitVec 7) (n : BitVec 5) : State → Out := rr d a (·.sshiftRight n.toNat)
def execRoti (d a : BitVec 7) (n : BitVec 5) : State → Out := rr d a (rotW · n.toNat)
def execMovi (d : BitVec 7) (i : BitVec 18) (s : State) : Out :=
  laneOp [d.toNat] (fun _ t => t.setReg d.toNat (i.signExtend 32)) s
def execMovhi (d : BitVec 7) (i : BitVec 18) (s : State) : Out :=
  laneOp [d.toNat] (fun _ t => t.setReg d.toNat (i ++ (t.reg d.toNat).extractLsb' 0 14)) s

-- Bit operations (R167)
def popcW (a : Word) : Word := BitVec.ofNat 32 ((List.range 32).filter a.getLsbD).length
def clzW (a : Word) : Word := BitVec.ofNat 32 (32 - bitLen a.toNat)
def ffsW (a : Word) : Word := BitVec.ofNat 32 (((List.range 32).find? a.getLsbD).getD 32)
def fieldPos (b : Word) : Nat := bits b.toNat 4 0
def fieldLen (b : Word) : Nat := min (bits b.toNat 13 8) (32 - fieldPos b)
def bfeN (a b : Word) : Word := BitVec.ofNat 32 (a.toNat / 2 ^ fieldPos b % 2 ^ fieldLen b)
def bfeS (a b : Word) : Word :=
  if fieldLen b = 0 then 0 else BitVec.ofInt 32 (toSigned (fieldLen b) (a.toNat / 2 ^ fieldPos b))
def bfiW (base a b : Word) : Word :=
  let m : Word := BitVec.ofNat 32 ((2 ^ fieldLen b - 1) * 2 ^ fieldPos b)
  (base &&& ~~~m) ||| ((a <<< fieldPos b) &&& m)
def execMov (d a : BitVec 7) : State → Out := rr d a id
def execPopc (d a : BitVec 7) : State → Out := rr d a popcW
def execClz (d a : BitVec 7) : State → Out := rr d a clzW
def execBrev (d a : BitVec 7) : State → Out := rr d a BitVec.reverse
def execFfs (d a : BitVec 7) : State → Out := rr d a ffsW
def execSext8 (d a : BitVec 7) : State → Out := rr d a fun x => (x.truncate 8).signExtend 32
def execSext16 (d a : BitVec 7) : State → Out := rr d a fun x => (x.truncate 16).signExtend 32
def execZext8 (d a : BitVec 7) : State → Out := rr d a fun x => (x.truncate 8).zeroExtend 32
def execZext16 (d a : BitVec 7) : State → Out := rr d a fun x => (x.truncate 16).zeroExtend 32
def execBfeS32 (d a b : BitVec 7) : State → Out := rrr d a b bfeS
def execBfeN32 (d a b : BitVec 7) : State → Out := rrr d a b bfeN
def execBfi (d a b : BitVec 7) (s : State) : Out :=
  let c := third s.cur d
  laneOp [d.toNat, a.toNat, b.toNat, c.toNat] (fun _ t =>
    t.setReg d.toNat (bfiW (t.reg c.toNat) (t.reg a.toNat) (t.reg b.toNat))) s
def execMovB64 (d a : BitVec 7) (s : State) : Out :=
  laneOp (two d ++ two a) (fun _ t => t.setPair d.toNat (t.pair a.toNat)) s
def execNotB (d a : BitVec 7) : State → Out := rr d a (~~~ ·)

-- Comparisons, predicates, selection (R168 to R170)
def execCmp (p : BitVec 5) (g : BitVec 2) (a b : BitVec 7) (c : BitVec 4) (s : State) : Out :=
  if c.toNat < 10 then
    laneOp [a.toNat, b.toNat] (fun _ t => t.setCond p g (cond32 c.toNat (t.reg a.toNat) (t.reg b.toNat))) s
  else
    laneOp (two a ++ two b) (fun _ t => t.setCond p g (cond64 c.toNat (t.pair a.toNat) (t.pair b.toNat))) s
def execCmpi (p : BitVec 5) (g : BitVec 2) (a : BitVec 7) (c : BitVec 4) (i : BitVec 7) (s : State) : Out :=
  laneOp [a.toNat] (fun _ t => t.setCond p g (cond32 c.toNat (t.reg a.toNat) (i.signExtend 32))) s
/-- PRED on two predicates (R169). -/
def pred2 (d a b : BitVec 7) (f : Bool → Bool → Bool) (s : State) : Out :=
  laneOp [] (fun _ t => t.setPred d.toNat (f (t.pred a.toNat) (t.pred b.toNat))) s
def execPand (d a b : BitVec 7) : State → Out := pred2 d a b (· && ·)
def execPor (d a b : BitVec 7) : State → Out := pred2 d a b (· || ·)
def execPxor (d a b : BitVec 7) : State → Out := pred2 d a b (· != ·)
def execPandn (d a b : BitVec 7) : State → Out := pred2 d a b fun x y => x && !y
def execPnot (d a : BitVec 7) (s : State) : Out := laneOp [] (fun _ t => t.setPred d.toNat (!t.pred a.toNat)) s
def execPtov (d : BitVec 7) (s : State) : Out := laneOp [d.toNat] (fun _ t => t.setReg d.toNat (t.preds ||| 1)) s
def execVtop (a b : BitVec 7) (s : State) : Out :=
  laneOp [a.toNat, b.toNat] (fun _ t =>
    let m := t.reg b.toNat &&& ~~~ (1 : Word)
    { t with preds := (t.preds &&& ~~~m) ||| (t.reg a.toNat &&& m) }) s
def execSel (d a b : BitVec 7) (q : BitVec 4) (s : State) : Out :=
  laneOp [d.toNat, a.toNat, b.toNat] (fun _ t =>
    t.setReg d.toNat (if t.pred q.toNat then t.reg a.toNat else t.reg b.toNat)) s

-- 16-bit forms (R26)
def execMovC (d v : BitVec 5) : State → Out := rr (d.zeroExtend 7) (v.zeroExtend 7) id
def execMoviC (d i : BitVec 5) (s : State) : Out :=
  laneOp [d.toNat] (fun _ t => t.setReg d.toNat (i.signExtend 32)) s
def execAddC (d v : BitVec 5) : State → Out := short d v (· + ·)
def execAddiC (d i : BitVec 5) : State → Out := shortI d (· + i.signExtend 32)
def execSubC (d v : BitVec 5) : State → Out := short d v (· - ·)
def execAndC (d v : BitVec 5) : State → Out := short d v (· &&& ·)
def execOrC (d v : BitVec 5) : State → Out := short d v (· ||| ·)
def execXorC (d v : BitVec 5) : State → Out := short d v (· ^^^ ·)
def execShliC (d n : BitVec 5) : State → Out := shortI d (· <<< n.toNat)
def execShriC (d n : BitVec 5) : State → Out := shortI d (· >>> n.toNat)
def execSariC (d n : BitVec 5) : State → Out := shortI d (·.sshiftRight n.toNat)
def execMinS32C (d v : BitVec 5) : State → Out := short d v minS
def execMaxS32C (d v : BitVec 5) : State → Out := short d v maxS

end Sys2Proof.Machine
end

