-- ==== Sys2Proof/Machine/Shuffle.lean ====
section
/-! DEFINITION. VOTE and SHFL over the member set of the issue group (spec/07 R161, R171 to R173). -/

namespace Sys2Proof.Machine

/-- The mask of the members whose thread satisfies a test. -/
def voteMask (s : State) (p : Thread → Bool) : Word :=
  ((members s).filter fun i => p (s.here.thread i)).foldl (fun m i => m ||| BitVec.twoPow 32 (i % 32)) 0

/-- A member lane's thread in the state at issue. -/
def laneThread (s : State) (l : Nat) : Thread := s.here.thread (32 * s.cur.laneset + l)

def execVoteAny (d a : BitVec 7) (s : State) : Out :=
  let r := voteMask s (·.pred a.toNat) != 0
  laneOp [] (fun _ t => t.setPred d.toNat r) s
def execVoteAll (d a : BitVec 7) (s : State) : Out :=
  let r := voteMask s (fun t => !t.pred a.toNat) == 0
  laneOp [] (fun _ t => t.setPred d.toNat r) s
def execVoteBallot (d a : BitVec 7) (s : State) : Out :=
  let m := voteMask s (·.pred a.toNat)
  laneOp [d.toNat] (fun _ t => t.setReg d.toNat m) s
def execVoteMatch (d a : BitVec 7) (s : State) : Out :=
  laneOp [d.toNat, a.toNat] (fun _ t => t.setReg d.toNat (voteMask s (fun u => u.reg a.toNat == t.reg a.toNat))) s
def execVoteActive (d : BitVec 7) (s : State) : Out :=
  let m := voteMask s (fun _ => true)
  laneOp [d.toNat] (fun _ t => t.setReg d.toNat m) s
def execVotePopn (d a : BitVec 7) (s : State) : Out :=
  let m := voteMask s (·.pred a.toNat)
  laneOp [d.toNat] (fun _ t => t.setReg d.toNat (popcW m)) s

/-- SHFL by a source lane (R172): a source that is no member gives the lane's own value. -/
def shfl (d a b : BitVec 7) (src : Nat → Nat → Option Nat) (s : State) : Out :=
  let mem := members s
  let s0 := s
  finish (eachLane [d.toNat, a.toNat, b.toNat] (fun tid s => completeWith s tid fun t =>
    let own := t.reg a.toNat
    let v := match src (tid % 32) (t.reg b.toNat).toNat with
      | some l => if l < 32 && mem.contains (32 * s0.cur.laneset + l) then (laneThread s0 l).reg a.toNat else own
      | none => own
    t.setReg d.toNat v) s)
def execShflIdx (d a b : BitVec 7) : State → Out := shfl d a b fun _ n => some (n % 32)
def execShflUp (d a b : BitVec 7) : State → Out := shfl d a b fun l n => if n ≤ l then some (l - n) else none
def execShflDown (d a b : BitVec 7) : State → Out := shfl d a b fun l n => if l + n ≤ 31 then some (l + n) else none
def execShflXor (d a b : BitVec 7) : State → Out := shfl d a b fun l n => some (l ^^^ (n % 32))

/-- FP32 addition on patterns under a mode and its NaN policy (R52, R53). -/
def addF32 (md : Rnd) (nanp : Bool) (a b : Word) : Word :=
  BitVec.ofNat 32 (f32.round md false nanp (valAdd md (f32.decode a.toNat) (f32.decode b.toNat)))
/-- NaN-propagating FP32 minimum and maximum on patterns (R176). -/
def minmaxF32 (nanp isMax : Bool) (a b : Word) : Word := BitVec.ofNat 32 (f32.minmax nanp isMax false a.toNat b.toNat)

/-- The combinations of SHFL.RDX, f 4 to 14 (R173). -/
def rdxOp (f : Nat) (m acc v : Word) : Word :=
  match f with
  | 4 => acc + v
  | 5 => minS acc v
  | 6 => maxS acc v
  | 7 => minN acc v
  | 8 => maxN acc v
  | 9 => acc &&& v
  | 10 => acc ||| v
  | 11 => acc ^^^ v
  | 12 => addF32 (modeRnd m) (modeNanp m) acc v
  | 13 => minmaxF32 (modeNanp m) true acc v
  | _ => minmaxF32 (modeNanp m) false acc v

/-- The reduction over the members, ascending from the lowest (R173). -/
def reduce (f : Nat) (m : Word) : List Word → Word
  | [] => 0
  | v :: vs => vs.foldl (rdxOp f m) v
def execShflRdx (d a : BitVec 7) (f : BitVec 4) (s : State) : Out :=
  let r := reduce f.toNat s.here.mode ((members s).map fun i => (s.here.thread i).reg a.toNat)
  laneOp [d.toNat, a.toNat] (fun _ t => t.setReg d.toNat r) s

end Sys2Proof.Machine
end

