-- ==== Sys2Proof/Machine/Memory.lean ====
section
/-! DEFINITION. Plain accesses, ordering instructions and atomics (spec/06 R139, R140, R151 to R159; spec/12 R249 to R264;
spec/04 R68 to R70), CLK (R290) and the accumulator copies. -/

namespace Sys2Proof.Machine

/-- Access size of a load code (R154). -/
def loadSize (z : Nat) : Nat := [1, 1, 2, 2, 4, 8, 16].getD z 1
/-- Access size of a store code (R154). -/
def storeSize (z : Nat) : Nat := [1, 2, 4, 8, 16].getD z 1
/-- The registers that hold `sz` bytes. -/
def dataRegs (d : Reg) (sz : Nat) : List Nat := (List.range (max 1 (sz / 4))).map fun i => d.toNat + i
/-- A loaded value put into its registers (R155). -/
def Thread.setLoaded (t : Thread) (d : Reg) (z : Nat) (x : Nat) : Thread :=
  match z with
  | 0 => t.setReg d.toNat (BitVec.ofInt 32 (toSigned 8 x))
  | 2 => t.setReg d.toNat (BitVec.ofInt 32 (toSigned 16 x))
  | 5 => t.setRegsNat d.toNat 2 x
  | 6 => t.setRegsNat d.toNat 4 x
  | _ => t.setReg d.toNat (BitVec.ofNat 32 x)
/-- A global address: pair plus scaled offset, modulo 2^64 (R155). -/
def globalAddr (t : Thread) (a : Reg) (o : BitVec 8) (sz : Nat) : Nat :=
  (t.pair a.toNat + o.signExtend 64 * BitVec.ofNat 64 sz).toNat
/-- A pad address: register plus scaled offset, modulo 2^32 (R155). -/
def padAddr (t : Thread) (a : Reg) (o : BitVec 8) (sz : Nat) : Nat :=
  (t.reg a.toNat + o.signExtend 32 * BitVec.ofNat 32 sz).toNat

/-- The conflict that stops an ordinary load in mode 2 (R267). -/
def loadConflict (s : State) (k pa : Nat) : Option Shadow :=
  if raceMode s (s.team k).vmid (s.team k).asid = 2 && inHbm pa then conflict s k (pa / 32) false else none

/-- The bytes of an ordinary load from W, S and memory (R251), or the trap that stops it. -/
def loadBytes (s : State) (k va pa n : Nat) : Except (Nat × Nat) (List Byte) × State :=
  let t := s.team k
  let view (s : State) : List Byte := (List.range n).map fun i => viewByte (s.team k) (va + i)
  if needsSector t va n && Store.get [] t.snap (va / 32) = [] then
    match loadConflict s k pa with
    | some e => (.error (0xA, (s.team e.team).index % 2 ^ 24 + e.scope * 2 ^ 24), s)
    | none =>
      if poisoned s pa n then (.error (6, 0), s)
      else
        let s := fillSector (raceCheck s k pa va n 0) k va pa
        (.ok (view s), s)
  else (.ok (view s), s)

/-- LD (R155 to R158): a live resident range serves it with no translation (R101, R104). -/
def execLd (d a : BitVec 7) (z : BitVec 3) (o : BitVec 8) : State → Out :=
  let sz := loadSize z.toNat
  lanes (dataRegs d sz ++ two a) fun tid s =>
    let k := s.cur.team
    let t := s.here.thread tid
    let addr := globalAddr t a o sz
    let loaded (pa : Nat) (r : List Byte × State) : State :=
      let (bs, s) := globalRead r.2 k 0 addr pa r.1
      completeWith s tid (·.setLoaded d z.toNat (leNat bs))
    if 63 ≤ t.ld then blockOn s tid .limit
    else if addr % sz ≠ 0 then trapHere s tid 2 0 addr
    else match rangeFor s k addr with
      | some r => loaded (r.phys addr) (rangeRead s r addr sz)
      | none => access s tid addr sz .load false (.ld d a z o) 0 fun s pa _ =>
        match loadBytes s k addr pa sz with
        | (.ok bs, s) => loaded pa (bs, s)
        | (.error (c, info), s) => trapHere s tid c info addr

/-- ST (R155 to R158): the store enters W. -/
def execSt (d a : BitVec 7) (z : BitVec 3) (o : BitVec 8) : State → Out :=
  let sz := storeSize z.toNat
  lanes (dataRegs d sz ++ two a) fun tid s =>
    let t := s.here.thread tid
    let addr := globalAddr t a o sz
    if 63 ≤ t.st then blockOn s tid .limit
    else if addr % sz ≠ 0 then trapHere s tid 2 0 addr
    else access s tid addr sz .store true (.st d a z o) 0 fun s pa _ =>
      let bs := leBytes sz (t.regsNat d.toNat (max 1 (sz / 4)))
      complete (s.modTeam s.cur.team fun u => { u with w := u.w ++ [⟨addr, pa, bs⟩] }) tid

/-- A pad access of a thread of the issue group: ALIGN, then POOL, then the body (R155). -/
def padAccess (s : State) (tid addr n al : Nat) (body : State → State) : State :=
  match padCheck s.here addr n al with
  | some c => trapHere s tid c 0 addr
  | none => body s

/-- A thread's pad store: not operand-visible until its fence (R140, R258). -/
def threadPadWrite (s : State) (k tid addr : Nat) (bs : List Byte) : State :=
  let old := (s.team k).padRd addr bs.length
  padStore (s.modTeam k fun t => { t with unfenced := ((List.range bs.length).map fun i => (addr + i, (old[i]?).getD 0, tid)) ++ t.unfenced }) k 0 addr bs

/-- Pad bytes as a thread's instruction reads them, which observes the completion words in them (R119). -/
def threadPadRead (s : State) (k addr n : Nat) : List Byte × State :=
  let (bs, s) := padRead s k addr n
  (bs, observe s k addr n)
/-- LDP (R155). -/
def execLdp (d a : BitVec 7) (z : BitVec 3) (o : BitVec 8) : State → Out :=
  let sz := loadSize z.toNat
  lanes (a.toNat :: dataRegs d sz) fun tid s =>
    let addr := padAddr (s.here.thread tid) a o sz
    padAccess s tid addr sz sz fun s =>
      let (bs, s) := threadPadRead s s.cur.team addr sz
      completeWith s tid (·.setLoaded d z.toNat (leNat bs))
/-- STP (R155). -/
def execStp (d a : BitVec 7) (z : BitVec 3) (o : BitVec 8) : State → Out :=
  let sz := storeSize z.toNat
  lanes (a.toNat :: dataRegs d sz) fun tid s =>
    let t := s.here.thread tid
    let addr := padAddr t a o sz
    padAccess s tid addr sz sz fun s =>
      complete (threadPadWrite s s.cur.team tid addr (leBytes sz (t.regsNat d.toNat (max 1 (sz / 4))))) tid

/-- LDQ (R256); its scope, 0 team, 1 device, 2 system, is only for the race detector. Queued outbound writes to its bytes are performed
first, those of other teams too (DESIGN CHOICE, log 50). -/
def execLdq (d a : BitVec 7) (z : BitVec 1) (sc : BitVec 2) (o : BitVec 8) : State → Out :=
  let sz := if z = 1 then 8 else 4
  lanes (dataRegs d sz ++ two a) fun tid s =>
    let t := s.here.thread tid
    let addr := globalAddr t a o sz
    if 63 ≤ t.ld then blockOn s tid .limit
    else if addr % sz ≠ 0 then trapHere s tid 2 0 addr
    else
      let k := s.cur.team
      let done (r : List Byte × State) : State := completeWith (refreshEvent r.2 k) tid (·.setRegsNat d.toNat (sz / 4) (leNat r.1))
      match rangeFor s k addr with
      | some r => done (rangeRead (publishFor s k sc.toNat addr sz) r addr sz)
      | none => access s tid addr sz .load false (.ldq d a z sc o) 0 fun s pa _ =>
        if poisoned s pa sz then trapHere s tid 6 0 addr
        else
          let s := publishFor s k sc.toNat addr sz
          let s := flushOut s fun w => decide (w.pa < pa + sz) && decide (pa < w.pa + w.bytes.length)
          done (globalRead (touch s pa sz) k 0 addr pa (s.rd pa sz))

/-- Bytes written by a release store: memory or the outbound queue, S, the shadow (R256, R265). -/
def memoryStep (s : State) (k va pa scope : Nat) (bs : List Byte) : State :=
  let (bs, s) := globalStore s (some k) 0 true va pa bs
  let s := devWrite s k pa (linkOf s (s.team k).vf) bs
  let s := shadowWrite s k pa bs.length scope
  s.modTeam k fun t => { t with snap := snapUpdate t.snap va bs }

/-- STL (R256). -/
def execStl (d a : BitVec 7) (z : BitVec 1) (sc : BitVec 2) (o : BitVec 8) : State → Out :=
  let sz := if z = 1 then 8 else 4
  lanes (dataRegs d sz ++ two a) fun tid s =>
    let t := s.here.thread tid
    let addr := globalAddr t a o sz
    if 63 ≤ t.st then blockOn s tid .limit
    else if addr % sz ≠ 0 then trapHere s tid 2 0 addr
    else access s tid addr sz .store true (.stl d a z sc o) 0 fun s pa _ =>
      let k := s.cur.team
      let bs := leBytes sz (t.regsNat d.toNat (sz / 4))
      if sc = 0 then complete (s.modTeam k fun u => { u with w := u.w ++ [⟨addr, pa, bs⟩] }) tid
      else complete (bump (memoryStep (publish s k sc.toNat) k addr pa sc.toNat bs) k) tid

-- Atomics

/-- Access size of an atomic (R262). -/
def atomSize (f : Nat) : Nat := if f = 15 then 16 else if f = 13 || f = 14 then 8 else 4
/-- The combination of the merging operations (R69, R262). -/
def atomOp (f a b : Nat) : Nat :=
  let w (g : Word → Word → Word) := (g (BitVec.ofNat 32 a) (BitVec.ofNat 32 b)).toNat
  let halves (g : Flt) := atomAdd g (a % 2 ^ 16) (b % 2 ^ 16) + 2 ^ 16 * atomAdd g (a / 2 ^ 16 % 2 ^ 16) (b / 2 ^ 16 % 2 ^ 16)
  match f with
  | 0 => (a + b) % 2 ^ 32
  | 1 => w minS
  | 2 => w minN
  | 3 => w maxS
  | 4 => w maxN
  | 5 => w (· &&& ·)
  | 6 => w (· ||| ·)
  | 7 => w (· ^^^ ·)
  | 8 => b
  | 10 => atomAdd f32 a b
  | 11 => halves f16
  | 12 => halves bf16
  | _ => (a + b) % 2 ^ 64
/-- CAS, CAS.b64, CAS.b128 (R262). -/
def isCas (f : Nat) : Bool := f = 9 || f = 14 || f = 15
/-- New value of one atomic. -/
def atomNew (f old b c : Nat) : Nat := if isCas f then (if old = b then c else old) else atomOp f old b
/-- Atomics that never merge (R69). -/
def noMerge (f : Nat) : Bool := isCas f || f = 8
/-- Atomics that host memory takes (R68). -/
def hostAtomic (f : Nat) : Bool := [0, 8, 9, 13, 14, 15].contains f

/-- The prefix fields of an atomic (R32): scope (team 0, device 1, system 2), acquire, release, no return. -/
def atomScope (c : Issue) : Nat := match c.x.toNat % 4 with | 0 => 1 | 1 => 0 | _ => 2
def atomAcq (c : Issue) : Bool := c.x.getLsbD 2
def atomRel (c : Issue) : Bool := c.x.getLsbD 3
def atomNoret (c : Issue) : Bool := c.x.getLsbD 4

/-- One lane's atomic that has passed its checks: its thread, addresses, operands, and the group it may merge in (R69, R300); the first
half of a packed form that it completes (R70). -/
structure AtomReq where
  tid : Nat
  va : Nat
  pa : Nat
  b : Nat
  c : Nat
  group : Nat
  half : Option Half

/-- Merges requests for one address (R69): each request's returned value, and the value applied once. -/
def mergeGo (comb : Nat → Nat → Nat) (old : Nat) : Nat → List AtomReq → List (AtomReq × Nat) × Nat
  | acc, [] => ([], acc)
  | acc, r :: rs => let (l, a) := mergeGo comb old (comb acc r.b) rs; ((r, comb old acc) :: l, a)
def merge (comb : Nat → Nat → Nat) (old : Nat) : List AtomReq → List (AtomReq × Nat) × Nat
  | [] => ([], old)
  | r :: rs => let (l, a) := mergeGo comb old r.b rs; ((r, old) :: l, comb old a)

/-- Requests that merge: of one address, one group and one half (R69). -/
def AtomReq.joins (r q : AtomReq) : Bool := q.pa = r.pa && q.group = r.group && q.half.isSome = r.half.isSome
/-- The requests in sets that merge, first lane first. -/
def groupReqs : Nat → List AtomReq → List (List AtomReq)
  | 0, _ => []
  | _, [] => []
  | n + 1, r :: rs => (r :: rs.filter r.joins) :: groupReqs n (rs.filter fun q => !r.joins q)

/-- A request's thread gets its old value and completes, one event of its own (R263, R265). -/
def atomDone (s : State) (d : Reg) (sz : Nat) (r : AtomReq) (old : Nat) : State :=
  let s := if atomAcq s.cur then refreshEvent s s.cur.team else if atomRel s.cur && 0 < atomScope s.cur then bump s s.cur.team else s
  completeWith s r.tid fun t => if atomNoret s.cur then t else t.setRegsNat d.toNat (sz / 4) old

/-- Applies a set of atomics of one address at the unit (R69, R70, R263); a packed form's high half follows without another fetch
(R70; DESIGN CHOICE, log 49). -/
def atomApply (i : Instr) (d : Reg) (f : Nat) (s : State) (g : List AtomReq) : State :=
  match g with
  | [] => s
  | r :: _ =>
    let k := s.cur.team
    let scope := atomScope s.cur
    let sz := atomSize f
    let vas := (g.map (·.va)).eraseDups
    let s := touch (flushOut s fun w => decide (w.pa < r.pa + sz) && decide (r.pa < w.pa + w.bytes.length)) r.pa sz
    if noMerge f then
      g.foldl (fun s r =>
        let old := s.rdNat r.pa sz
        atomDone (atomStore s k scope r.pa [r.va] (leBytes sz (atomNew f old r.b r.c))) d sz r old) s
    else if f = 11 || f = 12 then
      let fl := if f = 11 then f16 else bf16
      let off := if r.half.isSome then 2 else 0
      let old := s.rdNat (r.pa + off) 2
      let (l, new) := merge (atomAdd fl) old (g.map fun q => { q with b := match q.half with | some h => h.high | none => q.b % 2 ^ 16 })
      let s := atomStore s k scope (r.pa + off) (vas.map (· + off)) (leBytes 2 new)
      l.foldl (fun s (q, ret) => match q.half with
        | some h => atomDone s d sz q (h.low + 2 ^ 16 * ret)
        | none =>
          let high := ((g.find? fun x => x.tid = q.tid).map fun x => x.b / 2 ^ 16).getD 0
          s.modThread k q.tid fun t =>
            { t with wait := .ready, half := some ⟨r.pa, q.va, ret, f, high, scope, q.group⟩, pc := s.cur.pc, resume := some (resumeOf s q.tid (some i)) }) s
    else
      let old := s.rdNat r.pa sz
      let (l, new) := merge (atomOp f) old g
      let s := atomStore s k scope r.pa vas (leBytes sz new)
      l.foldl (fun s (q, ret) => atomDone s d sz q ret) s

/-- The lanes' requests so far; where a lane's trap has ended the team, that trap, which follows the earlier lanes' atomics (R250,
R313). -/
structure Gather where
  s : State
  reqs : List AtomReq
  stop : Option (State → State)

/-- A lane traps or waits: the later lanes go on, unless the team has ended. -/
def Gather.turned (g : Gather) (f : State → State) : Gather :=
  if (f g.s).here.phase = .ended then { g with stop := some f } else { g with s := f g.s }
/-- One lane's checks, translation and publishes (R263). -/
def gatherLane (a b c : Reg) (f : Nat) (regs : List Nat) (i : Instr) (g : Gather) (tid : Nat) : Gather :=
  if g.stop.isSome then g
  else
    let s := g.s
    let k := s.cur.team
    let t := s.here.thread tid
    let sz := atomSize f
    let addr := (t.pair a.toNat).toNat
    let nr := atomNoret s.cur
    let req (pa group : Nat) (half : Option Half) : AtomReq := ⟨tid, addr, pa, t.regsNat b.toNat (sz / 4), t.regsNat c.toNat (sz / 4), group, half⟩
    if s.here.phase = .ended || !passes s.cur t || regs.any (fun r => decide (s.here.countOf tid ≤ r)) then g.turned (guarded regs (fun _ s => s) tid)
    else match t.half with
      | some h => { g with reqs := g.reqs ++ [req h.pa h.group (some h)] }
      | none =>
        if (if nr then 63 ≤ t.st else 63 ≤ t.ld) then g.turned fun s => blockOn s tid .limit
        else if addr % sz ≠ 0 then g.turned fun s => trapHere s tid 2 0 addr
        else match translate s (whoThread s tid) .atomic addr sz with
          | (.ok pa _ dirty, s) =>
            let g := { g with s := s }
            if inHost pa && !hostAtomic f then g.turned fun s => trapHere s tid 3 (xinfo 9 .atomic 0) addr
            else if !nr && poisoned s pa sz then g.turned fun s => trapHere s tid 6 0 addr
            else
              let s := setDirty s dirty
              let s := if atomRel s.cur then publish s k (atomScope s.cur) else s
              { g with s := publishFor s k (atomScope s.cur) addr sz, reqs := g.reqs ++ [req pa (issueOf s tid) none] }
          | (x, s) => { g with s := s }.turned fun s => notReached s tid addr .atomic nr i 0 x

/-- ATOM (R262, R263): each lane's checks, translation and publishes, then the unit; a lane whose trap ends the team comes after the
atomics of the lanes before it. -/
def execAtom (d a b : BitVec 7) (f : BitVec 4) (s : State) : Out :=
  let sz := atomSize f.toNat
  let c := third s.cur d
  let regs := (if atomNoret s.cur then [] else dataRegs d sz) ++ two a ++ dataRegs b sz ++ (if isCas f.toNat then dataRegs c sz else [])
  let g := s.tids.foldl (gatherLane a b c f.toNat regs (.atom d a b f)) ⟨s, [], none⟩
  let s := (groupReqs g.reqs.length g.reqs).foldl (atomApply (.atom d a b f) d f.toNat) g.s
  finish (match g.stop with | some h => h s | none => s)

/-- ATOMP (R262, R263): lanes one at a time, at the pad, at team scope. -/
def execAtomp (d a b : BitVec 7) (f : BitVec 4) (s : State) : Out :=
  let c := third s.cur d
  let nr := atomNoret s.cur
  lanes ((if nr then [] else [d.toNat]) ++ [a.toNat, b.toNat] ++ (if isCas f.toNat then [c.toNat] else [])) (fun tid s =>
    let t := s.here.thread tid
    let addr := (t.reg a.toNat).toNat
    padAccess s tid addr 4 4 fun s =>
      let (bs, s) := threadPadRead s s.cur.team addr 4
      let old := leNat bs
      let s := threadPadWrite s s.cur.team tid addr (leBytes 4 (atomNew f.toNat old (t.reg b.toNat).toNat (t.reg c.toNat).toNat))
      let s := if atomAcq s.cur then refreshEvent s s.cur.team else s
      completeWith s tid fun t => if nr then t else t.setReg d.toNat (BitVec.ofNat 32 old)) s

-- Ordering instructions (R257)
/-- PHASE at a scope: one event for each thread (R265). -/
def phase (scope : Nat) : State → Out :=
  lanes [] fun tid s => complete (refreshEvent (publish s s.cur.team scope) s.cur.team) tid
def execPhaseTeam : State → Out := phase 0
def execPhaseDev : State → Out := phase 1
def execPhaseSys : State → Out := phase 2
/-- FENCE.OP: the thread's earlier pad stores are operand-visible (R258). -/
def execFenceOp : State → Out :=
  lanes [] fun tid s => complete (s.modTeam s.cur.team fun t => { t with unfenced := fenced (fun w => w = tid) t.unfenced [] }) tid
def execFenceEng : State → Out :=
  lanes [] fun tid s => complete (publishEvent s s.cur.team 1) tid

/-- PREF (R159): a miss starts a walk that nobody waits for (R82). -/
def execPref (a : BitVec 7) : State → Out :=
  lanes (two a) fun tid s =>
    let va := ((s.here.thread tid).pair a.toNat).toNat
    let w := whoOf s s.cur.team
    complete (if 2 ^ 52 ≤ va || (tlbHit s w.vmid w.asid va).isSome then s else (joinWalk s w va).2) tid

/-- CLK (R290). -/
def execClk (d : BitVec 7) (s : State) : Out :=
  laneOp (two d) (fun _ t => t.setPair d.toNat (BitVec.ofNat 64 s.clock)) s

-- The accumulator (R150 to R153)

/-- The tiles a tile operation reads and writes (R208, R213, R221, R224, R235). -/
def mopTiles (m : Mop) : List Nat × List Nat :=
  let acc := (program m.slot).filterMap fun p => if uOp p.2 = 21 then some (uImm p.2 % 32) else none
  let pair (c : Nat) := if bits m.ha.toNat 260 256 = 0 then [c, c + 1] else [c]
  match m.word with
  | .mma c _ _ _ => (pair c.toNat, pair c.toNat ++ acc)
  | .mmaz c _ _ _ => (pair c.toNat, pair c.toNat ++ acc)
  | .mmas c _ _ _ => ([c.toNat], c.toNat :: acc)
  | .mmasz c _ _ _ => ([c.toNat], c.toNat :: acc)
  | .mmac c a _ _ => ([c.toNat, a.toNat], c.toNat :: acc)
  | .mmacz c a _ _ => ([c.toNat, a.toNat], c.toNat :: acc)
  | .mhad d a _ => ([d.toNat, a.toNat], [d.toNat])
  | .mdrain d _ => ([d.toNat], acc)
  | _ => ([], acc)
/-- An unfinished tile operation of the team reads or writes the tile (R153). -/
def tileBusy (s : State) (k tile : Nat) : Bool :=
  s.mops.any fun m => m.team = k && ((mopTiles m).1.contains tile || (mopTiles m).2.contains tile)
/-- Key of an accumulator element. -/
def tileKey (tile row col : Nat) : Nat := 4096 * tile + 64 * row + col
/-- The tile is not one of the team's (R150). -/
def noTile (s : State) (tile : Nat) : List Nat := absent (decide (s.here.desc.acctiles ≤ tile))
/-- ACCRD (R151). -/
def execAccrd (d a b : BitVec 7) (s : State) : Out :=
  lanes (noTile s b.toNat ++ [d.toNat, a.toNat]) (fun tid s =>
    let i := (s.here.thread tid).reg a.toNat
    let (v, s) := if tileBusy s s.cur.team b.toNat then freeWord s
      else (Store.get 0 s.here.tiles (tileKey b.toNat (bits i.toNat 11 6) (bits i.toNat 5 0)), s)
    completeWith s tid (·.setReg d.toNat v)) s
/-- Unfinished operations on a tile learn that it holds undefined values (R217). -/
def spoilTile (s : State) (k tile : Nat) : State :=
  { s with mops := s.mops.map fun m => if m.team = k && ((mopTiles m).1.contains tile || (mopTiles m).2.contains tile) then { m with undef := tile :: m.undef } else m }
/-- ACCWR (R151). -/
def execAccwr (d a b : BitVec 7) (s : State) : Out :=
  lanes (noTile s b.toNat ++ [d.toNat, a.toNat]) (fun tid s =>
    let t := s.here.thread tid
    let i := t.reg a.toNat
    let (v, s) := if tileBusy s s.cur.team b.toNat then freeWord (spoilTile s s.cur.team b.toNat) else (t.reg d.toNat, s)
    complete (s.modTeam s.cur.team fun u => { u with tiles := Store.set 0 u.tiles (tileKey b.toNat (bits i.toNat 11 6) (bits i.toNat 5 0)) v }) tid) s
/-- The team's tile without its elements, so that each reads +0. -/
def Team.clearTile (t : Team) (tile : Nat) : Team := { t with tiles := t.tiles.filter fun e => !decide (e.1 / 4096 = tile) }
/-- The tile holds undefined values. -/
def freeTile (s : State) (k tile : Nat) : State :=
  { s.modTeam k (fun t => { t with tiles := (List.range 4096).foldl (fun m i =>
      Store.set 0 m (4096 * tile + i) (Config.freeWord (s.freeCount + i))) t.tiles }) with freeCount := s.freeCount + 4096 }
/-- MZERO (R151). -/
def execMzero (b : BitVec 7) (s : State) : Out :=
  lanes (noTile s b.toNat) (fun tid s =>
    complete (if tileBusy s s.cur.team b.toNat then freeTile (spoilTile s s.cur.team b.toNat) s.cur.team b.toNat
      else s.modTeam s.cur.team (·.clearTile b.toNat)) tid) s

end Sys2Proof.Machine
end

