-- ==== Sys2Proof/Machine/Relational.lean ====
section
/-! DEFINITION. Relational operations (spec/08), the register account (spec/06 R143 to R149), TBAR, reconvergence
barriers and EXIT (spec/13 R291 to R295): who waits for whom inside a team, and what happens when the last one arrives or exits. -/

namespace Sys2Proof.Machine

/-- The live threads of a team, ascending. -/
def Team.live (t : Team) : List Nat := (t.threads.filter fun e => e.2.life = .live).map (·.1)
def Team.liveIn (t : Team) (l : Nat) : List Nat := t.live.filter fun i => i / 32 = l

/-- A thread of the issue group waits inside its instruction. -/
def waitIn (s : State) (tid : Nat) (w : Wait) : State :=
  s.modThread s.cur.team tid fun t => { t with pc := s.cur.pc, next := s.cur.next, wait := w, since := s.clock, resume := none }
/-- The wait inside its instruction ends: the thread goes on. -/
def release (s : State) (k tid : Nat) (f : Thread → Thread) : State := s.modThread k tid fun t => (f t).done t.next
/-- A trap at the instruction a thread waits in. -/
def trapWaiting (s : State) (k tid cause info : Nat) : State :=
  let pc := (s.thread k tid).pc.toNat
  takeTrap s k tid cause info 0 pc pc

/-- What a step brings upon threads of a team besides what they execute: traps, each with its thread. They are taken together at the step's
end, the lowest thread's first (R342). -/
abbrev Due := List (Nat × (State → State))
def applyDue (x : State × Due) : State := (insertSort (fun a b => decide (a.1 ≤ b.1)) x.2).foldl (fun s d => d.2 s) x.1
/-- Waiting threads whose waits end in a trap (R342). -/
def trapsDue (s : State) (k : Nat) (tids : List Nat) (cause info : Nat) : State × Due :=
  (tids.foldl (fun s i => s.modThread k i fun t => { t with wait := .ready }) s, tids.map fun i => (i, fun s => trapWaiting s k i cause info))

/-- A pending failure is delivered at the instruction of the issue group (R127, R215). -/
def deliver (s : State) (tid : Nat) (f : Failure) : State :=
  let s := s.modThread s.cur.team tid fun t => { t with failures := t.failures.drop 1 }
  takeTrap s s.cur.team tid f.cause f.info f.tfa f.tia s.cur.pc.toNat
/-- Waits until ld, st, cp and tl are zero, then delivers a pending failure, else goes on (R184, R294). -/
def drained (s : State) (tid : Nat) (body : State → State × Due) : State × Due :=
  let t := s.here.thread tid
  if t.ld ≠ 0 || t.st ≠ 0 || t.cp ≠ 0 || t.tl ≠ 0 then (blockOn s tid (.counters 0 0 0 0), [])
  else match t.failures with
    | f :: _ => (deliver s tid f, [])
    | [] => body s

-- Exit

/-- A matrix word's threads in a latch lose their tl count (R207). -/
def lowerTl (s : State) (k : Nat) (tids : List Nat) : State :=
  tids.foldl (fun s i => s.modThread k i fun t => { t with tl := t.tl - 1 }) s
/-- Every thread recorded in a latch. -/
def Latch.threads (l : Latch) : List Nat := l.issued.flatMap fun e => e.2.2

/-- A lane leaves the barriers of a thread of its laneset (R292, R294). -/
def Thread.forget (t : Thread) (lane : Nat) : Thread := { t with rcvs := t.rcvs.map fun m => m &&& ~~~ BitVec.twoPow 32 lane }
/-- A thread exits (R189, R292, R294): it leaves open instances and barrier masks; the last of a laneset retires it, the last of the
team ends the team. -/
def exitThread (s : State) (k tid : Nat) : State × Due :=
  let s := s.modThread k tid fun t => { t with life := .exited, wait := .ready, resume := none, trail := [], steps := 0, spanLeft := 0 }
  let l := tid / 32
  let s := s.modTeam k fun t => { t with insts := t.insts.map (fun i => { i with members := i.members.filter fun m => !decide (m = tid) })
                                         threads := t.threads.map fun e => (e.1, if e.1 / 32 = l then e.2.forget (tid % 32) else e.2) }
  let (s, d) : State × Due := if (s.team k).liveIn l ≠ [] then (s, [])
    else
      let s := s.modTeam k fun t => { t with account := t.account + (t.laneset l).count / 8
                                             lanesets := setAt t.lanesets l { t.laneset l with retired := true } }
      let s := dropQuads s fun e => e.1 = k && e.2 = l
      let bad := (s.team k).latches.filter fun x => x.mask.testBit l
      let s := s.modTeam k fun t => { t with latches := t.latches.filter fun x => !x.mask.testBit l }
      trapsDue (bad.foldl (fun s x => lowerTl s k x.counted) s) k (bad.flatMap (·.threads)) 8 3
  (if (s.team k).phase ≠ .ended && (s.team k).live = [] then endTeam (publishEvent s k 1) k else s, d)

-- Relational instances

/-- Scope unit: a stage of the team, or a laneset (R183). -/
def unitOf (s : State) (k tid : Nat) (ls : Bool) : Nat := if ls then 16 + tid / 32 else ((s.team k).laneset (tid / 32)).stage
/-- The population of a unit (R182). -/
def population (t : Team) (unit : Nat) : List Nat :=
  t.live.filter fun i => if 16 ≤ unit then i / 32 = unit - 16 else (t.laneset (i / 32)).stage = unit

/-- A thread arrives, is refused, or waits as a non-member (R183, R184); `bad` is what its arrival would raise (R190), before it is
held to the open instance (DESIGN CHOICE, log 50): the cause and `$tfa`. -/
def arriveAt (s : State) (tid unit tag : Nat) (op : Instr) (x : Nat) (extra : Nat × Nat) (bad : Option (Nat × Nat)) (a : Arrival) : State :=
  let k := s.cur.team
  let t := s.team k
  let inst := t.insts.find? fun i => i.unit = unit && i.tag = tag
  if inst.any fun i => !i.members.contains tid then waitIn s tid (.nonMember unit tag)
  else match bad, inst with
    | some (cause, tfa), _ => trapHere s tid cause 0 tfa
    | none, none =>
      let i : Inst := ⟨unit, tag, op, x, extra, population t unit, [a]⟩
      waitIn (s.modTeam k fun t => { t with insts := t.insts ++ [i] }) tid (.arrived unit tag)
    | none, some i =>
      if i.op ≠ op || i.x ≠ x || i.extra ≠ extra then ill s tid 0xB
      else
        waitIn (s.modTeam k fun t => { t with insts := t.insts.map fun j =>
          if j.unit = unit && j.tag = tag then { j with arrivals := j.arrivals ++ [a] } else j }) tid (.arrived unit tag)

/-- Arrivals in ascending thread index. -/
def byTid (l : List Arrival) : List Arrival := insertSort (fun a b => decide (a.tid ≤ b.tid)) l

/-- FOLD's combination of one value (R187). -/
def foldOp (f : Nat) (m acc v : Word) : Word :=
  let md := modeRnd m
  let np := modeNanp m
  let halves (g : Flt) : Word := BitVec.ofNat 32
    (fAdd2 g md np (acc.toNat % 2 ^ 16) (v.toNat % 2 ^ 16) + 2 ^ 16 * fAdd2 g md np (acc.toNat / 2 ^ 16) (v.toNat / 2 ^ 16))
  match f with
  | 0 => acc + v
  | 1 => addF32 md np acc v
  | 2 => minS acc v
  | 3 => maxS acc v
  | 4 => minN acc v
  | 5 => maxN acc v
  | 6 => minmaxF32 np false acc v
  | 7 => minmaxF32 np true acc v
  | 8 => acc &&& v
  | 9 => acc ||| v
  | 10 => acc ^^^ v
  | 11 => acc
  | 12 => acc + 1
  | 14 => halves bf16
  | _ => halves f16
where
  fAdd2 (g : Flt) (md : Rnd) (np : Bool) (a b : Nat) : Nat := g.round md false np (valAdd md (g.decode a) (g.decode b))
/-- Values as pairs added mod 2^64 (ADD.b64). -/
def addPairs : List Word → List Word → List Word
  | a :: a' :: as, b :: b' :: bs =>
    let x := (a'.toNat * 2 ^ 32 + a.toNat + b'.toNat * 2 ^ 32 + b.toNat)
    BitVec.ofNat 32 x :: BitVec.ofNat 32 (x / 2 ^ 32) :: addPairs as bs
  | l, _ => l
/-- The value list of a survivor after the others of its group, ascending (R188). -/
def foldGroup (f : Nat) (m : Word) (start : List Word) (rest : List (List Word)) : List Word :=
  rest.foldl (fun acc v => if f = 13 then addPairs acc v else List.zipWith (foldOp f m) acc v) start
def foldDone (s : State) (k f : Nat) (arr : List Arrival) : State :=
  arr.foldl (fun s a =>
    match arr.find? fun b => b.key = a.key with
    | some b =>
      if b.tid ≠ a.tid then s
      else
        let rest := (arr.filter fun c => c.key = a.key && decide (a.tid < c.tid)).map (·.vals)
        let start := if f = 12 then [1] else a.vals
        let out := foldGroup f a.mode start rest
        release s k a.tid fun t => (List.range out.length).foldl (fun t j => t.setReg (a.dst + j) ((out[j]?).getD 0)) t
    | none => s) s
/-- The members that do not survive a FOLD (R188). -/
def foldRetire (arr : List Arrival) : List Nat :=
  (arr.filter fun a => arr.any fun b => b.key = a.key && decide (b.tid < a.tid)).map (·.tid)

/-- RANK (R194): the position in signed key order, ties by thread index. -/
def rankDone (s : State) (k w : Nat) (arr : List Arrival) : State :=
  let sorted := insertSort (fun a b => decide (toSigned w a.key < toSigned w b.key) || (decide (toSigned w a.key = toSigned w b.key) && decide (a.tid ≤ b.tid))) arr
  (List.range sorted.length).foldl (fun s i => match sorted[i]? with
    | some a => release s k a.tid (·.setReg a.dst (BitVec.ofNat 32 i))
    | none => s) s

/-- Running sums of the work counts: $tid, start, count. -/
def startsGo : Nat → List Arrival → List (Nat × Nat × Nat)
  | _, [] => []
  | n, a :: as => (a.tid, n, a.key) :: startsGo (n + a.key) as
/-- REBAL (R195). -/
def rebalDone (s : State) (k unit : Nat) (arr : List Arrival) : State :=
  let p := arr.length
  let total : Nat := (arr.map (·.key)).sum
  let big : Bool := decide (2 ^ 32 ≤ total)
  let table := if big then [] else (startsGo 0 arr).filter fun e => decide (0 < e.2.2)
  let s := s.modTeam k fun t => { t with tables := Store.set [] t.tables unit table }
  (List.range p).foldl (fun s i => match arr[i]? with
    | some a => release s k a.tid fun t =>
        let t := { t with lastRebal := some unit }
        if big then (t.setReg a.dst 0xFFFFFFFF).setReg (a.dst + 1) 0xFFFFFFFF
        else (t.setReg a.dst (BitVec.ofNat 32 (total * i / p))).setReg (a.dst + 1) (BitVec.ofNat 32 (total * (i + 1) / p))
    | none => s) s

/-- JOIN's spec fields (R190). -/
structure JoinSpec where
  entry : Nat
  lkey : Nat
  rkey : Nat
  side : Nat
  k64 : Bool
  lfirst : Nat
  lcount : Nat
  rfirst : Nat
  rcount : Nat
  stage : Nat
  reserved : Bool
def parseJoin (x : Nat) : JoinSpec :=
  { entry := bits x 63 0, lkey := bits x 71 64, rkey := bits x 79 72, side := bits x 87 80, k64 := bit x 88, lfirst := bits x 103 96
    lcount := bits x 111 104, rfirst := bits x 119 112, rcount := bits x 127 120, stage := bits x 129 128
    reserved := bits x 95 89 ≠ 0 || bits x 191 130 ≠ 0 || bits x 511 256 ≠ 0 }
def Arrival.isLeft (a : Arrival) (j : JoinSpec) : Bool := j.side = 0 || a.preds.getLsbD j.side
def Arrival.reg (a : Arrival) (r : Nat) : Word := a.regs[r % 128]'(Nat.mod_lt _ (by decide))
def Arrival.joinKey (a : Arrival) (j : JoinSpec) : Nat :=
  let r := if a.isLeft j then j.lkey else j.rkey
  if j.k64 then (a.reg r).toNat + 2 ^ 32 * (a.reg (r + 1)).toNat else (a.reg r).toNat
/-- Validity of a spec over its arrivals (R191). -/
def joinValid (t : Team) (j : JoinSpec) (arr : List Arrival) : Bool :=
  !j.reserved && j.entry % 2 = 0 && decide (j.entry < 2 ^ 52) && decide (0 < j.side) && decide (j.side ≤ 31)
  && decide (j.lcount + j.rcount ≤ 128)
  && !(j.k64 && (j.lkey % 2 = 1 || j.rkey % 2 = 1))
  && arr.all fun a =>
      let n := t.countOf a.tid
      let w := if j.k64 then 2 else 1
      if a.isLeft j then decide (j.lkey + w ≤ n) && (j.lcount = 0 || decide (j.lfirst + j.lcount ≤ n))
      else decide (j.rkey + w ≤ n) && (j.rcount = 0 || decide (j.rfirst + j.rcount ≤ n))
/-- A spawned thread (R193). -/
def spawned (j : JoinSpec) (l r : Arrival) : Thread :=
  let t : Thread := { Thread.unused with life := .live, pc := BitVec.ofNat 64 j.entry }
  let t := (List.range j.lcount).foldl (fun t i => t.setReg i (l.reg (j.lfirst + i))) t
  (List.range j.rcount).foldl (fun t i => t.setReg (j.lcount + i) (r.reg (j.rfirst + i))) t
/-- JOIN (R191, R192). Its spec's pad bytes are read and written as a thread's loads and stores are, the lowest arrival being the writer
(DEDUCED, log 20). -/
def joinDone (s : State) (k spec cursor : Nat) (arr : List Arrival) : State × Due :=
  let t := s.team k
  let (bs, s) := padRead s k spec 64
  let j := parseJoin (leNat bs)
  if !joinValid t j arr then trapsDue s k (arr.map (·.tid)) 1 0xC
  else
    let lft := arr.filter fun a => a.isLeft j
    let rgt := arr.filter fun a => !a.isLeft j
    let mt := lft.flatMap fun l => (rgt.filter fun g => g.joinKey j = l.joinKey j).map fun g => (l, g)
    let free := ((t.threads.filter fun e => e.2.life = .exited).map (·.1)).filter fun i =>
      let ls := t.laneset (i / 32)
      ls.stage = j.stage && !ls.retired && decide (j.lcount + j.rcount ≤ ls.count)
    let n := if cursor < mt.length then min (mt.length - cursor) free.length else 0
    let s := (List.range n).foldl (fun s i => match free[i]?, mt[cursor + i]? with
      | some slot, some (l, g) => s.setThread k slot { spawned j l g with since := s.clock }
      | _, _ => s) s
    let s := threadPadWrite s k ((arr.head?.map (·.tid)).getD 0) (spec + 24) (leBytes 4 n ++ leBytes 4 mt.length)
    let out := if cursor < mt.length && cursor + n < mt.length then cursor + n else 0xFFFFFFFF
    (arr.foldl (fun s a => release s k a.tid (·.setReg a.dst (BitVec.ofNat 32 out))) s, [])

/-- An instance completes in one step (R185): results, retirements, spawns, releases; waiting non-members
execute their instruction again at their next issue, and arrive then (R183; DESIGN CHOICE, log 50). -/
def completeInst (s : State) (k : Nat) (i : Inst) : State × Due :=
  let s := s.modTeam k fun t => { t with insts := t.insts.filter fun j => !(j.unit = i.unit && j.tag = i.tag) }
  let arr := byTid i.arrivals
  let s := (s.team k).live.foldl (fun s id =>
    s.modThread k id fun t => if t.wait = .nonMember i.unit i.tag then { t with wait := .ready } else t) s
  match i.op with
  | .fold _ _ _ f => (foldRetire arr).foldl (fun x id => let (s, d) := exitThread x.1 k id; (s, x.2 ++ d)) (foldDone s k f.toNat arr, [])
  | .rank .. => (rankDone s k (if i.x.testBit 4 then 64 else 32) arr, [])
  | .rebal .. => (rebalDone s k i.unit arr, [])
  | _ => joinDone s k i.extra.1 i.extra.2 arr

-- Team barrier, reconvergence barriers, register arrivals

/-- TBAR completes (R293). -/
def settleTbar (s : State) (k : Nat) : Option (State × Due) :=
  let t := s.team k
  let l := t.live
  if l ≠ [] && l.all (fun i => (t.thread i).wait = .tbar) then
    some (l.foldl (fun s i => release s k i id) (refreshEvent s k), [])
  else none
/-- A release of RCVWAIT in a laneset (R291). -/
def settleRcv (s : State) (k : Nat) : Option (State × Due) :=
  let t := s.team k
  let inQ (l n lane : Nat) : Bool := (t.thread (32 * l + lane)).life = .live && (t.thread (32 * l + lane)).wait = .rcv n
  let rel := t.live.filter fun i => match (t.thread i).wait with
    | .rcv n => (lanesOf ((t.thread i).rcvs[n % 16]'(Nat.mod_lt _ (by decide)))).all fun lane =>
        (t.thread (32 * (i / 32) + lane)).life ≠ .live || inQ (i / 32) n lane
    | _ => false
  if rel = [] then none else some (rel.foldl (fun s i => release s k i id) s, [])
/-- RGIVE or RTAKE of a laneset is applied when its last live thread arrives (R146). -/
def settleRegs (s : State) (k l : Nat) : Option (State × Due) :=
  let t := s.team k
  let ts := t.liveIn l
  let n := (t.laneset l).count
  match ts.head?.map (fun i => (t.thread i).wait) with
  | some (.regs take b) =>
    if ts.all (fun i => match (t.thread i).wait with | .regs .. => true | _ => false) then
      if !ts.all (fun i => (t.thread i).wait = .regs take b) then some (trapsDue s k ts 0xD 3)
      else if !take then
        if n < 8 * b + 8 then some (trapsDue s k ts 0xD 1)
        else
          let s := s.modTeam k fun t => { t with lanesets := setAt t.lanesets l { t.laneset l with count := n - 8 * b }, account := t.account + b }
          some (ts.foldl (fun s i => release s k i id) s, [])
      else if 128 < n + 8 * b then some (trapsDue s k ts 0xD 2)
      else
        let s := s.modTeam k fun t => { t with claims := t.claims ++ [(l, b)] }
        some (ts.foldl (fun s i => s.modThread k i fun t => { t with wait := .claim }) s, [])
    else none
  | _ => none
/-- The head claim is granted (R147). -/
def settleClaim (s : State) (k : Nat) : Option (State × Due) :=
  let t := s.team k
  match t.claims with
  | (l, b) :: rest =>
    if b ≤ t.account then
      let n := (t.laneset l).count
      let s := s.modTeam k fun t => { t with claims := rest, account := t.account - b, lanesets := setAt t.lanesets l { t.laneset l with count := n + 8 * b } }
      some (((t.liveIn l).filter fun i => (t.thread i).wait = .claim).foldl
        (fun s i => release s k i fun th => (List.range (8 * b)).foldl (fun th j => th.setReg (n + j) 0) th) s, [])
    else none
  | [] => none
/-- An instance whose members have all arrived (R185). -/
def settleInst (s : State) (k : Nat) : Option (State × Due) :=
  ((s.team k).insts.find? fun i => i.members.all fun m => i.arrivals.any fun a => a.tid = m).map (completeInst s k)

/-- What a team's arrivals and exits bring about, until nothing more follows; not while it is away (R306). -/
def settleGo (k : Nat) : Nat → State × Due → State × Due
  | 0, x => x
  | n + 1, (s, d) =>
    if (s.team k).phase ≠ .resident then (s, d)
    else match firstSome id [settleInst s k, settleTbar s k, settleRcv s k,
        firstSome (settleRegs s k) (List.range (s.team k).lanesets.length), settleClaim s k] with
      | some (s', d') => settleGo k n (s', d ++ d')
      | none => (s, d)
/-- What follows from a step's arrivals and exits, then the traps that it has brought (R342). -/
def settle (s : State) (k : Nat) (d : Due) : State := applyDue (settleGo k 5000 (s, d))

/-- One lane of a meaning whose threads arrive somewhere: its guards, then the body. -/
def arriving (regs : List Nat) (body : Nat → State → State × Due) (tid : Nat) (s : State) : State × Due :=
  let t := s.here.thread tid
  if s.here.phase = .ended || !passes s.cur t || regs.any (fun r => decide (s.here.countOf tid ≤ r)) then (guarded regs (fun _ s => s) tid s, [])
  else body tid s
/-- The lanes in turn; one whose trap would end the team waits for the step's other traps, which may be those of lower threads (R342). -/
def arriveNext (regs : List Nat) (body : Nat → State → State × Due) (x : State × Due) (tid : Nat) : State × Due :=
  let (s, d) := arriving regs body tid x.1
  if s.here.phase = .ended && x.1.here.phase ≠ .ended then (x.1, x.2 ++ [(tid, fun s => (arriving regs body tid s).1)]) else (s, x.2 ++ d)
/-- A meaning whose threads arrive somewhere, and what follows from it. -/
def lanesSettle (regs : List Nat) (body : Nat → State → State × Due) (s : State) : Out :=
  let (t, d) := s.tids.foldl (arriveNext regs body) (s, [])
  finish (settle t s.cur.team d)
/-- A body whose threads only arrive. -/
def plain (body : Nat → State → State) (tid : Nat) (s : State) : State × Due := (body tid s, [])

/-- An arrival's captured operands. -/
def capture (t : Thread) (m : Word) (tid dst key : Nat) (vals : List Word) : Arrival :=
  ⟨tid, dst, key, vals, m, t.regs, t.preds⟩
def keyOf (t : Thread) (a : Reg) (k64 : Bool) : Nat := if k64 then (t.pair a.toNat).toNat else (t.reg a.toNat).toNat
def keyRegs (a : Reg) (k64 : Bool) : List Nat := if k64 then two a else [a.toNat]

/-- FOLD (R184, R187). -/
def execFold (d a b : BitVec 7) (f : BitVec 4) (s : State) : Out :=
  let x := s.cur.x
  let n := x.toNat % 16 + 1
  let k64 := x.getLsbD 4
  lanesSettle (keyRegs a k64 ++ (List.range n).map (b.toNat + ·)) (fun tid s => drained s tid fun s =>
    let t := s.here.thread tid
    (arriveAt s tid (unitOf s s.cur.team tid (x.getLsbD 5)) d.toNat (.fold d 0 0 f) x.toNat (0, 0) none
      (capture t s.here.mode tid b.toNat (keyOf t a k64) ((List.range n).map fun i => t.reg (b.toNat + i))), [])) s
/-- JOIN (R190). -/
def execJoin (d a b : BitVec 7) : State → Out :=
  lanesSettle [a.toNat, b.toNat] fun tid s => drained s tid fun s =>
    let t := s.here.thread tid
    let spec := (t.reg a.toNat).toNat
    (arriveAt s tid (unitOf s s.cur.team tid false) d.toNat (.join d 0 0) 0 (spec, (t.reg b.toNat).toNat)
      ((padCheck s.here spec 64 64).map fun c => (c, spec)) (capture t s.here.mode tid b.toNat 0 []), [])
/-- RANK (R194). -/
def execRank (d a b : BitVec 7) (s : State) : Out :=
  let x := s.cur.x
  let k64 := x.getLsbD 4
  lanesSettle (d.toNat :: keyRegs a k64) (fun tid s => drained s tid fun s =>
    let t := s.here.thread tid
    (arriveAt s tid (unitOf s s.cur.team tid (x.getLsbD 5)) b.toNat (.rank 0 0 b) x.toNat (0, 0) none
      (capture t s.here.mode tid d.toNat (keyOf t a k64) []), [])) s
/-- REBAL (R195). -/
def execRebal (d a b : BitVec 7) (s : State) : Out :=
  let x := s.cur.x
  lanesSettle (two d ++ [a.toNat]) (fun tid s => drained s tid fun s =>
    let t := s.here.thread tid
    (arriveAt s tid (unitOf s s.cur.team tid (x.getLsbD 5)) b.toNat (.rebal 0 0 b) x.toNat (0, 0) none
      (capture t s.here.mode tid d.toNat (t.reg a.toNat).toNat []), [])) s
/-- RBTOT (R196). -/
def execRbtot (d a : BitVec 7) (s : State) : Out :=
  let tables := s.here.tables
  laneOp (two d ++ [a.toNat]) (fun _ t =>
    let f := (t.reg a.toNat).toNat
    let hit : Option (Nat × Nat × Nat) := match t.lastRebal with
      | none => none
      | some u => (Store.get [] tables u).find? fun e => decide (e.2.1 ≤ f) && decide (f < e.2.1 + e.2.2)
    match hit with
    | none => (t.setReg d.toNat 0xFFFFFFFF).setReg (d.toNat + 1) 0
    | some e => (t.setReg d.toNat (BitVec.ofNat 32 e.1)).setReg (d.toNat + 1) (BitVec.ofNat 32 (f - e.2.1))) s

/-- RGIVE and RTAKE arrive for their laneset (R146). -/
def execRgive (k : BitVec 7) : State → Out := lanesSettle [] (plain fun tid s => waitIn s tid (.regs false k.toNat))
def execRtake (k : BitVec 7) : State → Out := lanesSettle [] (plain fun tid s => waitIn s tid (.regs true k.toNat))
/-- RQRY (R149). -/
def execRqry (d : BitVec 7) (s : State) : Out :=
  let v : Word := BitVec.ofNat 32 ((s.here.laneset s.cur.laneset).count + s.here.account * 2 ^ 16)
  laneOp [d.toNat] (fun _ t => t.setReg d.toNat v) s
/-- TBAR (R293). -/
def execTbar : State → Out := lanesSettle [] (plain fun tid s => waitIn s tid .tbar)
/-- RCVSET (R291): the mask of the threads whose guard passes. -/
def execRcvset (d : BitVec 7) (s : State) : Out :=
  let m := voteMask s fun _ => true
  laneOp [] (fun _ t => { t with rcvs := t.rcvs.set (d.toNat % 16) m (Nat.mod_lt _ (by decide)) }) s
def execRcvwait (d : BitVec 7) : State → Out := lanesSettle [] (plain fun tid s => waitIn s tid (.rcv d.toNat))
/-- EXIT for the threads of the group (R294). -/
def exitLanes : State → Out := lanesSettle [] fun tid s => drained s tid fun s => exitThread s s.cur.team tid
def execExit (s : State) : Out := exitLanes s
def execExitC (s : State) : Out := exitLanes s

end Sys2Proof.Machine
end

