-- ==== Sys2Proof/Machine/Sched.lean ====
section
/-! DEFINITION. Which threads may issue and which group issues next (spec/13 R283 to R289), the stall detector (spec/08 R197,
R198), and the instructions and events of the quadrants. -/

namespace Sys2Proof.Machine

/-- The quadrant of a team's laneset (R271). -/
def quadOf (s : State) (k l : Nat) : Option Nat := (s.team k).place.map fun p => 4 * p.core + (p.slot + l) % 4

/-- Copy-queue entries in use by a team (R107). -/
def copiesOf (s : State) (k : Nat) : Nat := (s.copies.filter fun c => c.team = k).length
/-- The operations in the matrix queue of a team's core (R206). -/
def mopsOnCore (s : State) (k : Nat) : List Mop :=
  s.mops.filter fun m => match (s.team m.team).place, (s.team k).place with
    | some p, some q => p.core = q.core
    | _, _ => false
/-- An access that holds a translation over several steps is still under way (R67, R70, R133). -/
def inFlight (s : State) : Flight → Bool
  | .mop id => s.mops.any fun m => m.id = id && m.pages ≠ []
  | .chunk ch r k => match (s.chan ch).phase with
    | .moving j _ _ _ => (s.chan ch).rec_ = r && j = k
    | _ => false
  | .half k tid g => match (s.thread k tid).half with
    | some h => h.group = g
    | none => false
/-- The accesses under way that were translated through a page that a test selects, by VMID, ASID and address (R87). -/
def flights (s : State) (p : Nat → Nat → Nat → Bool) : List Flight :=
  (s.mops.filter fun m => m.pages.any fun e => p (s.team m.team).vmid (s.team m.team).asid (e.1 * 65536)).map (fun m => .mop m.id)
  ++ s.chans.filterMap (fun e => match e.2.phase with
    | .moving k _ _ _ =>
      let o := if k = 0 then 0 else k * 65536 - bits (leNat e.2.bytes) 447 384 % 65536
      let at_ (b : Nat) : Bool := p e.2.vmid e.2.asid (b + o)
      if at_ (bits (leNat e.2.bytes) 447 384) || at_ (bits (leNat e.2.bytes) 383 320) then some (.chunk e.1 e.2.rec_ k) else none
    | _ => none)
  ++ s.teams.flatMap fun e => e.2.threads.filterMap fun t => match t.2.half with
    | some h => if p e.2.vmid e.2.asid h.va then some (.half e.1 t.1 h.group) else none
    | none => none
/-- The translations of a page that a test selects are invalidated, those that a request has been given but not used among them (R87). -/
def dropSpace (s : State) (p : Nat → Nat → Nat → Bool) : State :=
  { tlbDrop s (fun e => p e.vmid e.asid e.page) with answers := s.answers.filter fun e => !p e.vmid e.asid e.va }
/-- The invalidation of R87, in the spaces and pages that tests select: TLB entries (`inT`), sectors of S (`inL`); the accesses
under way to wait for. -/
def invalidate (s : State) (space : Nat → Nat → Bool) (inT inL : Nat → Bool) : List Flight × State :=
  let wide := s.tlb.filter fun e => e.big && space e.vmid e.asid && (List.range 4096).any fun i => inT (e.page + i * 65536)
  let hit (vmid asid va : Nat) : Bool :=
    space vmid asid && (inT va || wide.any fun e => e.vmid = vmid && e.asid = asid && decide (e.page = va / 2 ^ 28 * 2 ^ 28))
  let t := dropSpace s hit
  (flights s hit, { t with teams := t.teams.map fun e =>
    (e.1, if space e.2.vmid e.2.asid then { e.2 with snap := e.2.snap.filter fun q => !inL (32 * q.1) } else e.2) })
/-- The invalidation of one page, as TLBI.VA does it (R87). -/
def dropPage (s : State) (vmid asid page : Nat) : List Flight × State :=
  invalidate s (fun v a => v = vmid && a = asid) (fun va => va / 2 ^ 16 = page / 2 ^ 16) (fun va => va / 2 ^ 16 = page / 2 ^ 16)

/-- Room in a VF's audit ring (R245). -/
def auditRoom (s : State) (v : Nat) : Bool := decide ((s.vf v).auditSeq - (s.vf v).auditTaken < Config.auditRing)

/-- A waiting thread's condition holds, so that it executes its instruction again. -/
def holds (s : State) (k tid : Nat) (t : Thread) : Bool :=
  match t.wait with
  | .ready => true
  | .counters l st c tl => (l = 15 || t.ld ≤ l) && (st = 15 || t.st ≤ st) && (c = 15 || t.cp ≤ c) && (tl = 15 || t.tl ≤ tl)
  | .limit => t.ld < 63 && t.st < 63 && t.cp < 63 && t.tl < 63
  | .copySlot => copiesOf s k < (s.team k).desc.copyslots
  | .barrier a par => bit ((s.team k).padNat a 8) 63 != par
  | .flag _ _ met => met
  | .ring va => match peek s (s.team k).vmid (s.team k).asid va with
    | some pa => !(ringAt s pa).empty
    | none => true
  | .audit => auditRoom s (s.team k).vf
  | .walk w => !s.walks.any fun e => e.1 = w
  | .tlbi l => !l.any (inFlight s)
  | .room fn => !eventsFull s fn
  | .matrixSlot => (mopsOnCore s k).length < Config.matrixQueue
  | .latchBusy => !(s.team k).latches.any fun x => x.issued.any fun e => e.1 = tid / 32
  | _ => false

/-- Waits that only team members can end, with the kind and id STALL reports (R197, R198). -/
def teamBlocked : Wait → Option (Nat × Nat)
  | .arrived _ tag => some (1, tag)
  | .nonMember _ tag => some (2, tag)
  | .tbar => some (3, 0)
  | .rcv n => some (4, n)
  | .regs _ _ => some (5, 0)
  | .claim => some (6, 0)
  | .gang _ => some (7, 0)
  | .latchBusy => some (7, 0)
  | _ => none

/-- The thread's instruction is carried through although its team is being swapped: a TLBI at its final step, the second half of a
packed atomic, a WALK that the walk unit holds (R70, R249, R303). -/
def Thread.runsOn (t : Thread) : Bool := t.half.isSome || t.command.isSome || (match t.wait with | .tlbi _ => true | _ => false)
/-- Threads of a laneset that can issue. -/
def issuable (s : State) (k l : Nat) : List Nat :=
  let t := s.team k
  (t.liveIn l).filter fun i => (t.phase = .resident || (t.phase = .swapping && (t.thread i).runsOn)) && holds s k i (t.thread i)
def hasReady (s : State) (e : Nat × Nat) : Bool := issuable s e.1 e.2 ≠ []

/-- The oldest pending laneset that holds a ready thread. -/
def oldestReady (q : Quad) : Option (Nat × Nat × Nat) :=
  (q.pending.filterMap fun e => e.2.2.map fun c => (e.1, e.2.1, c)).foldl (fun (b : Option (Nat × Nat × Nat)) e =>
    match b with | none => some e | some x => if e.2.2 < x.2.2 then some e else b) none

/-- A pending laneset becomes active. -/
def Quad.activate (q : Quad) (e : Nat × Nat) (now : Nat) : Quad :=
  { q with active := q.active ++ [(e.1, e.2, now)], pending := q.pending.filter fun p => !decide ((p.1, p.2.1) = e) }
/-- An active laneset becomes pending. -/
def Quad.retreat (q : Quad) (e : Nat × Nat) (ready : Option Nat) : Quad :=
  { q with active := q.active.filter (fun p => !decide ((p.1, p.2.1) = e)), pending := q.pending ++ [(e.1, e.2, ready)]
           holds := q.holds.map fun h => (h.1, h.2.1.filter (fun x => !decide (x = e)), h.2.2) }

/-- Fills free places with the pending lanesets that became ready first. -/
def fillPlaces (now : Nat) : Nat → Quad → Quad
  | 0, q => q
  | n + 1, q =>
    if q.active.length < 8 then
      match oldestReady q with
      | some (k, l, _) => fillPlaces now n (q.activate (k, l) now)
      | none => q
    else q
/-- Notes since when each pending laneset has held a ready thread (R284). -/
def stampQuad (s : State) (q : Quad) : Quad :=
  { q with pending := q.pending.map fun (e : Nat × Nat × Option Nat) => (e.1, e.2.1, if hasReady s (e.1, e.2.1) then some (e.2.2.getD s.clock) else none) }
/-- The sets of a quadrant brought up to date (R284, R289). -/
def Quad.refreshed (s : State) (q : Quad) : Quad :=
  let blocked := (q.active.map fun e => (e.1, e.2.1)).filter fun e => !hasReady s e
  let q := stampQuad s (blocked.foldl (fun q e => q.retreat e none) q)
  let hd := q.holds.map fun (h : (Nat × Nat) × List (Nat × Nat) × Nat) => (h.1, h.2.1.filter (hasReady s), h.2.2)
  fillPlaces s.clock 8 { q with holds := hd.filter fun h => h.2.1 ≠ [] }
def refreshQuad (s : State) (n : Nat) : State := s.setQuad n ((s.quad n).refreshed s)

/-- The next active laneset in round robin that can issue and is not held back (R285). -/
def nextLaneset (s : State) (q : Quad) : Option (Nat × Nat) :=
  (q.active.map fun e => (e.1, e.2.1)).find? fun e => hasReady s e && !q.holds.any fun h => h.1 = e
/-- A laneset has issued: the round robin goes on from the one after it, and it is last (R285). -/
def Quad.served (q : Quad) (e : Nat × Nat) : Quad :=
  let is (x : Nat × Nat × Nat) : Bool := (x.1, x.2.1) = e
  { q with active := (q.active.dropWhile fun x => !is x).drop 1 ++ q.active.takeWhile (fun x => !is x) ++ (q.active.filter is).take 1
           holds := q.holds.map fun h => (h.1, h.2.1.filter (fun x => !decide (x = e)), h.2.2) }

/-- The issue group of a laneset: lowest PC, or the lowest with an aged thread; handler mode first (R285). Threads whose instruction has
been issued and executes further stay with their own issue group (DESIGN CHOICE, log 49). -/
def chooseGroup (s : State) (k l : Nat) : List Nat :=
  let t := s.team k
  let r := issuable s k l
  let aged := r.filter fun i => 32 ≤ (t.thread i).passes
  let pool := if aged = [] then r else aged
  let key (i : Nat) : Nat := 2 * (t.thread i).pc.toNat + (if (t.thread i).handler then 0 else 1)
  match pool.map key with
  | [] => []
  | x :: xs =>
    let m := xs.foldl min x
    let first := (pool.find? fun i => key i = m).bind fun i => (t.thread i).resume
    r.filter fun i => key i = m && (t.thread i).resume = first

/-- The group issues: its pass counts fall to 0, the others' rise (R285). -/
def beginIssue (s : State) (k l q : Nat) (g : List Nat) : State :=
  let others := (issuable s k l).filter fun i => !g.contains i
  let s := others.foldl (fun s i => s.modThread k i fun t => { t with passes := t.passes + 1 }) s
  let s := g.foldl (fun s i => s.modThread k i fun t => { t with passes := 0 }) s
  let s := s.modTeam k fun t => { t with lastIssue := s.clock }
  let s := s.setQuad q ((s.quad q).served (k, l))
  let m := g.foldl (fun (m : BitVec 32) i => m ||| BitVec.twoPow 32 (i % 32)) 0
  let pc := ((g.head?).map fun i => (s.thread k i).pc).getD 0
  { s with cur := { Issue.idle with team := k, laneset := l, mask := m, pc := pc, word := pc, next := pc } }

/-- The quadrants that hold a laneset, from the turn on. -/
def quadOrder (s : State) : List Nat :=
  let l := (s.quads.map (·.1))
  (l.filter fun q => decide (s.turn ≤ q)) ++ l.filter fun q => decide (q < s.turn)

/-- The next issue group of the package, if any thread can issue. -/
def nextIssue (s : State) : Option State :=
  firstSome (fun n =>
    let s := refreshQuad s n
    match nextLaneset s (s.quad n) with
    | some (k, l) => some { beginIssue s k l n (chooseGroup s k l) with turn := n + 1 }
    | none => none) (quadOrder s)

-- YIELD, PASS, SLEEPC

/-- An exchange of an active laneset with the oldest ready pending one, in a quadrant that is up to date (R284). -/
def exchange (s : State) (n : Nat) (out : Nat × Nat) : State :=
  let q := s.quad n
  match oldestReady q with
  | some (k, l, _) =>
    if q.active.any fun e => (e.1, e.2.1) = out then
      s.setQuad n ((q.retreat out (if hasReady s out then some s.clock else none)).activate (k, l) s.clock)
    else s
  | none => s
/-- YIELD: the threads go on, then the exchange (R289). -/
def yieldLanes (s : State) : Out :=
  let any := members s ≠ []
  let s := eachLane [] (fun tid s => complete s tid) s
  finish (match quadOf s s.cur.team s.cur.laneset with
    | some n => if any then exchange (refreshQuad s n) n (s.cur.team, s.cur.laneset) else s
    | none => s)
def execYield (s : State) : Out := yieldLanes s
def execYieldC (s : State) : Out := yieldLanes s
/-- PASS (R289). -/
def execPass (s : State) : Out :=
  let any := members s ≠ []
  let me := (s.cur.team, s.cur.laneset)
  let s := eachLane [] (fun tid s => complete s tid) s
  finish (match quadOf s s.cur.team s.cur.laneset with
    | some n =>
      let q := s.quad n
      let set := ((q.active.map fun e => (e.1, e.2.1)).filter fun e => e ≠ me).filter (hasReady s)
      if any && set ≠ [] then s.setQuad n { q with holds := q.holds ++ [(me, set, s.clock)] } else s
    | none => s)
/-- SLEEPC (R289). -/
def execSleepc (a : BitVec 7) : State → Out :=
  lanes [a.toNat] fun tid s =>
    let n := min ((s.here.thread tid).reg a.toNat).toNat 16777216
    if n = 0 then complete s tid else waitIn s tid (.sleep (s.clock + n))

-- Events

/-- SLEEPC_WAKE (R289). -/
def execSleepcWake (k tid : Nat) (s : State) : Out :=
  match (s.thread k tid).wait with
  | .sleep u => if u ≤ s.clock && (s.team k).phase = .resident then .next (release s k tid id) else .next s
  | _ => .next s
/-- PASS_HOLD_END (R289). -/
def execPassHoldEnd (n : Nat) (s : State) : Out :=
  .next (s.setQuad n { s.quad n with holds := (s.quad n).holds.filter fun h => decide (s.clock < h.2.2 + 64) })
/-- The active laneset that has been active longest. -/
def longestActive (q : Quad) : Option (Nat × Nat) :=
  (q.active.foldl (fun (b : Option (Nat × Nat × Nat)) e => match b with
    | none => some e
    | some x => if e.2.2 < x.2.2 then some e else b) none).map fun e => (e.1, e.2.1)
/-- The exchange is due: a ready laneset has been pending for 2,048 clocks, and none has taken place for as long. -/
def exchangeDue (s : State) (n : Nat) : Bool :=
  match oldestReady (s.quad n) with
  | some (_, _, c) => 8 ≤ (s.quad n).active.length && c + 2048 ≤ s.clock && (s.quad n).lastExchange + 2048 ≤ s.clock
  | none => false
/-- LANESET_EXCHANGE (R284). -/
def execLanesetExchange (n : Nat) (s : State) : Out :=
  let t := refreshQuad s n
  if exchangeDue t n then
    match longestActive (t.quad n) with
    | some out => let t := exchange t n out; .next (t.setQuad n { t.quad n with lastExchange := s.clock })
    | none => .next s
  else .next s

/-- Every live thread of a resident team has been team-blocked for 4,096 clocks (R197). -/
def stalled (s : State) (k : Nat) : Bool :=
  let t := s.team k
  t.phase = .resident && t.live ≠ [] && t.live.all fun i =>
    let th := t.thread i
    (teamBlocked th.wait).isSome && decide (max th.since t.admitted + 4096 ≤ s.clock)
/-- STALL (R198): the waits are withdrawn, then every thread takes the trap, lowest first (R342). -/
def execStall (k : Nat) (s : State) : Out :=
  if !stalled s k then .next s
  else
    let live := (s.team k).live
    let kinds := live.map fun i => (i, (teamBlocked (s.thread k i).wait).getD (0, 0))
    let s := ((s.team k).latches).foldl (fun s l => lowerTl s k l.counted) s
    let s := s.modTeam k fun t => { t with insts := [], claims := [], latches := [] }
    finish (kinds.foldl (fun s e => trapWaiting s k e.1 9 (e.2.1 + e.2.2 * 2 ^ 8)) s)

end Sys2Proof.Machine
end

