-- ==== Sys2Proof/Machine/Fetch.lean ====
section
/-! DEFINITION. Fetching an issue group's instruction (spec/02 R17 to R20), the illegal instructions (R25), and the prefix,
which issues with the word it prefixes as one instruction (R31, R32). -/

namespace Sys2Proof.Machine

/-- Why no instruction came: an address, and the translation that gave none (R19, R82). -/
structure NoFetch where
  va : Nat
  x : Xlat
  deriving DecidableEq, Repr

/-- One of the old values of a halfword, an open choice for each, or else the new one. -/
def pickHalf (now : BitVec 16) : List (Nat × Nat × BitVec 16) → State → BitVec 16 × State
  | [], s => (now, s)
  | e :: es, s =>
    let (old, s) := freeBit s
    if old then (e.2.2, s) else pickHalf now es s
/-- A halfword of code at a physical address: where memory has changed while the grid is live, an old or the new value, chosen at each
fetch (R20, DESIGN CHOICE, log 11). -/
def cachedHalf (s : State) (grid pa : Nat) : BitVec 16 × State :=
  let now := BitVec.ofNat 16 (s.rdNat pa 2)
  pickHalf now (s.icache.filter fun e => decide (grid < e.1) && e.2.1 = pa && e.2.2 ≠ now) s

/-- Fetches a halfword: translated like a load, needing the exec bit (R19); the group's request is its lowest thread's (DEDUCED,
log 16). -/
def fetchHalf (s : State) (va : Nat) : Except NoFetch (BitVec 16) × State :=
  match translate s (whoThread s (s.tids.headD 0)) .fetch va 2 with
  | (.ok pa _ _, s) =>
    if poisoned s pa 2 then (.error ⟨va, .ecc⟩, s)
    else
      let (h, s) := cachedHalf (touch s pa 2) s.here.grid pa
      (.ok h, s)
  | (x, s) => (.error ⟨va, x⟩, s)

/-- Fetches an instruction word of two or four bytes (R17). -/
def fetchWord (s : State) (va : Nat) : Except NoFetch (List Byte) × State :=
  match fetchHalf s va with
  | (.error e, s) => (.error e, s)
  | (.ok lo, s) =>
    if lo.toNat % 2 = 0 then (.ok (leBytes 2 lo.toNat), s)
    else match fetchHalf s ((va + 2) % 2 ^ 64) with
      | (.error e, s) => (.error e, s)
      | (.ok hi, s) => (.ok (leBytes 4 (lo.toNat + 2 ^ 16 * hi.toNat)), s)

/-- A thread whose fetch failed: it waits for the walk, traps, or parks as for a load (R19, R82). -/
def fetchFail (e : NoFetch) (s : State) (tid : Nat) : State := notReached s tid e.va .fetch false .nopC 0 e.x

/-- The whole group raises ILL, but for the threads that a span or the prefix's guard suppresses (R25, R28, R31). -/
def illGroup (s : State) (sub : Nat) : State := eachLane [] (fun tid s => ill s tid sub) s
/-- A GRD that never passes traps in every thread: no span suppresses a GRD (R28). -/
def illGrd (s : State) (sub : Nat) : State := s.tids.foldl (fun s tid => ill s tid sub) s

/-- What the fetched bytes are without a prefix: an instruction to execute, or a sub-code and whether a GRD has it. A PFX is
judged with the word it prefixes (DEDUCED, log 15). -/
def judge (bs : List Byte) : Except (Nat × Bool) Instr :=
  match decode bs with
  | .error (.ill sub) => .error (sub, false)
  | .error .short => .error (3, false)
  | .ok (.pfx p n c x, _) => .ok (.pfx p n c x)
  | .ok (i, _) =>
    match staticFault i with
    | none => .ok i
    | some sub => .error (sub, match i with | .grd .. => true | _ => false)

/-- The issue group's instruction, fetched and decoded (R17 to R25): none where the group trapped, parked or waits. -/
def fetchGroup (s : State) : Option Instr × State :=
  match fetchWord s s.cur.pc.toNat with
  | (.error e, s) => (none, s.tids.foldl (fetchFail e) s)
  | (.ok bs, s) =>
    let s := { s with cur := { s.cur with next := s.cur.pc + BitVec.ofNat 64 bs.length } }
    match judge bs with
    | .ok i => (some i, s)
    | .error (sub, true) => (none, illGrd s sub)
    | .error (sub, false) => (none, illGroup s sub)

/-- What a prefixed word is: an instruction, or the lowest sub-code of the rules that prefix and word break (R25, R31), but for
a guard that never passes (0x09): that trap leaves the lane's own checks to come first (DEDUCED, log 15). -/
def judgePrefixed (c : BitVec 7) (x : BitVec 12) (bs : List Byte) : Except Nat Instr :=
  match decode bs with
  | .ok (i, _) =>
    match prefixedFault c x i with
    | none => .ok i
    | some e => .error e
  | .error (.ill sub) => .error (if bs.length = 2 then min sub 6 else sub)
  | .error .short => .error 6

/-- PFX (R31): the word after it is fetched, and executes under the prefix in the same step. -/
def execPfx (p : BitVec 5) (n : BitVec 1) (c : BitVec 7) (x : BitVec 12) (s : State) : Out :=
  let va := s.cur.next
  match fetchWord s va.toNat with
  | (.error e, s) => finish (s.tids.foldl (fetchFail e) s)
  | (.ok bs, s) =>
    let g : Option (BitVec 5 × BitVec 1) := if p = 0 ∧ n = 0 then none else some (p, n)
    let cur : Issue := { s.cur with word := va, next := va + BitVec.ofNat 64 bs.length, x := x, vc := c, guard := g }
    let s := { s with cur := cur }
    match judgePrefixed c x bs with
    | .ok i => finish { s with follow := some i }
    | .error sub => finish (illGroup (if s.cur.never then { s with cur := { s.cur with guard := none } } else s) sub)

end Sys2Proof.Machine
end

