-- ==== Sys2Proof/Machine/Special.lean ====
section
/-! DEFINITION. The correctly rounded special functions of R57 on FP32 patterns. Each transcendental value is
enclosed in fixed point with far more bits than FP32 keeps and rounded once (DEDUCED, log 12); the exact cases and the
special operands are taken first. -/

namespace Sys2Proof.Machine

/-- Fixed-point precision of the series, in bits (DEDUCED, log 12). -/
def fxp : Nat := 256
def one : Nat := 2 ^ fxp

/-- Integer square root by bits, `n` of them. -/
def isqrtGo (x : Nat) : Nat → Nat → Nat
  | 0, r => r
  | n + 1, r => let r' := r + 2 ^ n; isqrtGo x n (if r' * r' ≤ x then r' else r)
def isqrt (x : Nat) : Nat := isqrtGo x (bitLen x / 2 + 1) 0

/-- Σ of x^(2i+1)/(2i+1) with signs `alt`, scaled by 2^p, from term i: arctan or artanh of a small x. -/
def odd (alt : Bool) (x2 p : Nat) : Nat → Nat → Nat → Int
  | 0, _, _ => 0
  | n + 1, i, t => (if alt && i % 2 = 1 then -((t / (2 * i + 1) : Nat) : Int) else ((t / (2 * i + 1) : Nat) : Int)) + odd alt x2 p n (i + 1) (t * x2 / 2 ^ p)
/-- artanh(x) for x·2^p, below 1/2. -/
def artanh (x p n : Nat) : Nat := (odd false (x * x / 2 ^ p) p n 0 x).toNat
/-- arctan(1/k)·2^p. -/
def arctanInv (k p n : Nat) : Nat := (odd true (2 ^ p / (k * k)) p n 0 (2 ^ p / k)).toNat
/-- π·2^p by Machin's formula. -/
def piFx (p n : Nat) : Nat := 16 * arctanInv 5 p n - 4 * arctanInv 239 p n
/-- ln 2 scaled by 2^fxp. -/
def ln2 : Nat := 2 * artanh (one / 3) fxp 90
/-- π scaled by 2^480, for reducing any FP32 argument. -/
def piBits : Nat := 480
def piBig : Nat := piFx piBits 120

/-- e^x for 0 ≤ x < 1, scaled: Σ x^i/i!. -/
def expGo (x : Nat) : Nat → Nat → Nat → Nat
  | 0, _, _ => 0
  | n + 1, i, t => t + expGo x n (i + 1) (t * x / one / (i + 1))
def expFx (x : Nat) : Nat := expGo x 70 0 one
/-- Σ (−1)^i x^(2i+k)/(2i+k)! from a first term t: sine (k = 1) and cosine (k = 0). -/
def trigGo (x2 : Nat) : Nat → Nat → Nat → Int
  | 0, _, _ => 0
  | n + 1, k, t => (t : Int) - trigGo x2 n (k + 2) (t * x2 / one / ((k + 1) * (k + 2)))
def sinFx (x : Nat) : Int := trigGo (x * x / one) 40 1 x
def cosFx (x : Nat) : Int := trigGo (x * x / one) 40 0 one

/-- A fixed-point magnitude rounded into FP32 with RNE, the true value being a little more (DEDUCED, log 12). -/
def rndFx (neg : Bool) (m : Nat) (e : Int) : Nat := f32.roundNum .rne false neg m e true
def toFx (m : Nat) (e : Int) : Nat := if 0 ≤ e + fxp then m * 2 ^ (e + fxp).toNat else m / 2 ^ (-(e + fxp)).toNat

/-- e^(−y) or e^y as mantissa and exponent: e^y = 2^k · e^r (y scaled, y ≥ 0). -/
def expPair (neg : Bool) (y : Nat) : Nat × Int :=
  let k := y / ln2
  let r := y % ln2
  if neg then
    (if r = 0 then (one, -(k : Int) - fxp) else (expFx (ln2 - r), -(k : Int) - 1 - fxp))
  else (expFx r, (k : Int) - fxp)

/-- A special function: its value on a decoded FP32 operand, either a value to be rounded or a pattern. -/
inductive Fn where
  | val (v : Val)
  | pat (p : Nat)

def fnOf (f : Val → Fn) (nanp : Bool) (x : Nat) : Nat :=
  match f32.decode x with
  | .nan s => f32.nanResult nanp s
  | v => match f v with
    | .val w => f32.round .rne false nanp w
    | .pat p => p

def invalid : Fn := .val (.nan none)
def pInf : Fn := .val (.inf false)
def nInf : Fn := .val (.inf true)
def pZero : Fn := .val (.num false 0 0)
def fOne : Fn := .val (.num false 1 0)

def fnEx2 : Val → Fn
  | .inf neg => if neg then pZero else pInf
  | .num neg m e =>
    if m = 0 then fOne
    else if 10 < e + (bitLen m : Int) then (if neg then pZero else pInf)
    else if 0 ≤ e || m % 2 ^ (-e).toNat = 0 then
      let i : Nat := if 0 ≤ e then m * 2 ^ e.toNat else m / 2 ^ (-e).toNat
      .val (.num false 1 (if neg then -(i : Int) else i))
    else
      let y := toFx m e
      let k := y / one
      let f := y % one
      if neg then .pat (rndFx false (expFx ((one - f) * ln2 / one)) (-(k : Int) - 1 - fxp))
      else .pat (rndFx false (expFx (f * ln2 / one)) ((k : Int) - fxp))
  | v => .val v

/-- log2 of m·2^e, m a normalised integer: ±. -/
def fnLg2 : Val → Fn
  | .inf neg => if neg then invalid else pInf
  | .num neg m e =>
    if m = 0 then nInf
    else if neg then invalid
    else
      let l := bitLen m
      let k : Int := e + (l : Int) - 1
      if m = 2 ^ (l - 1) then .val (.num (k < 0) k.natAbs 0)
      else
        let y := m * 2 ^ (fxp + 1 - l)                    -- in [1, 2)
        let ln := 2 * artanh ((y - one) * one / (y + one)) fxp 170
        let f : Int := (ln * one / ln2 : Nat)
        let t : Int := k * (one : Int) + f
        .pat (rndFx (t < 0) t.natAbs (-(fxp : Int)))
  | v => .val v

def fnRcp : Val → Fn
  | .inf neg => .val (.num neg 0 0)
  | .num neg m e =>
    if m = 0 then .val (.inf neg)
    else .pat (f32.roundNum .rne false neg (2 ^ 80 / m) (-e - 80) (2 ^ 80 % m ≠ 0))
  | v => .val v

def fnRsq : Val → Fn
  | .inf neg => if neg then invalid else pZero
  | .num neg m e =>
    if m = 0 then .val (.inf neg)
    else if neg then invalid
    else
      let (m, e) := if e % 2 = 0 then (m, e) else (2 * m, e - 1)
      let q := 2 ^ 160 / m
      let r := isqrt q
      .pat (f32.roundNum .rne false false r (-(e / 2) - 80) (r * r * m ≠ 2 ^ 160))
  | v => .val v

def fnSqrt : Val → Fn
  | .inf neg => if neg then invalid else pInf
  | .num neg m e =>
    if m = 0 then .val (.num neg 0 0)
    else if neg then invalid
    else
      let (m, e) := if e % 2 = 0 then (m, e) else (2 * m, e - 1)
      let r := isqrt (m * 2 ^ 80)
      .pat (f32.roundNum .rne false false r (e / 2 - 40) (r * r ≠ m * 2 ^ 80))
  | v => .val v

/-- The quadrant and the reduced argument of m·2^e, a magnitude: x = q·π/2 + r, r scaled by 2^fxp. -/
def reduceArg (m : Nat) (e : Int) : Nat × Nat :=
  let x := if 0 ≤ e + piBits then m * 2 ^ (e + piBits).toNat else m / 2 ^ (-(e + piBits)).toNat
  let h := piBig / 2
  (x / h % 4, x % h / 2 ^ (piBits - fxp))

/-- sin x in quadrant form. -/
def quadSin (q r : Nat) : Bool × Nat :=
  let v := if q % 2 = 0 then sinFx r else cosFx r
  (decide (2 ≤ q % 4), v.toNat)

def fnSin : Val → Fn
  | .inf _ => invalid
  | .num neg m e =>
    if m = 0 then .val (.num neg 0 0)
    else if e + (bitLen m : Int) < -40 then .pat (f32.roundNum .rne false neg (m * 2 ^ 60 - 1) (e - 60) true)
    else
      let (q, r) := reduceArg m e
      let (s, v) := quadSin q r
      .pat (rndFx (neg != s) v (-(fxp : Int)))
  | v => .val v

def fnCos : Val → Fn
  | .inf _ => invalid
  | .num _ m e =>
    if m = 0 then fOne
    else if e + (bitLen m : Int) < -40 then .pat (f32.roundNum .rne false false (2 ^ 60 - 1) (-60) true)
    else
      let (q, r) := reduceArg m e
      let (s, v) := quadSin (q + 1) r
      .pat (rndFx s v (-(fxp : Int)))
  | v => .val v

/-- (1 − e^(−2|x|)) / (1 + e^(−2|x|)). -/
def fnTanh : Val → Fn
  | .inf neg => .val (.num neg 1 0)
  | .num neg m e =>
    if m = 0 then .val (.num neg 0 0)
    else if e + (bitLen m : Int) < -40 then .pat (f32.roundNum .rne false neg (m * 2 ^ 60 - 1) (e - 60) true)
    else if 7 < e + (bitLen m : Int) then .pat (f32.roundNum .rne false neg (2 ^ 60 - 1) (-60) true)
    else
      let (a, x) := expPair true (2 * toFx m e)
      let t := toFx a x
      .pat (rndFx neg ((one - t) * one / (one + t)) (-(fxp : Int)))
  | v => .val v

/-- 1 / (1 + e^(−x)). -/
def fnSig : Val → Fn
  | .inf neg => if neg then pZero else fOne
  | .num neg m e =>
    if m = 0 then .val (.num false 1 (-1))
    else if e + (bitLen m : Int) < -60 then
      .pat (f32.roundNum .rne false false (if neg then 2 ^ 60 - 1 else 2 ^ 60) (-61) true)
    else if 10 < e + (bitLen m : Int) then (if neg then .pat (rndFx false 1 (-400)) else .pat (f32.roundNum .rne false false (2 ^ 60 - 1) (-60) true))
    else if neg then
      -- e^x / (1 + e^x), kept relative to e^x
      let (a, x) := expPair true (toFx m e)
      .pat (rndFx false (a * one / (one + toFx a x)) x)
    else
      let (a, x) := expPair true (toFx m e)
      .pat (rndFx false (one * one / (one + toFx a x)) (-(fxp : Int)))
  | v => .val v

end Sys2Proof.Machine
end

