-- ==== Sys2Proof/Machine/Float.lean ====
section
/-! DEFINITION. FPA, FPH, FPD, FCMP, FSPEC and FCVT, and the 16-bit floating forms (spec/07 R174 to R180; spec/03 R54 to R57). -/

namespace Sys2Proof.Machine

/-- A floating operation of a format on patterns, under a rounding and a NaN policy. -/
abbrev FOp := Rnd → Bool → Nat → Nat → Nat → Nat

/-- round(fmt, op, md) over two decoded sources and a third (R174). -/
def fop (f : Flt) (op : Rnd → Val → Val → Val → Val) : FOp := fun md nanp a b c =>
  f.round md false nanp (op md (f.decode a) (f.decode b) (f.decode c))
def fAdd (f : Flt) : FOp := fop f fun md a b _ => valAdd md a b
def fSub (f : Flt) : FOp := fop f fun md a b _ => valSub md a b
def fMul (f : Flt) : FOp := fop f fun _ a b _ => valMul a b
def fFma (f : Flt) : FOp := fop f fun md a b c => valFma md a b c
def fFnma (f : Flt) : FOp := fop f fun md a b c => valFnma md a b c
def fMin (f : Flt) (isMax number : Bool) : FOp := fun _ nanp a b _ => f.minmax nanp isMax number a b

/-- An FP32 form (R175). -/
def fpa (d a b : BitVec 7) (op : FOp) (s : State) : Out :=
  let c := third s.cur d
  laneOp [d.toNat, a.toNat, b.toNat, c.toNat] (fun m t =>
    t.setReg d.toNat (BitVec.ofNat 32 (op (rounding s.cur m) (modeNanp m) (t.reg a.toNat).toNat (t.reg b.toNat).toNat (t.reg c.toNat).toNat))) s
def execFadd (d a b : BitVec 7) : State → Out := fpa d a b (fAdd f32)
def execFsub (d a b : BitVec 7) : State → Out := fpa d a b (fSub f32)
def execFmul (d a b : BitVec 7) : State → Out := fpa d a b (fMul f32)
def execFfma (d a b : BitVec 7) : State → Out := fpa d a b (fFma f32)
def execFmin (d a b : BitVec 7) : State → Out := fpa d a b (fMin f32 false false)
def execFmax (d a b : BitVec 7) : State → Out := fpa d a b (fMin f32 true false)
def execFminn (d a b : BitVec 7) : State → Out := fpa d a b (fMin f32 false true)
def execFmaxn (d a b : BitVec 7) : State → Out := fpa d a b (fMin f32 true true)
def execFcopys (d a b : BitVec 7) : State → Out := rrr d a b fun x y => (x &&& 0x7FFFFFFF) ||| (y &&& 0x80000000)
def execFnma (d a b : BitVec 7) : State → Out := fpa d a b (fFnma f32)
def execFldx (d a b : BitVec 7) : State → Out :=
  fpa d a b fun md nanp x y _ => f32.round md false nanp (valScale (f32.decode x) (toSigned 32 y))

/-- A packed form: both halves alike and apart (R177). -/
def fph (f : Flt) (d a b : BitVec 7) (op : Flt → FOp) (s : State) : Out :=
  fpa d a b (fun md nanp x y z =>
    op f md nanp (x % 2 ^ 16) (y % 2 ^ 16) (z % 2 ^ 16) + 2 ^ 16 * op f md nanp (x / 2 ^ 16) (y / 2 ^ 16) (z / 2 ^ 16)) s
def execHadd2 (d a b : BitVec 7) : State → Out := fph f16 d a b fAdd
def execHmul2 (d a b : BitVec 7) : State → Out := fph f16 d a b fMul
def execHfma2 (d a b : BitVec 7) : State → Out := fph f16 d a b fFma
def execHmin2 (d a b : BitVec 7) : State → Out := fph f16 d a b (fMin · false false)
def execHmax2 (d a b : BitVec 7) : State → Out := fph f16 d a b (fMin · true false)
def execBadd2 (d a b : BitVec 7) : State → Out := fph bf16 d a b fAdd
def execBmul2 (d a b : BitVec 7) : State → Out := fph bf16 d a b fMul
def execBfma2 (d a b : BitVec 7) : State → Out := fph bf16 d a b fFma
def execBmin2 (d a b : BitVec 7) : State → Out := fph bf16 d a b (fMin · false false)
def execBmax2 (d a b : BitVec 7) : State → Out := fph bf16 d a b (fMin · true false)
/-- HPK and BPK: FCVT of both sources into the halves (R177). -/
def pack (f : Flt) (d a b : BitVec 7) (s : State) : Out :=
  laneOp [d.toNat, a.toNat, b.toNat] (fun m t =>
    let cv (x : Word) := f.round (rounding s.cur m) (modeSat m) (modeNanp m) (f32.decode x.toNat)
    t.setReg d.toNat (BitVec.ofNat 32 (cv (t.reg a.toNat) + 2 ^ 16 * cv (t.reg b.toNat)))) s
def execHpk (d a b : BitVec 7) : State → Out := pack f16 d a b
def execBpk (d a b : BitVec 7) : State → Out := pack bf16 d a b
/-- Exact widening of a 16-bit pattern to FP32, NaN payloads at the top and the quiet bit as it stands (R177, R241). -/
def widen (f : Flt) (x : Nat) : Nat :=
  match f.decode x with
  | .nan (some n) => f32.sign n.neg + f32.infBits + n.frac * 2 ^ (23 - f.mb)
  | v => f32.round .rne false false v
def half (f : Flt) (d a n : BitVec 7) : State → Out :=
  rr d a fun x => BitVec.ofNat 32 (widen f (if n = 0 then x.toNat % 2 ^ 16 else x.toNat / 2 ^ 16))
def execHtof (d a n : BitVec 7) : State → Out := half f16 d a n
def execBtof (d a n : BitVec 7) : State → Out := half bf16 d a n

/-- An FP64 form on pairs (R178). -/
def fpd (d a b : BitVec 7) (op : FOp) (s : State) : Out :=
  let c := third s.cur d
  laneOp (two d ++ two a ++ two b ++ two c) (fun m t =>
    t.setPair d.toNat (BitVec.ofNat 64 (op (rounding s.cur m) (modeNanp m) (t.pair a.toNat).toNat (t.pair b.toNat).toNat (t.pair c.toNat).toNat))) s
def execDadd (d a b : BitVec 7) : State → Out := fpd d a b (fAdd f64)
def execDsub (d a b : BitVec 7) : State → Out := fpd d a b (fSub f64)
def execDmul (d a b : BitVec 7) : State → Out := fpd d a b (fMul f64)
def execDfma (d a b : BitVec 7) : State → Out := fpd d a b (fFma f64)
def execDmin (d a b : BitVec 7) : State → Out := fpd d a b (fMin f64 false false)
def execDmax (d a b : BitVec 7) : State → Out := fpd d a b (fMin f64 true false)

/-- FCMP (R179). -/
def execFcmp (p : BitVec 5) (g : BitVec 2) (a b : BitVec 7) (c : BitVec 4) (s : State) : Out :=
  if c.toNat < 8 then
    laneOp [a.toNat, b.toNat] (fun _ t =>
      t.setCond p g (condF c.toNat (f32.decode (t.reg a.toNat).toNat) (f32.decode (t.reg b.toNat).toNat))) s
  else
    laneOp (two a ++ two b) (fun _ t =>
      t.setCond p g (condF c.toNat (f64.decode (t.pair a.toNat).toNat) (f64.decode (t.pair b.toNat).toNat))) s

/-- A special function of an FP32 operand (R57, R180). -/
def fspec (d a : BitVec 7) (fn : Bool → Nat → Nat) (s : State) : Out :=
  laneOp [d.toNat, a.toNat] (fun m t => t.setReg d.toNat (BitVec.ofNat 32 (fn (modeNanp m) (t.reg a.toNat).toNat))) s
def execEx2 (d a : BitVec 7) : State → Out := fspec d a (fnOf fnEx2)
def execLg2 (d a : BitVec 7) : State → Out := fspec d a (fnOf fnLg2)
def execRcp (d a : BitVec 7) : State → Out := fspec d a (fnOf fnRcp)
def execRsq (d a : BitVec 7) : State → Out := fspec d a (fnOf fnRsq)
def execSqrt (d a : BitVec 7) : State → Out := fspec d a (fnOf fnSqrt)
def execSin (d a : BitVec 7) : State → Out := fspec d a (fnOf fnSin)
def execCos (d a : BitVec 7) : State → Out := fspec d a (fnOf fnCos)
def execTanh (d a : BitVec 7) : State → Out := fspec d a (fnOf fnTanh)
def execSig (d a : BitVec 7) : State → Out := fspec d a (fnOf fnSig)
/-- Rounding to an integral value, the sign kept (R57). -/
def rnd (md : Rnd) (nanp : Bool) (x : Nat) : Nat :=
  match f32.decode x with
  | .num neg m e => f32.sign neg + (if 0 ≤ e then f32.roundNum .rne false false m e false
      else f32.roundNum .rne false false (roundShift md neg m (-e).toNat false) 0 false)
  | v => f32.round .rne false nanp v
def execRndn (d a : BitVec 7) : State → Out := fspec d a (rnd .rne)
def execRndz (d a : BitVec 7) : State → Out := fspec d a (rnd .rz)
def execRndd (d a : BitVec 7) : State → Out := fspec d a (rnd .rd)
def execRndu (d a : BitVec 7) : State → Out := fspec d a (rnd .ru)
/-- The class mask (R57). -/
def fclass (x : Nat) : Nat :=
  let e := bits x 30 23
  let m := bits x 22 0
  let neg := bit x 31
  2 ^ (if e = 255 then (if m = 0 then (if neg then 0 else 7) else if bit m 22 then 9 else 8)
    else if e = 0 then (if m = 0 then (if neg then 3 else 4) else if neg then 2 else 5)
    else if neg then 1 else 6)
def execFclass (d a : BitVec 7) : State → Out := rr d a fun x => BitVec.ofNat 32 (fclass x.toNat)

/-- A format code of 64 bits takes a pair (R54). -/
def codeRegs (code : Nat) (r : BitVec 7) : List Nat := if fmtWidth code = 64 then two r else [r.toNat]
/-- The value FCVT writes: sign-extended for .s16, .s8, .s4, .s2, zero-filled otherwise (R55). -/
def fcvtValue (md : Rnd) (sat nanp : Bool) (dst src x : Nat) : Nat :=
  let t := convert md sat nanp (fmtOf dst) ((fmtOf src).decode (x % 2 ^ fmtWidth src))
  if [10, 11, 13, 15].contains dst then ((toSigned (fmtWidth dst) t) % (2 ^ 32 : Int)).toNat else t
/-- FCVT (R54 to R56); w is dst, r is src, t is sat. -/
def execFcvt (d a : BitVec 7) (w r : BitVec 5) (t : BitVec 1) (s : State) : Out :=
  laneOp (codeRegs w.toNat d ++ codeRegs r.toNat a) (fun m th =>
    let x := if fmtWidth r.toNat = 64 then (th.pair a.toNat).toNat else (th.reg a.toNat).toNat
    let y := fcvtValue (rounding s.cur m) (t == 1 || modeSat m) (modeNanp m) w.toNat r.toNat x
    if fmtWidth w.toNat = 64 then th.setPair d.toNat (BitVec.ofNat 64 y) else th.setReg d.toNat (BitVec.ofNat 32 y)) s

def execFaddC (d v : BitVec 5) : State → Out := fpa (d.zeroExtend 7) (d.zeroExtend 7) (v.zeroExtend 7) (fAdd f32)
def execFmulC (d v : BitVec 5) : State → Out := fpa (d.zeroExtend 7) (d.zeroExtend 7) (v.zeroExtend 7) (fMul f32)
def execFmaxC (d v : BitVec 5) : State → Out := fpa (d.zeroExtend 7) (d.zeroExtend 7) (v.zeroExtend 7) (fMin f32 true false)

end Sys2Proof.Machine
end

