-- ==== Sys2Proof/Machine/Flow.lean ====
section
/-! DEFINITION. Control flow (spec/13 R287, R288), guard spans (spec/02 R28), traps by instruction, RTT and SOFTI (spec/14 R314
to R316), system registers (R317, spec/02 R35) and TLBI (spec/04 R86 to R88). -/

namespace Sys2Proof.Machine

/-- The address after the issue group's 32-bit word (R288; DESIGN CHOICE, log 3). -/
def Issue.after (c : Issue) : BitVec 64 := c.word + 4

/-- A thread branches (R28, R287). -/
def jumpTo (s : State) (tid : Nat) (target : Thread → BitVec 64) : State :=
  s.modThread s.cur.team tid fun t => t.jump (target t)

/-- A branch's own guard (R287). -/
def taken (p : BitVec 5) (n : BitVec 1) (t : Thread) : Bool := t.pred p.toNat != (n == 1)
/-- A branch target: own address plus a signed offset in halfwords (R22). -/
def target {w : Nat} (c : Issue) (o : BitVec w) : BitVec 64 := c.word + 2 * o.signExtend 64

/-- BRA (R287). -/
def execBra (p : BitVec 5) (n : BitVec 1) (o : BitVec 19) (s : State) : Out :=
  finish (eachLane [] (fun tid s =>
    if taken p n (s.here.thread tid) then jumpTo s tid fun _ => target s.cur o else complete s tid) s)
/-- CALL (R287). -/
def execCall (p : BitVec 5) (n : BitVec 1) (o : BitVec 19) (s : State) : Out :=
  finish (eachLane [] (fun tid s =>
    if taken p n (s.here.thread tid) then
      s.modThread s.cur.team tid fun t => { t.jump (target s.cur o) with lr := s.cur.after }
    else complete s tid) s)
/-- BRA.S (R27). -/
def execBraS (o : BitVec 10) (s : State) : Out := finish (eachLane [] (fun tid s => jumpTo s tid fun _ => target s.cur o) s)
/-- BRX (R288). -/
def execBrx (a : BitVec 7) (s : State) : Out := finish (eachLane (two a) (fun tid s => jumpTo s tid fun t => t.pair a.toNat) s)
/-- CALLX (R288). -/
def execCallx (a : BitVec 7) (s : State) : Out :=
  finish (eachLane (two a) (fun tid s =>
    s.modThread s.cur.team tid fun t => { t.jump (t.pair a.toNat) with lr := s.cur.after }) s)
/-- RET and its short form (R288, R27). -/
def retLanes (s : State) : Out := finish (eachLane [] (fun tid s => jumpTo s tid fun t => t.lr) s)
def execRet (s : State) : Out := retLanes s
def execRetC (s : State) : Out := retLanes s
/-- NOP32 and NOP (R288, R27). -/
def execNop32 (s : State) : Out := finish (eachLane [] (fun tid s => complete s tid) s)
def execNopC (s : State) : Out := finish (eachLane [] (fun tid s => complete s tid) s)

/-- GRD (R28): never suppressed by the span it ends. -/
def execGrd (p : BitVec 5) (g : BitVec 1) (n : BitVec 4) (s : State) : Out :=
  .next (s.tids.foldl (fun s tid => s.modThread s.cur.team tid fun t =>
    { t with pc := s.cur.next, wait := .ready, half := none, command := none, resume := none, spanPass := taken p g t, spanLeft := n.toNat + 1 }) s)
/-- ILL: the all-zero halfword (R18). -/
def execIll (s : State) : Out := finish (eachLane [] (fun tid s => ill s tid 1) s)

/-- A trap after completing (R314). -/
def trapAfter (s : State) (tid cause info : Nat) : State :=
  takeTrap (complete s tid) s.cur.team tid cause info 0 s.cur.pc.toNat s.cur.after.toNat
/-- BRK (R314). -/
def execBrk (s : State) : Out := finish (eachLane [] (fun tid s => trapAfter s tid 0x11 0) s)
/-- TRAP (R314). -/
def execTrap (n : BitVec 7) (s : State) : Out := finish (eachLane [] (fun tid s => trapAfter s tid 0x10 n.toNat) s)
/-- RTT (R315). -/
def execRtt (s : State) : Out :=
  finish (eachLane [] (fun tid s =>
    if (s.here.thread tid).handler then s.modThread s.cur.team tid Thread.return else ill s tid 0xD) s)

/-- The valid entry of a function's ring table that names a header, as the dispatcher's copy has it (R324). -/
def ringEntry (s : State) (fn hdr : Nat) : Option (BitVec 128) :=
  (s.vf fn).ringCopy.find? fun e => bit e.toNat 64 && decide (bits e.toNat 63 0 = hdr)
/-- A ring-table entry counts as valid (R324). -/
def ringEntryOk (e : Nat) : Bool :=
  bit e 64 && bits e 127 80 = 0 && bits e 71 66 = 0 && bits e 5 0 = 0

/-- SOFTI (R316). -/
def execSofti (d a b : BitVec 7) : State → Out :=
  lanes (d.toNat :: b.toNat :: two a) fun tid s =>
    let t := s.here.thread tid
    let v := s.here.vf
    let s := publishEvent s s.cur.team 2
    let hdr := (t.pair a.toNat).toNat
    if hdr = 0 then
      completeWith { s with wakeReg := s.wakeReg ++ [(v, (t.reg b.toNat).toNat)] } tid (·.setReg d.toNat 1)
    else match ringEntry s v hdr with
      | some e =>
        let f := s.vf v
        let s := s.setVf v { f with wakes := Store.set 0 f.wakes hdr (Store.get 0 f.wakes hdr + 1) }
        completeWith { s with msix := s.msix ++ [(v, bits e.toNat 79 72)] } tid (·.setReg d.toNat 1)
      | none => completeWith s tid (·.setReg d.toNat 2)

-- System registers

/-- A system register read has this width in registers, if its number is assigned (R35). -/
def sysWidth (n : Nat) : Option Nat :=
  if n < 9 || n = 0x1A || n = 0x1B || n = 0x1C || n = 0x20 || (0x100 ≤ n && n < 0x140) then some 1
  else if n = 0x10 || n = 0x12 || n = 0x14 || n = 0x16 || n = 0x18 || n = 0x22 then some 2
  else none
/-- `$span` (R30): with no current span, pass reads 0 (DEDUCED, log 14). -/
def Thread.span (t : Thread) : Nat := t.spanLeft + 32 * b2n (t.spanPass && t.spanLeft ≠ 0)
/-- The fields that the layout of a cause gives `$tinfo` (R84, R198, R210, R225, R267): its reserved field reads as zero (R4). -/
def infoMask (cause : Word) : Word :=
  match cause.toNat with
  | 3 | 4 | 5 => 0xFFF
  | 7 => 0x3FFF
  | 9 => 0xFFFF
  | 0xA => 0x3FFFFFF
  | 0xB => 0xFFFF
  | _ => 0xFFFFFFFF
/-- The value of a system register (R35; DEDUCED, log 14). -/
def sysValue (s : State) (tid n : Nat) : Nat :=
  let t := s.here
  let th := t.thread tid
  match n with
  | 0x000 => tid
  | 0x001 => tid % 32
  | 0x002 => tid / 32
  | 0x003 => (t.laneset (tid / 32)).stage
  | 0x004 => t.x
  | 0x005 => t.y
  | 0x006 => t.z
  | 0x007 => t.gridId.toNat
  | 0x008 => match t.place with | some p => p.core | none => t.lastCore
  | 0x010 => s.clock
  | 0x012 => th.lr.toNat
  | 0x014 => th.tpc.toNat
  | 0x016 => th.tfa.toNat
  | 0x018 => th.tia.toNat
  | 0x01A => th.tcause.toNat
  | 0x01B => (th.tinfo &&& infoMask th.tcause).toNat
  | 0x01C => th.span
  | 0x020 => t.mode.toNat
  | 0x022 => (t.laneset (tid / 32)).gang.toNat
  | n => ((t.kargs[n - 0x100]?).getD 0).toNat
/-- SYSR (R317). -/
def execSysr (d : BitVec 7) (n : BitVec 11) (s : State) : Out :=
  finish (eachLane (if sysWidth n.toNat = some 2 then two d else [d.toNat]) (fun tid s =>
    match sysWidth n.toNat with
    | none => ill s tid 0xA
    | some w => completeWith s tid fun t => t.setRegsNat d.toNat w (sysValue s tid n.toNat)) s)

/-- The number names a register of the trap frame (R35). -/
def isFrame (n : Nat) : Bool := n = 0x14 || n = 0x16 || n = 0x18 || n = 0x1A || n = 0x1B
/-- A thread's system register written (R35). -/
def Thread.setSys (t : Thread) (n : Nat) (x : BitVec 64) : Thread :=
  match n with
  | 0x12 => { t with lr := x }
  | 0x14 => { t with tpc := x }
  | 0x16 => { t with tfa := x }
  | 0x18 => { t with tia := x }
  | 0x1A => { t with tcause := x.truncate 32 }
  | 0x1B => { t with tinfo := x.truncate 32 &&& infoMask t.tcause }
  | _ => t
/-- The fields of `$mode` that exist (R50, R4). -/
def modeMask : Word := 0xFF0F
/-- SYSW (R317). -/
def execSysw (a : BitVec 7) (n : BitVec 11) (s : State) : Out :=
  let num := n.toNat
  finish (eachLane (if sysWidth num = some 2 then two a else [a.toNat]) (fun tid s =>
    let t := s.here.thread tid
    if num = 0x20 then complete (s.modTeam s.cur.team fun u => { u with mode := t.reg a.toNat &&& modeMask }) tid
    else if num = 0x12 || (isFrame num && t.handler) then
      completeWith s tid fun t => t.setSys num (if sysWidth num = some 2 then t.pair a.toNat else (t.reg a.toNat).zeroExtend 64)
    else ill s tid 0xA) s)

-- TLBI

/-- A TLBI of a supervisor team: publish, invalidate, then the final wait, without another fetch (R87; DESIGN CHOICE, log 49). `inT`
selects pages of the address space by an address, `inL` sectors of S; `all` names the whole VMID (DEDUCED, log 42). -/
def tlbi (i : Instr) (b : Reg) (all : Bool) (inT inL : Thread → Nat → Bool) (tid : Nat) (s : State) : State :=
  let k := s.cur.team
  if !s.here.super then trapHere s tid 3 0xB 0
  else match (s.here.thread tid).wait with
    | .tlbi _ => complete s tid
    | _ =>
      let s := publishEvent s k 1
      let t := s.here.thread tid
      let v := (t.reg b.toNat).toNat
      let vm := if s.here.vmid = 0 then bits v 27 16 else s.here.vmid
      let (l, s) := invalidate s (fun vmid asid => vmid = vm && (all || asid = bits v 15 0)) (inT t) (inL t)
      let s := if all then { s with ntlb := s.ntlb.filter fun e => e.vmid ≠ vm } else s
      if l = [] then complete s tid else stay s tid (.tlbi l) (some i)

/-- TLBI.VA (R86, R87; DEDUCED, log 42). -/
def execTlbiVa (a b : BitVec 7) : State → Out :=
  let pg (t : Thread) : Nat := bits (t.pair a.toNat).toNat 51 16
  lanes (b.toNat :: two a) (tlbi (.tlbiVa a b) b false
    (fun t va => bits (t.pair a.toNat).toNat 63 52 = 0 && va / 2 ^ 16 = pg t) (fun t va => va / 2 ^ 16 = pg t))
/-- TLBI.ASID (R87). -/
def execTlbiAsid (b : BitVec 7) : State → Out := lanes [b.toNat] (tlbi (.tlbiAsid b) b false (fun _ _ => true) (fun _ _ => true))
/-- TLBI.ALL (R87). -/
def execTlbiAll (b : BitVec 7) : State → Out := lanes [b.toNat] (tlbi (.tlbiAll b) b true (fun _ _ => true) (fun _ _ => true))

end Sys2Proof.Machine
end

