-- ==== Sys2Proof/Machine/Aes.lean ====
section
/-! DEFINITION. AES-256 in Galois/counter mode, by which the page-promotion engines encrypt tier pages (spec/04 R90): the cipher of
FIPS 197 and the mode of NIST SP 800-38D (PRESUMED, log 8). -/

namespace Sys2Proof.Machine

/-- Doubling in GF(2^8). -/
def xtime (b : Byte) : Byte := if b.getLsbD 7 then (b <<< 1) ^^^ 0x1B else b <<< 1
def gmulGo : Nat → Byte → Byte → Byte
  | 0, _, _ => 0
  | n + 1, a, b => (if b.getLsbD 0 then a else 0) ^^^ gmulGo n (xtime a) (b >>> 1)
/-- Product in GF(2^8). -/
def gmul (a b : Byte) : Byte := gmulGo 8 a b
/-- The inverse, 0 for 0: the 254th power. -/
def ginv (a : Byte) : Byte :=
  let a2 := gmul a a
  let a3 := gmul a2 a
  let a6 := gmul a3 a3
  let a7 := gmul a6 a
  let a14 := gmul a7 a7
  let a15 := gmul a14 a
  let a30 := gmul a15 a15
  let a31 := gmul a30 a
  let a62 := gmul a31 a31
  let a63 := gmul a62 a
  let a126 := gmul a63 a63
  gmul (gmul a126 a) (gmul a126 a)
/-- The substitution of a byte: inverse, then the affine map. -/
def sboxOf (a : Byte) : Byte :=
  let i := ginv a
  i ^^^ i.rotateLeft 1 ^^^ i.rotateLeft 2 ^^^ i.rotateLeft 3 ^^^ i.rotateLeft 4 ^^^ 0x63
/-- The 256 substitutions. -/
def sboxTable : Array Byte := (Array.range 256).map fun i => sboxOf (BitVec.ofNat 8 i)
def sbox (a : Byte) : Byte := (sboxTable[a.toNat]?).getD 0

def xorBytes (a b : List Byte) : List Byte := List.zipWith (· ^^^ ·) a b

def keyGo : Nat → Nat → Byte → List (List Byte) → List (List Byte)
  | 0, _, _, ws => ws
  | n + 1, i, rc, ws =>
    -- `ws` holds the words made so far, newest first
    let prev := (ws[0]?).getD []
    let old := (ws[7]?).getD []
    let t := if i % 8 = 0 then
        let r := (prev.drop 1 ++ prev.take 1).map sbox
        xorBytes r [rc, 0, 0, 0]
      else if i % 8 = 4 then prev.map sbox else prev
    keyGo n (i + 1) (if i % 8 = 0 then xtime rc else rc) (xorBytes old t :: ws)
/-- The 15 round keys of a 32-byte key. -/
def roundKeys (key : List Byte) : List (List Byte) :=
  let ws := ((List.range 8).map fun i => (key.drop (4 * i)).take 4).reverse
  let all := (keyGo 52 8 1 ws).reverse
  (List.range 15).map fun r => ((all.drop (4 * r)).take 4).flatten

def mixColumn (c : List Byte) : List Byte :=
  match c with
  | [a, b, c, d] =>
    [xtime a ^^^ (xtime b ^^^ b) ^^^ c ^^^ d, a ^^^ xtime b ^^^ (xtime c ^^^ c) ^^^ d,
     a ^^^ b ^^^ xtime c ^^^ (xtime d ^^^ d), (xtime a ^^^ a) ^^^ b ^^^ c ^^^ xtime d]
  | l => l
/-- Row r of the 4 by 4 byte state moves left by r; the state lies column by column. -/
def shiftRows (s : List Byte) : List Byte := (List.range 16).map fun i => (s[(i + 4 * (i % 4)) % 16]?).getD 0
def mixColumns (s : List Byte) : List Byte := (List.range 4).flatMap fun c => mixColumn ((s.drop (4 * c)).take 4)
def aesRounds : List Byte → List (List Byte) → List Byte
  | s, [] => s
  | s, [k] => xorBytes (shiftRows (s.map sbox)) k
  | s, k :: ks => aesRounds (xorBytes (mixColumns (shiftRows (s.map sbox))) k) ks
/-- One block under the round keys. -/
def aesBlock (ks : List (List Byte)) (b : List Byte) : List Byte := aesRounds (xorBytes b ((ks[0]?).getD [])) (ks.drop 1)

/-- The number of bytes, most significant first. -/
def beNat (bs : List Byte) : Nat := leNat bs.reverse
def beBytes (n x : Nat) : List Byte := (leBytes n x).reverse

def ghashMulGo : Nat → BitVec 128 → BitVec 128 → BitVec 128 → BitVec 128
  | 0, _, _, z => z
  | n + 1, x, v, z =>
    ghashMulGo n (x <<< 1) (if v.getLsbD 0 then (v >>> 1) ^^^ 0xE1000000000000000000000000000000#128 else v >>> 1) (if x.getLsbD 127 then z ^^^ v else z)
/-- Product in GF(2^128) as GCM numbers its bits. -/
def ghashMul (x y : BitVec 128) : BitVec 128 := ghashMulGo 128 x y 0
def ghashGo (h : BitVec 128) : Nat → List Byte → BitVec 128 → BitVec 128
  | 0, _, y => y
  | n + 1, m, y => ghashGo h n (m.drop 16) (ghashMul (y ^^^ BitVec.ofNat 128 (beNat (m.take 16))) h)

/-- The key stream of `n` blocks from counter `c`, xored onto the text. -/
def gctr (ks : List (List Byte)) (iv : List Byte) : Nat → Nat → List Byte → List Byte
  | 0, _, _ => []
  | n + 1, c, m => xorBytes (m.take 16) (aesBlock ks (iv ++ beBytes 4 c)) ++ gctr ks iv n (c + 1) (m.drop 16)
/-- The tag of a ciphertext of whole blocks with no additional data. -/
def gcmTag (ks : List (List Byte)) (iv c : List Byte) : List Byte :=
  let h := BitVec.ofNat 128 (beNat (aesBlock ks (List.replicate 16 0)))
  let y := ghashGo h (c.length / 16 + 1) (c ++ beBytes 16 (8 * c.length)) 0
  xorBytes (beBytes 16 y.toNat) (aesBlock ks (iv ++ beBytes 4 1))
/-- Encrypts whole blocks: ciphertext and tag. -/
def gcmEncrypt (key iv m : List Byte) : List Byte × List Byte :=
  let ks := roundKeys key
  let c := gctr ks iv (m.length / 16) 2 m
  (c, gcmTag ks iv c)
/-- Decrypts whole blocks; none where the tag does not check. -/
def gcmDecrypt (key iv c tag : List Byte) : Option (List Byte) :=
  let ks := roundKeys key
  if gcmTag ks iv c = tag then some (gctr ks iv (c.length / 16) 2 c) else none

end Sys2Proof.Machine
end

