-- ==== Sys2Proof/Machine/Copy.lean ====
section
/-! DEFINITION. The copy engines and completion (spec/05): tile copies and their events, counting barriers, WAITC, WAITA, rings,
chain channels; QLAUNCH and FORK (spec/13 R281, R282). -/

namespace Sys2Proof.Machine

-- Engine accesses

/-- Parts at virtual addresses translated: virtual and physical address and length of each, and the leaves whose dirty bits to set. -/
abbrev Parts := List (Nat × Nat × Nat) × List Nat
/-- Translates the parts in order, each in the slice of its first byte where it meets several (R16; DESIGN CHOICE, log 50), or answers the
first that fails; parts that a test selects need no translation (R101). -/
def translateParts (s : State) (w : Who) (k : Acc) (served : Nat → Bool) : List (Nat × Nat) → Except (Nat × Xlat) Parts × State
  | [] => (.ok ([], []), s)
  | (va, n) :: rest =>
    if served va then
      match translateParts s w k served rest with
      | (.ok (l, ds), s) => (.ok ((va, 0, n) :: l, ds), s)
      | e => e
    else match translate s w k va n with
      | (.ok pa _ d, s) =>
        (match translateParts s w k served rest with
         | (.ok (l, ds), s) => (.ok ((va, pa, n) :: l, d.toList ++ ds), s)
         | e => e)
      | (x, s) => (.error (va, x), s)
def translateRange (s : State) (w : Who) (k : Acc) (va n : Nat) : Except (Nat × Xlat) Parts × State :=
  translateParts s w k (fun _ => false) (pageParts (n / 65536 + 2) va n)
/-- Every access is performed: its leaves' dirty bits (R81). -/
def setAllDirty (s : State) (ds : List Nat) : State := ds.foldl (fun s a => setDirty s (some a)) s

/-- A read of a team that a live resident range serves (R101). -/
def isServed (s : State) (k va : Nat) : Bool := (rangeFor s k va).isSome
/-- An engine's read of part of a page at device scope (R101, R112); `res` where a resident range may serve it. -/
def engineRead1 (res : Bool) (k own : Nat) (s : State) (va pa n : Nat) : List Byte × State :=
  match (if res then rangeFor s k va else none) with
  | some r => rangeRead s r va n
  | none =>
    let s := touch (flushOut s fun o => decide (o.pa < pa + n) && decide (pa < o.pa + o.bytes.length)) pa n
    globalRead s k own va pa (s.rd pa n)
/-- An engine's read of translated parts, sector by sector of 1 KiB, so that a resident range holds each whole. -/
def engineRead (res : Bool) (k own kind : Nat) : State → List (Nat × Nat × Nat) → List Byte × State
  | s, [] => ([], s)
  | s, (va, pa, n) :: rest =>
    let (a, s) := engineRead1 res k own (if res && isServed s k va then s else raceCheck s k pa va n kind) va pa n
    let (b, s) := engineRead res k own kind s rest
    (a ++ b, s)
/-- Parts cut at 1 KiB, the grain of resident ranges (R102). -/
def kibParts : Nat → Nat × Nat × Nat → List (Nat × Nat × Nat)
  | 0, _ => []
  | f + 1, (va, pa, n) =>
    if n = 0 then []
    else
      let k := min n (1024 - va % 1024)
      (va, pa, k) :: kibParts f (va + k, pa + k, n - k)
/-- A virtual range cut at 1 KiB. -/
def kibRange (va n : Nat) : List (Nat × Nat) := (kibParts (n / 1024 + 2) (va, va, n)).map fun e => (e.1, e.2.2)
/-- An engine's write of bytes over translated parts at device scope (R112, R265). -/
def engineWrite (k own kind : Nat) : State → List (Nat × Nat × Nat) → List Byte → State
  | s, [], _ => s
  | s, (va, pa, n) :: rest, bs =>
    let s := raceCheck s k pa va n kind
    let (b, s) := globalStore s (some k) own false va pa (bs.take n)
    let s := shadowWrite (devWrite s k pa (linkOf s (s.team k).vf) b) k pa n 1
    engineWrite k own kind s rest (bs.drop n)
/-- The first part that an uncorrectable error poisons (R338), but for those that a resident range serves (R101). -/
def poisonedPart (s : State) (served : Nat → Bool) (l : List (Nat × Nat × Nat)) : Option Nat :=
  (l.find? fun e => !served e.1 && poisoned s e.2.1 e.2.2).map (·.1)

/-- The cause and `$tinfo` of an engine's failed translation, where it is no fault (R127, R310). -/
def xlatFailure (kind : Nat) : Xlat → Option (Nat × Nat)
  | .prot info => some (3, putBits info 9 8 kind)
  | .ecc => some (6, 0)
  | _ => none

-- Swaps start

/-- The team's own park records (R302). -/
def ownParks (s : State) (k : Nat) : List Park := s.parks.filter fun p => p.team = k && (match p.owner with
  | .thread _ _ => true
  | .copy _ => true
  | .mop _ => true
  | _ => false)
def Park.waits (p : Park) : Bool := match p.state with
  | .waiting _ => true
  | _ => false
/-- The age of a team's oldest park record has reached its threshold; a record that is resolved is about to replay (R302, R308). -/
def aged (s : State) (k : Nat) : Bool :=
  (ownParks s k).any fun p => p.waits && decide (p.origin + (s.team k).desc.park * Config.clocksPerUs ≤ s.clock)
/-- The age trigger (R302). -/
def ageDue (s : State) (k : Nat) : Bool := (s.team k).phase = .resident && aged s k
/-- The share trigger (R302). -/
def shareDue (s : State) (k : Nat) : Bool :=
  let t := s.team k
  let parked := t.live.filter fun i => (t.thread i).wait = .parked
  t.phase = .resident && parked ≠ [] && decide (t.live.length ≤ 2 * parked.length) && decide (t.lastIssue + 4096 ≤ s.clock)
/-- A thread record of the team is unresolved (R307). -/
def unresolved (s : State) (k : Nat) : Bool := s.parks.any fun p => p.waits && (match p.owner with
  | .thread t _ => decide (t = k)
  | _ => false)
def Reason.isFork : Reason → Bool
  | .fork _ => true
  | _ => false
/-- A swap of a resident team starts, for every reason that is present (R302); a FORK by a team with parked threads waits for their
records too (R319). -/
def startSwap (s : State) (k : Nat) (rs : List Reason) : State :=
  let t := s.team k
  if t.phase = .resident then
    let rs := t.reasons ++ rs
    let park := ageDue s k || shareDue s k || (rs.any (·.isFork) && unresolved s k)
    let (n, s) := fresh s
    s.modTeam k fun t => { t with phase := .swapping, swapNo := n, reasons := if park && !rs.contains .park then rs ++ [.park] else rs }
  else s

-- Copies at issue

def setCopy (s : State) (c : Copy) : State := { s with copies := s.copies.map fun d => if d.id = c.id then c else d }
def dropCopy (s : State) (id : Nat) : State := { s with copies := s.copies.filter fun d => d.id ≠ id }
/-- Formats that TSCATA adds (R111). -/
def scataFmt (f : Nat) : Bool := f = 1 || f = 2 || f = 3 || f = 28 || f = 29

/-- The checks of R111 and R354 for a command as captured: none, or the trap's cause, `$tinfo` and `$tfa`. A completion word of a mode
4 to 15 has no target; an index list beyond the pad fails check 4 at the index offset (R139; DEDUCED, log 19). -/
def copyCheck (t : Team) (c : Copy) (n : Nat) : Option (Nat × Nat × Nat) :=
  let h := parseHandle c.h
  let hnd (code num : Nat) : Option (Nat × Nat × Nat) := some (0xE, code + num * 2 ^ 8, 0)
  let m := cplMode c.cpl
  let a := cplAddr c.cpl
  let size := h.brows * h.pitch
  let target := if m = 1 || m = 2 then 8 else if m = 3 then 4 else 0
  match h.check t.padSize {} with
  | some code => hnd code n
  | none =>
    if h.space then hnd 0xC n
    else if (c.col * h.width) % 8 ≠ 0 || (c.f = 4 && !scataFmt h.fmt) || (c.f = 5 && 32768 < size)
        || (c.indexed && (c.a2 = 0 || h.brows < c.a2)) then hnd 0xA n
    else
      let link : Option (Nat × Nat) := if !c.indexed then none else if !h.linkv then some (8, n)
        else ((parseHandle c.link).check t.padSize listRole).map fun code => (code, h.link)
      match link with
      | some (code, num) => hnd code num
      | none =>
        if c.f = 6 then none
        else if c.pad % 16 ≠ 0 then some (2, 0, c.pad)
        else if c.indexed && c.a1 % 4 ≠ 0 then some (2, 0, c.a1)
        else if (m = 1 || m = 2) && a % 8 ≠ 0 then some (2, 0, a)
        else if t.padSize < c.pad + size then some (0xD, 0, c.pad)
        else if c.indexed && (parseHandle c.link).space && t.padSize < (parseHandle c.link).base + c.a1 + 4 * c.a2 then some (0xD, 0, c.a1)
        else if target ≠ 0 && t.padSize < a + target then some (0xD, 0, a)
        else if 3 < m then hnd 0xB n
        else none

/-- Pad bytes that a command reads and a copy that nobody has observed writes (R115). -/
def Copy.unseen (s : State) (c : Copy) : List Nat :=
  if s.copies.isEmpty && (s.team c.team).landed.isEmpty then []
  else
    let ih := parseHandle c.link
    (among (fun i => c.sources c.team i && copyStores s c.team i) c.pad c.size)
      ++ (if c.indexed && ih.space then among (copyStores s c.team) (ih.base + c.a1) (4 * c.a2) else [])
/-- A tile copy instruction (R107 to R111). -/
def tcp (f : Nat) (d a b : BitVec 7) : State → Out :=
  lanes ((if f = 6 then [] else [d.toNat]) ++ four a) fun tid s =>
    let k := s.cur.team
    let t := s.here
    let th := t.thread tid
    if f ≠ 6 && 63 ≤ th.cp then blockOn s tid .limit
    else if t.desc.copyslots ≤ copiesOf s k then blockOn s tid .copySlot
    else
      let (id, s) := fresh s
      let e := t.handle b.toNat
      let r (i : Nat) : Nat := (th.reg (a.toNat + i)).toNat
      let c : Copy := { id := id, team := k, tid := tid, tia := s.cur.pc.toNat, f := f, pad := r 0, a1 := r 1, a2 := r 2, cpl := r 3
                        flag := if f = 6 then 0 else th.reg d.toNat, h := e, link := t.handle (parseHandle e).link, mode := t.mode
                        row := 0, off := 0, idx := [], stage := [], phase := .queued, clash := [], arrived := 0 }
      match copyCheck t c b.toNat with
      | some (cause, info, tfa) => trapHere s tid cause info tfa
      | none =>
        let s := { s with copies := s.copies ++ [{ c with clash := (c.unseen s).map fun i => (some k, i) }] }
        completeWith s tid fun th => if f = 6 then th else { th with cp := th.cp + 1 }
def execTload (d a b : BitVec 7) : State → Out := tcp 0 d a b
def execTstore (d a b : BitVec 7) : State → Out := tcp 1 d a b
def execTgath (d a b : BitVec 7) : State → Out := tcp 2 d a b
def execTscat (d a b : BitVec 7) : State → Out := tcp 3 d a b
def execTscata (d a b : BitVec 7) : State → Out := tcp 4 d a b
def execTmcast (d a b : BitVec 7) : State → Out := tcp 5 d a b
def execTpref (a b : BitVec 7) : State → Out := tcp 6 0 a b

-- Copies at work

/-- The tensor row behind a box row (R112). -/
def Copy.tensorRow (c : Copy) (i : Nat) : Option Nat :=
  let h := parseHandle c.h
  if c.indexed then
    match c.idx[i]? with
    | some r => if i < c.a2 && r < h.rows then some r else none
    | none => none
  else
    let r : Int := h.row + toSigned 32 c.a1 + i
    if 0 ≤ r && r < h.rows then some r.toNat else none
/-- The bits of a pad row that lie in box and tensor: from a byte boundary, up to the second number. -/
def Copy.span (c : Copy) : Nat × Nat :=
  let h := parseHandle c.h
  let w : Int := h.width
  let lo := max 0 (-(c.col * w))
  let hi := min (h.bcols * w) (h.cols * w - c.col * w)
  if lo < hi then (lo.toNat, hi.toNat) else (0, 0)

/-- A failed command leaves the queue; its thread will take the trap (R127). -/
def failCopy (s : State) (c : Copy) (cause info tfa : Nat) : State :=
  let s := dropCopy s c.id
  if c.f = 6 then s
  else s.modThread c.team c.tid fun t => { t with cp := t.cp - 1, failures := t.failures ++ [⟨false, cause, info, tfa, c.tia⟩] }
/-- A piece whose translation does not succeed: failure, a walk to wait for, or the command parks at its restart point (R82, R126,
R127). -/
def copyFault (s : State) (c : Copy) (va kind park : Nat) (x : Xlat) : State :=
  match xlatFailure kind x, x with
  | some (cause, info), _ => failCopy s c cause info va
  | none, .walking _ => s
  | none, _ =>
    let (f, s) := openFault s (whoOf s c.team) va park x
    setCopy (addPark s (.copy c.id) c.team va park c.tid none f) { c with phase := .parked }

/-- Bytes put into a list. -/
def patch : List Byte → Nat → List Byte → List Byte
  | l, _, [] => l
  | l, i, b :: bs => patch (setAt l i b) (i + 1) bs
/-- A command puts image bytes at an offset of its image: into the pad, or into its staging store (R125). -/
def Copy.land (c : Copy) (s : State) (off : Nat) (bs : List Byte) : State × Copy :=
  if c.f = 5 then (s, { c with stage := patch (c.stage ++ List.replicate (off + bs.length - c.stage.length) 0) off bs })
  else
    let (bs, s) := freeWhere (fun i => c.clash.contains (some c.team, i)) (c.pad + off) bs s
    (padStore s c.team c.id (c.pad + off) bs, c)

/-- Bits of an element's addition (R113). -/
def scataNew (fmt old v : Nat) : Nat :=
  match fmt with
  | 1 => atomAdd f32 old v
  | 2 => atomAdd f16 old v
  | 3 => atomAdd bf16 old v
  | _ => (old + v) % 2 ^ 32

/-- The next row; the command is done after its last (R117), a TMCAST's box is staged (R125). -/
def Copy.nextRow (c : Copy) : Copy :=
  let h := parseHandle c.h
  if h.brows ≤ c.row + 1 then { c with row := c.row + 1, off := 0, phase := if c.f = 5 then .staged else .done }
  else { c with row := c.row + 1, off := 0 }
/-- The piece has been moved. -/
def Copy.nextOff (c : Copy) (n len : Nat) : Copy := if len ≤ c.off + n then c.nextRow else { c with off := c.off + n }

/-- Pad bytes as a command reads them: undefined where they were written under it, or a drain writes them (R115, R231). -/
def copySource (s : State) (c : Copy) (a n : Nat) : List Byte × State :=
  freeWhere (fun i => c.clash.contains (some c.team, i) || drainStores s c.id (padSpot c.team i)) a ((s.team c.team).padRd a n) s
/-- A partial last byte: the low `keep` bits of `new` over `old`. -/
def mixByte (keep : Nat) (old new : Byte) : Byte := BitVec.ofNat 8 (new.toNat % 2 ^ keep + old.toNat / 2 ^ keep * 2 ^ keep)

/-- On whose behalf a command's access translates. -/
def Copy.who (s : State) (c : Copy) : Who := { whoOf s c.team with owner := some (.copy c.id) }
/-- Bytes of memory written under the command are undefined to it (R158). -/
def Copy.spoils (c : Copy) (a : Nat) : Bool := c.clash.contains (none, a)
/-- One piece of a row: `va` and `n` of its tensor bytes, `pr` its place in the pad row (R112, R113; DESIGN CHOICE, log 20). -/
def copyPiece1 (s : State) (c : Copy) (va n pr len last : Nat) : State :=
  let h := parseHandle c.h
  let w := c.who s
  let o := c.row * h.pitch + pr
  if c.f = 6 then
    match translateRange s w .load va n with
    | (.error (_, .walking _), s) => s
    | (_, s) => setCopy s (c.nextOff n len)
  else if c.f = 0 || c.f = 2 || c.f = 5 then
    let served (a : Nat) : Bool := c.f ≠ 5 && isServed s c.team a
    match translateParts s w .load served (kibRange va n) with
    | (.error (fva, x), s) => copyFault s c fva 0 4 x
    | (.ok (l, _), s) =>
      match poisonedPart s served l with
      | some fva => failCopy s c 6 0 fva
      | none =>
        let (s, c) := if c.off = 0 then c.land s (c.row * h.pitch) (List.replicate h.pitch 0) else (s, c)
        let (bs, s) := engineRead (c.f ≠ 5) c.team c.id 2 s l
        let (bs, s) := freeWhere c.spoils va bs s
        let bs := if len ≤ c.off + n && last < 8 then setAt bs (n - 1) (mixByte last 0 ((bs[n - 1]?).getD 0)) else bs
        let (s, c) := c.land s o bs
        setCopy s (c.nextOff n len)
  else if c.f = 4 then
    let e := h.width / 8
    let whole := if c.off % 256 = 0 then min 256 (len - c.off) else e
    match translateRange s w .atomic va whole with
    | (.error (fva, x), s) => copyFault s c fva 3 5 x
    | (.ok (l, ds), s) =>
      match l with
      | [] => setCopy s (c.nextOff e len)
      | (_, pa, _) :: _ =>
        if inHost pa && h.fmt ≤ 3 then failCopy s c 3 (xinfo 9 .atomic 0) va
        else if poisoned s pa e then failCopy s c 6 0 va
        else
          let (v, s) := copySource s c (c.pad + o) e
          let s := raceCheck (flushOut (setAllDirty s ds) fun q => decide (q.pa < pa + e) && decide (pa < q.pa + q.bytes.length)) c.team pa va e 3
          let (bs, s) := freeWhere c.spoils va (leBytes e (scataNew h.fmt (s.rdNat pa e) (leNat v))) s
          let (bs, s) := globalStore s (some c.team) c.id false va pa bs
          setCopy (shadowWrite (s.sysPut (linkOf s (s.team c.team).vf) pa bs) c.team pa e 1) (c.nextOff e len)
  else
    match translateRange s w .store va n with
    | (.error (fva, x), s) => copyFault s c fva 1 5 x
    | (.ok (l, ds), s) =>
      let (bs, s) := copySource (setAllDirty s ds) c (c.pad + o) n
      let (bs, s) := if len ≤ c.off + n && last < 8 then
          let pa := (l.getLast?.map fun e => e.2.1 + e.2.2 - 1).getD 0
          let s := flushOut s fun q => decide (q.pa ≤ pa) && decide (pa < q.pa + q.bytes.length)
          (setAt bs (n - 1) (mixByte last (((s.rd pa 1)[0]?).getD 0) ((bs[n - 1]?).getD 0)), s)
        else (bs, s)
      let (bs, s) := freeWhere c.spoils va bs s
      setCopy (engineWrite c.team c.id 3 s l bs) (c.nextOff n len)

/-- One 32-byte sector of the index list is read (R114). -/
def copyIndex (s : State) (c : Copy) : State :=
  let ih := parseHandle c.link
  let va := ih.base + c.a1 + 4 * c.idx.length
  let n := min ((32 - va % 32) / 4) (c.a2 - c.idx.length)
  let take (s : State) (bs : List Byte) : State :=
    setCopy s { c with idx := c.idx ++ (List.range n).map fun i => leNat ((bs.drop (4 * i)).take 4) }
  if ih.space then
    let (bs, s) := copySource s c va (4 * n)
    take s bs
  else
    match translateRange s (c.who s) .load va (4 * n) with
    | (.error (fva, x), s) => copyFault s c fva 0 4 x
    | (.ok (l, _), s) =>
      match poisonedPart s (fun _ => false) l with
      | some fva => failCopy s c 6 0 fva
      | none =>
        let (bs, s) := engineRead false c.team c.id 7 s l
        take s bs

/-- Rows of a command that count at its barrier, and the units of each (R116). -/
def Copy.rows (c : Copy) : Nat := if c.f = 3 || c.f = 4 then c.a2 else (parseHandle c.h).brows
def Copy.rowUnits (c : Copy) : Nat := if cplMode c.cpl = 1 then 1 else ceilDiv (parseHandle c.h).pitch 64
def Copy.units (c : Copy) : Nat := c.rows * c.rowUnits
/-- Units arrive at the completion barrier in a team's pad (R117). -/
def Copy.arriveAt (c : Copy) (s : State) (k n : Nat) : State :=
  let a := cplAddr c.cpl
  if n = 0 then s else padStore s k c.id a (leBytes 8 (arrive ((s.team k).padNat a 8) n))
/-- Rows that have landed may arrive before the command completes (R7, R117): an open choice, but for the last row, so that no phase
of the whole command's units ends before it (DESIGN CHOICE, log 20). -/
def arriveEarly (s : State) (id row : Nat) : State :=
  match s.copies.find? fun c => c.id = id with
  | some c =>
    let n := min c.row (c.rows - 1) * c.rowUnits - c.arrived
    if (cplMode c.cpl = 1 || cplMode c.cpl = 2) && c.f < 5 && row < c.row && 0 < n then
      let (now, s) := freeBit s
      if now then setCopy (c.arriveAt s c.team n) { c with arrived := c.arrived + n } else s
    else s
  | none => s

/-- One step of a running command (DESIGN CHOICE, log 20). -/
def copyStep (s : State) (c : Copy) : State :=
  let h := parseHandle c.h
  let skip (s : State) : State :=
    let (s, c) := if c.fills || c.f = 5 then c.land s (c.row * h.pitch) (List.replicate h.pitch 0) else (s, c)
    setCopy s c.nextRow
  if c.indexed && c.idx.length < c.a2 then copyIndex s c
  else
    let (lo, hi) := c.span
    arriveEarly (match c.tensorRow c.row with
      | none => skip s
      | some r =>
        if hi ≤ lo then skip s
        else
          let b := lo / 8
          let len := ceilDiv hi 8 - b
          let n := if c.f = 4 then h.width / 8 else min 256 (len - c.off)
          let va := ((h.rowAddr r : Int) + c.col * h.width / 8 + b).toNat + c.off
          copyPiece1 s c va n (b + c.off) len (if hi % 8 = 0 then 8 else hi % 8)) c.id c.row

def findCopy (s : State) (id : Nat) : Option Copy := s.copies.find? fun c => c.id = id
/-- COPY_PIECE (R112): pieces of a resident team's running command (R128). -/
def execCopyPiece (id : Nat) (s : State) : Out :=
  match findCopy s id with
  | some c => if c.phase = .queued && (s.team c.team).phase = .resident then finish (copyStep s c) else .next s
  | none => .next s

/-- The completion of a command in a team's pad (R117): the units that have not arrived, or the flag. -/
def applyCompletion (s : State) (k : Nat) (c : Copy) : State :=
  match cplMode c.cpl with
  | 0 => s
  | 3 => padStore s k c.id (cplAddr c.cpl) (leBytes 4 c.flag.toNat)
  | _ => c.arriveAt s k (c.units - c.arrived)
/-- COPY_COMPLETE (R117). -/
def execCopyComplete (id : Nat) (s : State) : Out :=
  match findCopy s id with
  | some c =>
    if c.phase = .done then
      let s := if c.f = 5 || c.f = 6 then s else c.landIn (applyCompletion s c.team c) c.team
      let s := if c.f = 6 then s else s.modThread c.team c.tid fun t => { t with cp := t.cp - 1 }
      .next (dropCopy s id)
    else .next s
  | none => .next s

/-- The TMCAST may claim its buffer: every team of the bond resident with the bit set, and no earlier one of the bond
waits on the bit (R125). -/
def claimable (s : State) (c : Copy) : Bool :=
  let bond := bondOf s c.team
  c.phase = .staged && bond.all (fun k => (s.team k).phase = .resident && (s.team k).bufFree.getLsbD c.buf)
    && ((s.copies.find? fun d => d.phase = .staged && d.buf = c.buf && bond.contains d.team).map (·.id)) = some c.id
/-- TMCAST_BUFFER_CLAIM (R125; DEDUCED, log 21). -/
def execTmcastBufferClaim (id : Nat) (s : State) : Out :=
  match findCopy s id with
  | some c =>
    if claimable s c then
      let s := (bondOf s c.team).foldl (fun s k =>
        let s := s.modTeam k fun t => { t with bufFree := t.bufFree &&& ~~~ BitVec.twoPow 16 c.buf }
        let (bs, s) := freeWhere (fun i => c.clash.contains (some k, i)) c.pad c.stage s
        c.landIn (applyCompletion (padStore s k c.id c.pad bs) k c) k) s
      .next (setCopy s { c with phase := .done })
    else .next s
  | none => .next s

-- Waiting

/-- The first pending failure that a WAITC with these fields takes (R127, R215). -/
def qualifying (t : Thread) (cp tl : Bool) : Option (Nat × Failure) :=
  match (t.failures.zipIdx.find? fun e => if e.1.tile then tl else cp) with
  | some (f, i) => some (i, f)
  | none => none
/-- A laneset of the operation's mask has waited for it (R218). -/
def Unseen.waited (l : Nat) (e : Unseen) : Unseen :=
  if e.mask.testBit l then { e with seenBy := l :: e.seenBy.filter (· ≠ l) } else e
/-- WAITC (R120, R207). -/
def execWaitc (l st c t : BitVec 4) : State → Out :=
  lanes [] fun tid s =>
    let k := s.cur.team
    let th := s.here.thread tid
    let cp := c ≠ 15
    let tl := t ≠ 15
    match qualifying th cp tl with
    | some (i, f) =>
      let s := s.modThread k tid fun t => { t with failures := t.failures.eraseIdx i }
      takeTrap s k tid f.cause f.info f.tfa f.tia s.cur.pc.toNat
    | none =>
      let w : Wait := .counters l.toNat st.toNat c.toNat t.toNat
      if holds s k tid { th with wait := w } then
        let s := if cp || tl then refreshEvent s k else s
        let s := if cp then observeCopies s k tid else s
        let s := if tl then s.modTeam k (fun u => { u with unseen := u.unseen.map (Unseen.waited (tid / 32)) }) else s
        complete s tid
      else blockOn s tid w

/-- A barrier word as a thread's instruction finds it (R121). -/
def onBarrier (a : Reg) (tid : Nat) (s : State) (body : State → Nat → Nat → State) : State :=
  let addr := ((s.here.thread tid).reg a.toNat).toNat
  padAccess s tid addr 8 8 fun s =>
    let (bs, s) := padRead s s.cur.team addr 8
    body s addr (leNat bs)
/-- BINIT (R121). -/
def execBinit (a b : BitVec 7) : State → Out :=
  lanes [a.toNat, b.toNat] fun tid s =>
    let addr := ((s.here.thread tid).reg a.toNat).toNat
    padAccess s tid addr 8 8 fun s =>
    let n := max 1 (((s.here.thread tid).reg b.toNat).toNat % 2 ^ 31)
    complete (threadPadWrite s s.cur.team tid addr (leBytes 8 (n * 2 ^ 32 + n))) tid
/-- BARR (R121). -/
def execBarr (d a b : BitVec 7) : State → Out :=
  lanes [d.toNat, a.toNat, b.toNat] fun tid s => onBarrier a tid s fun s addr x =>
    let n := ((s.here.thread tid).reg b.toNat).toNat
    let s := if n = 0 then s else threadPadWrite s s.cur.team tid addr (leBytes 8 (arrive x n))
    completeWith s tid (·.setReg d.toNat (BitVec.ofNat 32 (bits x 63 63)))
/-- BWAIT (R121). -/
def execBwait (a b : BitVec 7) : State → Out :=
  lanes [a.toNat, b.toNat] fun tid s => onBarrier a tid s fun s addr x =>
    let par := ((s.here.thread tid).reg b.toNat).getLsbD 0
    if bit x 63 != par then complete (refreshEvent (observe s s.cur.team addr 8) s.cur.team) tid else blockOn s tid (.barrier addr par)
/-- BTEST (R121). -/
def execBtest (d a b : BitVec 7) : State → Out :=
  lanes [d.toNat, a.toNat, b.toNat] fun tid s => onBarrier a tid s fun s addr x =>
    let par := ((s.here.thread tid).reg b.toNat).getLsbD 0
    let ended := bit x 63 != par
    completeWith (if ended then observe s s.cur.team addr 8 else s) tid (·.setReg d.toNat (BitVec.ofNat 32 (b2n ended)))
/-- WAITA (R122): a value once seen needs no further fetch (DESIGN CHOICE, log 49). -/
def execWaita (a b : BitVec 7) : State → Out :=
  lanes [a.toNat, b.toNat] fun tid s =>
    let th := s.here.thread tid
    let addr := (th.reg a.toNat).toNat
    let v := (th.reg b.toNat).toNat
    padAccess s tid addr 4 4 fun s =>
      let met (s : State) : State := complete (refreshEvent (observe s s.cur.team addr 4) s.cur.team) tid
      if th.wait = .flag addr v true then met s
      else
        let (bs, s) := padRead s s.cur.team addr 4
        if leNat bs = v then met s else stay s tid (.flag addr v false) (some (.waita a b))
/-- PFREE (R124). -/
def execPfree (a : BitVec 7) : State → Out :=
  lanes [a.toNat] fun tid s =>
    let th := s.here.thread tid
    if th.ld ≠ 0 then blockOn s tid (.counters 0 15 15 15)
    else complete (s.modTeam s.cur.team fun t => { t with bufFree := t.bufFree ||| (th.reg a.toNat).truncate 16 }) tid

-- Rings

/-- The scope of a ring by the address of its header: 1 device, 2 system (R130). -/
def ringScope (pa : Nat) : Nat := if inPeer pa || inHost pa then 2 else 1
/-- A ring instruction reaches its header: alignment, then translation; the body gets the header's addresses and the leaf whose dirty
bit to set once nothing can turn the instruction away (R81). -/
def onRing (a : Reg) (k : Acc) (isStore : Bool) (i : Instr) (tid : Nat) (s : State) (body : State → Nat → Nat → Option Nat → State) : State :=
  let th := s.here.thread tid
  let hdr := (th.pair a.toNat).toNat
  if isStore && 63 ≤ th.st || !isStore && 63 ≤ th.ld then blockOn s tid .limit
  else if hdr % 64 ≠ 0 then trapHere s tid 2 0 hdr
  else accessWith s tid hdr 64 k isStore i 0 fun s pa _ d =>
    if poisoned s pa 64 then trapHere s tid 6 0 hdr else body (touch s pa 64) hdr pa d
/-- No ring header (R273). -/
def noRing (s : State) (tid : Nat) : State := trapHere s tid 0xE 0xF 0
/-- A write at a ring's scope by the team of the issue group (R130, R321), as any of its stores noted at the unfinished operations (R217).
Blocks that it fills are no longer the host's (R282). -/
def ringPut (s : State) (va pa : Nat) (bs : List Byte) : State :=
  let (bs, s) := globalStore s (some s.cur.team) 0 false va pa bs
  { s.sysPut (linkOf s s.here.vf) pa bs with hostBlocks := s.hostBlocks.filter fun q => !(decide (pa ≤ 64 * q) && decide (64 * q + 64 ≤ pa + bs.length)) }

/-- RAWAIT (R130; DEDUCED, log 28). -/
def execRawait (d a : BitVec 7) : State → Out :=
  lanes (two d ++ two a) fun tid s => onRing a .load false (.rawait d a) tid s fun s hdr pa _ =>
    let r := ringAt s pa
    if !r.okHdr then noRing s tid
    else
      let s1 := publishFor s s.cur.team (ringScope pa) (hdr + 12) 4
      let s1 := flushOut s1 fun o => decide (o.pa < pa + 64) && decide (pa < o.pa + o.bytes.length)
      let r := ringAt s1 pa
      if r.empty then blockOn s tid (.ring hdr)
      else completeWith (refreshEvent s1 s.cur.team) tid (·.setPair d.toNat (BitVec.ofNat 64 (r.entry r.rp)))
/-- RREL (R130). -/
def execRrel (a : BitVec 7) : State → Out :=
  lanes (two a) fun tid s => onRing a .store true (.rrel a) tid s fun s hdr pa dirty =>
    let s1 := publishEvent s s.cur.team (ringScope pa)
    let r := ringAt s1 pa
    if !r.okHdr then noRing s tid
    else
      let s1 := setDirty s1 dirty
      complete (if r.empty then s1 else ringPut s1 (hdr + 8) (pa + 8) (leBytes 4 (r.rp + 1))) tid

/-- Pushes an entry onto a ring at virtual addresses after the publish (R130): the entry's pages translate as a
store; `bytes` gives the entry, which `take` cuts to its size. -/
def pushEntry (s : State) (tid hdr pa : Nat) (dirty : Option Nat) (i : Instr) (bytes : State → RingHdr → List Byte × State)
    (check : RingHdr → Option (Nat × Nat)) (d : Reg) (pushed : State → RingHdr → State) : State :=
  let k := s.cur.team
  let s1 := publishEvent s k (ringScope pa)
  let r := ringAt s1 pa
  if !r.okHdr then noRing s tid
  else match check r with
    | some (cause, tfa) => trapHere s tid cause 0 tfa
    | none =>
      if r.full then completeWith (setDirty s1 dirty) tid (·.setReg d.toNat 0)
      else
        let (bs, s1) := bytes s1 r
        match translateRange s1 (whoThread s1 tid) .store (r.entry r.wp) bs.length with
        | (.error (va, x), t) => notReached (carry s t) tid va .store true i 0 x
        | (.ok (l, ds), s1) =>
          let s1 := setAllDirty (setDirty s1 dirty) ds
          let s1 := (l.foldl (fun (acc : State × List Byte) e => (ringPut acc.1 e.1 e.2.1 (acc.2.take e.2.2), acc.2.drop e.2.2)) (s1, bs)).1
          let s1 := ringPut s1 (hdr + 12) (pa + 12) (leBytes 4 (r.wp + 1))
          completeWith (pushed s1 r) tid (·.setReg d.toNat 1)

/-- RPUSH (R130). -/
def execRpush (d a b : BitVec 7) : State → Out :=
  lanes (d.toNat :: b.toNat :: two a) fun tid s =>
    let vb := ((s.here.thread tid).reg b.toNat).toNat
    let hdr := ((s.here.thread tid).pair a.toNat).toNat
    if hdr % 64 = 0 && vb % 16 ≠ 0 then trapHere s tid 2 0 vb
    else onRing a .store true (.rpush d a b) tid s fun s hdr pa dirty =>
      pushEntry s tid hdr pa dirty (.rpush d a b) (fun s r => padRead s s.cur.team vb (8 * r.esc))
        (fun r => if s.here.padSize < vb + 8 * r.esc then some (0xD, vb) else none) d (fun s _ => s)

/-- The ring's number in the ring table of a function (R324). -/
def ringIndex (s : State) (fn hdr : Nat) : Option Nat := (s.vf fn).ringCopy.findIdx? fun e => bit e.toNat 64 && decide (bits e.toNat 63 0 = hdr)
/-- A child's packet joins the team's FORK (R282). -/
def addChild (c : Nat × Nat × Nat) : List Reason → List Reason
  | [] => [.fork [c]]
  | .fork l :: rs => .fork (l ++ [c]) :: rs
  | r :: rs => r :: addChild c rs
/-- QLAUNCH and FORK for one thread (R281). -/
def launchLane (isFork : Bool) (d a b : BitVec 7) (i : Instr) (tid : Nat) (s : State) : State :=
  let vb := ((s.here.thread tid).reg b.toNat).toNat
  let hdr := ((s.here.thread tid).pair a.toNat).toNat
  if hdr % 64 = 0 && vb % 16 ≠ 0 then trapHere s tid 2 0 vb
  else if hdr % 64 = 0 && s.here.padSize < vb + 64 then trapHere s tid 0xD 0 vb
  else onRing a .store true i tid s fun s hdr pa dirty =>
    match ringIndex s s.here.vf pa with
    | none => completeWith (publishEvent s s.cur.team (ringScope pa)) tid (·.setReg d.toNat 2)
    | some n =>
      let packet (s : State) : List Byte × State :=
        let (bs, s) := padRead s s.cur.team vb 64
        let p := putBits (putBits (leNat bs) 10 10 1) 63 32 s.here.gridId.toNat
        (leBytes 64 (if isFork then putBits (putBits p 11 11 1) 383 352 s.here.index else p), s)
      pushEntry s tid hdr pa dirty i (fun s _ => packet s) (fun _ => none) d fun s r =>
        if isFork then s.modTeam s.cur.team fun t => { t with reasons := addChild (t.vf, n, r.wp) t.reasons } else s
/-- QLAUNCH (R281). -/
def execQlaunch (d a b : BitVec 7) : State → Out := lanes (d.toNat :: b.toNat :: two a) (launchLane false d a b (.qlaunch d a b))
/-- FORK (R281, R282). -/
def execFork (d a b : BitVec 7) (s : State) : Out :=
  let s := eachLane (d.toNat :: b.toNat :: two a) (launchLane true d a b (.fork d a b)) s
  finish (if s.here.reasons.any (·.isFork) then startSwap s s.cur.team [] else s)

-- Chain channels

/-- CHAIN (R132). -/
def execChain (d a b : BitVec 7) : State → Out :=
  lanes (d.toNat :: b.toNat :: two a) fun tid s =>
    let th := s.here.thread tid
    let s := publishEvent s s.cur.team 1
    let t := s.here
    let cfg := (s.vf t.vf).cfg.toNat
    let vb := (th.reg b.toNat).toNat
    let ch := (bits cfg 33 28 + vb) % 64
    if bits cfg 40 34 ≤ vb then completeWith s tid (·.setReg d.toNat 2)
    else if (s.chan ch).phase ≠ .stopped then completeWith s tid (·.setReg d.toNat 1)
    else
      let c : Chan := { phase := .readRecord, rec_ := (th.pair a.toNat).toNat, bytes := [], vf := t.vf, vmid := t.vmid, asid := t.asid, super := t.super }
      completeWith ((forgetWalks s fun o => o = .chan ch).setChan ch c) tid (·.setReg d.toNat 0)

def Chan.who (c : Chan) (ch : Nat) : Who :=
  { vmid := c.vmid, asid := c.asid, vf := c.vf, super := c.super, team := 0, grid := none, owner := some (.chan ch) }
/-- The channel waits for a fault (R133). -/
def chanParked (s : State) (ch : Nat) : Bool := s.parks.any fun p => p.owner = .chan ch
/-- The channel parks on a fault. -/
def chanPark (s : State) (ch va kind : Nat) (x : Xlat) : State :=
  let (f, s) := openFault s ((s.chan ch).who ch) va kind x
  addPark s (.chan ch) 0 va kind 0 none f
/-- Status of a failed translation in a record (R131): 3 PROT, 6 ECC. -/
def chanStatus : Xlat → Option (Nat × Nat)
  | .prot info => some (3, info % 256)
  | .ecc => some (6, 0)
  | _ => none
/-- The fields of a chain record (R131). -/
structure ChainRec where
  next : Nat
  src : Nat
  dst : Nat
  len : Nat
  cpladdr : Nat
  cplval : Nat
  progress : Nat
  tcode : Nat
  own : Bool
def parseChain (bs : List Byte) : ChainRec :=
  let x := leNat bs
  { next := bits x 511 448, src := bits x 447 384, dst := bits x 383 320, len := bits x 319 256, cpladdr := bits x 255 192
    cplval := bits x 191 160, progress := bits x 127 96, tcode := bits x 23 16, own := bit x 0 }
/-- Well formed (R131). -/
def ChainRec.ok (r : ChainRec) : Bool :=
  r.src % 256 = 0 && r.dst % 256 = 0 && r.len % 256 = 0 && decide (0 < r.len) && r.src % 65536 = r.dst % 65536
    && decide (r.src + r.len ≤ 2 ^ 52) && decide (r.dst + r.len ≤ 2 ^ 52)
/-- Chunks of a record, and the bytes of chunk `k` as an offset and a length. -/
def ChainRec.chunks (r : ChainRec) : Nat := ceilDiv (r.src % 65536 + r.len) 65536
def ChainRec.chunk (r : ChainRec) (k : Nat) : Nat × Nat :=
  let o := if k = 0 then 0 else k * 65536 - r.src % 65536
  (o, min (r.len - o) ((k + 1) * 65536 - r.src % 65536 - o))
/-- A write by a channel at device scope (R133), noted at the unfinished operations (R217, R231). -/
def chanWrite (s : State) (c : Chan) (pa : Nat) (bs : List Byte) : State :=
  let (bs, s) := globalStore s none 0 false 0 pa bs
  devWrite s 0 pa (linkOf s c.vf) bs

/-- A channel's translated access: with the address and the leaf to mark dirty; else it waits for the walk, or `failed` says what
follows (R82, R133). -/
def chanAccess (s : State) (ch : Nat) (k : Acc) (va n : Nat) (body : State → Nat → Option Nat → State) (failed : State → Xlat → State) : State :=
  match translate s ((s.chan ch).who ch) k va n with
  | (.ok pa _ d, s) => body s pa d
  | (.walking _, s) => s
  | (x, s) => failed s x
/-- An access whose failure only ends something: PROT and ECC give the channel a next phase, a fault parks it (R133). -/
def chanElse (ch va kind : Nat) (ph : ChanPhase) (s : State) (x : Xlat) : State :=
  if (chanStatus x).isSome then s.setChan ch { s.chan ch with phase := ph } else chanPark s ch va kind x
def Chan.goto (c : Chan) (s : State) (ch : Nat) (ph : ChanPhase) : State := s.setChan ch { c with phase := ph }

/-- A channel reads its record (R133; DEDUCED, log 29). -/
def chainRead (ch : Nat) (s : State) : State :=
  let c := s.chan ch
  chanAccess s ch .load c.rec_ 64 (fun s pa _ =>
    let s := touch (flushOut s fun o => decide (o.pa < pa + 64) && decide (pa < o.pa + o.bytes.length)) pa 64
    let bs := s.rd pa 64
    let r := parseChain bs
    let ph : ChanPhase := if poisoned s pa 64 then .ending 0 6 0
      else if !r.own then .stopped
      else if c.rec_ % 64 ≠ 0 || !r.ok then .ending r.progress 2 r.tcode
      else if r.progress < r.chunks then .chunk r.progress else .ending r.chunks 1 0
    s.setChan ch { c with bytes := bs, phase := ph }) (chanElse ch c.rec_ 4 .stopped)
/-- CHAIN_RECORD_READ (R133). -/
def execChainRecordRead (ch : Nat) (s : State) : Out :=
  if (s.chan ch).phase ≠ .readRecord || chanParked s ch then .next s else finish (chainRead ch s)

/-- A chunk's translation fails (R133): progress is written; the channel waits, or the record ends. -/
def chunkFault (ch k va kind : Nat) (s : State) (x : Xlat) : State :=
  let c := s.chan ch
  match chanStatus x with
  | some (st, code) => c.goto s ch (.ending k st code)
  | none =>
    let s := match translate s (c.who ch) .store c.rec_ 16 with
      | (.ok pa _ d, s) => (true, if refuses s pa 16 then s else chanWrite (setDirty s d) c (pa + 12) (leBytes 4 k))
      | (.walking _, s) => (false, s)
      | (_, s) => (true, s)
    if s.1 then chanPark s.2 ch va kind x else s.2
/-- A channel at a chunk (R133): its two translations, or one piece of 256 bytes; a write to a frame that has been sealed is dropped, and
ends the record as one through such a leaf does (R99). -/
def chainMove (ch : Nat) (s : State) : State :=
  let c := s.chan ch
  let r := parseChain c.bytes
  match c.phase with
    | .chunk k =>
      let (o, n) := r.chunk k
      chanAccess s ch .store (r.dst + o) n (fun s dp d =>
        chanAccess s ch .load (r.src + o) n (fun s sp _ =>
          if poisoned s sp (min 256 n) then c.goto s ch (.ending k 6 0) else c.goto (setDirty s d) ch (.moving k 0 sp dp))
          (chunkFault ch k (r.src + o) 4)) (chunkFault ch k (r.dst + o) 5)
    | .moving k off sp dp =>
      let (_, n) := r.chunk k
      let m := min 256 (n - off)
      if poisoned s (sp + off) m || lost s dp then c.goto s ch (.ending k 6 0)
      else if refuses s dp n then c.goto s ch (.ending k 3 7)
      else
        let s := touch (flushOut s fun q => decide (q.pa < sp + off + m) && decide (sp + off < q.pa + q.bytes.length)) (sp + off) m
        let s := chanWrite s c (dp + off) (s.rd (sp + off) m)
        c.goto s ch (if off + m < n then .moving k (off + m) sp dp
          else if k + 1 < r.chunks then .chunk (k + 1) else .ending r.chunks 1 0)
    | _ => s
/-- CHAIN_CHUNK (R133). -/
def execChainChunk (ch : Nat) (s : State) : Out := if chanParked s ch then .next s else finish (chainMove ch s)

/-- A channel at a record's end (R133): the status write, the completion, or the reread of next. A completion address that is no multiple
of 4 is written from the place of its first byte on (DEDUCED, log 29). -/
def chainEnd (ch : Nat) (s : State) : State :=
  let c := s.chan ch
  let r := parseChain c.bytes
  match c.phase with
    | .ending k st code =>
      chanAccess s ch .store c.rec_ 16 (fun s pa d =>
        let s := flushOut (setDirty s d) fun o => o.team = 0
        c.goto (chanWrite s c pa (leBytes 16 (k * 2 ^ 96 + code * 2 ^ 16 + st * 2 ^ 8))) ch (if st = 2 then .stopped else .completing st))
        (chanElse ch c.rec_ 5 .stopped)
    | .completing st =>
      let after : ChanPhase := if st = 1 then .follow else .stopped
      if r.cpladdr = 0 then c.goto s ch after
      else chanAccess s ch .store r.cpladdr 4 (fun s pa d =>
        let s := flushOut (setDirty s d) fun o => o.team = 0
        let (bs, s) := globalStore s none 0 false 0 pa (leBytes 4 r.cplval)
        c.goto (s.sysPut (linkOf s c.vf) pa bs) ch after) (chanElse ch r.cpladdr 5 after)
    | .follow =>
      chanAccess s ch .load (c.rec_ + 56) 8 (fun s pa _ =>
        let s := touch (flushOut s fun q => decide (q.pa < pa + 8) && decide (pa < q.pa + q.bytes.length)) pa 8
        let n := s.rdNat pa 8
        s.setChan ch (if n = 0 || poisoned s pa 8 then { c with phase := .stopped } else { c with phase := .readRecord, rec_ := n }))
        (chanElse ch (c.rec_ + 56) 4 .stopped)
    | _ => s
/-- CHAIN_RECORD_COMPLETE (R133). -/
def execChainRecordComplete (ch : Nat) (s : State) : Out := if chanParked s ch then .next s else finish (chainEnd ch s)

end Sys2Proof.Machine
end

