-- ==== Sys2Proof/Machine/Drain.lean ====
section
/-! DEFINITION. Drain programs (spec/10): slot checks, the Ubgel words, rows and their commit, quantisation (spec/03 R60 to
R62), and the operand bytes of tile operations (spec/09 R214). -/

namespace Sys2Proof.Machine

-- Operand bytes

/-- The bytes that an operation's reads find undefined (R217, R218). -/
def Mop.unsure (m : Mop) (pad : Bool) (a : Nat) : Bool :=
  m.clash.contains (pad, a) || m.taint.any fun e => (parseHandle e).space = pad && (parseHandle e).stores a
/-- The physical address of a virtual one by the operation's pages (R214). -/
def Mop.phys (m : Mop) (va : Nat) : Nat :=
  match m.pages.find? fun p => p.1 = va / 65536 with
  | some p => p.2 + va % 65536
  | none => va
/-- Bytes as the operation's fetch reads them: the pad, or memory at device scope (R206, R214); undefined where an unfinished drain of
another operation writes (R231). -/
def mopBytes (s : State) (m : Mop) (pad : Bool) (a n : Nat) : List Byte × State :=
  if pad then freeWhere (fun i => m.unsure true i || drainStores s m.id (padSpot m.team i)) a (Store.getN 0 m.pad a n) s
  else
    let parts := ((pageParts (n / 65536 + 2) a n).map fun e => (e.1, m.phys e.1, e.2)).flatMap (kibParts 66)
    let (bs, s) := parts.foldl (fun (acc : List Byte × State) e =>
      let (b, s) := engineRead1 true m.team m.id acc.2 e.1 e.2.1 e.2.2
      (acc.1 ++ b, s)) ([], s)
    freeWhere (m.unsure false) a bs s
/-- The first part of an operand range that an uncorrectable error poisons, but for bytes that a resident range serves (R101). -/
def mopPoison (s : State) (m : Mop) (pad : Bool) (a n : Nat) : Option Nat :=
  if pad then none
  else ((kibRange a n).find? fun e => !isServed s m.team e.1 && poisoned s (m.phys e.1) e.2).map (·.1)

/-- The block scale of a blocked element: none where its code is 0 (R48). Of a superblock scale in memory that is no finite number it is
that scale (DESIGN CHOICE, log 47). -/
def blockScale (c sx : Nat) : Option Val :=
  if c = 0 then none
  else match f32.decode sx with
    | .num neg m e =>
      let x := m * c * 2 ^ 64
      let bits := f32.roundNum .rne false neg (x / 255) (e - 64) (x % 255 ≠ 0)
      some (f32.decode bits)
    | v => some v
/-- The value of an element (R48); of an infinite element under a block scale that is zero, a NaN (DESIGN CHOICE, log 47). -/
def elemValue (fmt code : Nat) (scale : Option (Option Val)) : Val :=
  match scale with
  | none => (fmtOf fmt).decode code
  | some none => .num false 0 0
  | some (some b) => valMul ((fmtOf fmt).decode code) b

/-- The scales of the blocks of a tensor row that a box meets, by block column (R49). -/
def rowScales (s : State) (m : Mop) (h : Handle) (r : Nat) : List (Nat × Option Val) × State :=
  let b0 := (max 0 h.col).toNat / 64
  let b1 := ceilDiv (min (h.cols : Int) (h.col + h.bcols)).toNat 64
  (List.range (b1 - b0)).foldl (fun (acc : List (Nat × Option Val) × State) i =>
    let j := r * h.bpr + b0 + i
    let (cb, s) := mopBytes acc.2 m h.space (h.cb + j) 1
    let (sb, s) := mopBytes s m h.space (h.sb + 4 * (j / 256)) 4
    (acc.1 ++ [(b0 + i, blockScale (leNat cb) (leNat sb))], s)) ([], s)

/-- A box row decoded, `bcols` elements; outside the tensor the bits are zero (R200). -/
def boxRow (s : State) (m : Mop) (h : Handle) (i : Nat) : List Val × State :=
  match h.rowRange i with
  | none => (List.replicate h.bcols ((fmtOf h.fmt).decode 0), s)
  | some (a, n, c0) =>
    let (bs, s) := mopBytes s m h.space a n
    let (sc, s) := if blocked h.fmt then rowScales s m h (h.row + i).toNat else ([], s)
    let x := leNat bs
    let w := h.width
    let base := c0 * w / 8 * 8
    ((List.range h.bcols).map fun (j : Nat) =>
      let c : Int := h.col + j
      if 0 ≤ c && c < h.cols then
        let code := x / 2 ^ (c.toNat * w - base) % 2 ^ w
        elemValue h.fmt code (if blocked h.fmt then some (((sc.find? fun e => e.1 = c.toNat / 64).map (·.2)).getD none) else none)
      else (fmtOf h.fmt).decode 0, s)
/-- A whole box, row by row. -/
def boxRows (s : State) (m : Mop) (h : Handle) : List (List Val) × State :=
  (List.range h.brows).foldl (fun (acc : List (List Val) × State) i =>
    let (r, s) := boxRow acc.2 m h i
    (acc.1 ++ [r], s)) ([], s)
/-- The columns of rows. -/
def columns {α : Type} (n : Nat) (rows : List (List α)) : List (List α) := (List.range n).map fun j => rows.filterMap fun r => r[j]?

/-- Ranges of the superblock scales of a QNT handle's box (R228). -/
def Handle.scaleRanges (h : Handle) : List Nat :=
  if h.bpr = 0 then []
  else ((List.range h.brows).filterMap fun (i : Nat) =>
    let r : Int := h.row + i
    if 0 ≤ r && r < h.rows && 0 ≤ h.col && h.col < h.cols then some (h.sb + 4 * (h.block r.toNat h.col.toNat / 256)) else none).eraseDups
-- Ubgel words

def uDst (w : Nat) : Nat := bits w 7 5
def uS1 (w : Nat) : Nat := bits w 10 8
def uS2 (w : Nat) : Nat := bits w 13 11
def uKind (w : Nat) : Nat := bits w 15 14
def uOut (op : Nat) : Bool := 17 ≤ op && op ≤ 21

/-- A vector's place in the pad (R221). -/
def vecAddr (slot : List (BitVec 32)) (kind n : Nat) : Nat :=
  let h := ((slot[0]?).getD 0).toNat
  16 * (if kind = 2 then bits h 15 0 else bits h 31 16) + 256 * n

/-- A field that R222 to R224 require to be zero is not. -/
def uFieldBad (w : Nat) : Bool :=
  let op := uOp w
  if op = 0 then w / 32 ≠ 0
  else if uOut op then uDst w ≠ 0 || uS2 w ≠ 0 || uKind w ≠ 0 || uImm w / (if op = 21 then 32 else 64) ≠ 0
  else if op = 16 then uS2 w ≠ 0 || uKind w ≠ 0 || uImm w / 32 ≠ 0
  else if (8 ≤ op && op ≤ 13) || op = 22 || op = 23 then uS2 w ≠ 0 || uKind w ≠ 0 || uImm w ≠ 0
  else (op = 1 && uS1 w ≠ 0) || (uKind w = 0 && uImm w ≠ 0) || (uKind w ≠ 0 && uS2 w ≠ 0) || (2 ≤ uKind w && uImm w / 256 ≠ 0)

/-- What an output word asks of its handle (R224). -/
def outRole (op : Nat) : Role :=
  if op = 18 then { fmtOk := blocked, origin := true, shape := fun h => h.bcols = 64 && h.col % 64 = 0 }
  else { fmtOk := fun f => f ≤ 16 || 28 ≤ f, origin := true }

/-- The check of one word: its own fields, then its handle; `nq` and `nr` count the QNT and row-value words up to it
(R225). The answer is a cause and `$tinfo` (DEDUCED, log 24). -/
def wordCheck (t : Team) (slot : List (BitVec 32)) (n w nq nr : Nat) : Option (Nat × Nat) :=
  let op := uOp w
  let drain (c : Nat) : Option (Nat × Nat) := some (0xB, c + n * 2 ^ 8)
  if 24 ≤ op then drain 1
  else if uFieldBad w then drain 3
  else if op = 21 && t.desc.acctiles ≤ uImm w then drain 4
  else if 2 < nq || 4 < nr then drain 5
  else if 2 ≤ uKind w && t.padSize < vecAddr slot (uKind w) (uImm w) + 256 then drain 6
  else if op = 16 && !(2 ≤ uImm w && uImm w ≤ 16) then drain 7
  else if uStores op then ((parseHandle (t.handle (uImm w))).check t.padSize (outRole op)).map fun c => (0xE, c + uImm w * 2 ^ 8)
  else none
/-- The checks of a slot in ascending order of its words up to END (R225; DEDUCED, log 24). -/
def slotGo (t : Team) (slot : List (BitVec 32)) : List (Nat × Nat) → Nat → Nat → Option (Nat × Nat)
  | [], _, _ => some (0xB, 2)
  | (n, w) :: rest, nq, nr =>
    let nq := nq + b2n (uOp w = 18)
    let nr := nr + b2n (uOp w = 19 || uOp w = 20)
    match wordCheck t slot n w nq nr with
    | some e => some e
    | none => if uOp w = 0 then none else slotGo t slot rest nq nr
def slotCheck (t : Team) (slot : List (BitVec 32)) : Option (Nat × Nat) :=
  slotGo t slot ((slot.drop 1).zipIdx.map fun e => (e.2 + 1, e.1.toNat)) 0 0

-- The element program

/-- A NaN as the drain writes it (R223). -/
def quiet (x : Nat) : Nat := if (f32.decode x).isNan then f32.canonical else x
/-- RNDF: FCVT into a format and back (R223). -/
def rndf (mode : Word) (fmt x : Nat) : Nat :=
  quiet (fcvtValue .rne false false 1 fmt (fcvtValue (modeRnd mode) (modeSat mode) false fmt 1 x))
/-- CLMP (R223). -/
def clmp (x y : Nat) : Nat :=
  if (f32.decode x).isNan || (f32.decode y).isNan then f32.canonical
  else
    let m := y % 2 ^ 31
    f32.minmax false false false (f32.minmax false true false x (m + 2 ^ 31)) m
/-- The result of an arithmetic operation (R223): s1, S2, the old dst. -/
def uArith (op imm : Nat) (mode : Word) (x y d : Nat) : Nat :=
  let r (v : Val) : Nat := f32.round .rne false false v
  let a := f32.decode x
  let b := f32.decode y
  match op with
  | 1 => quiet y
  | 2 => r (valAdd .rne a b)
  | 3 => r (valSub .rne a b)
  | 4 => r (valMul a b)
  | 5 => r (valFma .rne a b (f32.decode d))
  | 6 => f32.minmax false true false x y
  | 7 => f32.minmax false false false x y
  | 8 => if a.isNan then f32.canonical else x % 2 ^ 31
  | 9 => if a.isNan then f32.canonical else x ^^^ 2 ^ 31
  | 10 => fnOf fnEx2 false x
  | 11 => fnOf fnRcp false x
  | 12 => fnOf fnSig false x
  | 13 => fnOf fnTanh false x
  | 14 => clmp x y
  | 15 => if valLt (.num false 0 0) a then quiet y else d
  | 16 => rndf mode (imm % 32) x
  | 22 => fnOf fnLg2 false x
  | _ => fnOf fnRsq false x

/-- Runs the program on one element: the values its output words see, in slot order. -/
def runElem (m : Mop) (i j : Nat) : List (Nat × Nat) → List Nat → List (Nat × Nat × Nat)
  | [], _ => []
  | (n, w) :: rest, regs =>
    let x := (regs[uS1 w]?).getD 0
    if uOut (uOp w) then (n, w, x) :: runElem m i j rest regs
    else
      let vec (e : Nat) : Nat := ((((m.vecs.find? fun v => v.1 = 256 * uKind w + uImm w % 256).map (·.2)).getD [])[e]?.map (·.toNat)).getD 0
      let y := match uKind w with
        | 0 => (regs[uS2 w]?).getD 0
        | 1 => uImm w * 2 ^ 16
        | 2 => vec j
        | _ => vec i
      runElem m i j rest (setAt regs (uDst w) (uArith (uOp w) (uImm w) m.mode x y ((regs[uDst w]?).getD 0)))

-- Quantisation

/-- The largest magnitude of a blocked format: m·2^e (R60). -/
def qmaxOf (fmt : Nat) : Nat × Int :=
  match fmt with
  | 17 => (1, 0) | 18 => (1, 0) | 19 => (448, 0) | 20 => (57344, 0) | 21 => (28, 0) | 22 => (15, -1) | 23 => (6, 0)
  | 24 => (127, 0) | 25 => (7, 0) | 26 => (15, 0) | _ => (1, 0)
/-- The magnitudes of a format in ascending code, in units of 2^-32, up to qmax. -/
def magnitudes (fmt : Nat) : List Nat :=
  let unit (m : Nat) (e : Int) : Nat := m * 2 ^ (e + 32).toNat
  match fmtOf fmt with
  | .flt f => (List.range (f.maxBits + 1)).map fun c => match f.decode c with | .num _ m e => unit m e | _ => 0
  | .int _ _ => (List.range ((qmaxOf fmt).1 + 1)).map fun c => unit c 0
  | .book lq => (List.range 8).map fun c => unit (bookMag lq c) (-8)
  | .b1 => [0]
/-- The magnitude code nearest x/b, ties to the even code: x and b over one unit. -/
def nearestGo (x b : Nat) : Nat → List Nat → Nat × Nat → Nat
  | _, [], best => best.1
  | c, v :: vs, best =>
    let d := (v * b - x * 2 ^ 32) + (x * 2 ^ 32 - v * b)
    nearestGo x b (c + 1) vs (if d < best.2 || (d = best.2 && c % 2 = 0 && best.1 % 2 = 1) then (c, d) else best)
def nearest (fmt x b : Nat) : Nat := nearestGo x b 0 (magnitudes fmt) (0, x * 2 ^ 32 + b * 2 ^ 64)
/-- The code of a magnitude with a sign; a zero magnitude has none (R60). -/
def signCode (fmt mag : Nat) (neg : Bool) : Nat :=
  if mag = 0 then 0
  else match fmtOf fmt with
  | .flt f => mag + f.sign neg
  | .int true w => if neg then (2 ^ w - mag) % 2 ^ w else mag
  | .int false _ => if neg then 0 else mag
  | .book _ => if neg then 8 + mag else mag
  | .b1 => 0
/-- One element under a block scale: its code, and whether it counts as an underflow (R60). -/
def quantElem (fmt : Nat) (b : Val) (x : Nat) : Nat × Bool :=
  match f32.decode x, b with
  | .nan _, _ => ((match fmtOf fmt with | .flt f => if f.sp = .plain then 0 else f.canonical | _ => 0), false)
  | .inf neg, _ =>
    let c := signCode fmt ((magnitudes fmt).length - 1) neg
    (c, fmt = 26 && neg)
  | .num neg mx ex, .num _ mb eb =>
    let e := min ex eb
    let mag := if fmt = 26 && neg then 0 else nearest fmt (mx * 2 ^ (ex - e).toNat) (mb * 2 ^ (eb - e).toNat)
    (signCode fmt mag neg, decide (0 < mx) && (magnitudes fmt)[mag]? = some 0)
  | .num .., _ => (0, false)
/-- quant(c) of R60: codes and underflows. -/
def quant (fmt sx c : Nat) (xs : List Nat) : List Nat × Nat :=
  match blockScale c sx with
  | some b =>
    if b.isZero then (xs.map fun _ => 0, (xs.filter fun x => !(f32.decode x).isNan && !(f32.decode x).isZero).length)
    else
      let l := xs.map (quantElem fmt b)
      (l.map (·.1), (l.filter (·.2)).length)
  | none => (xs.map fun _ => 0, (xs.filter fun x => !(f32.decode x).isNan && !(f32.decode x).isZero).length)
/-- The largest |x|, NaN ignored (R60). -/
def absMax (xs : List Nat) : Nat :=
  xs.foldl (fun m x => let a := x % 2 ^ 31; if (f32.decode x).isNan then m else if m < a then a else m) 0
/-- A quantised block (R60): scale code, element codes, retried, underflows, m; m also where the scale is no positive finite number
(DEDUCED, log 47). -/
def quantise (fmt sx uthr : Nat) (xs : List Nat) : Nat × List Nat × Nat × Nat × Nat :=
  let m := absMax xs
  let count := (xs.filter fun x => !(f32.decode x).isNan && !(f32.decode x).isZero).length
  match f32.decode sx with
  | .num false ms es =>
    if ms = 0 then (0, xs.map fun _ => 0, 0, count, m)
    else
      let (mq, eq) := qmaxOf fmt
      let c := match f32.decode m with
        | .num _ mm em =>
          let e := min em (es + eq)
          min 255 (ceilDiv (255 * mm * 2 ^ (em - e).toNat) (ms * mq * 2 ^ (es + eq - e).toNat))
        | _ => 255
      let (codes, under) := quant fmt sx c xs
      let (c, codes, under, re) := if uthr < under && 1 < c then
          let c' := max 1 (c - c / 8)
          let (codes, under) := quant fmt sx c' xs
          (c', codes, under, 1)
        else (c, codes, under, 0)
      (c, if c = 0 then xs.map fun _ => 0 else codes, re, under, m)
  | _ => (0, xs.map fun _ => 0, 0, count, m)
/-- A block's contribution to a statistics record (R61). -/
def addStats (old retried under m : Nat) : Nat :=
  let sat (hi lo d : Nat) : Nat := min (2 ^ 32 - 1) (bits old hi lo + d)
  let am := bits old 127 96
  sat 31 0 1 + sat 63 32 retried * 2 ^ 32 + sat 95 64 under * 2 ^ 64 + (if valLt (f32.decode am) (f32.decode m) then m else am) * 2 ^ 96

-- Rows

/-- A staged store: its handle, row and column in the tensor, a code of the format's width; or bytes at an address. -/
structure RowStore where
  pad : Bool
  addr : Nat
  lo : Nat                            -- first bit of the first byte
  w : Nat                             -- bits
  v : Nat
  deriving DecidableEq, Repr

/-- Bytes a staged store touches. -/
def RowStore.size (r : RowStore) : Nat := ceilDiv (r.lo + r.w) 8
/-- The place of element (i, j) through an output handle, where it is kept (R224). -/
def Handle.place (h : Handle) (i j v : Nat) : Option RowStore :=
  let r := h.row + i
  let c := h.col + j
  if i < h.brows && j < h.bcols && h.inside r c then
    let b := c.toNat * h.width
    some ⟨h.space, h.rowAddr r.toNat + b / 8, b % 8, h.width, v % 2 ^ h.width⟩
  else none

/-- What a row stages (R224): ACCW writes, stores in order, statistics. -/
structure Row where
  accw : List (Nat × Nat × Nat)       -- tile, column, bits
  stores : List RowStore
  stats : List (Nat × Nat × Nat × Nat) -- record address, retried, underflows, m

def Mop.out (m : Mop) (n : Nat) : Handle := ((m.outs.find? fun e => e.1 = n).map fun e => parseHandle e.2).getD (parseHandle 0)
/-- A drain store's conversion (R55, R224). -/
def storeCode (m : Mop) (fmt x : Nat) : Nat := fcvtValue (modeRnd m.mode) (modeSat m.mode) (modeNanp m.mode) fmt 1 x % 2 ^ fmtWidth fmt

/-- The result of a row-value or QNT word over the row's values (R224, R229). -/
def rowResult (m : Mop) (i w : Nat) (xs : List Nat) : List RowStore × List (Nat × Nat × Nat × Nat) :=
  let h := m.out (uImm w)
  match uOp w, xs with
  | 18, _ =>
    let r := h.row + i
    if i < h.brows && h.inside r h.col then
      let j := h.block r.toNat h.col.toNat
      let sx := (Store.get 0 m.scales ((h.sb + 4 * (j / 256)) * 2 + b2n h.space)).toNat
      let (c, codes, re, under, mx) := quantise h.fmt sx (modeUthr m.mode) xs
      let el := codes.zipIdx.filterMap fun e => h.place i e.2 e.1
      (el ++ [⟨h.space, h.cb + j, 0, 8, c⟩], if h.statv then [(16 * h.stats, re, under, mx)] else [])
    else ([], [])
  | _, [] => ([], [])
  | 19, x :: rest =>
    let v := rest.foldl (fun a b => f32.minmax false true false a b) (quiet x)
    ((h.place i 0 (storeCode m h.fmt v)).toList, [])
  | 20, x :: rest =>
    let v := rest.foldl (fun a b => f32.round .rne false false (valAdd .rne (f32.decode a) (f32.decode b))) x
    ((h.place i 0 (storeCode m h.fmt v)).toList, [])
  | _, _ => ([], [])

/-- Row `i` of a drain, computed from the tile's row (R229). -/
def drainRow (m : Mop) (i : Nat) (elems : List (BitVec 32)) : Row :=
  let prog := program m.slot
  let vals := elems.zipIdx.map fun e => runElem m i e.2 prog ((List.replicate 7 0) ++ [e.1.toNat])
  let accw := vals.zipIdx.flatMap fun e => (e.1.filter fun o => uOp o.2.1 = 21).map fun o => (uImm o.2.1 % 32, e.2, o.2.2)
  let sto := vals.zipIdx.flatMap fun e => (e.1.filter fun o => uOp o.2.1 = 17).filterMap fun o =>
    let h := m.out (uImm o.2.1)
    h.place i e.2 (storeCode m h.fmt o.2.2)
  let res := (prog.filter fun p => uOp p.2 = 18 || uOp p.2 = 19 || uOp p.2 = 20).map fun p =>
    rowResult m i p.2 (vals.filterMap fun v => (v.find? fun o => o.1 = p.1).map fun o => o.2.2)
  ⟨accw, sto ++ res.flatMap (·.1), res.flatMap (·.2)⟩

def setMop (s : State) (m : Mop) : State := { s with mops := s.mops.map fun d => if d.id = m.id then m else d }
def findMop (s : State) (id : Nat) : Option Mop := s.mops.find? fun m => m.id = id
/-- The operation leaves the queue: tl falls, and later operations are ordered after it by a WAITC (R207, R218). The tiles on which it
conflicted with unordered accesses hold undefined values (R217, R218). -/
def endMop (s : State) (m : Mop) : State :=
  let s := m.undef.eraseDups.foldl (fun s c => freeTile s m.team c) s
  let s := { s with mops := s.mops.filter fun d => d.id ≠ m.id }
  let s := lowerTl s m.team m.counted
  let (r, w) := mopTiles m
  let u : Unseen := ⟨m.mask, r, w, m.outEntries, []⟩
  s.modTeam m.team fun t => { t with unseen := (t.unseen.filter fun e => !(e.mask = u.mask && e.reads = u.reads && e.writes = u.writes && e.outs = u.outs)) ++ [u] }
/-- An operation fails: every thread that issued its word will take the trap (R215, R233). -/
def failMop (s : State) (m : Mop) (cause info tfa : Nat) : State :=
  let s := endMop s m
  m.issuers.foldl (fun s e => e.2.2.foldl (fun s i => s.modThread m.team i fun t =>
    { t with failures := t.failures ++ [⟨true, cause, info, tfa, e.2.1⟩] }) s) s
/-- The lowest thread that issued the word (R300). -/
def Mop.lowTid (m : Mop) : Nat := (m.issuers.flatMap fun e => e.2.2).foldl min 2047
/-- Tiles that an operation's drain reads and writes (R224, R229). -/
def Mop.drainTiles (m : Mop) : List Nat × List Nat :=
  if m.slot = [] then ([], []) else ([m.tile], (program m.slot).filterMap fun p => if uOp p.2 = 21 then some (uImm p.2 % 32) else none)
/-- A tile that an unordered operation conflicts on (R218): `r` and `w` of one, `r'` and `w'` of the other (DEDUCED, log 23). -/
def tileConflicts (r w r' w' : List Nat) : List Nat := (w.filter fun c => r'.contains c || w'.contains c) ++ (r.filter fun c => w'.contains c)
/-- Operation `d`, parked, holds back a later one of its mask: parked on its fetch (R219), or in a drain that the later one would disturb,
or whose tile it drains (R218; DEDUCED, log 22). -/
def Mop.holdsBack (d m : Mop) : Bool :=
  match d.phase with
  | .parked none => true
  | .parked (some _) =>
    let (r, w) := mopTiles m
    tileConflicts r w d.drainTiles.1 d.drainTiles.2 ≠ [] || d.drainTiles.1.any fun t => m.drainTiles.1.contains t
  | _ => false
/-- The unfinished operations of its mask that opened before it. -/
def earlier (s : State) (m : Mop) : List Mop := (s.mops.filter fun d => d.team = m.team && d.mask = m.mask).takeWhile fun d => d.id ≠ m.id
/-- Of operations of one mask in opening order, one holds back a later one. -/
def anyHeld : List Mop → Bool
  | [] => false
  | d :: ds => ds.any d.holdsBack || anyHeld ds
/-- The operation is held back: by one that opened before it, or because one that opened before it is held back, which it follows
(R218, R219; DEDUCED, log 22). -/
def heldBack (s : State) (m : Mop) : Bool := anyHeld (earlier s m ++ [m])
/-- An operation that is held back keeps no translation: its fetch starts again (R88; DEDUCED, log 22). -/
def unpinHeld (s : State) : State :=
  { s with mops := s.mops.map fun m =>
      if heldBack s m && (m.phase = .fetched || m.phase = .granted) then { m with phase := .queued, pages := [] } else m }
/-- On whose behalf an operation's access translates. -/
def Mop.who (s : State) (m : Mop) : Who := { whoOf s m.team with owner := some (.mop m.id) }
/-- A failed translation fails the operation, parks it (R214, R232), or it waits for a walk (R82). -/
def mopFault (s : State) (m : Mop) (va kind park : Nat) (row : Option Nat) (x : Xlat) : State :=
  match xlatFailure kind x, x with
  | some (cause, info), _ => failMop s m cause info va
  | none, .walking _ => s
  | none, _ =>
    let (f, s) := openFault s (whoOf s m.team) va park x
    unpinHeld (setMop (addPark s (.mop m.id) m.team va park m.lowTid none f) { m with phase := .parked row })

/-- The bytes that a row's drain and another agent both write, and that keep the other's value (R231): an open choice for each. -/
def keepBytes (m : Mop) (l : List RowStore) (s : State) : List (Bool × Nat) × State :=
  (l.flatMap fun r => (among (fun i => m.clash.contains (r.pad, i)) r.addr r.size).map fun i => (r.pad, i)).eraseDups.foldl
    (fun (acc : List (Bool × Nat) × State) e =>
      let (keep, s) := freeBit acc.2
      (if keep then e :: acc.1 else acc.1, s)) ([], s)
/-- Performs one staged store (R229): the other bits of its bytes stay, and the bytes that keep another agent's value. -/
def performStore (m : Mop) (parts : List (Nat × Nat × Nat)) (keep : List (Bool × Nat)) (s : State) (r : RowStore) : State :=
  let n := r.size
  let mix (old : List Byte) : List Byte := (leBytes n (putBits (leNat old) (r.lo + r.w - 1) r.lo r.v)).zipIdx.map fun e =>
    if keep.contains (r.pad, r.addr + e.2) then (old[e.2]?).getD 0 else e.1
  if r.pad then padStore s m.team m.id r.addr (mix ((s.team m.team).padRd r.addr n))
  else
    let at_ (a : Nat) : Nat := match parts.find? fun p => decide (p.1 ≤ a) && decide (a < p.1 + p.2.2) with
      | some p => p.2.1 + (a - p.1)
      | none => 0
    let own := (pageParts 2 r.addr n).map fun e => (e.1, at_ e.1, e.2)
    let s := own.foldl (fun s e => flushOut s fun o => decide (o.pa < e.2.1 + e.2.2) && decide (e.2.1 < o.pa + o.bytes.length)) s
    engineWrite m.team m.id 4 s own (mix (own.flatMap fun e => s.rd e.2.1 e.2.2))

/-- Sorted ranges, those merged that meet within a page. -/
def mergeRanges : List (Nat × Nat) → List (Nat × Nat)
  | [] => []
  | (a, n) :: rest => match mergeRanges rest with
    | (b, k) :: more => if b ≤ a + n && a / 65536 = b / 65536 then (a, max n (b + k - a)) :: more else (a, n) :: (b, k) :: more
    | [] => [(a, n)]
/-- The bytes of memory that a row's stores touch, ascending. -/
def Row.ranges (r : Row) : List (Nat × Nat) :=
  mergeRanges (insertSort (fun a b => decide (a.1 ≤ b.1)) ((r.stores.filter fun r => !r.pad).flatMap fun r => pageParts 2 r.addr r.size))
/-- A tile's row as words that nothing determines, where the tile holds undefined values (R218). -/
def tileRow (s : State) (m : Mop) (tile : Nat) (row : List (BitVec 32)) : List (BitVec 32) × State :=
  if m.undef.contains tile then ((List.range row.length).map fun j => Config.freeWord (s.freeCount + j), { s with freeCount := s.freeCount + row.length }) else (row, s)

/-- The row's translations in ascending address, then its commit, or the park or failure (R229, R230). -/
def commitRow (s : State) (m : Mop) (i : Nat) : State :=
  let (elems, s) := tileRow s m m.tile (Store.getN 0 (s.team m.team).tiles (tileKey m.tile i 0) 64)
  let row := drainRow m i elems
  match translateParts s (m.who s) .store (fun _ => false) row.ranges with
  | (.error (va, x), s) => mopFault s m va 1 5 (some i) x
  | (.ok (l, ds), s) =>
    let s := setAllDirty s ds
    let s := row.accw.foldl (fun s e =>
      let (v, s) := tileRow s m e.1 [BitVec.ofNat 32 e.2.2]
      s.modTeam m.team fun t => { t with tiles := Store.set 0 t.tiles (tileKey e.1 i e.2.1) ((v.head?).getD 0) }) s
    let (keep, s) := keepBytes m row.stores s
    let s := row.stores.foldl (performStore m l keep) s
    let s := row.stats.foldl (fun s e => padStore s m.team m.id e.1 (leBytes 16 (addStats ((s.team m.team).padNat e.1 16) e.2.1 e.2.2.1 e.2.2.2))) s
    if 63 ≤ i then endMop s m else setMop s { m with phase := .draining (i + 1) }

/-- The operation may run (R218, R219): no earlier one of its mask is unfinished, but for a drain parked mid-way that does not hold it back
(DEDUCED, log 22). -/
def isHead (s : State) (m : Mop) : Bool := (earlier s m).all fun d => (match d.phase with
  | .parked (some _) => true
  | _ => false) && !d.holdsBack m
/-- The team's engines run: it is resident, or its swap waits for them (R216). -/
def enginesRun (s : State) (k : Nat) : Bool := (s.team k).phase = .resident || (s.team k).phase = .swapping

/-- DRAIN_ROW_COMMIT (R229). -/
def execDrainRowCommit (id : Nat) (s : State) : Out :=
  match findMop s id with
  | some m =>
    if !enginesRun s m.team || !isHead s m then .next s
    else match m.phase, m.word with
      | .draining i, _ => finish (commitRow s m i)
      | .granted, .mdrain _ _ => finish (commitRow s m 0)
      | _, _ => .next s
  | none => .next s

/-- DPLOAD (R227). -/
def execDpload (d a : BitVec 7) (s : State) : Out :=
  lanes (absent (d.toNat = 0 || s.here.desc.nd < d.toNat) ++ [a.toNat]) (fun tid s =>
    let addr := ((s.here.thread tid).reg a.toNat).toNat
    padAccess s tid addr 128 16 fun s =>
      let (bs, s) := padRead s s.cur.team addr 128
      let image := (List.range 32).map fun i => BitVec.ofNat 32 (leNat ((bs.drop (4 * i)).take 4))
      complete (s.modTeam s.cur.team fun t => { t with drains := setAt t.drains (d.toNat - 1) image }) tid) s
/-- MODE (R236). -/
def execMode (a b : BitVec 7) (s : State) : Out :=
  finish (eachLane [a.toNat, b.toNat] (fun tid s =>
    let th := s.here.thread tid
    let m := th.reg b.toNat &&& modeMask
    complete (s.modTeam s.cur.team fun t => { t with mode := (t.mode &&& ~~~m) ||| (th.reg a.toNat &&& m) }) tid) s)

/-- SCUPD's new scale (R62): absmax / qmax rounded, where absmax is positive and finite. -/
def newScale (fmt am : Nat) : Option Nat :=
  match f32.decode am with
  | .num false m e =>
    if m = 0 then none
    else
      let (mq, eq) := qmaxOf fmt
      let x := m * 2 ^ 64
      some (f32.roundNum .rne false false (x / mq) (e - 64 - eq) (x % mq ≠ 0))
  | _ => none
/-- The record is read and cleared, and the new scale written (R237; DEDUCED, log 25); what the thread writes to the pad is a pad write like
any other (R258). -/
def scupdAt (s : State) (tid : Nat) (h : Handle) (write : State → List Byte → State) : State :=
  let k := s.cur.team
  let (bs, s) := padRead s k (16 * h.stats) 16
  let am := bits (leNat bs) 127 96
  let s := threadPadWrite s k tid (16 * h.stats) (List.replicate 16 0)
  complete (match newScale h.fmt am with | some x => write s (leBytes 4 x) | none => s) tid
/-- SCUPD (R237; DEDUCED, log 25). -/
def execScupd (d a : BitVec 7) : State → Out :=
  lanes [a.toNat] fun tid s =>
    let k := s.cur.team
    let th := s.here.thread tid
    let h := parseHandle (s.here.handle d.toNat)
    let q := (th.reg a.toNat).toNat
    if th.tl ≠ 0 then blockOn s tid (.counters 15 15 15 0)
    else match h.check s.here.padSize { origin := true } with
      | some c => handleTrap s tid c d.toNat
      | none =>
        if !blocked h.fmt || !h.statv || h.ns ≤ q then handleTrap s tid 0xD d.toNat
        else
          let ad := h.sb + 4 * q
          if h.space then scupdAt s tid h fun s bs => threadPadWrite s k tid ad bs
          else accessWith s tid ad 4 .store true (.scupd d a) 0 fun s pa _ dirty =>
            if poisoned s pa 4 then trapHere s tid 6 0 ad
            else scupdAt (touch s pa 4) tid h fun s bs =>
              let s := flushOut (setDirty s dirty) fun o => decide (o.pa < pa + 4) && decide (pa < o.pa + o.bytes.length)
              let (bs, s) := globalStore s (some k) 0 false ad pa bs
              s.sysPut (linkOf s s.here.vf) pa bs

end Sys2Proof.Machine
end

