-- ==== Sys2Proof/Machine/Matrix.lean ====
section
/-! DEFINITION. The matrix engine (spec/09): handles by THSET, THCUR, THGET, gangs and latches, the checks of an opening, tile
fetch, leave and the array; MHAD and MDRAIN. -/

namespace Sys2Proof.Machine

-- Handle instructions

/-- THSET (R201). -/
def execThset (d a : BitVec 7) : State → Out :=
  lanes [a.toNat] fun tid s =>
    let addr := ((s.here.thread tid).reg a.toNat).toNat
    padAccess s tid addr 64 16 fun s =>
      let (bs, s) := padRead s s.cur.team addr 64
      complete (s.modTeam s.cur.team fun t => t.setHandle d.toNat (BitVec.ofNat 512 (leNat bs))) tid
/-- THCUR (R201). -/
def execThcur (d a b : BitVec 7) (s : State) : Out :=
  finish (eachLane [a.toNat, b.toNat] (fun tid s =>
    let th := s.here.thread tid
    complete (s.modTeam s.cur.team fun t => t.setHandle d.toNat (BitVec.ofNat 512
      (putBits (putBits (t.handle d.toNat).toNat 351 320 (th.reg a.toNat).toNat) 383 352 (th.reg b.toNat).toNat))) tid) s)
/-- THGET (R201). -/
def execThget (d a : BitVec 7) : State → Out :=
  lanes [a.toNat] fun tid s =>
    let addr := ((s.here.thread tid).reg a.toNat).toNat
    padAccess s tid addr 64 16 fun s =>
      complete (threadPadWrite s s.cur.team tid addr (leBytes 64 (s.here.handle d.toNat).toNat)) tid

/-- GANG (R204). -/
def execGang (a : BitVec 7) (s : State) : Out :=
  finish (eachLane (two a) (fun tid s =>
    let t := s.here
    let l := tid / 32
    let m := (t.thread tid).pair a.toNat
    let ms := (List.range 64).filter fun i => m.getLsbD i
    let bad := ms.any fun i => decide (t.lanesets.length ≤ i) || (t.laneset i).retired
    if ms.length < 1 || 6 < ms.length || !m.getLsbD l || bad then trapHere s tid 8 1 0
    else complete (s.modTeam s.cur.team fun t => { t with lanesets := setAt t.lanesets l { t.laneset l with gang := m } }) tid) s)

-- Operand classes and shapes (R203)

def classK : OpClass → Nat
  | .fp64 => 16 | .fp32 => 32 | .b16 => 128 | .b8 => 256 | .b4 => 512 | .b1 => 1024 | .lane => 0
def classG : OpClass → Nat
  | .fp64 => 1 | .fp32 => 1 | .b16 => 4 | .b8 => 8 | .b4 => 16 | .b1 => 32 | .lane => 1
/-- Formats of a sparse A (R210). -/
def sparseFmt (f : Nat) : Bool := opClass f = .b16 || opClass f = .b8 || (opClass f = .b4 && fmtWidth f = 4)

/-- The kinds of matrix word. -/
inductive MKind where
  | dense | sparse | tile | had | drain
  deriving DecidableEq, Repr
/-- A matrix word taken apart (R208, R213, R235): kind, D starts at +0, D, the ha field, hb, the drain slot. -/
structure MWord where
  kind : MKind
  zero : Bool
  c : Nat
  ha : Nat
  hb : Nat
  dp : Nat
def mword : Instr → MWord
  | .mma c a b p => ⟨.dense, false, c.toNat, a.toNat, b.toNat, p.toNat⟩
  | .mmaz c a b p => ⟨.dense, true, c.toNat, a.toNat, b.toNat, p.toNat⟩
  | .mmas c a b p => ⟨.sparse, false, c.toNat, a.toNat, b.toNat, p.toNat⟩
  | .mmasz c a b p => ⟨.sparse, true, c.toNat, a.toNat, b.toNat, p.toNat⟩
  | .mmac c a b p => ⟨.tile, false, c.toNat, a.toNat, b.toNat, p.toNat⟩
  | .mmacz c a b p => ⟨.tile, true, c.toNat, a.toNat, b.toNat, p.toNat⟩
  | .mhad d a b => ⟨.had, false, d.toNat, a.toNat, b.toNat, 0⟩
  | .mdrain d b => ⟨.drain, false, d.toNat, 0, 0, b.toNat⟩
  | _ => ⟨.drain, false, 0, 0, 0, 0⟩

/-- The stored box of an operand of `r` × `c` (R200, R203). -/
def boxIs (r c : Nat) (h : Handle) : Bool := if h.trans then h.brows = c && h.bcols = r else h.brows = r && h.bcols = c
def roleA (w : MWord) : Role :=
  { fmtOk := fun f => if w.kind = .sparse then sparseFmt f else opClass f ≠ .lane
    origin := true, col16 := w.kind = .sparse, shape := fun h => boxIs 64 (classK (opClass h.fmt)) h }
def roleB (w : MWord) (fa : Nat) : Role :=
  let k := classK (opClass fa)
  { fmtOk := fun f => match w.kind with
      | .dense | .sparse => opClass f = opClass fa
      | _ => opClass f ≠ .lane && opClass f ≠ .fp64
    origin := true
    shape := fun h => match w.kind with
      | .dense => boxIs k 64 h && !(opClass fa = .fp64 && w.dp ≠ 0)
      | .sparse => boxIs (2 * k) 64 h
      | .tile => boxIs 64 64 h
      | _ => boxIs 64 64 h || boxIs 64 1 h || boxIs 1 64 h }

/-- A slot image of the team (R220). -/
def Team.slot (t : Team) (n : Nat) : List (BitVec 32) := if n = 0 then [] else (t.drains[n - 1]?).getD []
/-- The checks of an opening in the order of R353: a cause and `$tinfo`. -/
def openCheck (t : Team) (w : MWord) : Option (Nat × Nat) :=
  let pad := t.padSize
  let ha := parseHandle (t.handle w.ha)
  let hb := parseHandle (t.handle w.hb)
  let mma := w.kind = .dense || w.kind = .sparse
  let hnd (c n : Nat) : Nat × Nat := (0xE, c + n * 2 ^ 8)
  let a := if mma then (ha.check pad (roleA w)).map (hnd · w.ha) else none
  let b := if w.kind = .drain then none else (hb.check pad (roleB w ha.fmt)).map (hnd · w.hb)
  let meta_ := if w.kind ≠ .sparse then none
    else if !ha.linkv then some (hnd 8 w.ha)
    else ((parseHandle (t.handle ha.link)).check pad listRole).map (hnd · ha.link)
  let pair := if w.kind = .dense && opClass ha.fmt = .fp64 then
      (if w.c % 2 = 1 then some (1, 7) else if t.desc.acctiles ≤ w.c + 1 then some (1, 8) else none)
    else none
  let slot := if w.dp = 0 then none else slotCheck t (t.slot w.dp)
  firstSome id [a, b, meta_, pair, slot]

-- Latches

/-- The pad as the operand reads see it: bytes with no operand-ready fence hold an old or the new value (R206, R258). -/
def padSeen (t : Team) (n : Nat) : Store Byte × Nat :=
  t.unfenced.reverse.foldl (fun (acc : Store Byte × Nat) u =>
    (if Config.freeBit acc.2 then Store.set 0 acc.1 u.1 u.2.1 else acc.1, acc.2 + 1)) (t.pad, n)
/-- The vectors a slot's program names (R228), with the bytes undefined that an unfinished engine writes (R115, R231), or a drain that no
member has waited for, by its output boxes `taint` (R218). -/
def slotVectors (s : State) (k : Nat) (pad : Store Byte) (taint : List (BitVec 512)) (slot : List (BitVec 32)) : List (Nat × List (BitVec 32)) × State :=
  ((program slot).filter fun p => 2 ≤ uKind p.2 && !uOut (uOp p.2)).foldl (fun (acc : List (Nat × List (BitVec 32)) × State) p =>
    let a := vecAddr slot (uKind p.2) (uImm p.2)
    let (bs, s) := freeWhere (fun i => copyStores s k i || taint.any fun e => (parseHandle e).space && (parseHandle e).stores i) a (Store.getN 0 pad a 256) acc.2
    (acc.1 ++ [(256 * uKind p.2 + uImm p.2 % 256, (List.range 64).map fun n => BitVec.ofNat 32 (leNat ((bs.drop (4 * n)).take 4)))], s)) ([], s)
/-- Operand bytes in the pad that an unfinished or unobserved copy writes (R115). -/
def copiedUnder (s : State) (k : Nat) (boxes : List Handle) : List (Bool × Nat) :=
  let reads (i : Nat) : Bool := copyStores s k i && boxes.any fun h => h.space && h.reads i
  ((s.copies.filter fun c => (c.team = k && c.fills) || c.f = 5).flatMap (fun c => among reads c.pad c.size)
    ++ ((s.team k).landed.filter (·.fills)).flatMap (fun l => among reads l.lo (l.hi - l.lo))).map fun i => (true, i)

/-- The operation that a latch opens (R206, R228). -/
def newMop (s : State) (k id : Nat) (l : Latch) : Mop × State :=
  let t := s.team k
  let w := mword l.word
  let handles := w.kind ≠ .drain
  let ha : BitVec 512 := if w.kind = .dense || w.kind = .sparse then t.handle w.ha else 0
  let slot := t.slot w.dp
  let (pad, n) := padSeen t s.freeCount
  let lanes := l.issued.map (·.1)
  let unordered := t.unseen.filter fun u => u.mask ≠ l.mask && !u.seenBy.any fun i => lanes.contains i
  let taint := (s.mops.filter fun d => d.team = k).flatMap (·.outEntries) ++
    (t.unseen.filter fun u => !u.seenBy.any fun i => lanes.contains i).flatMap (·.outs)
  let (vecs, s) := slotVectors { s with freeCount := n } k pad taint slot
  let m : Mop := { id := id, team := k, mask := l.mask, word := l.word, issuers := l.issued, ha := ha
                   hb := if handles then t.handle w.hb else 0, hm := if w.kind = .sparse then t.handle (parseHandle ha).link else 0
                   mode := t.mode, slot := slot
                   outs := (program slot).filterMap fun p => if uStores (uOp p.2) then some (uImm p.2, t.handle (uImm p.2)) else none
                   vecs := vecs, scales := [], pages := [], phase := .queued, pad := pad, clash := []
                   taint := taint, undef := [], counted := l.counted }
  let (r, wr) := mopTiles m
  let now := s.mops.filter fun d => d.team = k && d.mask ≠ l.mask
  let bad := now.flatMap (fun d => tileConflicts r wr (mopTiles d).1 (mopTiles d).2) ++ unordered.flatMap fun u => tileConflicts r wr u.reads u.writes
  ({ m with undef := bad, clash := copiedUnder s k m.inBoxes }, { s with mops := s.mops.map fun d =>
      if d.team = k && d.mask ≠ l.mask then { d with undef := tileConflicts r wr (mopTiles d).1 (mopTiles d).2 ++ d.undef } else d })

/-- The latch opens (R206): the first failing check traps every thread that issued into it, else the operation is queued
(DESIGN CHOICE, log 22). -/
def openLatch (s : State) (k : Nat) (l : Latch) : State :=
  let s := s.modTeam k fun t => { t with latches := t.latches.filter fun x => x.mask ≠ l.mask }
  let tids := insertSort (fun a b => decide (a ≤ b)) l.threads
  match openCheck (s.team k) (mword l.word) with
  | some (cause, info) => tids.foldl (fun s i => trapWaiting s k i cause info) (lowerTl s k l.counted)
  | none =>
    let (id, s) := fresh s
    let (m, s) := newMop s k id l
    tids.foldl (fun s i => release s k i fun t => t) { s with mops := s.mops ++ [m] }

/-- A laneset's issue of a matrix word (R205): into the latch of its mask. -/
def issueWord (s : State) (k ls : Nat) (word : Instr) (threads : List Nat) : State :=
  let t := s.team k
  let g := (t.laneset ls).gang
  let mask := if g = 0 then 2 ^ ls else g.toNat
  let counted := t.liveIn ls
  let s := s.modTeam k fun t => { t with unfenced := fenced (fun w => w / 32 = ls) t.unfenced [] }
  let e := (ls, s.cur.pc.toNat, threads)
  match t.latches.find? fun x => x.mask = mask with
  | some l =>
    if l.word ≠ word then
      let s := s.modTeam k fun t => { t with latches := t.latches.filter fun x => x.mask ≠ mask }
      (insertSort (fun a b => decide (a ≤ b)) (l.threads ++ threads)).foldl (fun s i => trapWaiting s k i 8 2) (lowerTl s k l.counted)
    else
      let l' : Latch := { l with issued := l.issued ++ [e], counted := l.counted ++ counted }
      let s := counted.foldl (fun s i => s.modThread k i fun t => { t with tl := t.tl + 1 }) s
      if (List.range 64).all fun i => !mask.testBit i || l'.issued.any fun x => x.1 = i then openLatch s k l'
      else s.modTeam k fun t => { t with latches := t.latches.map fun x => if x.mask = mask then l' else x }
  | none =>
    let l : Latch := ⟨mask, word, [e], counted⟩
    let s := counted.foldl (fun s i => s.modThread k i fun t => { t with tl := t.tl + 1 }) s
    if mask = 2 ^ ls then openLatch s k l else s.modTeam k fun t => { t with latches := t.latches ++ [l] }

/-- A matrix word for the issue group (R29, R205): forms that name a missing tile or slot are ILL 0x08. -/
def matrixWord (i : Instr) (tiles : List Nat) (dp : Nat) (needDp : Bool) (s : State) : Out :=
  let k := s.cur.team
  let ls := s.cur.laneset
  let go := members s
  let t := s.here
  let bad := tiles.any (fun c => decide (t.desc.acctiles ≤ c)) || decide (t.desc.nd < dp) || (needDp && dp = 0)
  if s.cur.never then finish (eachLane (absent bad) (fun _ s => s) s)
  else
  let s := (s.tids.filter fun tid => !go.contains tid).foldl (fun s tid => s.modThread k tid fun t => t.done s.cur.next) s
  let t := s.here
  if go = [] then .next s
  else if bad then
    .next (go.foldl (fun s tid => ill s tid 8) s)
  else if t.latches.any fun l => l.issued.any fun e => e.1 = ls then .next (go.foldl (fun s tid => blockOn s tid .latchBusy) s)
  else if (t.liveIn ls).any fun j => decide (63 ≤ (t.thread j).tl) then .next (go.foldl (fun s tid => blockOn s tid .limit) s)
  else if Config.matrixQueue ≤ (mopsOnCore s k).length then .next (go.foldl (fun s tid => blockOn s tid .matrixSlot) s)
  else
    let g := (t.laneset ls).gang
    let s := go.foldl (fun s tid => waitIn s tid (.gang (if g = 0 then 2 ^ ls else g.toNat))) s
    .next (issueWord s k ls i go)

def execMma (c : BitVec 5) (a b : BitVec 6) (p : BitVec 5) : State → Out := matrixWord (.mma c a b p) [c.toNat] p.toNat false
def execMmaz (c : BitVec 5) (a b : BitVec 6) (p : BitVec 5) : State → Out := matrixWord (.mmaz c a b p) [c.toNat] p.toNat false
def execMmas (c : BitVec 5) (a b : BitVec 6) (p : BitVec 5) : State → Out := matrixWord (.mmas c a b p) [c.toNat] p.toNat false
def execMmasz (c : BitVec 5) (a b : BitVec 6) (p : BitVec 5) : State → Out := matrixWord (.mmasz c a b p) [c.toNat] p.toNat false
def execMmac (c : BitVec 5) (a b : BitVec 6) (p : BitVec 5) : State → Out := matrixWord (.mmac c a b p) [c.toNat, a.toNat] p.toNat false
def execMmacz (c : BitVec 5) (a b : BitVec 6) (p : BitVec 5) : State → Out := matrixWord (.mmacz c a b p) [c.toNat, a.toNat] p.toNat false
def execMhad (d a b : BitVec 7) : State → Out := matrixWord (.mhad d a b) [d.toNat, a.toNat] 0 false
def execMdrain (d b : BitVec 7) : State → Out := matrixWord (.mdrain d b) [d.toNat] b.toNat true

-- The engine at work

/-- Metadata word of an A row and group (R210): its element's row and column in the metadata tensor. -/
def metaPlace (m : Mop) (i g : Nat) : Int × Int :=
  let h := metaBox m.ha m.hm
  (h.row + i, h.col + (g / 8 : Nat))
def metaAddr (h : Handle) (p : Int × Int) : Nat := h.rowAddr p.1.toNat + 4 * p.2.toNat
/-- The metadata words of an A row: 8 groups each; outside the tensor every nibble is 8 (R210). -/
def metaWords (s : State) (m : Mop) (i words : Nat) : List Nat × State :=
  let h := metaBox m.ha m.hm
  (List.range words).foldl (fun (acc : List Nat × State) q =>
    let p := metaPlace m i (8 * q)
    if h.inside p.1 p.2 then
      let (bs, s) := mopBytes acc.2 m h.space (metaAddr h p) 4
      (acc.1 ++ [leNat bs], s)
    else (acc.1 ++ [0x88888888], acc.2)) ([], s)
def nibble (ws : List Nat) (g : Nat) : Nat := (ws[g / 8]?).getD 0 / 16 ^ (g % 8) % 16
def legalNibble (n : Nat) : Bool := n % 4 < n / 4
/-- Groups of a sparse A row. -/
def sparseGroups (m : Mop) : Nat := classK (opClass (parseHandle m.ha).fmt) / 2
/-- The first illegal nibble: row and group (R210). -/
def badNibble (s : State) (m : Mop) : Option (Nat × Nat) × State :=
  let n := sparseGroups m
  (List.range 64).foldl (fun (acc : Option (Nat × Nat) × State) i =>
    match acc.1 with
    | some _ => acc
    | none =>
      let (ws, s) := metaWords acc.2 m i (ceilDiv n 8)
      (((List.range n).find? fun g => !legalNibble (nibble ws g)).map fun g => (i, g), s)) (none, s)

/-- Byte ranges of an operation's operand boxes by handle, in fetch order: whether in the pad, and the ranges (R214). -/
def Mop.fetches (m : Mop) : List (Bool × List (Nat × Nat)) :=
  let w := mword m.word
  let a := parseHandle m.ha
  let b := parseHandle m.hb
  let mh := { metaBox m.ha m.hm with bcols := ceilDiv (sparseGroups m) 8 }
  let ops := match w.kind with
    | .dense => [a, b] | .sparse => [a, b, mh] | .tile => [b] | .had => [b] | .drain => []
  ops.map fun h => (h.space, h.ranges)
/-- The handles of the operation's QNT words. -/
def Mop.qnts (m : Mop) : List Handle := (program m.slot).filterMap fun p => if uOp p.2 = 18 then some (m.out (uImm p.2)) else none

/-- The first byte of ranges in each page that they touch, pages ascending. -/
def pageFirsts (l : List (Nat × Nat)) : List Nat :=
  let firsts := l.flatMap fun e => (pageParts (e.2 / 65536 + 2) e.1 e.2).map (·.1)
  (pagesOf l).filterMap fun p => match firsts.filter fun a => a / 65536 = p with
    | a :: as => some (as.foldl min a)
    | [] => none
/-- TILE_FETCH (R214, R228): the operand pages in order of A, B, metadata, then the scales of QNT handles, each translated at its first
operand byte (DEDUCED, log 47). The scales are read here, as R228 says, and not at the opening (R60, R224; DEDUCED, log 47). -/
def fetchMop (s : State) (m : Mop) : State :=
  let groups := m.fetches.filter fun e => !e.1
  let qs := m.qnts.map fun h => (h.space, h.scaleRanges)
  let qpages := (qs.filter fun e => !e.1).map fun e => pageFirsts (e.2.map fun a => (a, 4))
  let firsts := ((groups.map fun e => pageFirsts e.2) ++ qpages).flatten
  let firsts := firsts.zipIdx.filterMap fun e => if (firsts.take e.2).any fun b => b / 65536 = e.1 / 65536 then none else some e.1
  match translateParts s (m.who s) .load (fun _ => false) (firsts.map fun a => (a, 1)) with
  | (.error (va, x), s) => mopFault s m va 0 4 none x
  | (.ok (l, _), s) =>
    let m := { m with pages := l.map fun e => (e.1 / 65536, e.2.1 - e.1 % 65536) }
    let words : List (Nat × Nat) := ((qs.filter fun e => !e.1).flatMap (·.2)).map fun a => (a, 4)
    match (groups.flatMap (·.2) ++ words).findSome? (fun e => mopPoison s m false e.1 e.2) with
    | some va => failMop s m 6 0 va
    | none =>
      let (bad, s) := if (mword m.word).kind = .sparse then badNibble s m else (none, s)
      match bad with
      | some (i, g) => failMop s m 7 (g + i * 2 ^ 8) (metaAddr (metaBox m.ha m.hm) (metaPlace m i g))
      | none =>
        let (scales, s) := (qs.flatMap fun e => e.2.map fun a => (e.1, a)).foldl (fun (acc : Store (BitVec 32) × State) e =>
          let (bs, s) := mopBytes acc.2 m e.1 e.2 4
          (Store.set 0 acc.1 (e.2 * 2 + b2n e.1) (BitVec.ofNat 32 (leNat bs)), s)) ([], s)
        -- a drain alone has nothing for the array to read
        setMop s { m with scales := scales, phase := .fetched, pages := if (mword m.word).kind = .drain then [] else m.pages }
def execTileFetch (id : Nat) (s : State) : Out :=
  match findMop s id with
  | some m => if m.phase = .queued && !heldBack s m && enginesRun s m.team then finish (fetchMop s m) else .next s
  | none => .next s

/-- Every operation of the mask that opened before has asked for leave (R219). -/
def mayAsk (s : State) (m : Mop) : Bool :=
  (earlier s m).all fun d =>
    match d.phase with
    | .granted => true
    | .draining _ => true
    | .parked (some _) => true
    | _ => false
/-- MATRIX_LEAVE_GRANT (R219). -/
def execMatrixLeaveGrant (id : Nat) (s : State) : Out :=
  match findMop s id with
  | some m => .next (if m.phase = .fetched && mayAsk s m && enginesRun s m.team then setMop s { m with phase := .granted } else s)
  | none => .next s

/-- The elements of a tile row by row, as bits. -/
def tileRows (t : Team) (tile : Nat) : List (List Nat) :=
  (List.range 64).map fun i => (Store.getN 0 t.tiles (tileKey tile i 0) 64).map (·.toNat)
/-- A list cut into groups of `n`. -/
def chunksOf {α : Type} (n : Nat) : Nat → List α → List (List α)
  | 0, _ => []
  | f + 1, l => if l.isEmpty then [] else l.take n :: chunksOf n f (l.drop n)
/-- A product, exact zero at a position that the metadata drops, with a positive sign (R58, R210; DESIGN CHOICE, log 47). -/
def product (x : Option Val) (y : Val) : Val := match x with | some v => valMul v y | none => .num false 0 0
/-- A cell: one rounding for each dot group (R58, R209). -/
def cell (f : Flt) (g : Nat) (acc : Nat) (a : List (Option Val)) (b : List Val) : Nat :=
  let prods := List.zipWith product a b
  (chunksOf g prods.length prods).foldl (fun acc ps => f.round .rne false false (groupSum (f.decode acc) ps)) acc
/-- A sparse row spread over its logical positions (R210). -/
def spread (ws : List Nat) (kept : List Val) (groups : Nat) : List (Option Val) :=
  (List.range groups).flatMap fun g =>
    let n := nibble ws g
    (List.range 4).map fun q => if q = n % 4 then kept[2 * g]? else if q = n / 4 then kept[2 * g + 1]? else none

/-- A written as rows of the operand, B as columns of it (R200). -/
def operandA (s : State) (m : Mop) : List (List Val) × State :=
  let h := parseHandle m.ha
  let (rows, s) := boxRows s m h
  (if h.trans then columns h.bcols rows else rows, s)
def operandB (s : State) (m : Mop) : List (List Val) × State :=
  let h := parseHandle m.hb
  let (rows, s) := boxRows s m h
  (if h.trans then rows else columns h.bcols rows, s)

/-- Writes rows of elements into a tile. -/
def putTile (t : Team) (tile : Nat) (rows : List (List Nat)) : Team :=
  { t with tiles := rows.zipIdx.foldl (fun ts r => r.1.zipIdx.foldl (fun ts e => Store.set 0 ts (tileKey tile r.2 e.2) (BitVec.ofNat 32 e.1)) ts) t.tiles }

/-- The accumulation of an operation (R209 to R213). -/
def accumulate (s : State) (m : Mop) : State :=
  let w := mword m.word
  let t := s.team m.team
  let ha := parseHandle m.ha
  let (as_, s) : List (List (Option Val)) × State := match w.kind with
    | .dense => let (r, s) := operandA s m; (r.map fun l => l.map some, s)
    | .sparse =>
      let (r, s) := operandA s m
      r.zipIdx.foldl (fun (acc : List (List (Option Val)) × State) e =>
        let (ws, s) := metaWords acc.2 m e.2 (ceilDiv (sparseGroups m) 8)
        (acc.1 ++ [spread ws e.1 (sparseGroups m)], s)) ([], s)
    | _ => ((tileRows t w.ha).map fun l => l.map fun x => some (f32.decode x), s)
  let (bs, s) := operandB s m
  let zeros : List (List Nat) := List.replicate 64 (List.replicate 64 0)
  if w.kind = .had then
    let hb := parseHandle m.hb
    let (br, bc) := if hb.trans then (hb.bcols, hb.brows) else (hb.brows, hb.bcols)
    let rows := as_.zipIdx.map fun r => r.1.zipIdx.map fun e =>
      let b := (((bs[if bc = 1 then 0 else e.2]?).getD [])[if br = 1 then 0 else r.2]?).getD (.num false 0 0)
      f32.round .rne false false (valMul (e.1.getD (.num false 0 0)) b)
    s.modTeam m.team fun t => putTile t w.c rows
  else if w.kind = .dense && opClass ha.fmt = .fp64 then
    let lo := if w.zero then zeros else tileRows t w.c
    let hi := if w.zero then zeros else tileRows t (w.c + 1)
    let rows := as_.zipIdx.map fun r => bs.zipIdx.map fun c =>
      let at_ (x : List (List Nat)) : Nat := (((x[r.2]?).getD [])[c.2]?).getD 0
      cell f64 1 (at_ lo + 2 ^ 32 * at_ hi) r.1 c.1
    s.modTeam m.team fun t => putTile (putTile t w.c (rows.map fun l => l.map (· % 2 ^ 32))) (w.c + 1) (rows.map fun l => l.map (· / 2 ^ 32))
  else
    let start := if w.zero then zeros else tileRows t w.c
    let g := match w.kind with
      | .dense => classG (opClass ha.fmt)
      | .sparse => 2 * classG (opClass ha.fmt)
      | _ => 1
    let rows := as_.zipIdx.map fun r => bs.zipIdx.map fun c => cell f32 g ((((start[r.2]?).getD [])[c.2]?).getD 0) r.1 c.1
    s.modTeam m.team fun t => putTile t w.c rows

/-- ARRAY_ACCUMULATE (R209): the tiles of an operation that others disturb hold undefined values (R217, R218). -/
def arrayMop (s : State) (m : Mop) : State :=
  match m.fetches.findSome? (fun e => e.2.findSome? fun r => mopPoison s m e.1 r.1 r.2) with
  | some va => failMop s m 6 0 va
  | none =>
    let s := accumulate (m.undef.eraseDups.foldl (fun s c => freeTile s m.team c) s) m
    -- the array has consumed the operands: their pins go (R67, R214)
    let m := { m with pages := [] }
    if (mword m.word).dp = 0 then endMop s m else setMop s { m with phase := .draining 0 }
def execArrayAccumulate (id : Nat) (s : State) : Out :=
  match findMop s id with
  | some m =>
    if m.phase = .granted && (mword m.word).kind ≠ .drain && isHead s m && enginesRun s m.team then finish (arrayMop s m) else .next s
  | none => .next s

end Sys2Proof.Machine
end

