-- ==== Sys2Proof/Machine/Named.lean ====
section
/-! DEFINITION. The lane registers that an instruction names (spec/02 R33, R34), and which instructions may go before a node read
that their thread's WALK has left queued (spec/11 R242; spec/12 R259). -/

namespace Sys2Proof.Machine

/-- The lane registers that an instruction's form names, under a prefix (R31 to R34). -/
def named (c : Issue) : Instr → List Nat
  | .add d a b | .sub d a b | .mul d a b | .mulhS32 d a b | .mulhN32 d a b | .minS32 d a b | .minN32 d a b | .maxS32 d a b | .maxN32 d a b
  | .andB d a b | .orB d a b | .xorB d a b | .shl d a b | .shr d a b | .sar d a b | .andn d a b | .divS32 d a b | .divN32 d a b
  | .remS32 d a b | .remN32 d a b | .absdS32 d a b | .prmt d a b | .rot d a b | .bfeS32 d a b | .bfeN32 d a b | .sel d a b _
  | .fadd d a b | .fsub d a b | .fmul d a b | .fmin d a b | .fmax d a b | .fminn d a b | .fmaxn d a b | .fcopys d a b | .fldx d a b
  | .hadd2 d a b | .hmul2 d a b | .hmin2 d a b | .hmax2 d a b | .hpk d a b | .bpk d a b | .badd2 d a b | .bmul2 d a b | .bmin2 d a b | .bmax2 d a b
  | .shflIdx d a b | .shflUp d a b | .shflDown d a b | .shflXor d a b | .barr d a b | .btest d a b => [d.toNat, a.toNat, b.toNat]
  | .mad d a b | .bfi d a b | .ffma d a b | .fnma d a b | .hfma2 d a b | .bfma2 d a b => [d.toNat, a.toNat, b.toNat, (third c d).toNat]
  | .madwS32 d a b | .madwN32 d a b => two d ++ [a.toNat, b.toNat] ++ two (third c d)
  | .addB64 d a b | .subB64 d a b | .dadd d a b | .dsub d a b | .dmul d a b | .dmin d a b | .dmax d a b => two d ++ two a ++ two b
  | .dfma d a b => two d ++ two a ++ two b ++ two (third c d)
  | .lea0 d a b | .lea1 d a b | .lea2 d a b | .lea3 d a b => two d ++ two a ++ [b.toNat]
  | .addi d a _ | .andi d a _ | .ori d a _ | .xori d a _ => [d.toNat, a.toNat]
  | .shli d a _ | .shri d a _ | .sari d a _ | .roti d a _ => [d.toNat, a.toNat]
  | .movi d _ | .movhi d _ => [d.toNat]
  | .mov d a | .popc d a | .clz d a | .brev d a | .ffs d a | .sext8 d a | .sext16 d a | .zext8 d a | .zext16 d a | .notB d a
  | .ex2 d a | .lg2 d a | .rcp d a | .rsq d a | .sqrt d a | .sin d a | .cos d a | .tanh d a | .sig d a
  | .rndn d a | .rndz d a | .rndd d a | .rndu d a | .fclass d a | .htof d a _ | .btof d a _ | .voteMatch d a | .shflRdx d a _ => [d.toNat, a.toNat]
  | .movB64 d a | .rawait d a => two d ++ two a
  | .cmp _ _ a b cc => if cc.toNat < 10 then [a.toNat, b.toNat] else two a ++ two b
  | .fcmp _ _ a b cc => if cc.toNat < 8 then [a.toNat, b.toNat] else two a ++ two b
  | .cmpi _ _ a _ _ => [a.toNat]
  | .ptov d | .voteBallot d _ | .voteActive d | .votePopn d _ | .rqry d | .tunres d => [d.toNat]
  | .vtop a b | .binit a b | .bwait a b | .waita a b | .mode a b | .thcur _ a b | .join _ a b => [a.toNat, b.toNat]
  | .fcvt d a w r _ => codeRegs w.toNat d ++ codeRegs r.toNat a
  | .ld d a z _ => dataRegs d (loadSize z.toNat) ++ two a
  | .st d a z _ => dataRegs d (storeSize z.toNat) ++ two a
  | .ldp d a z _ => a.toNat :: dataRegs d (loadSize z.toNat)
  | .stp d a z _ => a.toNat :: dataRegs d (storeSize z.toNat)
  | .ldq d a z _ _ | .stl d a z _ _ => dataRegs d (if z = 1 then 8 else 4) ++ two a
  | .atom d a b f => (if atomNoret c then [] else dataRegs d (atomSize f.toNat)) ++ two a ++ dataRegs b (atomSize f.toNat)
      ++ (if isCas f.toNat then dataRegs (third c d) (atomSize f.toNat) else [])
  | .atomp d a b f => (if atomNoret c then [] else [d.toNat]) ++ [a.toNat, b.toNat] ++ (if isCas f.toNat then [(third c d).toNat] else [])
  | .pref a | .rrel a | .brx a | .callx a | .gang a => two a
  | .clk d => two d
  | .accrd d a _ | .accwr d a _ => [d.toNat, a.toNat]
  | .tload d a _ | .tstore d a _ | .tgath d a _ | .tscat d a _ | .tscata d a _ | .tmcast d a _ => d.toNat :: four a
  | .tpref a _ => four a
  | .pfree a | .sleepc a | .dpload _ a | .thset _ a | .thget _ a | .scupd _ a => [a.toNat]
  | .rpush d a b | .chain d a b | .qlaunch d a b | .fork d a b | .tres d a b | .softi d a b => d.toNat :: b.toNat :: two a
  | .fold _ a b _ => keyRegs a (c.x.getLsbD 4) ++ (List.range (c.x.toNat % 16 + 1)).map (b.toNat + ·)
  | .rank d a _ => d.toNat :: keyRegs a (c.x.getLsbD 4)
  | .rebal d a _ | .rbtot d a => two d ++ [a.toNat]
  | .walk d a _ => a.toNat :: two d
  | .pdig d a b => b.toNat :: (two d ++ two a)
  | .sysr d n => if pairSys n.toNat then two d else [d.toNat]
  | .sysw a n => if pairSys n.toNat then two a else [a.toNat]
  | .tlbiVa a b => b.toNat :: two a
  | .tlbiAsid b | .tlbiAll b => [b.toNat]
  | .movC d v | .addC d v | .subC d v | .andC d v | .orC d v | .xorC d v | .faddC d v | .fmulC d v | .fmaxC d v | .minS32C d v | .maxS32C d v =>
    [d.toNat, v.toNat]
  | .moviC d _ | .addiC d _ | .shliC d _ | .shriC d _ | .sariC d _ => [d.toNat]
  | _ => []

/-- Instructions that stay behind a node read that their thread has left queued: those that access the pad, where the read's feature
lies (R140), that take the trail or add to it (R243, R244), or that change which registers there are (R146). -/
def staysBehind : Instr → Bool
  | .ldp .. | .stp .. | .atomp .. | .binit .. | .barr .. | .bwait .. | .btest .. | .waita .. | .rpush .. | .qlaunch .. | .fork .. | .thset .. | .thget ..
  | .dpload .. | .scupd .. | .walk .. | .trclr | .pdig .. | .rgive _ | .rtake _ => true
  | _ => false

end Sys2Proof.Machine
end

