-- ==== Sys2Proof/Machine/Sha3.lean ====
section
/-! DEFINITION. SHA3-256 and SHA3-512, which the trail, the audit ring, the seal chain, attestation and the tier's keys name
(spec/11 R243 to R248, spec/15 R333 to R335): the Keccak permutation of FIPS 202 (PRESUMED, log 8). -/

namespace Sys2Proof.Machine

/-- A lane of the Keccak state, and the state: lane x + 5·y. -/
abbrev Keccak := List (BitVec 64)
def Keccak.at (a : Keccak) (i : Nat) : BitVec 64 := (a[i]?).getD 0

/-- Rotation offsets by lane. -/
def rhoOffsets : List Nat := [0, 1, 62, 28, 27, 36, 44, 6, 55, 20, 3, 10, 43, 25, 39, 41, 45, 15, 21, 8, 18, 2, 61, 56, 14]
/-- Round constants. -/
def iotaConsts : List (BitVec 64) :=
  [0x0000000000000001, 0x0000000000008082, 0x800000000000808A, 0x8000000080008000, 0x000000000000808B, 0x0000000080000001,
   0x8000000080008081, 0x8000000000008009, 0x000000000000008A, 0x0000000000000088, 0x0000000080008009, 0x000000008000000A] ++
  [0x000000008000808B, 0x800000000000008B, 0x8000000000008089, 0x8000000000008003, 0x8000000000008002, 0x8000000000000080,
   0x000000000000800A, 0x800000008000000A, 0x8000000080008081, 0x8000000000008080, 0x0000000080000001, 0x8000000080008008]

/-- Column parities mixed into every lane. -/
def keccakTheta (a : Keccak) : Keccak :=
  let c := (List.range 5).map fun x => a.at x ^^^ a.at (x + 5) ^^^ a.at (x + 10) ^^^ a.at (x + 15) ^^^ a.at (x + 20)
  let d := (List.range 5).map fun x => Keccak.at c ((x + 4) % 5) ^^^ (Keccak.at c ((x + 1) % 5)).rotateLeft 1
  (List.range 25).map fun i => a.at i ^^^ Keccak.at d (i % 5)
/-- Lanes rotated and moved: lane (y, 2x + 3y) takes lane (x, y). -/
def keccakRhoPi (a : Keccak) : Keccak :=
  (List.range 25).map fun i =>
    let src := (i % 5 + 3 * (i / 5)) % 5 + 5 * (i % 5)
    (a.at src).rotateLeft ((rhoOffsets[src]?).getD 0)
/-- The nonlinear step along rows. -/
def keccakChi (a : Keccak) : Keccak :=
  (List.range 25).map fun i =>
    let y := 5 * (i / 5)
    a.at i ^^^ (~~~ a.at (y + (i + 1) % 5) &&& a.at (y + (i + 2) % 5))
/-- One round. -/
def keccakRound (a : Keccak) (rc : BitVec 64) : Keccak :=
  match keccakChi (keccakRhoPi (keccakTheta a)) with
  | x :: xs => (x ^^^ rc) :: xs
  | [] => []
/-- The permutation on 1,600 bits. -/
def keccakF (a : Keccak) : Keccak := iotaConsts.foldl keccakRound a

/-- A block absorbed. -/
def keccakAbsorb (a : Keccak) (block : List Byte) : Keccak :=
  keccakF ((List.range 25).map fun i => a.at i ^^^ BitVec.ofNat 64 (leNat ((block.drop (8 * i)).take 8)))
/-- The message with its padding: 0x06 after it, the top bit of the last byte set. -/
def sha3Pad (rate : Nat) (m : List Byte) : List Byte :=
  let p := m ++ [(6 : Byte)]
  let p := p ++ List.replicate ((rate - p.length % rate) % rate) (0 : Byte)
  p.dropLast ++ [p.getLastD 0 ||| 0x80]
def sha3Go (rate : Nat) : Nat → List Byte → Keccak → Keccak
  | 0, _, a => a
  | n + 1, m, a => sha3Go rate n (m.drop rate) (keccakAbsorb a (m.take rate))
/-- The sponge with one squeeze. -/
def sha3 (rate out : Nat) (m : List Byte) : List Byte :=
  let p := sha3Pad rate m
  let a := sha3Go rate (p.length / rate) p (List.replicate 25 0)
  (a.flatMap fun l => leBytes 8 l.toNat).take out
def sha3_256 (m : List Byte) : List Byte := sha3 136 32 m
def sha3_512 (m : List Byte) : List Byte := sha3 72 64 m

end Sys2Proof.Machine
end

