-- ==== Sys2Proof/Machine/Walk.lean ====
section
/-! DEFINITION. Tree walk, path digests and the audit ring (spec/11). -/

namespace Sys2Proof.Machine

/-- A tree handle (R238). -/
structure Tree where
  base : Nat
  nodes : Nat
  stride : Nat
  offFeat : Nat
  offThr : Nat
  offLeft : Nat
  offRight : Nat
  offLeaf : Nat
  maxDepth : Nat
  thrFmt : Nat
  featFmt : Nat
  leafFmt : Nat
  sense : Bool
  miss : Nat
  leafEnc : Bool
  sealReq : Bool
  offFlags : Nat
  space : Bool
  kind : Nat
  reserved : Bool                     -- a reserved field is not zero
  deriving DecidableEq, Repr

/-- Reads a tree handle (R238). -/
def parseTree (e : BitVec 512) : Tree :=
  let x := e.toNat
  { base := bits x 63 0, nodes := bits x 95 64, stride := bits x 127 96, offFeat := bits x 135 128, offThr := bits x 143 136
    offLeft := bits x 151 144, offRight := bits x 159 152, offLeaf := bits x 167 160, maxDepth := bits x 175 168
    thrFmt := bits x 180 176, featFmt := bits x 185 181, leafFmt := bits x 190 186, sense := bit x 192, miss := bits x 194 193
    leafEnc := bit x 195, sealReq := bit x 196, offFlags := bits x 207 200, space := bit x 263, kind := bits x 262 261
    reserved := bit x 191 || bits x 199 197 ≠ 0 || bits x 255 208 ≠ 0 || bits x 260 256 ≠ 0 || bits x 319 264 ≠ 0 || bits x 511 384 ≠ 0 }

/-- Formats of features and thresholds (R238). -/
def treeFmt (f : Nat) : Bool := [1, 2, 3, 10, 11, 12, 28, 29].contains f
/-- Bytes of an element of a format. -/
def fmtBytes (f : Nat) : Nat := fmtWidth f / 8

/-- The first failing check of R239. -/
def Tree.check (h : Tree) (pad : Nat) : Option Nat :=
  let last := h.base + h.nodes * h.stride - 1
  if h.kind ≠ 1 then some 1
  else if h.reserved || h.nodes = 0 || decide (2 ^ 31 - 1 ≤ h.nodes) || h.stride % 4 ≠ 0 || decide (h.stride < 4) || decide (256 < h.stride)
      || !treeFmt h.thrFmt || !treeFmt h.featFmt || !(h.leafFmt = 1 || h.leafFmt = 2 || h.leafFmt = 3)
      || decide (h.stride < h.offFeat + 2) || decide (h.stride < h.offThr + fmtBytes h.thrFmt) || decide (h.stride < h.offLeft + 4)
      || decide (h.stride < h.offRight + 4) || decide (h.stride < h.offLeaf + fmtBytes h.leafFmt)
      || (h.miss = 2 && decide (h.stride < h.offFlags + 1)) || h.miss = 3 || h.maxDepth = 0 || h.base % 4 ≠ 0
      || (if h.space then decide (pad ≤ last) else decide (2 ^ 52 ≤ last)) || (h.sealReq && h.space) then some 0xE
  else none

/-- A little-endian field of a node. -/
def nodeField (node : List Byte) (off n : Nat) : Nat := leNat ((node.drop off).take n)

/-- A leaf value widened exactly to FP32 (R241). -/
def widenLeaf (fmt x : Nat) : Nat := if fmt = 1 then x else widen (if fmt = 2 then f16 else bf16) x

/-- The outcome of comparing a feature with a threshold: 0 left, 1 right (R241). -/
def Tree.outcome (h : Tree) (node : List Byte) (x t : Val) : Nat :=
  if x.isNan || t.isNan then
    (match h.miss with
     | 0 => 0
     | 1 => 1
     | _ => nodeField node h.offFlags 1 % 2)
  else if h.sense then (if valLt t x then 1 else 0) else (if valLt x t then 0 else 1)

/-- The step is absorbed into the trail (R244). -/
def Thread.absorb (t : Thread) (n h out : Nat) : Thread :=
  { t with trail := t.trail ++ leBytes 4 n ++ leBytes 4 (h + 2 ^ 8 * out), steps := t.steps + 1 }
/-- The trail is clear (R243). -/
def Thread.clearTrail (t : Thread) : Thread := { t with trail := [], steps := 0 }

/-- The node of a WALK as captured: number, and whether the state is a leaf's (R241). -/
def WalkCmd.leaf (c : WalkCmd) : Bool := (parseTree c.handle).leafEnc && bit c.node 31
def WalkCmd.num (c : WalkCmd) : Nat := if c.leaf then c.node % 2 ^ 31 else c.node
/-- Address and width of the feature that a node's bytes ask for; none at a leaf (R240, R241). -/
def WalkCmd.feature (c : WalkCmd) (node : List Byte) : Option (Nat × Nat) :=
  let h := parseTree c.handle
  let feat := nodeField node h.offFeat 2
  if c.leaf || (!h.leafEnc && feat = 0xFFFF) then none else some (c.row + feat * fmtBytes h.featFmt, fmtBytes h.featFmt)
/-- The feature lies in the team's pad. -/
def WalkCmd.fits (c : WalkCmd) (t : Team) (node : List Byte) : Bool :=
  match c.feature node with
  | some (addr, w) => decide (addr + w ≤ t.padSize)
  | none => true
/-- What a WALK does to its thread with its node's bytes, its feature in the pad (R241). -/
def walkResult (s : State) (k : Nat) (d : Reg) (hn : Nat) (c : WalkCmd) (node : List Byte) : (Thread → Thread) × State :=
  let h := parseTree c.handle
  match c.feature node with
  | none =>
    let v := widenLeaf h.leafFmt (nodeField node h.offLeaf (fmtBytes h.leafFmt))
    (fun t => ((t.setReg (d.toNat + 1) (BitVec.ofNat 32 v)).setReg d.toNat 0xFFFFFFFF).absorb c.num hn 2, s)
  | some (addr, w) =>
    let (bs, s) := padRead s k addr w
    let x := (fmtOf h.featFmt).decode (leNat bs)
    let t := (fmtOf h.thrFmt).decode (nodeField node h.offThr (fmtBytes h.thrFmt))
    let out := h.outcome node x t
    let next := nodeField node (if out = 0 then h.offLeft else h.offRight) 4
    (fun t => (t.setReg d.toNat (BitVec.ofNat 32 next)).absorb c.num hn out, s)
/-- The rest of a WALK with its node's bytes (R241). -/
def walkNode (s : State) (tid : Nat) (d : Reg) (hn : Nat) (c : WalkCmd) (node : List Byte) : State :=
  if c.fits s.here node then
    let (f, s) := walkResult s s.cur.team d hn c node
    completeWith s tid f
  else trapHere s tid 0xD 0 ((c.feature node).getD (0, 0)).1

/-- A read at an address reaches no sealed region (R100). -/
def unsealedAt (s : State) (pa : Nat) (leafSealed : Bool) : Bool := !(leafSealed && s.sealMap.contains (pa / 2 ^ 16))
/-- A read of a node whose parts are translated (R242): at device scope or from a resident range. -/
def walkRead (s : State) (tid : Nat) (parts : List (Nat × Nat × Nat)) (unsealed : Bool) (h : Tree) (body : State → List Byte → State) : State :=
  let va := (parts.head?.map (·.1)).getD 0
  if h.sealReq && unsealed then trapHere s tid 3 (xinfo 0xA .load 0) va
  else match poisonedPart s (isServed s s.cur.team) parts with
    | some a => trapHere s tid 6 0 a
    | none =>
      let (bs, s) := engineRead true s.cur.team 0 5 s parts
      body s bs
/-- A node's parts, none crossing 1 KiB: each is translated, but for one that a resident range serves where no seal is asked for
(R101, R242). -/
def walkParts (i : Instr) (h : Tree) (tid : Nat) (body : State → List (Nat × Nat × Nat) → Bool → State) :
    List (Nat × Nat) → State → List (Nat × Nat × Nat) → Bool → State
  | [], s, done, unsealed => body s done unsealed
  | (va, n) :: rest, s, done, unsealed =>
    if !h.sealReq && isServed s s.cur.team va then walkParts i h tid body rest s (done ++ [(va, 0, n)]) unsealed
    else access s tid va n .load false i 0 fun s pa sl =>
      walkParts i h tid body rest s (done ++ [(va, pa, n)]) (unsealed || unsealedAt s pa sl)

/-- The node of a global table has been reached, and stands as it would be read now, in state `t`: it is read, or is left in the walk unit's
queue while the thread goes on (R242, R259): an open choice (DEDUCED, log 51). -/
def walkOn (s t : State) (tid : Nat) (d : Reg) (hn : Nat) (c : WalkCmd) (parts : List (Nat × Nat × Nat)) (node : List Byte) : State :=
  if !c.fits t.here node then walkNode t tid d hn c node
  else
    let (now, t) := freeBit t
    if now then walkNode t tid d hn c node
    else completeWith { s with freeCount := t.freeCount } tid fun u => { u with ld := u.ld + 1, node := some ⟨c, d, hn, parts, node⟩ }
/-- A WALK's later step (R242, R259): the walk unit translates the node's parts, with what it captured. -/
def walkStep (d a : Reg) (hn : BitVec 4) (tid : Nat) (c : WalkCmd) (s : State) : State :=
  let h := parseTree c.handle
  let va := h.base + c.num * h.stride
  if h.space then
    let (bs, s) := padRead s s.cur.team va h.stride
    walkNode s tid d hn.toNat c bs
  else
    walkParts (.walk d a hn) h tid (fun s parts unsealed =>
      walkRead s tid parts unsealed h fun t bs => walkOn s t tid d hn.toNat c parts bs) (kibRange va h.stride) s [] false

/-- A queued node read still finds its part where it was: from a resident range, or translated to the same address, without an error in it,
and sealed where a seal is asked for (R100, R242). -/
def partStands (s : State) (k : Nat) (h : Tree) (p : Nat × Nat × Nat) : Bool :=
  let t := s.team k
  (!h.sealReq && isServed s k p.1) ||
    (peek s t.vmid t.asid p.1 = some p.2.1 && !poisoned s p.2.1 p.2.2 && (!h.sealReq || s.sealMap.contains (p.2.1 / 2 ^ 16)))
/-- A node read that was left queued is performed (R259): at this step, or, where the node is no longer to be had so, as the bytes stood when
it was queued (DEDUCED, log 51). -/
def nodeStep (k tid : Nat) (s : State) : State :=
  match (s.thread k tid).node with
  | none => s
  | some n =>
    let (bs, s1) := engineRead true k 0 5 s n.parts
    let again := n.parts.all (partStands s k (parseTree n.cmd.handle)) && n.cmd.fits (s.team k) bs
    let (node, s) := if again then (bs, s1) else (n.bytes, s)
    let (f, s) := walkResult s k n.d n.handle n.cmd node
    s.modThread k tid fun t => { f t with ld := t.ld - 1, node := none }
/-- Threads of a team with a node read queued. -/
def Team.queued (t : Team) : List Nat := (t.threads.filter fun e => e.2.node.isSome).map (·.1)
/-- The node reads that threads of the issue group have left queued and that must go before the instruction (R33, R242). -/
def ahead (s : State) (i : Instr) : List Nat :=
  s.tids.filter fun tid => match (s.here.thread tid).node with
    | none => false
    | some n => staysBehind i || (named s.cur i).any fun r => r = n.d.toNat || r = n.d.toNat + 1

/-- WALK for one thread (R241): its checks, then the walk unit takes the command with the entry of its handle (R15, R201); the thread
waits at its instruction for the node's step. -/
def walkLane (d a : Reg) (hn : BitVec 4) (tid : Nat) (s : State) : State :=
  let th := s.here.thread tid
  match th.command with
  | some c => walkStep d a hn tid c s
  | none =>
    let c : WalkCmd := ⟨s.here.handle hn.toNat, (th.reg d.toNat).toNat, (th.reg a.toNat).toNat⟩
    let h := parseTree c.handle
    if c.node = 0xFFFFFFFF then complete s tid
    else if 63 ≤ th.ld then blockOn s tid .limit
    else match h.check s.here.padSize with
      | some code => handleTrap s tid code hn.toNat
      | none =>
        let va := h.base + c.num * h.stride
        if h.nodes ≤ c.num then trapHere s tid 0xC (1 + hn.toNat * 2 ^ 8) va
        else if h.maxDepth ≤ th.steps then trapHere s tid 0xC (2 + hn.toNat * 2 ^ 8) va
        else remain (s.modThread s.cur.team tid fun t => { t with pc := s.cur.pc, wait := .ready, command := some c }) tid (some (.walk d a hn))

/-- WALK (R240). -/
def execWalk (d a : BitVec 7) (h : BitVec 4) : State → Out := lanes (a.toNat :: two d) (walkLane d a h)
/-- TRCLR (R244). -/
def execTrclr (s : State) : Out := finish (eachLane [] (fun tid s => completeWith s tid Thread.clearTrail) s)

/-- An audit record (R246). -/
def auditRecord (seq tid grid steps value key : Nat) (digest : List Byte) : List Byte :=
  leBytes 64 (leNat digest + key * 2 ^ 256 + value * 2 ^ 320 + steps * 2 ^ 352 + grid * 2 ^ 384 + tid * 2 ^ 416 + seq % 2 ^ 64 * 2 ^ 448)

/-- PDIG (R245). -/
def execPdig (d a b : BitVec 7) : State → Out :=
  lanes (b.toNat :: (two d ++ two a)) fun tid s =>
    let v := s.here.vf
    if !auditRoom s v then blockOn s tid .audit
    else
      let th := s.here.thread tid
      let key := (th.pair a.toNat).toNat
      let value := (th.reg b.toNat).toNat
      let digest := sha3_256 (th.trail ++ leBytes 8 key ++ leBytes 4 value)
      let f := s.vf v
      let q := f.auditSeq
      let r := auditRecord q tid s.here.gridId.toNat th.steps value key digest
      let s := s.setVf v { f with auditSeq := q + 1, auditRecs := Store.set [] f.auditRecs (q % Config.auditRing) r }
      completeWith s tid fun t => (t.setPair d.toNat (BitVec.ofNat 64 q)).clearTrail

/-- Closes and signs a block of up to 4,096 of a VF's unsigned records (R248): none where there is no such record; the numbers hashed into
it are little-endian (DESIGN CHOICE, log 50). -/
def closeBlock (s : State) (v : Nat) : State :=
  let f := s.vf v
  let n := min Config.auditBlock (f.auditSeq - f.auditSigned)
  if n = 0 then s
  else
    let recs := (List.range n).flatMap fun i => Store.get [] f.auditRecs ((f.auditSigned + i) % Config.auditRing)
    let h := sha3_512 (f.auditChain ++ leBytes 8 f.auditSigned ++ leBytes 4 n ++ recs)
    s.setVf v { f with auditSigned := f.auditSigned + n, auditChain := h, signatures := f.signatures ++ [Config.mldsaSign 1 h] }
/-- Records for a whole block are open. -/
def blockFull (s : State) (v : Nat) : Bool := decide (Config.auditBlock ≤ (s.vf v).auditSeq - (s.vf v).auditSigned)
/-- AUDIT_BLOCK_CLOSE (R248). -/
def execAuditBlockClose (v : Nat) (s : State) : Out := .next (if blockFull s v then closeBlock s v else s)

end Sys2Proof.Machine
end

