-- ==== Sys2Proof/Machine/Paging.lean ====
section
/-! DEFINITION. Resident ranges (spec/04 R101 to R105), the machine's own memory steps (spec/12 R252, R255), walks (R82), the
page-promotion engines (spec/04 R89 to R97) and the replay of park records (spec/14 R296 to R301). -/

namespace Sys2Proof.Machine

-- Resident ranges

/-- Bytes of a core's resident region for a signature (R135). -/
def residentSize (sig : Nat × Nat × Nat) : Nat := 4194304 - sig.2.2 * 1024
/-- The team's core changes its list of ranges. -/
def modRanges (s : State) (k : Nat) (f : List Range → List Range) : State :=
  match (s.team k).place with
  | some p => s.setCore p.core { s.core p.core with ranges := f (s.core p.core).ranges }
  | none => s
def rangesOf (s : State) (k : Nat) : List Range :=
  match (s.team k).place with
  | some p => (s.core p.core).ranges
  | none => []
/-- The range that a thread is filling. -/
def fillingOf (s : State) (k tid : Nat) : Option Range := (rangesOf s k).find? fun r => r.filler = (k, tid) && !r.live
/-- A thread's unfinished range ends. -/
def dropFilling (s : State) (k tid : Nat) : State := modRanges s k fun l => l.filter fun r => !(decide (r.filler = (k, tid)) && !r.live)
/-- A change to a thread's unfinished range. -/
def modFilling (s : State) (k tid : Nat) (f : Range → Range) : State :=
  modRanges s k fun l => l.map fun r => if r.filler = (k, tid) && !r.live then f r else r

/-- The checks of R102: a failing one's cause, `$tinfo` and `$tfa` (DEDUCED, log 43). -/
def tresCheck (s : State) (k base len off : Nat) : Option (Nat × Nat × Nat) :=
  let t := s.team k
  if base % 1024 ≠ 0 || len % 1024 ≠ 0 || off % 1024 ≠ 0 || len = 0 then some (2, 0, base)
  else if 2 ^ 52 < base + len then some (3, xinfo 1 .load 0, base)
  else if residentSize t.desc.sig < off + len then some (0xD, 0, 0)
  else if 16 ≤ (rangesOf s k).length || (rangesOf s k).any (fun r => (decide (r.off < off + len) && decide (off < r.off + r.len))
      || (r.grid = t.grid && decide (r.base < base + len) && decide (base < r.base + r.len))) then some (0xD, 0, 0)
  else none

/-- Fills the remaining pieces of 256 bytes, then marks the range live (R102; DEDUCED, log 43). -/
def tresGo (i : Instr) (tid : Nat) : Nat → State → State
  | 0, s => complete (modFilling s s.cur.team tid fun r => { r with live := true }) tid
  | n + 1, s =>
    match fillingOf s s.cur.team tid with
    | none => s
    | some r =>
      let va := r.base + r.bytes.length
      access s tid va 256 .load false i (r.bytes.length / 256) fun s pa _ =>
        if poisoned s pa 256 then trapHere s tid 6 0 va
        else
          let (bs, s) := engineRead false s.cur.team 0 8 s [(va, pa, 256)]
          tresGo i tid n (modFilling s s.cur.team tid fun r => { r with bytes := r.bytes ++ bs, src := r.src ++ [pa] })
/-- A thread that no longer waits in its TRES leaves no unfinished range. -/
def tresSettle (s : State) (k tid : Nat) : State :=
  match (s.thread k tid).wait with
  | .parked => s
  | .walk _ => s
  | _ => dropFilling s k tid
/-- TRES (R102, R105). -/
def execTres (d a b : BitVec 7) : State → Out :=
  lanes (d.toNat :: b.toNat :: two a) fun tid s =>
    let k := s.cur.team
    let th := s.here.thread tid
    let i : Instr := .tres d a b
    match fillingOf s k tid with
    | some r => tresSettle (tresGo i tid ((r.len - r.bytes.length) / 256) s) k tid
    | none =>
      if 63 ≤ th.ld then blockOn s tid .limit
      else
        let base := (th.pair a.toNat).toNat
        let len := (th.reg b.toNat).toNat
        let off := (th.reg d.toNat).toNat
        match tresCheck s k base len off with
        | some (cause, info, tfa) => trapHere s tid cause info tfa
        | none =>
          let r : Range := ⟨s.here.grid, s.here.vmid, s.here.asid, base, len, off, false, [], (k, tid), [], []⟩
          tresSettle (tresGo i tid (len / 256) (modRanges s k fun l => l ++ [r])) k tid
/-- TUNRES (R103). -/
def execTunres (d : BitVec 7) (s : State) : Out :=
  finish (eachLane [d.toNat] (fun tid s =>
    let off := ((s.here.thread tid).reg d.toNat).toNat
    let g := s.here.grid
    complete (modRanges s s.cur.team fun l => l.filter fun r => !(decide (r.grid = g) && decide (r.off = off))) tid) s)

-- The machine's own steps

/-- A slice runs its first 16 walks in order of arrival; the others wait in its queue (R82). -/
def walkRuns (s : State) (w : Nat) (x : Walk) : Bool :=
  ((s.walks.filter fun e => bits e.2.va 15 8 = bits x.va 15 8).take Config.walksPerSlice).any fun e => e.1 = w
/-- TRANSLATION_WALK (R82): the walk fills the TLB, and every request attached to it receives its result. -/
def execTranslationWalk (w : Nat) (s : State) : Out :=
  match s.walks.find? fun e => e.1 = w with
  | some (_, x) =>
    if !walkRuns s w x then .next s
    else
      let (r, s) := walkFill s x.vmid x.asid x.va
      finish { s with walks := s.walks.filter fun e => e.1 ≠ w, answers := s.answers ++ x.waiters.map fun o => ⟨o, x.vmid, x.asid, x.va, r⟩ }
  | none => .next s
/-- SNAPSHOT_PREFETCH (R252). -/
def execSnapshotPrefetch (k : Nat) (va : BitVec 64) (s : State) : Out :=
  if (s.team k).phase ≠ .resident then .next s
  else match translate s (whoOf s k) .load va.toNat 1 with
    | (.ok pa _ _, s) => if poisoned s (pa / 32 * 32) 32 then .next s else finish (fillSector s k va.toNat pa)
    | (_, s) => .next s
/-- SNAPSHOT_EMPTY (R252). -/
def execSnapshotEmpty (k : Nat) (va : BitVec 64) (s : State) : Out :=
  .next (s.modTeam k fun t => { t with snap := Store.set [] t.snap (va.toNat / 32) [] })
/-- No older entry of W covers a byte of entry `n` (R252). -/
def drainable (w : List WEntry) (n : Nat) : Bool :=
  match w[n]? with
  | some e => !(w.take n).any fun o => o.meets e.va e.bytes.length
  | none => false
/-- WRITE_BUFFER_DRAIN (R252): unreleased for the race detector. -/
def execWriteBufferDrain (k n : Nat) (s : State) : Out :=
  match (s.team k).w[n]? with
  | some e =>
    if drainable (s.team k).w n && enginesRun s k then finish (writeEntry 0 k (s.modTeam k fun t => { t with w := t.w.eraseIdx n }) e) else .next s
  | none => .next s
/-- OUTBOUND_PERFORM (R255, R321): a queued write that none before it holds back. -/
def execOutboundPerform (n : Nat) (s : State) : Out :=
  match s.outbound[n]? with
  | some w =>
    if (s.outbound.take n).any fun o => outOrdered o w then .next s
    else finish (outPut { s with outbound := s.outbound.eraseIdx n } w)
  | none => .next s

-- Faults served

/-- A fault closes, and its records end waiting together (R298, R300). -/
def endFault (s : State) (id : Nat) (mk : Nat → ParkState) : State :=
  { s with parks := s.parks.map (fun p => if p.state = .waiting id then { p with state := mk s.resolveNo } else p)
           faults := s.faults.filter (fun f => f.id ≠ id), resolveNo := s.resolveNo + 1 }
def resolveFault (s : State) (id : Nat) : State := endFault s id fun n => .resolved n
def failFault (s : State) (id cause info : Nat) : State := endFault s id fun n => .failed n cause info
def findFault (s : State) (id : Nat) : Option FaultRec := s.faults.find? fun f => f.id = id
/-- The frame held for a migration is given back (R96). -/
def dropHeld (s : State) (f : FaultRec) : State :=
  match f.held with
  | some fr => { giveFrame s f.vmid fr with faults := (giveFrame s f.vmid fr).faults.map fun g => if g.id = f.id then { g with held := none } else g }
  | none => s

/-- The tenant key of a slot; an empty slot's is undefined (R90, R335). -/
def tenantKey (s : State) (slot : Nat) : List Byte × State :=
  match Store.get none s.keys slot with
  | some k => (k, s)
  | none => freeBytes s 32
def keySlot (s : State) (vmid : Nat) : Nat := bits (vmidRec s vmid 16) 47 40
/-- The management core or an engine reads a VMID record (R339). -/
def vmidRead (s : State) (vmid : Nat) : State := coreRead s (s.vmtbase.toNat + 64 * vmid) 64
/-- The key that a promotion or demotion works with: its VMID's, or the one it kept when the slot was cleared (R326, R335). -/
def workKey (s : State) (vmid : Nat) : Option (List Byte) → List Byte × State
  | some k => (k, s)
  | none => tenantKey s (keySlot s vmid)
/-- The IV of a block of a tier frame (R90; PRESUMED, log 37). -/
def tierIv (version frame vf block : Nat) : List Byte :=
  beBytes 12 (version % 2 ^ 32 * 2 ^ 64 + frame / 2 ^ 16 % 2 ^ 36 * 2 ^ 28 + vf % 2 ^ 8 * 2 ^ 20 + block * 2 ^ 16)
/-- The record of a tier frame: its version and tags (R90; DESIGN CHOICE, log 33). -/
def tierRec (s : State) (frame : Nat) : Nat × List (List Byte) := Store.get (0, []) s.tierRecs (frame / 2 ^ 16)
/-- Decrypts a tier page; none where a tag does not check (R91). -/
def decryptPage (key : List Byte) (version frame vf : Nat) (tags : List (List Byte)) (page : List Byte) : Option (List Byte) :=
  (List.range 16).foldl (fun (acc : Option (List Byte)) i =>
    match acc, gcmDecrypt key (tierIv version frame vf i) ((page.drop (4096 * i)).take 4096) ((tags[i]?).getD (List.replicate 16 0)) with
    | some a, some b => some (a ++ b)
    | _, _ => none) (some [])
/-- Encrypts a page: ciphertext and tags (R93). -/
def encryptPage (key : List Byte) (version frame vf : Nat) (page : List Byte) : List Byte × List (List Byte) :=
  (List.range 16).foldl (fun (acc : List Byte × List (List Byte)) i =>
    let r := gcmEncrypt key (tierIv version frame vf i) ((page.drop (4096 * i)).take 4096)
    (acc.1 ++ r.1, acc.2 ++ [r.2])) ([], [])

/-- A leaf made local in a frame with a migration count (R91, R96). -/
def localLeaf (e frame mcount : Nat) : Nat := putBits (putBits (putBits (putBits e 63 63 0) 51 16 (frame / 2 ^ 16)) 5 5 0) 7 6 mcount
/-- A fault waits for a promotion (R91): its leaf is a tier leaf that is not settled (R97), or has changed since
(DEDUCED, log 32). -/
def promotable (s : State) (f : FaultRec) : Bool :=
  f.major = none && f.pend = none && f.held = none && f.pteAddr ≠ 0 && !(leafState (s.rdNat f.pteAddr 8) = .tier && pteCount (s.rdNat f.pteAddr 8) = 3)
    && leafState (s.rdNat f.pteAddr 8) ≠ .transit
/-- PROMOTION (R91, R92); the IV names the VF of the page's VMID (R76, R90). -/
def promote (s : State) (f : FaultRec) : State :=
  let e := s.rdNat f.pteAddr 8
  if leafState e ≠ .tier then resolveFault s f.id
  else match takeFrame (vmidRead s f.vmid) f.vmid with
    | (none, s) => makeMajor s f.id 0x10
    | (some fr, s) =>
      let tf := pteFrame e
      let (version, tags) := tierRec s tf
      let (key, s) := workKey s f.vmid f.key
      let s := touch s tf 65536
      match decryptPage key version tf (recVf s f.vmid) tags (s.rd tf 65536) with
      | none =>
        let s := giveFrame s f.vmid fr
        post (failFault s f.id 5 0) f.vf 8 0 f.page f.asid tf
      | some page =>
        let s := s.offer fr page
        let s := s.offer f.pteAddr (leBytes 8 (putBits (putBits (localLeaf e fr (pteCount e + 1)) 8 8 0) 10 10 0))
        resolveFault (giveTier s f.vmid tf) f.id
/-- PROMOTION (R91). -/
def execPromotion (f : Nat) (s : State) : Out :=
  match findFault s f with
  | some r => if promotable s r then finish (promote s r) else .next s
  | none => .next s

-- Pages that leave their frame

/-- A leaf in transit (R74). -/
def transitLeaf (e : Nat) : Nat := putBits (putBits e 63 63 1) 5 5 1
/-- A page begins to leave its frame: its leaf is in transit and its translations are invalidated; the accesses under way are waited for
(R87, R93, R96). -/
def startMove (s : State) (m : Move) : State :=
  let (l, s) := dropPage (s.offer m.leafAddr (leBytes 8 (transitLeaf m.old))) m.vmid m.asid m.page
  { s with moves := s.moves ++ [{ m with wait := l }] }
/-- The accesses that the page waits for have completed. -/
def Move.clear (m : Move) (s : State) : Bool := !m.wait.any (inFlight s)
/-- The page has left. -/
def dropMove (s : State) (m : Move) : State := { s with moves := s.moves.filter fun x => x ≠ m }
/-- A demotion's last steps (R93): the page encrypted into its tier frame under the next version, the leaf, the frame given back. -/
def finishDemote (s : State) (m : Move) (tf : Nat) : State :=
  let s := touch (touch (vmidRead s m.vmid) m.frame 65536) tf 65536
  let version := (tierRec s tf).1 + 1
  let (key, s) := workKey s m.vmid m.key
  let (text, tags) := encryptPage key version tf (recVf s m.vmid) (s.rd m.frame 65536)
  let s := { s.put tf text with tierRecs := Store.set (0, []) s.tierRecs (tf / 2 ^ 16) (version, tags) }
  let e' := putBits (putBits (putBits (putBits m.old 51 16 (tf / 2 ^ 16)) 5 5 1) 8 8 1) 7 6 (pteCount m.old + 1)
  giveFrame (dropMove (s.offer m.leafAddr (leBytes 8 e')) m) m.vmid m.frame
/-- A demotion of a VMID's slot, or a promotion under it, is running (R335). -/
def slotBusy (s : State) (slot : Nat) : Bool :=
  (s.moves.any fun m => m.tier.isSome && keySlot s m.vmid = slot) || s.faults.any fun f => promotable s f && keySlot s f.vmid = slot
/-- Key slots are cleared; the demotions and promotions that run go on with the key they have (R326, R335; DEDUCED, log 40). -/
def clearKeys (s : State) (p : Nat → Bool) : State :=
  let keep (vmid : Nat) (k : Option (List Byte)) : Option (List Byte) :=
    if k.isNone && p (keySlot s vmid) then Store.get none s.keys (keySlot s vmid) else k
  { s with keys := s.keys.filter fun e => !p e.1
           faults := s.faults.map fun f => if promotable s f then { f with key := keep f.vmid f.key } else f
           moves := s.moves.map fun m => { m with key := keep m.vmid m.key } }

/-- The tenant that the export table grants a frame to, plus one; 0 for none (R332). -/
def exported (s : State) (pa : Nat) : Nat := Store.get 0 s.exports (pa / 2 ^ 16)
def setExport (s : State) (pa v : Nat) : State := { s with exports := Store.set 0 s.exports (pa / 2 ^ 16) v }
def tenantOf (s : State) (fn : Nat) : Nat := if fn = pf then 0 else bits (s.vf fn).cfg.toNat 63 48
/-- The settle record (R97). -/
def settleRecord (s : State) (fn page asid holder mcount : Nat) : State := if mcount = 3 then post s fn 5 0 page asid holder else s

/-- The page is sent to the peer that asked for it (R96, R97). -/
def finishMigration (s : State) (m : Move) (r : MigRequest) : State :=
  let n := max (pteCount m.old) r.mcount.toNat + 1
  let s := touch s m.frame 65536
  let bytes := s.rd m.frame 65536
  let s := giveFrame s m.vmid m.frame
  let e' := putBits (putBits (putBits (putBits (putBits m.old 63 63 1) 5 5 0) 59 56 r.peer.toNat) 51 16 (r.held / 2 ^ 16)) 7 6 n
  let s := setExport (dropMove (s.offer m.leafAddr (leBytes 8 e')) m) m.frame 0
  { settleRecord s r.vf m.page m.asid r.peer.toNat n with migReply := some (.page bytes (BitVec.ofNat 2 n)) }
/-- MIGRATION_REQUEST (R96, R97, R332): this device holds the page (DEDUCED, log 31). A page that is to go is in transit first, and is sent
when the accesses under way have completed; in P4 the request is ignored, in P3 it wakes the device (R337). -/
def execMigrationRequest (r : MigRequest) (s : State) : Out :=
  let vmid := vmidOf s r.vf
  let asid := r.asid.toNat
  let page := r.page.toNat / 2 ^ 16 * 2 ^ 16
  let answer (x : MigReply) : Out := .next { s with migReply := some x, idle := false }
  if s.off then .next s
  else match s.moves.find? fun m => m.request = some r with
  | some m => if m.clear s then finish (finishMigration s m r) else .next s
  | none =>
    if exported s r.frame ≠ r.tenant.toNat + 1 then answer .denied
    else match walk (vmidRead s vmid) vmid asid page with
      | .leaf e addr pa big _ _ =>
        let st := leafState e
        if st = .remote || st = .transit then answer .moved
        else if st = .tier || big || pa ≠ r.frame || !inHbm pa || bit e 4 || s.sealMap.contains (pa / 2 ^ 16) || pteCount e = 3 then answer .refused
        else
          finish (startMove { vmidRead s vmid with migReply := none, idle := false } ⟨r.vf, vmid, asid, page, addr, e, pa, none, some r, [], none⟩)
      | _ => answer .refused

/-- MIGRATION_COMPLETE (R96, R97): the holder has answered (DEDUCED, log 32). -/
def execMigrationComplete (m : Nat) (r : MigReply) (s : State) : Out :=
  match findFault s m with
  | some f =>
    (match f.held with
     | some fr =>
       (match r with
        | .page bytes n =>
          let e := s.rdNat f.pteAddr 8
          let s := s.offer fr (bytes.take 65536)
          let s := s.offer f.pteAddr (leBytes 8 (localLeaf e fr n.toNat))
          let s := setExport s fr (tenantOf s f.vf + 1)
          let s := settleRecord s f.vf f.page f.asid (bits s.peerid.toNat 3 0) n.toNat
          finish (resolveFault s m)
        | .moved => finish (resolveFault (dropHeld s f) m)
        | .refused => finish (makeMajor (dropHeld s f) m 0x11)
        | .denied => finish (failFault (dropHeld s f) m 3 0xD))
     | none => .next s)
  | none => .next s

-- Replay

/-- An owner whose records may replay now: its team is resident; channels and the dispatcher always (R300, R308). -/
def ownerHere (s : State) (p : Park) : Bool :=
  match p.owner with
  | .chan _ | .grid _ => true
  | .packet _ _ => (match p.state with
    | .resolved _ => true
    | _ => false)
  | _ => (s.team p.team).phase = .resident
def ParkState.order : ParkState → Option Nat
  | .waiting _ => none
  | .resolved n => some n
  | .failed n _ _ => some n
/-- A packet's failed record, which stays until its packet has started. -/
def Park.kept (p : Park) : Bool := match p.owner, p.state with
  | .packet _ _, .failed _ _ _ => true
  | _, _ => false
/-- The record has ended waiting and is its owner's oldest (R300; DEDUCED, log 34). -/
def replayable (s : State) (p : Park) : Bool :=
  (p.state.order).isSome && ownerHere s p && ((s.parks.find? fun q => q.owner = p.owner && !q.kept).map (·.id)) = some p.id
/-- Replay order: resolution, then time of park, then `$tid` (R300). -/
def Park.before (p q : Park) : Bool :=
  let a := (p.state.order).getD 0
  let b := (q.state.order).getD 0
  decide (a < b) || (a = b && (decide (p.time < q.time) || (p.time = q.time && decide (p.tid < q.tid))))
/-- The record whose replay starts next (DEDUCED, log 34). -/
def nextReplay (s : State) : Option Park :=
  (s.parks.filter (replayable s)).foldl (fun (b : Option Park) p => match b with
    | none => some p
    | some q => if p.before q then some p else some q) none

/-- ld or st falls when a parked access ends (R158). -/
def Thread.unpark (t : Thread) (kind : Nat) (x : BitVec 12) : Thread :=
  let store := kind = 1 || (kind = 3 && x.getLsbD 4)
  { t with wait := .ready, ld := if kind = 2 || store then t.ld else t.ld - 1, st := if store then t.st - 1 else t.st }
/-- The kind field of R84 for a failed record. -/
def failKind (kind : Nat) (scata : Bool) : Nat := if kind < 4 then kind else if kind = 4 then 0 else if scata then 3 else 1
def withKind (cause info kind : Nat) : Nat := if cause = 6 then info else putBits info 9 8 kind

/-- A thread's fetch is made again (R19, R300): where it succeeds, the thread is ready and issues in its group. -/
def refetch (s : State) (k tid : Nat) (pc : BitVec 64) : State :=
  let s := { s with cur := { Issue.idle with team := k, laneset := tid / 32, mask := BitVec.twoPow 32 (tid % 32), pc := pc, word := pc, next := pc } }
  match fetchGroup s with
  | (some (.pfx ..), s) => (match fetchWord s s.cur.next.toNat with
    | (.error e, s) => fetchFail e s tid
    | (_, s) => s)
  | (_, s) => s
/-- A thread's record replays or fails (R300, R301). -/
def replayThread (s : State) (k tid : Nat) (p : Park) : State :=
  match p.instr with
  | none => s
  | some q =>
    let s := s.modThread k tid fun t => t.unpark p.kind q.x
    match p.state with
    | .failed _ cause info => takeTrap (dropFilling s k tid) k tid cause (withKind cause info p.kind) p.va q.pc.toNat q.pc.toNat
    | _ =>
      if p.kind = 2 then refetch s k tid q.pc
      else
        { s with follow := some q.instr
                 cur := { team := k, laneset := tid / 32, mask := BitVec.twoPow 32 (tid % 32), pc := q.pc, word := q.word, next := q.next
                          x := q.x, vc := q.vc, guard := none, replay := some q.piece } }
/-- A channel whose fault ended in failure: the status of its record, where that can be written (R133). -/
def failChan (s : State) (ch cause info : Nat) : State :=
  let c := s.chan ch
  let st := if cause = 3 then 3 else if cause = 4 then 4 else if cause = 5 then 5 else 6
  let code := if st = 3 || st = 4 then info % 256 else 0
  match c.phase with
  | .chunk k => s.setChan ch { c with phase := .ending k st code }
  | .completing 1 => s.setChan ch { c with phase := .follow }
  | _ => s.setChan ch { c with phase := .stopped }
/-- One record is replayed (R300, R301): the access is made again at once, so that replays start in order. -/
def replay (s : State) (p : Park) : State :=
  let s := { s with parks := s.parks.filter fun q => q.id ≠ p.id }
  match p.owner with
  | .thread k tid => replayThread s k tid p
  | .copy id =>
    (match findCopy s id, p.state with
     | some c, .failed _ cause info => failCopy s c cause (withKind cause info (failKind p.kind (c.f = 4))) p.va
     | some c, _ => let c := { c with phase := .queued }; copyStep (setCopy s c) c
     | none, _ => s)
  | .mop id =>
    (match findMop s id, p.state with
     | some m, .failed _ cause info => failMop s m cause (withKind cause info (failKind p.kind false)) p.va
     | some m, _ =>
       (match m.phase with
        | .parked none => let m := { m with phase := .queued }; if heldBack s m then setMop s m else fetchMop (setMop s m) m
        | .parked (some r) => let m := { m with phase := .draining r }; if isHead s m then commitRow (setMop s m) m r else setMop s m
        | _ => s)
     | none, _ => s)
  | .chan ch =>
    (match p.state with
     | .failed _ cause info => failChan s ch cause info
     | _ => (match (s.chan ch).phase with
       | .stopped => s
       | .readRecord => chainRead ch s
       | .chunk _ | .moving .. => chainMove ch s
       | _ => chainEnd ch s))
  | .packet _ _ => s
  | .grid g =>
    -- a completion that cannot be written is dropped (R278)
    (match p.state, s.grid g with
     | .failed _ _ _, some x => post { s with grids := Store.set none s.grids g none } x.vf 10 0 x.cpladdr x.id.toNat 0
     | _, _ => s)
/-- FAULT_REPLAY (R300). -/
def execFaultReplay (id : Nat) (s : State) : Out :=
  match nextReplay s with
  | some p => if p.id = id then finish (replay s p) else .next s
  | none => .next s

end Sys2Proof.Machine
end

