-- ==== Sys2Proof/Machine/Dispatcher.lean ====
section
/-! DEFINITION. The dispatcher: launch packets (spec/13 R272 to R278), placement and bonds (R279, R280; spec/06 R135 to R138), swaps and
re-admission (spec/14 R302 to R309), grid end. -/

namespace Sys2Proof.Machine

-- Fitting a core

/-- Lanesets of a descriptor (R270). -/
def Desc.total (d : Desc) : Nat := d.lanesets.foldl (· + ·) 0
/-- Register blocks that a launch of it takes (R143). -/
def Desc.blocks (d : Desc) : Nat := ((d.lanesets.zip d.regs).map fun e => e.1 * (e.2 / 8)).foldl (· + ·) 0
/-- Lanesets of a team in slot `t` that run on quadrant `q` (R271). -/
def quadLoad (t n q : Nat) : Nat := ((List.range n).filter fun l => (t + l) % 4 = q).length
/-- What the teams of a core hold: place and descriptor of each. -/
abbrev Held := List (Place × Desc)
/-- The lowest team slot that leaves every quadrant at most 32 lanesets (R271). -/
def freeSlot (h : Held) (n : Nat) : Option Nat :=
  (List.range 32).find? fun t => !(h.any fun e => e.1.slot = t) &&
    (List.range 4).all fun q => decide ((h.map fun e => quadLoad e.1.slot e.2.total q).foldl (· + ·) 0 + quadLoad t n q ≤ 32)
/-- The lowest base of a pad window, first fit from reg_top (R137), in KiB. -/
def padFit (h : Held) (d : Desc) : Option Nat :=
  let ok (b : Nat) : Bool := decide (d.sig.1 ≤ b) && decide (b + d.padKiB ≤ d.sig.2.1) &&
    !(h.any fun e => decide (e.1.padBase < b + d.padKiB) && decide (b < e.1.padBase + e.2.padKiB))
  let cand := d.sig.1 :: (h.map fun e => e.1.padBase + e.2.padKiB)
  (cand.filter ok).foldl (fun (m : Option Nat) b => match m with
    | none => some b
    | some x => some (min x b)) none
def sumBy (f : Desc → Nat) (h : Held) (d : Desc) : Nat := (h.map fun e => f e.2).foldl (· + ·) (f d)
/-- A team of the descriptor fits beside those of a core (R137, R220): its slot and the base of its pad window. -/
def fitBeside (h : Held) (d : Desc) : Option (Nat × Nat) :=
  if decide (sumBy (fun x => 32 * x.total) h d ≤ 4096) && decide (sumBy Desc.blocks h d ≤ d.sig.1) && decide (sumBy Desc.copyslots h d ≤ 64)
      && decide (sumBy Desc.acctiles h d ≤ 32) && decide (sumBy Desc.nd h d ≤ 32) then
    (match freeSlot h d.total, padFit h d with
     | some t, some b => some (t, b)
     | _, _ => none)
  else none
def heldBy (s : State) (c : Nat) : Held := s.teams.filterMap fun e => match e.2.place with
  | some p => if p.core = c then some (p, e.2.desc) else none
  | none => none
/-- A core is closed to a grid (R309). -/
def closedTo (s : State) (g c : Nat) : Bool := s.vacates.any fun v => v.closed && v.grid = g && v.cores.contains c
/-- The place that a team of a grid would take on a core (R136, R137). -/
def fitCore (s : State) (g : Nat) (d : Desc) (c : Nat) : Option Place :=
  let sig := (s.core c).sig
  if closedTo s g c || !(sig = none || sig = some d.sig) then none
  else (fitBeside (heldBy s c) d).map fun e => ⟨c, e.1, e.2⟩
/-- The lowest core of a list that fits. -/
def fitFirst (s : State) (g : Nat) (d : Desc) (l : List Nat) : Option Place := firstSome (fitCore s g d) l
/-- The cores of a compute die (R8). -/
def dieCores (die : Nat) : List Nat := (List.range 48).map fun i => 48 * die + i
/-- Places for the members `js` of a bond of size `b`: member j on core c + j, all on one die (R280). -/
def fitBond (s : State) (g : Nat) (d : Desc) (b : Nat) (js : List Nat) : Option (List Place) :=
  firstSome (fun c =>
    if 48 < c % 48 + b then none
    else
      let l := js.map fun j => fitCore s g d (c + j)
      if l.all (·.isSome) then some (l.filterMap id) else none) (List.range Config.cores)

/-- The team stands on its core: signature, quadrants (R136, R284). -/
def occupy (s : State) (k : Nat) (p : Place) : State :=
  let s := s.modTeam k fun t => { t with place := some p, phase := .resident, lastCore := p.core, lastIssue := s.clock, admitted := s.clock }
  let s := if (s.core p.core).sig = none then s.setCore p.core ⟨some (s.team k).desc.sig, []⟩ else s
  (List.range (s.team k).lanesets.length).foldl (fun s l =>
    if ((s.team k).laneset l).retired then s
    else
      let q := 4 * p.core + (p.slot + l) % 4
      s.setQuad q { s.quad q with pending := (s.quad q).pending ++ [(k, l, some s.clock)] }) s

-- New teams

/-- The lanesets of a launch, stage by stage (R270). -/
def launchLanesets (d : Desc) : List Laneset :=
  (d.lanesets.zip d.regs).zipIdx.flatMap fun e => List.replicate e.1.1 ⟨e.2, e.1.2, 0, false⟩
/-- A thread at launch (R138, R311). -/
def launchThread (entry : Nat) : Thread := { Thread.unused with life := .live, pc := BitVec.ofNat 64 entry }
/-- A team at launch (R138, R269). -/
def launchTeam (g : Grid) (key i : Nat) : Team :=
  { Team.absent with phase := .unplaced, grid := key, gridId := g.id, index := i, x := i % g.x, y := i / g.x % g.y, z := i / (g.x * g.y)
                     vf := g.vf, vmid := g.vmid, asid := g.asid, super := g.super, desc := g.desc, mode := g.mode, kargs := g.kargs, drains := g.images
                     lanesets := launchLanesets g.desc
                     threads := (List.range (32 * g.desc.total)).map fun t => (t, launchThread g.desc.entry) }
/-- Team `i` of a grid is placed. -/
def placeNew (s : State) (key : Nat) (g : Grid) (i : Nat) (p : Place) : State :=
  let (k, s) := fresh s
  occupy (s.setTeam k (launchTeam g key i)) k p
def Grid.teams (g : Grid) : Nat := g.x * g.y * g.z
/-- The places of a grid's next team or bond, if it fits (R279, R280). -/
def nextPlaces (s : State) (key : Nat) (g : Grid) : Option (List Place) :=
  if g.desc.bond = 0 then (fitFirst s key g.desc (List.range Config.cores)).map fun p => [p]
  else fitBond s key g.desc g.desc.bond (List.range g.desc.bond)
/-- The grids with teams to place, in their order (R279). -/
def placeOrder (s : State) : List (Nat × Grid) :=
  insertSort (fun a b => decide (a.2.level < b.2.level) || (a.2.level = b.2.level && decide (a.2.order ≤ b.2.order)))
    (s.grids.filterMap fun e => match e.2 with
      | some g => if g.next < g.teams then some (e.1, g) else none
      | none => none)
/-- A grid's next team has waited 1 ms (R279). -/
def waitedLong (s : State) (g : Grid) : Bool := match g.waitSince with | some c => decide (c + 1000 * Config.clocksPerUs ≤ s.clock) | none => false
/-- The first grid whose next team fits, before one that has waited too long; and those passed over. -/
def scanGrids (s : State) : List (Nat × Grid) → List Nat → Option (Nat × Grid × List Place) × List Nat
  | [], skipped => (none, skipped)
  | (k, g) :: rest, skipped => match nextPlaces s k g with
    | some l => (some (k, g, l), skipped)
    | none => if waitedLong s g then (none, skipped ++ [k]) else scanGrids s rest (skipped ++ [k])
def setGrid (s : State) (k : Nat) (g : Grid) : State := { s with grids := Store.set none s.grids k (some g) }
/-- Grids passed over wait from now on. -/
def markWaiting (s : State) (l : List Nat) : State :=
  l.foldl (fun s k => match s.grid k with
    | some g => if g.waitSince = none then setGrid s k { g with waitSince := some s.clock } else s
    | none => s) s

-- Re-admission

/-- The team waits for nothing that keeps it away (R307). -/
def reasonMet (s : State) (k : Nat) : Reason → Bool
  | .park => !s.parks.any fun p => (match p.owner, p.state with
    | .thread t _, .waiting _ => t = k
    | _, _ => false)
  | .vacate => true
  | .fork children => children.isEmpty && !s.grids.any fun e => (match e.2 with
    | some g => g.vf = (s.team k).vf && g.pteam = some ((s.team k).gridId.toNat, (s.team k).index)
    | none => false)
/-- A candidate for re-admission (R307). -/
def returning (s : State) (k : Nat) : Bool := (s.team k).phase = .away && (s.team k).reasons.all (reasonMet s k)
/-- The teams of its bond, and their places, that re-admission of the team places together (R280). -/
def readmitPlaces (s : State) (k : Nat) : Option (List (Nat × Place)) :=
  let t := s.team k
  let b := t.desc.bond
  let members := bondOf s k
  if b = 0 then (fitFirst s t.grid t.desc (List.range Config.cores)).map fun p => [(k, p)]
  else if members.all fun m => (s.team m).phase = .away then
    if members.all (returning s) then (fitBond s t.grid t.desc b (members.map fun m => (s.team m).index % b)).map fun l => members.zip l else none
  else match members.filterMap fun m => (s.team m).place with
    | p :: _ => (fitFirst s t.grid t.desc (dieCores (p.core / 48))).map fun p => [(k, p)]
    | [] => none
/-- The swapped teams in the order they were swapped. -/
def awayOrder (s : State) : List Nat :=
  (insertSort (fun a b => decide ((s.team a).swapNo ≤ (s.team b).swapNo)) ((s.teams.filter fun e => e.2.phase = .away).map (·.1)))
/-- The first swapped team that returns. -/
def nextReadmit (s : State) : Option (Nat × List (Nat × Place)) :=
  firstSome (fun k => if returning s k then (readmitPlaces s k).map fun l => (k, l) else none) (awayOrder s)
/-- One team is back on a core (R308). -/
def admitTeam (s : State) (k : Nat) (p : Place) : State :=
  let frames := (s.team k).frames
  let s := occupy s k p
  let s := refreshEvent s k
  let s := s.modTeam k fun t => { t with reasons := [], frames := [], starved := false }
  let s := { s with parks := s.parks.map fun q =>
    match q.owner, q.state with
    | .thread t _, .waiting _ => if t = k then { q with origin := s.clock } else q
    | .copy _, .waiting _ => if q.team = k then { q with origin := s.clock } else q
    | .mop _, .waiting _ => if q.team = k then { q with origin := s.clock } else q
    | _, _ => q }
  frames.foldl (fun s f => giveFrame s (s.team k).vmid f) s
/-- A frame of the team's carafe is poisoned (R339). -/
def carafePoisoned (s : State) (k : Nat) : Bool := (s.team k).frames.any fun f => poisoned s f 65536
/-- READMIT (R308): a team whose carafe is poisoned aborts instead (R313, R339). -/
def execReadmit (k : Nat) (s : State) : Out :=
  match nextReadmit s with
  | some (f, l) =>
    if f ≠ k then .next s
    else match l.find? fun e => carafePoisoned s e.1 with
      | some e =>
        let (pc, s) := freeWord s
        finish (abortTeam s e.1 true 6 0 0 0xFFFFFFFF 0 pc.toNat 0)
      | none => finish (l.foldl (fun s e => settle (admitTeam s e.1 e.2) e.1 []) s)
  | none => .next s

/-- PLACE_TEAM (R279): no returning team fits a core. -/
def execPlaceTeam (s : State) : Out :=
  if (nextReadmit s).isSome then .next s
  else match scanGrids s (placeOrder s) [] with
    | (some (k, g, l), skipped) =>
      let s := markWaiting s skipped
      let s := (l.zipIdx).foldl (fun s e => placeNew s k g (g.next + e.2) e.1) s
      .next (setGrid s k { g with next := g.next + l.length, waitSince := none })
    | (none, skipped) => .next (markWaiting s skipped)
/-- PLACE_TEAM has something to do. -/
def placeDue (s : State) : Bool :=
  (nextReadmit s).isNone && (match scanGrids s (placeOrder s) [] with
    | (some _, _) => true
    | (none, skipped) => skipped.any fun k => match s.grid k with | some g => g.waitSince = none | none => false)

-- Packets

/-- A launch packet (R274). -/
structure Packet where
  kargs : Nat
  pteam : Nat
  cplval : Nat
  cpladdr : Nat
  asid : Nat
  mode : Nat
  z : Nat
  y : Nat
  x : Nat
  kdesc : Nat
  parent : Nat
  super : Bool
  fork : Bool
  dev : Bool
  type : Nat
  reserved : Bool
  deriving DecidableEq, Repr
def parsePacket (p : Nat) : Packet :=
  let mode := bits p 223 192
  { kargs := bits p 447 384, pteam := bits p 383 352, cplval := bits p 351 320, cpladdr := bits p 319 256, asid := bits p 239 224, mode := mode
    z := bits p 175 160, y := bits p 159 144, x := bits p 143 128, kdesc := bits p 127 64, parent := bits p 63 32, super := bit p 12, fork := bit p 11
    dev := bit p 10, type := bits p 7 0
    reserved := bits p 511 448 ≠ 0 || bits p 255 240 ≠ 0 || bits p 191 176 ≠ 0 || bits p 31 13 ≠ 0 || bits p 9 8 ≠ 0 || bits mode 7 4 ≠ 0 || bits mode 31 16 ≠ 0 }

/-- A descriptor's fields, and whether it is valid (R272, R135). -/
def parseDesc (x : Nat) : Desc × Bool :=
  let byte (lo : Nat) : List Nat := (List.range 4).map fun i => bits x (lo + 8 * i + 7) (lo + 8 * i)
  let d : Desc := { entry := bits x 63 0, handler := bits x 127 64, drains := bits x 191 128, lanesets := byte 192, regs := byte 224
                    padKiB := bits x 267 256, copyslots := bits x 273 268, acctiles := bits x 279 274, nd := bits x 285 280, park := bits x 303 288
                    bond := bits x 307 304, sig := (16 * bits x 329 320, 16 * bits x 339 330, 16 * bits x 349 340) }
  let used := (d.lanesets.zip d.regs).filter fun e => e.1 ≠ 0
  let first := (d.lanesets.takeWhile (· ≠ 0)).length
  (d, first = used.length && decide (1 ≤ d.total) && decide (d.total ≤ 64)
    && (d.lanesets.zip d.regs).all (fun e => if e.1 = 0 then e.2 = 0 else e.2 % 8 = 0 && decide (8 ≤ e.2) && decide (e.2 ≤ 128))
    && decide (16 ≤ d.sig.1) && decide (d.sig.1 ≤ 2048) && decide (d.sig.1 ≤ d.sig.2.1) && decide (d.sig.2.1 ≤ d.sig.2.2) && decide (d.sig.2.2 ≤ 4096)
    && d.park ≠ 0 && (d.bond = 0 || (decide (2 ≤ d.bond) && decide (d.bond ≤ 8))) && decide (d.nd ≤ 31) && decide (d.acctiles ≤ 32)
    && decide (1 ≤ d.copyslots) && decide (d.copyslots ≤ 32)
    && (if d.nd = 0 then d.drains = 0 else d.drains ≠ 0 && d.drains % 16 = 0 && decide (d.drains < 2 ^ 52))
    && bits x 511 350 = 0 && bits x 319 308 = 0 && bits x 287 286 = 0 && d.entry % 2 = 0 && d.handler % 2 = 0)

/-- On whose behalf the dispatcher reads for a packet (R275; DEDUCED, log 35). -/
def packetWho (s : State) (v n : Nat) (p : Packet) : Who :=
  { vmid := vmidOf s v, asid := p.asid, vf := v, super := p.super, team := 0, grid := none, owner := some (.packet v n) }
/-- The outcome of the dispatcher's reads: done, a walk or a fault it waits for, unreadable. -/
inductive Got (α : Type) where
  | ok (a : α)
  | walking
  | wait (va : Nat) (x : Xlat)
  | bad
/-- The dispatcher reads a range at device scope (R275). -/
def fetchRange (s : State) (w : Who) (va n : Nat) : Got (List Byte) × State :=
  match translateRange s w .load va n with
  | (.ok (l, _), s) =>
    if (poisonedPart s (fun _ => false) l).isSome then (.bad, s)
    else
      let (bs, s) := l.foldl (fun (acc : List Byte × State) e =>
        let s := touch (flushOut acc.2 fun o => decide (o.pa < e.2.1 + e.2.2) && decide (e.2.1 < o.pa + o.bytes.length)) e.2.1 e.2.2
        (acc.1 ++ s.rd e.2.1 e.2.2, s)) ([], s)
      (.ok bs, s)
  | (.error (_, .walking _), s) => (.walking, s)
  | (.error (va, x), s) => (if (xlatFailure 0 x).isSome then .bad else .wait va x, s)

/-- What a launch reads (R275): descriptor, arguments, drain images. -/
structure Launch where
  desc : Desc
  valid : Bool
  kargs : List (BitVec 32)
  images : List (List (BitVec 32))
def wordsOf (bs : List Byte) : List (BitVec 32) := (List.range (bs.length / 4)).map fun i => BitVec.ofNat 32 (leNat ((bs.drop (4 * i)).take 4))
/-- The reads of a launch: descriptor, arguments, then the drain images, also those of a descriptor that is not valid (R276). -/
def readLaunch (s : State) (w : Who) (p : Packet) : Got Launch × State :=
  match fetchRange s w p.kdesc 64 with
  | (.bad, s) => (.bad, s)
  | (.walking, s) => (.walking, s)
  | (.wait va x, s) => (.wait va x, s)
  | (.ok db, s) =>
    let (d, valid) := parseDesc (leNat db)
    (match fetchRange s w p.kargs 256 with
     | (.bad, s) => (.bad, s)
     | (.walking, s) => (.walking, s)
     | (.wait va x, s) => (.wait va x, s)
     | (.ok kb, s) =>
       (match fetchRange s w d.drains (128 * d.nd) with
        | (.bad, s) => (.bad, s)
        | (.walking, s) => (.walking, s)
        | (.wait va x, s) => (.wait va x, s)
        | (.ok ib, s) => (.ok ⟨d, valid, wordsOf kb, (List.range d.nd).map fun i => wordsOf ((ib.drop (128 * i)).take 128)⟩, s)))

/-- The header of a VF's launch ring, where its table entry is valid (R324). -/
def ringHeader (s : State) (v n : Nat) : Option Nat :=
  match (s.vf v).ringCopy[n]? with
  | some e => if bit e.toNat 64 then some (bits e.toNat 63 0) else none
  | none => none
/-- A ring's wp has been written since the dispatcher last read it or emptied the ring (R15, R275; DEDUCED, log 35). -/
def rung (s : State) (v n : Nat) (r : RingHdr) : Bool :=
  let b := Store.get (0, false) (s.vf v).bells n
  b.2 || !decide (b.1 = r.wp)
/-- What the dispatcher knows of a ring's wp, and whether its signal is outstanding. -/
def setBell (s : State) (v n wp : Nat) (on : Bool) : State := s.setVf v { s.vf v with bells := Store.set (0, false) (s.vf v).bells n (wp, on) }
/-- The head packet of a launch ring whose doorbell has rung (R274, R275). -/
def headPacket (s : State) (v n : Nat) : Option (Nat × RingHdr × Packet) :=
  match ringHeader s v n with
  | some h =>
    let r := ringAt s h
    if r.formed && r.esc = 8 && !r.empty && rung s v n r then some (h, r, parsePacket (s.rdNat (r.entry r.rp) 64)) else none
  | none => none
/-- The header of a ring or the entry at its rp is poisoned (R339). -/
def headPoisoned (s : State) (h : Nat) (r : RingHdr) : Bool := poisoned s h 64 || poisoned s (r.entry r.rp) 64
/-- The team whose FORK wrote the packet at a pointer of a ring (R282). -/
def childOf (s : State) (v n rp : Nat) : Option Nat :=
  (s.teams.find? fun e => e.2.vf = v && e.2.phase ≠ .ended && e.2.reasons.any fun r => match r with
    | .fork l => l.contains (v, n, rp)
    | _ => false).map (·.1)
/-- The host wrote bytes of an entry last (R282). -/
def hostWrote (s : State) (a : Nat) : Bool := s.hostBlocks.contains (a / 64) || s.hostBlocks.contains ((a + 63) / 64)
/-- The team suspended by FORK, or about to be, that a fork packet names as its forking team; none where the host wrote the packet (R282). -/
def forkTeam (s : State) (v : Nat) (r : RingHdr) (p : Packet) : Option Nat :=
  if !p.fork || hostWrote s (r.entry r.rp) then none
  else (s.teams.find? fun e => e.2.vf = v && e.2.phase ≠ .ended && e.2.reasons.any (·.isFork) && e.2.gridId.toNat = p.parent && e.2.index = p.pteam).map (·.1)
/-- A live grid of a VF with a number. -/
def liveGrid (s : State) (v id : Nat) : Bool := s.grids.any fun e => match e.2 with | some g => g.vf = v && g.id.toNat = id | none => false
/-- The packet waits for a fault of one of its accesses. -/
def packetWaits (s : State) (v n : Nat) : Bool := s.parks.any fun p => p.owner = .packet v n && !p.kept
/-- The head packet can start (R275, R282). -/
def canStart (s : State) (v n : Nat) : Bool :=
  match headPacket s v n with
  | none => false
  | some (h, r, p) =>
    !(s.fatal && headPoisoned s h r) &&
    !packetWaits s v n &&
    (if p.type = 2 then !s.grids.any fun e => match e.2 with | some g => g.vf = v && g.ring = n | none => false
     else if p.type = 0 || !(p.dev || p.fork) then true
     else match forkTeam s v r p with
       | some k => (s.team k).phase = .away
       | none => !liveGrid s v p.parent)
/-- No firmware image failed its check at boot: else no function is usable (R333). -/
def usable (s : State) : Bool := s.images.all fun i => Config.mldsaVerify i.bytes i.sig (Config.mldsaPublic 2)
/-- Every ring of an enabled VF. -/
def allRings (s : State) : List (Nat × Nat) :=
  if !usable s then [] else s.vfs.flatMap fun e => if bit e.2.cfg.toNat 25 then (List.range e.2.ringCopy.length).map fun n => (e.1, n) else []
/-- The packet that starts next: levels in order, round robin within a level (R275). -/
def nextPacket (s : State) : Option (Nat × Nat) :=
  let l := (allRings s).filter fun e => canStart s e.1 e.2
  let level (e : Nat × Nat) : Nat := match headPacket s e.1 e.2 with | some (_, r, _) => r.prio | none => 4
  firstSome (fun lv =>
    let here := l.filter fun e => level e = lv
    let pos := Store.get 0 s.rrPos lv
    match here.filter fun e => decide (pos ≤ 64 * e.1 + e.2) with
    | e :: _ => some e
    | [] => here.head?) [0, 1, 2, 3]

/-- rp := rp + 1 of a started packet; the level's round robin goes on behind the ring, and the signal lasts until the ring is empty
(R15, R275). -/
def started (s : State) (v n hdr : Nat) (r : RingHdr) : State :=
  let s := s.sysPut (linkOf s v) (hdr + 8) (leBytes 4 (r.rp + 1))
  setBell { s with rrPos := Store.set 0 s.rrPos r.prio (64 * v + n + 1)
                   parks := s.parks.filter fun p => p.owner ≠ .packet v n } v n r.wp (!decide ((r.rp + 1) % 2 ^ 32 = r.wp))
/-- The dispatcher waits for a fault of a packet. -/
def parkPacket (s : State) (v n : Nat) (w : Who) (va kind : Nat) (x : Xlat) : State :=
  let (f, s) := openFault s w va kind x
  addPark s (.packet v n) 0 va kind 0 none f
/-- The outcome of a completion's translation (R278). -/
inductive Completion where
  | none | at (pa : Nat) (dirty : Option Nat) | dropped | walking | wait (va : Nat) (x : Xlat)
def completionAt (s : State) (w : Who) (cpladdr : Nat) (rejected : Bool) : Completion × State :=
  if cpladdr = 0 then (.none, s)
  else if cpladdr % 4 ≠ 0 || rejected then (.dropped, s)
  else match translate s w .store cpladdr 4 with
    | (.ok pa _ d, s) => (.at pa d, s)
    | (.walking _, s) => (.walking, s)
    | (x, s) => (if (xlatFailure 1 x).isSome then .dropped else .wait cpladdr x, s)
/-- A completion whose translation has been made is written at system scope, or its record (R278, R321). -/
def complete_ (s : State) (fn id : Nat) (c : Completion) (cpladdr cplval : Nat) : State :=
  match c with
  | .at pa d => (setDirty s d).sysPut (linkOf s fn) pa (leBytes 4 cplval)
  | .dropped => post s fn 10 0 cpladdr id 0
  | _ => s
/-- The wait of the packet's accesses of a kind, 4 its reads, 5 its completion, ended in failure. -/
def packetFailed (s : State) (v n kind : Nat) : Bool := s.parks.any fun p => p.owner = .packet v n && p.kept && p.kind = kind

/-- The packet no longer holds back the team whose FORK wrote it (R282). -/
def dropChild (s : State) (v n rp : Nat) : State :=
  match childOf s v n rp with
  | some k => s.modTeam k fun t => { t with reasons := t.reasons.map fun e => match e with
      | .fork l => .fork (l.filter fun c => c ≠ (v, n, rp))
      | e => e }
  | none => s
/-- A NOP or BARRIER packet starts (R276): its completion, as no supervisor's, whose fields a NOP or BARRIER ignores (R274). A `$grid`
for its dropped completion is not stated (R278). -/
def startPlain (type v n : Nat) (s : State) : Out :=
  match headPacket s v n with
  | some (h, r, p) =>
    if p.type ≠ type || nextPacket s ≠ some (v, n) then .next s
    else if headPoisoned s h r then .next { s with fatal := true }
    else
      let w := { packetWho s v n p with super := false }
      let (c, s) := completionAt s w p.cpladdr (packetFailed s v n 5)
      (match c with
       | .walking => .next s
       | .wait va x => finish (parkPacket s v n w va 5 x)
       | c =>
         let s := dropChild (started s v n h r) v n r.rp
         let (id, s) := freeWord s
         finish (complete_ s v id.toNat c p.cpladdr p.cplval))
  | none => .next s
/-- PACKET_NOP (R276). -/
def execPacketNop (vf ring : Nat) (s : State) : Out := startPlain 0 vf ring s
/-- PACKET_BARRIER (R276). -/
def execPacketBarrier (vf ring : Nat) (s : State) : Out := startPlain 2 vf ring s

/-- The refusal code of a launch whose reads are done, but for code 0x01 (R276). -/
def refusal (p : Packet) (l : Option Launch) (super : Bool) : Option Nat :=
  match l with
  | none => some 2
  | some l =>
    if !l.valid then some 3
    else if (fitBeside [] l.desc).isNone then some 4
    else if p.x = 0 || p.y = 0 || p.z = 0 || decide (2 ^ 32 ≤ p.x * p.y * p.z) || (l.desc.bond ≠ 0 && (p.x * p.y * p.z) % l.desc.bond ≠ 0) then some 5
    else if p.super && !super then some 6
    else none
/-- Code 0x01 (R276). -/
def Packet.malformed (p : Packet) : Bool :=
  decide (3 ≤ p.type) || p.reserved || p.kdesc % 64 ≠ 0 || p.kargs % 64 ≠ 0 || (p.cpladdr ≠ 0 && p.cpladdr % 4 ≠ 0)
/-- A refused launch (R276): its record, then its completion. -/
def refuse (s : State) (v n h : Nat) (r : RingHdr) (p : Packet) (code : Nat) (rejected : Bool) : State :=
  let w := packetWho s v n p
  let (c, s) := completionAt s w p.cpladdr rejected
  match c with
  | .walking => s
  | .wait va x => parkPacket s v n w va 5 x
  | c =>
    let s := dropChild (started s v n h r) v n r.rp
    let (id, s) := freeWord s
    complete_ (post s v 6 code h r.rp 0) v id.toNat c p.cpladdr p.cplval
/-- `$grid` of a packet (R276). -/
def gridNumber (v n rp : Nat) : Nat := v * 2 ^ 24 + n * 2 ^ 18 + rp % 2 ^ 18
/-- A valid launch creates its grid (R276). -/
def createGrid (s : State) (v n h : Nat) (r : RingHdr) (p : Packet) (l : Launch) : State :=
  let pt := (childOf s v n r.rp).map fun k => ((s.team k).gridId.toNat, (s.team k).index)
  let s := dropChild (started s v n h r) v n r.rp
  let (key, s) := fresh s
  setGrid s key { vf := v, vmid := vmidOf s v, ring := n, id := BitVec.ofNat 32 (gridNumber v n r.rp), level := r.prio, x := p.x, y := p.y, z := p.z
                  asid := p.asid, super := p.super, mode := BitVec.ofNat 32 p.mode, desc := l.desc, kargs := l.kargs, images := l.images
                  cpladdr := p.cpladdr, cplval := p.cplval, next := 0, waitSince := none, order := key, pteam := pt, pkt := r.rp }
/-- PACKET_LAUNCH (R276). While the fatal condition lasts launches are refused (R339), with a code the spec does not
state (DESIGN CHOICE, log 35). -/
def execPacketLaunch (v n : Nat) (s : State) : Out :=
  match headPacket s v n with
  | some (h, r, p) =>
    if p.type = 0 || p.type = 2 || nextPacket s ≠ some (v, n) then .next s
    else if headPoisoned s h r then .next { s with fatal := true }
    else
      let failed := packetFailed s v n 5
      if s.fatal then
        let (code, s) := freeWord s
        finish (refuse s v n h r p (code.toNat % 256) failed)
      else if p.malformed then finish (refuse s v n h r p 1 failed)
      else if packetFailed s v n 4 then finish (refuse s v n h r p 2 failed)
      else match readLaunch s (packetWho s v n p) p with
        | (.walking, s) => .next s
        | (.wait va x, s) => finish (parkPacket s v n (packetWho s v n p) va 4 x)
        | (g, s) =>
          let l := match g with | .ok l => some l | _ => none
          let super := match (s.vf v).ringCopy[n]? with | some e => bit e.toNat 65 | none => false
          (match refusal p l super, l with
           | none, some l => finish (createGrid s v n h r p l)
           | some code, _ => finish (refuse s v n h r p code failed)
           | none, none => .next s)
  | none => .next s

/-- Every team of a grid has been placed and has ended (R277). -/
def gridOver (s : State) (key : Nat) (g : Grid) : Bool := g.teams ≤ g.next && !s.teams.any fun e => e.2.grid = key && e.2.phase ≠ .ended
/-- GRID_END (R277). -/
def execGridEnd (key : Nat) (s : State) : Out :=
  match s.grid key with
  | some g =>
    if !gridOver s key g || s.parks.any (fun p => p.owner = .grid key) then .next s
    else
      let s := flushOut s fun o => (s.team o.team).grid = key
      let w : Who := { vmid := g.vmid, asid := g.asid, vf := g.vf, super := g.super, team := 0, grid := none, owner := some (.grid key) }
      let (c, s) := completionAt s w g.cpladdr false
      (match c with
       | .walking => .next s
       | .wait va x =>
         let (f, s) := openFault s w va 5 x
         finish (addPark s (.grid key) 0 va 5 0 none f)
       | c => finish { complete_ s g.vf g.id.toNat c g.cpladdr g.cplval with grids := Store.set none (complete_ s g.vf g.id.toNat c g.cpladdr g.cplval).grids key none })
  | none => .next s

-- Swaps

/-- The age trigger is due: it starts a swap, or joins one that runs for another reason (R302, R319). -/
def ageTrigger (s : State) (k : Nat) : Bool :=
  ageDue s k || ((s.team k).phase = .swapping && aged s k && !(s.team k).reasons.contains .park)
/-- PARK_AGE_TRIGGER (R302, R319). -/
def execParkAgeTrigger (k : Nat) (s : State) : Out :=
  .next (if ageDue s k then startSwap s k [.park]
    else if ageTrigger s k then s.modTeam k fun t => { t with reasons := t.reasons ++ [.park] } else s)
/-- PARK_SHARE_TRIGGER (R302). -/
def execParkShareTrigger (k : Nat) (s : State) : Out := .next (if shareDue s k then startSwap s k [.park] else s)

/-- The operation is parked, or held back behind a parked one of its mask (R216, R219, R234): every other runs to its end. -/
def mopSaveable (s : State) (m : Mop) : Bool :=
  (match m.phase with
   | .parked _ => true
   | _ => false) || heldBack s m
/-- The engines have reached a state that can be saved, and what threads have issued has run on (R303, R318). -/
def saveable (s : State) (k : Nat) : Bool :=
  (s.mops.filter fun m => m.team = k).all (mopSaveable s) && !s.copies.any (fun c => c.team = k && c.phase = .done)
    && (s.team k).queued = [] && !(s.team k).live.any fun i => ((s.team k).thread i).runsOn && ((s.team k).thread i).wait ≠ .parked
/-- A copy command as its carafe record (R128). -/
def Copy.saved (c : Copy) : Copy :=
  if c.f = 5 then { c with row := 0, off := 0, stage := [], idx := [], phase := if c.phase = .parked then .parked else .queued } else c
/-- A thread as its carafe record: waits that execute their instruction again (R303 step 1), and a WAITA that has met its value (R122);
no pass count. -/
def Thread.saved (t : Thread) : Thread :=
  let w : Wait := match t.wait with
    | .parked | .arrived _ _ | .nonMember _ _ | .tbar | .rcv _ | .regs _ _ | .claim | .gang _ => t.wait
    | .flag _ _ true => t.wait
    | _ => .ready
  { t with wait := w, passes := 0, resume := if w = .ready then none else t.resume }
/-- Takes `n` frames for a carafe, if the ring holds as many (R304; DESIGN CHOICE, log 9). -/
def takeFrames (s : State) (vmid : Nat) : Nat → Option (List Nat) × State
  | 0 => (some [], s)
  | n + 1 => match takeFrame s vmid with
    | (none, s) => (none, s)
    | (some f, s) => match takeFrames s vmid n with
      | (some l, s) => (some (f :: l), s)
      | (none, s) => (none, giveFrame s vmid f)
/-- Bytes of a team's registers, pad and tiles. -/
def savedBytes (t : Team) : Nat := 1024 * t.desc.blocks + t.padSize + 16384 * t.desc.acctiles
/-- A vacate's swaps are complete (R309). -/
def Vacate.settled (s : State) (v : Vacate) : Bool := !v.waiting.any fun k => (s.team k).phase = .swapping
/-- Vacates whose swaps are complete write their records (R309). -/
def settleVacates (s : State) : State :=
  let settled (v : Vacate) : Bool := v.settled s
  let s' := (s.vacates.filter fun v => !v.done && settled v).foldl (fun s v => post s v.fn 3 0 v.id.toNat v.cores.length 0) s
  { s' with vacates := (s.vacates.map fun v => if settled v then { v with done := true } else v).filter fun v => v.closed || !v.done }
/-- SWAP_COMPLETE (R303 step 3). -/
def execSwapComplete (k : Nat) (s : State) : Out :=
  let t := s.team k
  if t.phase ≠ .swapping || !saveable s k then .next s
  else match takeFrames s t.vmid (Config.carafeFrames (savedBytes t)) with
    | (none, _) => if t.starved then .next s else finish (post (s.modTeam k fun t => { t with starved := true }) t.vf 9 0x10 0 0 0)
    | (some frames, s) =>
      let s := frames.foldl (fun s f => let (bs, s) := freeBytes s 65536; s.offer f bs) s
      let s := modRanges s k fun l => l.filter fun r => !(decide (r.filler.1 = k) && !r.live)
      let s := { s with copies := (s.copies.filter fun c => !(decide (c.team = k) && decide (c.f = 6))).map fun c => if c.team = k then c.saved else c }
      let s := leaveCore (forgetWalks s (Owner.ofTeam s k)) k
      let s := s.modTeam k fun t => { t with phase := .away, frames := frames, snap := [], threads := t.threads.map fun e => (e.1, e.2.saved) }
      finish (settleVacates s)

/-- The cores that a vacate chooses (R309 steps 1 and 2). -/
def addBonds (s : State) (g : Nat) : Nat → List Nat → List Nat
  | 0, l => l
  | n + 1, l =>
    let more := (s.teams.filter fun e => e.2.grid = g && e.2.desc.bond ≠ 0 && (match e.2.place with | some p => l.contains p.core | none => false)).flatMap
      fun e => (bondOf s e.1).filterMap fun m => ((s.team m).place).map (·.core)
    let l' := more.foldl (fun l c => if l.contains c then l else l ++ [c]) l
    if l'.length = l.length then l else addBonds s g n l'
def vacateCores (s : State) (g n : Nat) : List Nat :=
  let count (c : Nat) : Nat := (s.teams.filter fun e => e.2.grid = g && e.2.onCore c).length
  let with_ := (List.range Config.cores).filter fun c => count c ≠ 0
  addBonds s g Config.cores ((insertSort (fun a b => decide (count a ≤ count b)) with_).take n)
/-- A vacate request takes effect (R309). -/
def vacate (s : State) (fn g : Nat) (id : BitVec 32) (n : Nat) : State :=
  let cores := vacateCores s g n
  let teams := (s.teams.filter fun e => e.2.grid = g && (match e.2.place with | some p => cores.contains p.core | none => false)).map (·.1)
  let s := teams.foldl (fun s k => startSwap s k [.vacate]) s
  settleVacates { s with vacates := s.vacates ++ [⟨g, id, match s.grid g with | some x => x.vmid | none => 0, cores, fn, teams, true, false⟩] }

end Sys2Proof.Machine
end

