-- ==== Sys2Proof/Machine/Host.lean ====
section
/-! DEFINITION. The host, peers, the management core and power (spec/15): management commands, function registers, resets, event
records, peer and host accesses, boot, attestation, debug, power states, memory errors. -/

namespace Sys2Proof.Machine

-- The management queue

/-- The header of a function's management queue (R322, R324, R327). -/
def mqHeader (s : State) (fn : Nat) : Nat := if fn = pf then s.pfmq.toNat else (s.vf fn).mqhdr.toNat
def enabled (s : State) (fn : Nat) : Bool := usable s && (fn = pf || bit (s.vf fn).cfg.toNat 25)
/-- A queue's wp has been written since the core last read it or emptied the queue (R15, R327; DEDUCED, log 35). -/
def mqRung (s : State) (fn : Nat) (r : RingHdr) : Bool :=
  let b := Store.get (0, false) s.mqBells fn
  b.2 || !decide (b.1 = r.wp)
def setMqBell (s : State) (fn wp : Nat) (on : Bool) : State := { s with mqBells := Store.set (0, false) s.mqBells fn (wp, on) }
/-- The command at the head of a function's queue that has been signalled: header address, header, command (R327). -/
def headCommand (s : State) (fn : Nat) : Option (Nat × RingHdr × Nat) :=
  let h := mqHeader s fn
  let r := ringAt s h
  if h = 0 || !enabled s fn || s.off || eventsFull s fn || !r.formed || r.esc ≠ 8 || r.empty || !mqRung s fn r then none
  else some (h, r, s.rdNat (r.entry r.rp) 64)
def cmdOp (c : Nat) : Nat := bits c 7 0
def cmdArg (c n : Nat) : Nat := bits c (319 + 64 * n) (256 + 64 * n)
/-- The VMID and ASID that a command acts on (R327). -/
def cmdVmid (s : State) (fn c : Nat) : Nat := if fn = pf then bits (cmdArg c 0) 27 16 else vmidOf s fn
def cmdAsid (c : Nat) : Nat := bits (cmdArg c 0) 15 0
/-- What becomes of a command: it stays at the head of its queue, in a state, or it is answered with a status and a result (R328). -/
inductive Served where
  | waits (s : State)
  | done (s : State) (status result : Nat)
/-- The head command leaves its queue and is answered (R327, R330). -/
def answer (s : State) (fn h : Nat) (r : RingHdr) (c status result : Nat) : State :=
  let s := s.sysPut (linkOf s fn) (h + 8) (leBytes 4 (r.rp + 1))
  post (setMqBell s fn r.wp (!decide ((r.rp + 1) % 2 ^ 32 = r.wp))) fn 4 status (bits c 63 32) (cmdOp c) result
/-- A command is executed and answered (R327, R330); a body that waits leaves it at the head, a poisoned one is fatal
(R339; DEDUCED, log 39, 41). -/
def command (op : Nat) (body : Nat → State → Served) (fn : Nat) (s : State) : Out :=
  match headCommand s fn with
  | none => .next s
  | some (h, r, c) =>
    if cmdOp c ≠ op then .next s
    else if headPoisoned s h r then .next { s with fatal := true }
    else match body c s with
      | .waits s => finish s
      | .done s status result => finish (answer s fn h r c status result)

/-- The open fault of a function with an identifier (R299). -/
def faultByFid (s : State) (fn fid : Nat) : Option FaultRec := s.faults.find? fun f => f.vf = fn && (f.major.map (·.1)) = some fid
/-- RESOLVE (R299, R328). -/
def execResolveCmd (fn : Nat) : State → Out :=
  command 1 (fun c s => match faultByFid s fn (cmdArg c 1) with
    | some f => .done (resolveFault s f.id) 0 0
    | none => .done s 4 0) fn
/-- REJECT (R299, R328). -/
def execRejectCmd (fn : Nat) : State → Out :=
  command 2 (fun c s => match faultByFid s fn (cmdArg c 1) with
    | some f => .done (failFault s f.id 4 (2 + f.stage * 2 ^ 10)) 0 0
    | none => .done s 4 0) fn

/-- A tier frame whose version is not exhausted (R93): the others are removed and reported. -/
def takeTier (fn vmid asid : Nat) : Nat → State → Option Nat × State
  | 0, s => (none, s)
  | n + 1, s => match popTier s vmid with
    | (none, s) => (none, s)
    | (some f, s) => if (tierRec s f).1 < 2 ^ 32 - 1 then (some f, s) else takeTier fn vmid asid n (post s fn 9 0x13 f asid 0)
/-- A demotion's refusal code on a leaf (R93). -/
def demoteRefusal (s : State) (e pa : Nat) : Option Nat :=
  if leafState e ≠ .local then some 1
  else if bit e 4 || s.sealMap.contains (pa / 2 ^ 16) then some 2
  else if inHost pa then some 3
  else if 2 ≤ pteCount e then some 4
  else none
/-- DEMOTE's first steps (R93): its refusals, the tier frame in hand, the leaf in transit. -/
def demote (fn c : Nat) (s : State) : Served :=
  let vmid := cmdVmid s fn c
  let asid := cmdAsid c
  let page := cmdArg c 1 / 2 ^ 16 * 2 ^ 16
  let refused (s : State) (code : Nat) : Served := .done (post s fn 7 code page asid 0) 0 0
  let s := vmidRead s vmid
  if 2 ^ 52 ≤ page then refused s 1
  else match walk s vmid asid page with
    | .leaf e addr pa big _ _ =>
      if big then .done s 5 0
      else match demoteRefusal s e pa with
        | some code => refused s code
        | none => match takeTier fn vmid asid 4097 s with
          | (none, s) => refused s 5
          | (some tf, s) => .waits (startMove s ⟨fn, vmid, asid, page, addr, e, pa, some tf, none, [], none⟩)
    | _ => refused s 1
/-- DEMOTE (R93): a demotion that has set transit completes, though a reset may have discarded its command (R326). -/
def execDemoteCmd (fn : Nat) (s : State) : Out :=
  match s.moves.find? fun m => m.fn = fn && m.tier.isSome with
  | none => command 3 (demote fn) fn s
  | some m =>
    if !m.clear s || eventsFull s fn then .next s
    else
      let t := finishDemote s m (m.tier.getD 0)
      match headCommand t fn with
      | some _ => command 3 (fun _ s => .done s 0 0) fn t
      | none => finish t

/-- The leaves of a range: address of the leaf and frame of each page, or the status of the first failing page (R328;
DEDUCED, log 36). -/
def sealPage (s : State) (vmid asid va : Nat) : Except Nat (Nat × Nat × Nat) :=
  if 2 ^ 52 ≤ va then .error 4
  else match walk s vmid asid va with
    | .leaf e addr pa big _ _ => if big then .error 5 else if leafState e ≠ .local || !inHbm pa then .error 3 else .ok (e, addr, pa)
    | .invalid _ => .error 4
    | .record => .error 4
    | _ => .error 3
def rangePages (s : State) (vmid asid : Nat) : List Nat → Except Nat (List (Nat × Nat × Nat))
  | [] => .ok []
  | va :: rest => match sealPage s vmid asid va with
    | .error e => .error e
    | .ok x => match rangePages s vmid asid rest with
      | .error e => .error e
      | .ok l => .ok (x :: l)
/-- The page addresses of a range. -/
def pageList (va len : Nat) : List Nat := (List.range (len / 65536)).map fun i => va + 65536 * i
/-- A range is well formed (R328). -/
def rangeOk (va len : Nat) : Bool := va % 65536 = 0 && len % 65536 = 0 && len ≠ 0
/-- Invalidates an address space as TLBI.ASID does (R87, R98): the accesses to wait for. -/
def dropAsid (s : State) (vmid asid : Nat) : List Flight × State :=
  invalidate s (fun v a => v = vmid && a = asid) (fun _ => true) (fun _ => true)
/-- A write of the management core at system scope, which a sealed frame refuses (R99, R321). -/
def coreWrite (s : State) (fn pa : Nat) (bs : List Byte) : State := if refuses s pa bs.length then s else s.sysPut (linkOf s fn) pa bs
/-- A SEAL or FREE whose first step is done (R98, R99). -/
def jobOf (s : State) (fn c : Nat) : Option Job := s.jobs.find? fun j => j.fn = fn && j.cmd = c
def dropJob (s : State) (j : Job) : State := { s with jobs := s.jobs.filter fun x => x ≠ j }
/-- The pages of a range are sealed in map and leaves, and the space's translations invalidated (R98). -/
def sealLeaves (s : State) (fn c vmid asid : Nat) (l : List (Nat × Nat × Nat)) : State :=
  let s := l.foldl (fun s e => s.offer e.2.1 (leBytes 8 (putBits (putBits (s.rdNat e.2.1 8) 4 4 1) 2 2 0))) s
  let s := { s with sealMap := l.foldl (fun m e => if m.contains (e.2.2 / 2 ^ 16) then m else m ++ [e.2.2 / 2 ^ 16]) s.sealMap }
  let (w, s) := dropAsid s vmid asid
  { s with jobs := s.jobs ++ [⟨fn, c, l.map (·.2.2), w⟩] }
/-- The measurement of a sealed range, added to the seal chain and written out (R98, R334). -/
def measure (s : State) (fn c : Nat) (frames : List Nat) : State :=
  let s := frames.foldl (fun s f => coreRead s f 65536) s
  let m := sha3_512 (frames.flatMap fun f => s.rd f 65536)
  let f := s.vf fn
  let s := s.setVf fn { f with sealChain := sha3_512 (f.sealChain ++ m ++ leBytes 2 (cmdAsid c) ++ leBytes 8 (cmdArg c 1) ++ leBytes 8 (cmdArg c 2)) }
  coreWrite s fn (cmdArg c 3) m
/-- SEAL (R98, R334; DEDUCED, log 36): the leaves and the invalidation, then, the accesses under way completed, the measurement. -/
def sealRange (fn c : Nat) (s : State) : Served :=
  match jobOf s fn c with
  | some j => if j.wait.any (inFlight s) then .waits s else .done (measure (dropJob s j) fn c j.frames) 0 0
  | none =>
    let vmid := cmdVmid s fn c
    let s := vmidRead s vmid
    if s.debug = 2 then .done s 2 0
    else if !rangeOk (cmdArg c 1) (cmdArg c 2) then .done s 1 0
    else match rangePages s vmid (cmdAsid c) (pageList (cmdArg c 1) (cmdArg c 2)) with
      | .error e => .done s e 0
      | .ok l => .waits (sealLeaves s fn c vmid (cmdAsid c) l)
def execSealCmd (fn : Nat) : State → Out := command 4 (sealRange fn) fn
/-- The pages of a range lose their leaves, and the space's translations are invalidated (R99, R242). -/
def freeLeaves (s : State) (fn c vmid asid : Nat) (l : List (Nat × Nat × Nat)) : State :=
  let s := l.foldl (fun s e => s.offer e.2.1 (leBytes 8 (putBits (s.rdNat e.2.1 8) 0 0 0))) s
  let (w, s) := dropAsid s vmid asid
  { s with jobs := s.jobs ++ [⟨fn, c, l.map (·.2.2), w⟩] }
/-- Frames are zeroed, and their seal-map bits cleared (R99). -/
def zeroFrames (s : State) (frames : List Nat) : State :=
  let s := frames.foldl (fun s f => s.put f (List.replicate 65536 0)) s
  { s with sealMap := s.sealMap.filter fun q => !frames.any fun f => f / 2 ^ 16 = q }
/-- FREE (R99, R242): the leaves and the invalidation, then, the accesses under way completed, the frames. -/
def freeRange (fn c : Nat) (s : State) : Served :=
  match jobOf s fn c with
  | some j => if j.wait.any (inFlight s) then .waits s else .done (zeroFrames (dropJob s j) j.frames) 0 0
  | none =>
    let vmid := cmdVmid s fn c
    let s := vmidRead s vmid
    if fn ≠ pf then .done s 2 0
    else if !rangeOk (cmdArg c 1) (cmdArg c 2) then .done s 1 0
    else match rangePages s vmid (cmdAsid c) (pageList (cmdArg c 1) (cmdArg c 2)) with
      | .error _ => .done s 4 0
      | .ok l =>
        if l.any fun e => !bit e.1 4 || !s.sealMap.contains (e.2.2 / 2 ^ 16) then .done s 4 0
        else .waits (freeLeaves s fn c vmid (cmdAsid c) l)
def execFreeCmd (fn : Nat) : State → Out := command 5 (freeRange fn) fn

/-- The live grid of a VMID with a number (R328). -/
def gridOf (s : State) (vmid id : Nat) : Option (Nat × Grid) :=
  firstSome (fun e => match e.2 with
    | some g => if g.vmid = vmid && g.id.toNat = id then some (e.1, g) else none
    | none => none) s.grids
/-- VACATE (R309). -/
def execVacateCmd (fn : Nat) : State → Out :=
  command 6 (fun c s => match gridOf s (cmdVmid s fn c) (cmdArg c 1) with
    | some (key, g) => .done (vacate s fn key g.id (cmdArg c 2)) 0 0
    | none => .done s 4 0) fn
/-- RELEASE (R309, R328; DEDUCED, log 41). -/
def execReleaseCmd (fn : Nat) : State → Out :=
  command 7 (fun c s =>
    let hit (v : Vacate) : Bool := v.closed && v.vmid = cmdVmid s fn c && v.id.toNat = cmdArg c 1
    if s.vacates.any hit then
      .done (settleVacates { s with vacates := s.vacates.map fun v => if hit v then { v with closed := false } else v }) 0 0
    else .done s 4 0) fn
/-- AUDITTAKE (R247, R328). -/
def execAudittakeCmd (fn : Nat) : State → Out :=
  command 8 (fun c s =>
    let f := s.vf fn
    let n := f.auditTaken + min (cmdArg c 1) (f.auditSigned - f.auditTaken)
    .done (s.setVf fn { f with auditTaken := n }) 0 n) fn
/-- Closes every open record of a VF in blocks (R248). -/
def flushAudit (s : State) (v : Nat) : State := closeBlock (closeBlock (closeBlock (closeBlock (closeBlock s v) v) v) v) v
/-- AUDITFLUSH (R248). -/
def execAuditflushCmd (fn : Nat) : State → Out := command 9 (fun _ s => Served.done (flushAudit s fn) 0 0) fn

/-- Bytes cut or filled with zeros to a size. -/
def sized (n : Nat) (l : List Byte) : List Byte := (l ++ List.replicate n 0).take n
/-- The power state (R337). -/
def powerState (s : State) : Nat := if s.off then 4 else if s.idle then 3 else if s.hot then 2 else if s.powercap.toNat < 3000 || s.pstate = 1 then 1 else 0
/-- The configuration measurement (R334). -/
def configMeasure (s : State) : List Byte := sha3_512 (Config.fuses ++ (List.range 256).flatMap fun v => leBytes 16 (s.vf v).cfg.toNat)
/-- The attestation report (R334). -/
def report (s : State) (fn nonce : Nat) : List Byte :=
  let body := leBytes 4 1 ++ [BitVec.ofNat 8 (b2n Config.manufacturing), (s.debug).zeroExtend 8, BitVec.ofNat 8 (powerState s), 0]
    ++ leBytes 2 (if fn = pf then 0xFFFF else fn) ++ List.replicate 6 0 ++ leBytes 8 nonce ++ List.replicate 8 0
    ++ sized 64 s.firmware ++ sized 64 (configMeasure s) ++ sized 64 (s.vf fn).sealChain
    ++ sized 2592 (Config.mldsaPublic 0) ++ sized 2592 (Config.mldsaPublic 1) ++ sized 1568 Config.mlkemPublic
  sized 12288 (body ++ sized 4627 (Config.mldsaSign 0 (sha3_512 body)))
/-- ATTEST (R334). -/
def execAttestCmd (fn : Nat) : State → Out := command 10 (fun c s => Served.done (coreWrite s fn (cmdArg c 2) (report s fn (cmdArg c 1))) 0 0) fn
/-- LOADKEY (R335): while a demotion or promotion works with the slot, the command waits. -/
def execLoadkeyCmd (fn : Nat) : State → Out :=
  command 11 (fun c s =>
    let s := coreRead (touch (vmidRead s (vmidOf s fn)) (cmdArg c 1) 1608) (cmdArg c 1) 1608
    let b := s.rd (cmdArg c 1) 1608
    match Config.keyUnwrap (Config.mlkemDecap (b.take 1568)) (b.drop 1568) with
    | some k =>
      if slotBusy s (keySlot s (vmidOf s fn)) then .waits s
      else .done { s with keys := Store.set none s.keys (keySlot s (vmidOf s fn)) (some k) } 0 0
    | none => .done s 1 0) fn
/-- EXPORT (R332). -/
def execExportCmd (fn : Nat) : State → Out :=
  command 12 (fun c s =>
    let tenant := bits (cmdArg c 3) 15 0
    let grant := bit (cmdArg c 3) 16
    let s := vmidRead s (cmdVmid s fn c)
    if !rangeOk (cmdArg c 1) (cmdArg c 2) then .done s 1 0
    else match rangePages s (cmdVmid s fn c) (cmdAsid c) (pageList (cmdArg c 1) (cmdArg c 2)) with
      | .error e => .done s e 0
      | .ok l => .done (l.foldl (fun s e =>
          if grant then setExport s e.2.2 (tenant + 1) else if exported s e.2.2 = tenant + 1 then setExport s e.2.2 0 else s) s) 0 0) fn
/-- DBGNONCE (R328). -/
def execDbgnonceCmd (fn : Nat) : State → Out :=
  command 13 (fun c s =>
    if fn ≠ pf then .done s 2 0
    else
      let (k, s) := fresh s
      let n := sized 32 (Config.freshNonce k)
      Served.done (coreWrite { s with nonce := some n } fn (cmdArg c 1) n) 0 0) fn
/-- A change of the debug state closes every VF's open audit block; invasive debug clears the key slots (R336). -/
def setDebug (s : State) (d : BitVec 2) : State :=
  if s.debug = d then s
  else
    let s := (s.vfs.map (·.1)).foldl flushAudit s
    let s := if d = 2 then clearKeys s fun _ => true else s
    { s with debug := d }
/-- The unlock token checks (R336). -/
def tokenOk (s : State) (pa : Nat) : Bool :=
  match s.nonce with
  | some n => Config.mldsaVerify (sha3_512 (sized 2592 (Config.mldsaPublic 0) ++ n ++ [2])) (s.rd pa 4627) (Config.mldsaPublic 2)
  | none => false
/-- DEBUG (R336). -/
def execDebugCmd (fn : Nat) : State → Out :=
  command 14 (fun c s =>
    let d := BitVec.ofNat 2 (cmdArg c 1)
    if fn ≠ pf then .done s 2 0
    else if d = 3 then .done s 1 0
    else if d = s.debug then .done s 0 0
    else if d = 0 || d = 1 || Config.manufacturing then .done (setDebug s d) 0 0
    else
      let s := coreRead (touch s (cmdArg c 2) 4627) (cmdArg c 2) 4627
      let ok := tokenOk s (cmdArg c 2)
      let s := { s with nonce := none }
      if ok then .done (setDebug s d) 0 0 else .done s 2 0) fn
/-- MQ_UNKNOWN_OP (R328). -/
def execMqUnknownOp (fn : Nat) (s : State) : Out :=
  match headCommand s fn with
  | some (h, r, c) =>
    if 1 ≤ cmdOp c && cmdOp c ≤ 14 then .next s
    else if headPoisoned s h r then .next { s with fatal := true }
    else finish (answer s fn h r c 1 0)
  | none => .next s

-- Registers and resets

/-- Every team of a function, or of the package, ends without a record (R326, R339). -/
def dropTeams (s : State) (p : Team → Bool) : State :=
  ((s.teams.filter fun e => p e.2 && e.2.phase ≠ .ended).map (·.1)).foldl (fun s k => abortTeam s k false 0 0 0 0 0 0 0) s
/-- The fatal condition ends every team, placed or not, without records (R339). -/
def failDevice (s : State) : State :=
  let s := dropTeams s fun _ => true
  settleVacates { s with grids := s.grids.map fun (e : Nat × Option Grid) => (e.1, e.2.map fun g => { g with next := g.teams }) }
/-- The function that a park record belongs to. -/
def Park.vfIs (s : State) (p : Park) (v : Nat) : Bool :=
  match p.owner with
  | .chan c => (s.chan c).vf = v
  | .packet x _ => x = v
  | .grid g => (match s.grid g with | some x => x.vf = v | none => false)
  | _ => (s.team p.team).vf = v
/-- Discards the commands that have not been answered, of a function that is not enabled too (R326). -/
def dropCommands (s : State) (fn : Nat) : State :=
  let h := mqHeader s fn
  let r := ringAt s h
  if h = 0 || !r.formed || r.esc ≠ 8 || r.empty then s else setMqBell (s.sysPut (linkOf s fn) (h + 8) (leBytes 4 r.wp)) fn r.wp false
/-- The requests of a function's channels and of the dispatcher for its packets. -/
def Owner.ofVf (s : State) (v : Nat) : Owner → Bool
  | .chan c => (s.chan c).vf = v
  | .packet x _ => x = v
  | _ => false
/-- The reset of a VF (R326; DEDUCED, log 40): promotions and demotions that run complete. -/
def resetVf (s : State) (v : Nat) : State :=
  let s := dropCommands s v
  let s := { s with parks := s.parks.filter (fun p => !p.vfIs s v), jobs := s.jobs.filter (fun j => j.fn ≠ v)
                    moves := s.moves.map fun m => if m.fn = v && m.tier.isSome then { m with fn := 257 } else m }
  let s := dropTeams s fun t => t.vf = v
  let s := forgetWalks s (Owner.ofVf s v)
  let s := { s with chans := s.chans.map fun (e : Nat × Chan) => (e.1, if e.2.vf = v then { e.2 with phase := .stopped } else e.2) }
  let s := (s.faults.filter fun f => f.vf = v).foldl (fun s f => match f.held with | some fr => giveFrame s f.vmid fr | none => s) s
  let s := { s with faults := s.faults.filter (fun f => f.vf ≠ v || promotable s f) }
  let s := if vmidOf s v = 0 then s else clearKeys s fun n => n = keySlot s (vmidOf s v)
  let s := { s with grids := s.grids.map fun (e : Nat × Option Grid) => (e.1, e.2.map fun g => if g.vf = v then { g with next := g.teams } else g) }
  settleVacates (flushAudit s v)
/-- VFCFG's fields that exist (R323). -/
def cfgMask : BitVec 128 := 0xFFFF01FFF3000FFF
/-- The reset by a write of enable := 0 (R326; DEDUCED, log 40). -/
def disableVf (s : State) (v : Nat) : State :=
  let s := resetVf s v
  s.setVf v { s.vf v with cfg := (s.vf v).cfg &&& ~~~ (0x2000000 : BitVec 128) }
/-- VF_RESET (R326). -/
def execVfReset (v : Nat) (s : State) : Out := finish (disableVf s v)
/-- FUNCTION_LEVEL_RESET (R326). -/
def execFunctionLevelReset (v : Nat) (s : State) : Out := finish (disableVf s v)
/-- A function's queue is named anew: of what stands in it nothing has been signalled, but that an outstanding signal of the same queue stays
(R15, R327; DEDUCED, log 35); `old` is the state before. -/
def renameMq (old s : State) (fn : Nat) : State :=
  let h := mqHeader s fn
  let r := ringAt s h
  setMqBell s fn r.wp (mqHeader old fn = h && mqRung old fn (ringAt old h) && !r.empty)
/-- A ring listed in a VF's table has a signal outstanding. -/
def signalled (s : State) (v h : Nat) : Bool :=
  (List.range (s.vf v).ringCopy.length).any fun n => ringHeader s v n = some h && rung s v n (ringAt s h)
/-- A VF's rings are listed anew, as its queue is named anew (R15, R275, R324; DEDUCED, log 35). -/
def relistRings (old s : State) (v : Nat) : State :=
  (List.range (s.vf v).ringCopy.length).foldl (fun s n => match ringHeader s v n with
    | some h => setBell s v n (ringAt s h).wp (signalled old v h && !(ringAt s h).empty)
    | none => s) s
/-- VFCFG_WRITE (R323, R337). -/
def execVfcfgWrite (v : Nat) (x : BitVec 128) (s : State) : Out :=
  let x := x &&& cfgMask
  let old := (s.vf v).cfg
  let s := { s with idle := false }
  if 256 ≤ v || (x.getLsbD 25 && bits x.toNat 11 0 = 0) || (old.getLsbD 25 && bits x.toNat 11 0 ≠ bits old.toNat 11 0) then .next s
  else if !x.getLsbD 25 then
    let s := resetVf s v
    finish (s.setVf v { s.vf v with cfg := x })
  else if old.getLsbD 25 then .next (s.setVf v { s.vf v with cfg := x })
  else
    let f := { s.vf v with cfg := x, auditSeq := 0, auditTaken := 0, auditSigned := 0, auditRecs := [] }
    .next (s.setVf v { f with auditChain := List.replicate 64 0, signatures := [], sealChain := List.replicate 64 0 })
/-- The dispatcher reads a VF's ring table (R324); the write that makes it starts no work (R15). -/
def rereadRings (s : State) (v : Nat) (tab : BitVec 64) : State :=
  let old := s
  let base := tab.toNat / 1024 * 1024
  let s := coreRead (touch s base 1024) base 1024
  let entries := (List.range 64).map fun i =>
    let e := s.rdNat (base + 16 * i) 16
    if ringEntryOk e then BitVec.ofNat 128 e else 0
  relistRings old { s.setVf v { s.vf v with ringtab := BitVec.ofNat 64 base, ringCopy := entries } with idle := false } v
/-- RINGTAB_WRITE (R324). -/
def execRingtabWrite (v : Nat) (x : BitVec 64) (s : State) : Out := if 256 ≤ v then .next s else finish (rereadRings s v x)

/-- Boots the management core (R333): measures and verifies the images (PRESUMED, log 37). -/
def boot (s : State) (images : List FwImage) : State :=
  { s with images := images
           firmware := images.foldl (fun fw i => sha3_512 (fw ++ sha3_512 i.bytes)) (List.replicate 64 0)
           fatal := s.fatal || images.any fun i => !Config.mldsaVerify i.bytes i.sig (Config.mldsaPublic 2) }
/-- A write of PSTATE (R337). -/
def writePstate (s : State) (v : BitVec 32) : State :=
  let x := v &&& 7
  if x = 0 then (if s.off then boot { s with pstate := 0, off := false } s.images else { s with pstate := 0 })
  else if x = 1 then { s with pstate := 1 }
  else if x = 4 && !(s.vfs.any fun e => bit e.2.cfg.toNat 25) then { setDebug s 0 with pstate := 4, off := true }
  else s
/-- PSTATE_WRITE (R337). -/
def execPstateWrite (v : BitVec 32) (s : State) : Out := .next (writePstate { s with idle := false } v)
/-- A write of POWERCAP (R322). -/
def writePowercap (s : State) (v : BitVec 32) : State := if 500 ≤ v.toNat && v.toNat ≤ 3000 then { s with powercap := v } else s
/-- POWERCAP_WRITE (R337). -/
def execPowercapWrite (v : BitVec 32) (s : State) : Out := .next (writePowercap { s with idle := false } v)
/-- REGISTER_WRITE (R322, R324, R337): unlisted offsets and read-only registers ignore it. -/
def execRegisterWrite (fn off : Nat) (v : BitVec 64) (s : State) : Out :=
  let w : BitVec 32 := v.truncate 32
  let s := { s with idle := false }
  if fn = pf then
    if off = 0x10 then .next { s with vmtbase := v &&& ~~~ (0xFFFF : BitVec 64) }
    else if off = 0x18 then .next { s with peerid := w &&& 0xF }
    else if off = 0x1C then .next (writePowercap s w)
    else if off = 0x20 then .next (writePstate s w)
    else if off = 0x28 then .next (renameMq s { s with pfmq := v } pf)
    else if 0x40 ≤ off && off < 0x80 && off % 4 = 0 then .next { s with peerroute := Store.set 0 s.peerroute ((off - 0x40) / 4) (w &&& 0xFFF) }
    else .next s
  else if 256 ≤ fn then .next s
  else if off = 0 then finish (rereadRings s fn v)
  else if off = 8 then .next (renameMq s (s.setVf fn { s.vf fn with mqhdr := v }) fn)
  else .next s
/-- What a read of a function register returns (R322 to R324). -/
def readRegister (s : State) (fn off : Nat) : Nat :=
  if fn = pf then
    if off = 0 then 0x19210
    else if off = 8 then b2n Config.manufacturing + (s.debug).toNat * 2 ^ 2 + powerState s * 2 ^ 4 + b2n s.fatal * 2 ^ 8
    else if off = 0x10 then s.vmtbase.toNat
    else if off = 0x18 then s.peerid.toNat
    else if off = 0x1C then s.powercap.toNat
    else if off = 0x20 then s.pstate.toNat
    else if off = 0x28 then s.pfmq.toNat
    else if 0x40 ≤ off && off < 0x80 && off % 4 = 0 then (Store.get 0 s.peerroute ((off - 0x40) / 4)).toNat
    else if 0x1000 ≤ off && off < 0x2000 && off % 16 = 0 then (s.vf ((off - 0x1000) / 16)).cfg.toNat
    else 0
  else if off = 0 then (s.vf fn).ringtab.toNat
  else if off = 8 then (s.vf fn).mqhdr.toNat
  else if off = 0x10 then fn + keySlot s (vmidOf s fn) * 2 ^ 8
  else 0
/-- DEVICE_RESET (R333): the reset state, with memory and what the model keeps for itself (DESIGN CHOICE, log 39). -/
def execDeviceReset (images : List FwImage) (s : State) : Out :=
  .next (boot { State.reset with agenda := s.agenda, freeCount := s.freeCount, nextKey := s.nextKey, mem := s.mem, poison := s.poison, tierRecs := s.tierRecs } images)
/-- PF_RESET (R339). -/
def execPfReset (s : State) : Out := .next { s with fatal := false }
/-- A major fault whose record found no room gets it, with the clock of the fault (R299, R329). -/
def retryMajor (s : State) (fn : Nat) : State :=
  match s.faults.find? fun f => f.vf = fn && f.pend.isSome with
  | some f => let (reason, clock) := f.pend.getD (0, 0); makeMajorAt s f.id reason clock
  | none => s
/-- EVENT_RECORD_WRITE (R329): the oldest waiting record of a function. -/
def execEventRecordWrite (fn : Nat) (s : State) : Out :=
  match s.evWait.find? fun e => e.1 = fn with
  | some e => match tryEvent s fn e.2 with
    | (true, s) => finish (retryMajor { s with evWait := s.evWait.erase e } fn)
    | (false, s) => finish s
  | none => .next s

-- Power

/-- THERMAL_HIGH (R337). -/
def execThermalHigh (s : State) : Out := .next { s with hot := true }
/-- THERMAL_LOW (R337). -/
def execThermalLow (s : State) : Out := .next { s with hot := false }
/-- No team, no engine work, no outstanding access (R337). -/
def workless (s : State) : Bool :=
  s.teams.all (fun e => e.2.phase = .ended) && s.copies.isEmpty && s.mops.isEmpty && s.chans.all (fun e => e.2.phase = .stopped)
    && s.walks.isEmpty && s.moves.isEmpty && s.jobs.isEmpty && s.parks.isEmpty && s.outbound.isEmpty && s.grids.isEmpty
/-- IDLE_ENTRY (R337). -/
def execIdleEntry (s : State) : Out := .next (if workless s && !s.off then { s with idle := true } else s)
/-- IDLE_WAKE (R337). -/
def execIdleWake (s : State) : Out := .next { s with idle := false }

-- Peers and errors

/-- PEER_PORT_FAIL (R331): writes still bound for a peer that no port reaches are lost. -/
def execPeerPortFail (port : Nat) (s : State) : Out :=
  let s := { s with portsUp := s.portsUp &&& ~~~ BitVec.twoPow 12 port }
  .next { s with outbound := s.outbound.filter fun w => !lost s w.pa }
/-- An uncorrectable error of a sector (R338): poisoned, and reported once. -/
def poisonSector (s : State) (pa unit : Nat) : State :=
  let q := pa / 32
  if s.poison.contains q then s else post { s with poison := s.poison ++ [q] } pf 11 1 (32 * q) unit 1
/-- The operation's drain is under way. -/
def draining (m : Mop) : Bool := match m.phase with
  | .draining _ => true
  | _ => false
/-- MEMORY_ERROR_DETECT (R338, R339; DESIGN CHOICE, log 39): an error in an accumulator, or in a value that a drain has captured, fails
the drain under way or aborts the team (R233, R313). -/
def execMemoryErrorDetect (e : MemError) (s : State) : Out :=
  match e with
  | .hbm pa => finish (poisonSector s pa 0)
  | .l2 pa => finish (poisonSector s pa 1)
  | .team unit k =>
    let (a, s) := freeWord s
    let (pc, s) := freeWord s
    let s := post s pf 11 1 a.toNat unit 1
    let (drain, s) := freeBit s
    match (if (unit = 3 || unit = 4) && drain then s.mops.find? fun m => m.team = k && draining m else none) with
    | some m => finish (failMop s m 6 0 0)
    | none => finish (settleVacates (abortTeam s k true 6 0 0 0xFFFFFFFF 0 pc.toNat 0))
  | .management =>
    let (a, s) := freeWord s
    let s := post { s with fatal := true } pf 11 1 a.toNat 5 1
    finish (failDevice s)
/-- Clocks in a second (R338). -/
def clocksPerSecond : Nat := 1000000 * Config.clocksPerUs
/-- CORRECTED_ERROR_REPORT (R338): at most one record per unit and second, with the count since the last. -/
def execCorrectedErrorReport (unit k : Nat) (s : State) : Out :=
  let n := Store.get 0 s.errCounts unit + k
  let s := { s with errCounts := Store.set 0 s.errCounts unit n }
  let last := Store.get 0 s.errClock unit
  if n = 0 || (last ≠ 0 && s.clock < last + clocksPerSecond) then .next s
  else
    let (a, s) := freeWord s
    let s := { s with errCounts := Store.set 0 s.errCounts unit 0, errClock := Store.set 0 s.errClock unit (max s.clock 1) }
    finish (post s pf 11 0 a.toNat unit n)

/-- An outside agent's access to HBM at its slice (R255, R266, R332, R339). -/
def agentAccess (s : State) (pa : Nat) (op : AgentOp) : Reply × State :=
  match op with
  | .load n =>
    let s := touch (raceOutside s pa n) pa n
    (if poisoned s pa n then .poisoned else .bytes (s.rd pa n), s)
  | .store bs =>
    if (List.range (bs.length / 65536 + 2)).any fun i => s.sealMap.contains ((min (pa + 65536 * i) (pa + bs.length - 1)) / 2 ^ 16) then (.error, s)
    else (.bytes [], (raceOutside s pa bs.length).put pa bs)
  | .atomic f b c =>
    let n := atomSize f.toNat
    if s.sealMap.contains (pa / 2 ^ 16) then (.error, s)
    else if poisoned s pa n then (.poisoned, s)
    else
      let s := raceOutside s pa n
      let old := s.rdNat pa n
      (.bytes (leBytes n old), s.put pa (leBytes n (atomNew f.toNat old (b.toNat % 2 ^ (8 * n)) (c.toNat % 2 ^ (8 * n)))))
/-- Bytes that an access covers. -/
def agentSize : AgentOp → Nat
  | .load n => n
  | .store bs => bs.length
  | .atomic f _ _ => atomSize f.toNat
def agentStores : AgentOp → Bool
  | .store _ => true
  | .load _ => false
  | .atomic _ _ _ => true
/-- The access has been performed. -/
def Reply.done : Reply → Bool
  | .bytes _ => true
  | _ => false
/-- The headers of the launch rings and management queues (R275, R327). -/
def doorbells (s : State) : List Nat :=
  s.pfmq.toNat :: s.vfs.flatMap fun e => e.2.mqhdr.toNat :: (e.2.ringCopy.filter fun r => bit r.toNat 64).map fun r => bits r.toNat 63 0
/-- The access writes the wp at a header. -/
def writesAt (pa n h : Nat) : Bool := decide (pa < h + 16) && decide (h + 12 < pa + n)
/-- The signals of the launch rings and queues whose wp the access writes (R15, R275): those that are not empty. -/
def ringBells (s : State) (pa n : Nat) : State :=
  let s := (s.vfs.map (·.1)).foldl (fun s v => (List.range (s.vf v).ringCopy.length).foldl (fun s i => match ringHeader s v i with
    | some h => if writesAt pa n h then setBell s v i (ringAt s h).wp (!(ringAt s h).empty) else s
    | none => s) s) s
  (s.vfs.map (·.1) ++ [pf]).foldl (fun s fn => if mqHeader s fn ≠ 0 && writesAt pa n (mqHeader s fn) then
    setMqBell s fn (ringAt s (mqHeader s fn)).wp (!(ringAt s (mqHeader s fn)).empty) else s) s
/-- The signals of rings and queues that are empty have brought no work, and are spent (R15; DEDUCED, log 35). -/
def spendBells (s : State) : State :=
  let s := (s.vfs.map (·.1)).foldl (fun s v => (List.range (s.vf v).ringCopy.length).foldl (fun s n => match ringHeader s v n with
    | some h => if (ringAt s h).empty then setBell s v n (ringAt s h).wp false else s
    | none => s) s) s
  (s.vfs.map (·.1) ++ [pf]).foldl (fun s fn =>
    if mqHeader s fn ≠ 0 && (ringAt s (mqHeader s fn)).empty then setMqBell s fn (ringAt s (mqHeader s fn)).wp false else s) s
/-- Blocks that the host has written (R282). -/
def noteHost (s : State) (pa n : Nat) : State :=
  { s with hostBlocks := s.hostBlocks ++ ((List.range (n / 64 + 2)).map (pa / 64 + ·)).filter fun q => decide (64 * q < pa + n) && !s.hostBlocks.contains q }
/-- The access writes a wp (R15). -/
def writesWp (s : State) (pa n : Nat) : Bool := (doorbells s).any (writesAt pa n)
/-- HOST_ACCESS (R255, R99, R339, R337; DESIGN CHOICE, log 38). -/
def execHostAccess (r : HostReq) (s : State) : Out :=
  if !inHbm r.pa || !inHbm (r.pa + agentSize r.op - 1) || agentSize r.op = 0 then .next s
  else if s.off && agentStores r.op && writesWp s r.pa (agentSize r.op) then .next s
  else
    let (x, s) := agentAccess { s with idle := false } r.pa r.op
    finish { (if agentStores r.op && x.done then ringBells (noteHost s r.pa (agentSize r.op)) r.pa (agentSize r.op) else s) with hostReply := x }
/-- PEER_REQUEST (R332, R337; DESIGN CHOICE, log 38). -/
def execPeerRequest (r : PeerReq) (s : State) : Out :=
  let frames := (List.range (agentSize r.op / 65536 + 2)).map fun i => min (r.pa + 65536 * i) (r.pa + agentSize r.op - 1)
  if s.off || agentSize r.op = 0 then .next s
  else if !inHbm r.pa || !inHbm (r.pa + agentSize r.op - 1) || frames.any (fun a => exported s a ≠ r.tenant.toNat + 1) then
    .next { s with peerReply := .refused, idle := false }
  else
    let (x, s) := agentAccess { s with idle := false } r.pa r.op
    finish { (if agentStores r.op && x.done then ringBells s r.pa (agentSize r.op) else s) with peerReply := x }
/-- WAKE_REGISTER_ACTION (R340). -/
def execWakeRegisterAction (s : State) : Out :=
  match s.wakeReg with
  | [] => .next s
  | (v, x) :: rest =>
    let s := { s with wakeReg := rest }
    .next (if x = 1 then flushAudit s v else if x = 2 then { s with msix := s.msix ++ [(v, 0)] } else s)

end Sys2Proof.Machine
end

