-- ==== Sys2Proof/Machine/Dispatch.lean ====
section
/-! DEFINITION. The meaning of every instruction and machine event, one arm each. -/

namespace Sys2Proof.Machine

def exec (i : Instr) (s : State) : Host.Outcome State Fault Refusal :=
  match i with
  | .ill => Sys2Proof.Machine.execIll s
  | .pfx p n c x => Sys2Proof.Machine.execPfx p n c x s
  | .grd p g u => Sys2Proof.Machine.execGrd p g u s
  | .add d a b => Sys2Proof.Machine.execAdd d a b s
  | .sub d a b => Sys2Proof.Machine.execSub d a b s
  | .mul d a b => Sys2Proof.Machine.execMul d a b s
  | .mulhS32 d a b => Sys2Proof.Machine.execMulhS32 d a b s
  | .mulhN32 d a b => Sys2Proof.Machine.execMulhN32 d a b s
  | .minS32 d a b => Sys2Proof.Machine.execMinS32 d a b s
  | .minN32 d a b => Sys2Proof.Machine.execMinN32 d a b s
  | .maxS32 d a b => Sys2Proof.Machine.execMaxS32 d a b s
  | .maxN32 d a b => Sys2Proof.Machine.execMaxN32 d a b s
  | .andB d a b => Sys2Proof.Machine.execAndB d a b s
  | .orB d a b => Sys2Proof.Machine.execOrB d a b s
  | .xorB d a b => Sys2Proof.Machine.execXorB d a b s
  | .shl d a b => Sys2Proof.Machine.execShl d a b s
  | .shr d a b => Sys2Proof.Machine.execShr d a b s
  | .sar d a b => Sys2Proof.Machine.execSar d a b s
  | .andn d a b => Sys2Proof.Machine.execAndn d a b s
  | .mad d a b => Sys2Proof.Machine.execMad d a b s
  | .madwS32 d a b => Sys2Proof.Machine.execMadwS32 d a b s
  | .madwN32 d a b => Sys2Proof.Machine.execMadwN32 d a b s
  | .addB64 d a b => Sys2Proof.Machine.execAddB64 d a b s
  | .subB64 d a b => Sys2Proof.Machine.execSubB64 d a b s
  | .lea0 d a b => Sys2Proof.Machine.execLea0 d a b s
  | .lea1 d a b => Sys2Proof.Machine.execLea1 d a b s
  | .lea2 d a b => Sys2Proof.Machine.execLea2 d a b s
  | .lea3 d a b => Sys2Proof.Machine.execLea3 d a b s
  | .divS32 d a b => Sys2Proof.Machine.execDivS32 d a b s
  | .divN32 d a b => Sys2Proof.Machine.execDivN32 d a b s
  | .remS32 d a b => Sys2Proof.Machine.execRemS32 d a b s
  | .remN32 d a b => Sys2Proof.Machine.execRemN32 d a b s
  | .absdS32 d a b => Sys2Proof.Machine.execAbsdS32 d a b s
  | .prmt d a b => Sys2Proof.Machine.execPrmt d a b s
  | .rot d a b => Sys2Proof.Machine.execRot d a b s
  | .addi d a imm => Sys2Proof.Machine.execAddi d a imm s
  | .andi d a imm => Sys2Proof.Machine.execAndi d a imm s
  | .ori d a imm => Sys2Proof.Machine.execOri d a imm s
  | .xori d a imm => Sys2Proof.Machine.execXori d a imm s
  | .shli d a u => Sys2Proof.Machine.execShli d a u s
  | .shri d a u => Sys2Proof.Machine.execShri d a u s
  | .sari d a u => Sys2Proof.Machine.execSari d a u s
  | .roti d a u => Sys2Proof.Machine.execRoti d a u s
  | .movi d imm => Sys2Proof.Machine.execMovi d imm s
  | .movhi d imm => Sys2Proof.Machine.execMovhi d imm s
  | .mov d a => Sys2Proof.Machine.execMov d a s
  | .popc d a => Sys2Proof.Machine.execPopc d a s
  | .clz d a => Sys2Proof.Machine.execClz d a s
  | .brev d a => Sys2Proof.Machine.execBrev d a s
  | .ffs d a => Sys2Proof.Machine.execFfs d a s
  | .sext8 d a => Sys2Proof.Machine.execSext8 d a s
  | .sext16 d a => Sys2Proof.Machine.execSext16 d a s
  | .zext8 d a => Sys2Proof.Machine.execZext8 d a s
  | .zext16 d a => Sys2Proof.Machine.execZext16 d a s
  | .bfeS32 d a b => Sys2Proof.Machine.execBfeS32 d a b s
  | .bfeN32 d a b => Sys2Proof.Machine.execBfeN32 d a b s
  | .bfi d a b => Sys2Proof.Machine.execBfi d a b s
  | .movB64 d a => Sys2Proof.Machine.execMovB64 d a s
  | .notB d a => Sys2Proof.Machine.execNotB d a s
  | .cmp p g a b c => Sys2Proof.Machine.execCmp p g a b c s
  | .cmpi p g a c imm => Sys2Proof.Machine.execCmpi p g a c imm s
  | .pand d a b => Sys2Proof.Machine.execPand d a b s
  | .por d a b => Sys2Proof.Machine.execPor d a b s
  | .pxor d a b => Sys2Proof.Machine.execPxor d a b s
  | .pandn d a b => Sys2Proof.Machine.execPandn d a b s
  | .pnot d a => Sys2Proof.Machine.execPnot d a s
  | .ptov d => Sys2Proof.Machine.execPtov d s
  | .vtop a b => Sys2Proof.Machine.execVtop a b s
  | .sel d a b q => Sys2Proof.Machine.execSel d a b q s
  | .voteAny d a => Sys2Proof.Machine.execVoteAny d a s
  | .voteAll d a => Sys2Proof.Machine.execVoteAll d a s
  | .voteBallot d a => Sys2Proof.Machine.execVoteBallot d a s
  | .voteMatch d a => Sys2Proof.Machine.execVoteMatch d a s
  | .voteActive d => Sys2Proof.Machine.execVoteActive d s
  | .votePopn d a => Sys2Proof.Machine.execVotePopn d a s
  | .shflIdx d a b => Sys2Proof.Machine.execShflIdx d a b s
  | .shflUp d a b => Sys2Proof.Machine.execShflUp d a b s
  | .shflDown d a b => Sys2Proof.Machine.execShflDown d a b s
  | .shflXor d a b => Sys2Proof.Machine.execShflXor d a b s
  | .shflRdx d a f => Sys2Proof.Machine.execShflRdx d a f s
  | .fadd d a b => Sys2Proof.Machine.execFadd d a b s
  | .fsub d a b => Sys2Proof.Machine.execFsub d a b s
  | .fmul d a b => Sys2Proof.Machine.execFmul d a b s
  | .ffma d a b => Sys2Proof.Machine.execFfma d a b s
  | .fmin d a b => Sys2Proof.Machine.execFmin d a b s
  | .fmax d a b => Sys2Proof.Machine.execFmax d a b s
  | .fminn d a b => Sys2Proof.Machine.execFminn d a b s
  | .fmaxn d a b => Sys2Proof.Machine.execFmaxn d a b s
  | .fcopys d a b => Sys2Proof.Machine.execFcopys d a b s
  | .fnma d a b => Sys2Proof.Machine.execFnma d a b s
  | .fldx d a b => Sys2Proof.Machine.execFldx d a b s
  | .hadd2 d a b => Sys2Proof.Machine.execHadd2 d a b s
  | .hmul2 d a b => Sys2Proof.Machine.execHmul2 d a b s
  | .hfma2 d a b => Sys2Proof.Machine.execHfma2 d a b s
  | .hmin2 d a b => Sys2Proof.Machine.execHmin2 d a b s
  | .hmax2 d a b => Sys2Proof.Machine.execHmax2 d a b s
  | .hpk d a b => Sys2Proof.Machine.execHpk d a b s
  | .bpk d a b => Sys2Proof.Machine.execBpk d a b s
  | .badd2 d a b => Sys2Proof.Machine.execBadd2 d a b s
  | .bmul2 d a b => Sys2Proof.Machine.execBmul2 d a b s
  | .bfma2 d a b => Sys2Proof.Machine.execBfma2 d a b s
  | .bmin2 d a b => Sys2Proof.Machine.execBmin2 d a b s
  | .bmax2 d a b => Sys2Proof.Machine.execBmax2 d a b s
  | .htof d a u => Sys2Proof.Machine.execHtof d a u s
  | .btof d a u => Sys2Proof.Machine.execBtof d a u s
  | .dadd d a b => Sys2Proof.Machine.execDadd d a b s
  | .dsub d a b => Sys2Proof.Machine.execDsub d a b s
  | .dmul d a b => Sys2Proof.Machine.execDmul d a b s
  | .dfma d a b => Sys2Proof.Machine.execDfma d a b s
  | .dmin d a b => Sys2Proof.Machine.execDmin d a b s
  | .dmax d a b => Sys2Proof.Machine.execDmax d a b s
  | .fcmp p g a b c => Sys2Proof.Machine.execFcmp p g a b c s
  | .ex2 d a => Sys2Proof.Machine.execEx2 d a s
  | .lg2 d a => Sys2Proof.Machine.execLg2 d a s
  | .rcp d a => Sys2Proof.Machine.execRcp d a s
  | .rsq d a => Sys2Proof.Machine.execRsq d a s
  | .sqrt d a => Sys2Proof.Machine.execSqrt d a s
  | .sin d a => Sys2Proof.Machine.execSin d a s
  | .cos d a => Sys2Proof.Machine.execCos d a s
  | .tanh d a => Sys2Proof.Machine.execTanh d a s
  | .rndn d a => Sys2Proof.Machine.execRndn d a s
  | .rndz d a => Sys2Proof.Machine.execRndz d a s
  | .rndd d a => Sys2Proof.Machine.execRndd d a s
  | .rndu d a => Sys2Proof.Machine.execRndu d a s
  | .fclass d a => Sys2Proof.Machine.execFclass d a s
  | .sig d a => Sys2Proof.Machine.execSig d a s
  | .fcvt d a w r t => Sys2Proof.Machine.execFcvt d a w r t s
  | .ld d a z o => Sys2Proof.Machine.execLd d a z o s
  | .st d a z o => Sys2Proof.Machine.execSt d a z o s
  | .ldp d a z o => Sys2Proof.Machine.execLdp d a z o s
  | .stp d a z o => Sys2Proof.Machine.execStp d a z o s
  | .ldq d a z u o => Sys2Proof.Machine.execLdq d a z u o s
  | .stl d a z u o => Sys2Proof.Machine.execStl d a z u o s
  | .atom d a b f => Sys2Proof.Machine.execAtom d a b f s
  | .atomp d a b f => Sys2Proof.Machine.execAtomp d a b f s
  | .phaseTeam => Sys2Proof.Machine.execPhaseTeam s
  | .phaseDev => Sys2Proof.Machine.execPhaseDev s
  | .phaseSys => Sys2Proof.Machine.execPhaseSys s
  | .fenceOp => Sys2Proof.Machine.execFenceOp s
  | .fenceEng => Sys2Proof.Machine.execFenceEng s
  | .pref a => Sys2Proof.Machine.execPref a s
  | .waita a b => Sys2Proof.Machine.execWaita a b s
  | .clk d => Sys2Proof.Machine.execClk d s
  | .waitc l u c t => Sys2Proof.Machine.execWaitc l u c t s
  | .accrd d a b => Sys2Proof.Machine.execAccrd d a b s
  | .accwr d a b => Sys2Proof.Machine.execAccwr d a b s
  | .mzero b => Sys2Proof.Machine.execMzero b s
  | .tload d a b => Sys2Proof.Machine.execTload d a b s
  | .tstore d a b => Sys2Proof.Machine.execTstore d a b s
  | .tgath d a b => Sys2Proof.Machine.execTgath d a b s
  | .tscat d a b => Sys2Proof.Machine.execTscat d a b s
  | .tscata d a b => Sys2Proof.Machine.execTscata d a b s
  | .tmcast d a b => Sys2Proof.Machine.execTmcast d a b s
  | .tpref a b => Sys2Proof.Machine.execTpref a b s
  | .binit a b => Sys2Proof.Machine.execBinit a b s
  | .barr d a b => Sys2Proof.Machine.execBarr d a b s
  | .bwait a b => Sys2Proof.Machine.execBwait a b s
  | .btest d a b => Sys2Proof.Machine.execBtest d a b s
  | .tbar => Sys2Proof.Machine.execTbar s
  | .pfree a => Sys2Proof.Machine.execPfree a s
  | .rawait d a => Sys2Proof.Machine.execRawait d a s
  | .rrel a => Sys2Proof.Machine.execRrel a s
  | .rpush d a b => Sys2Proof.Machine.execRpush d a b s
  | .chain d a b => Sys2Proof.Machine.execChain d a b s
  | .qlaunch d a b => Sys2Proof.Machine.execQlaunch d a b s
  | .fork d a b => Sys2Proof.Machine.execFork d a b s
  | .mma c a b p => Sys2Proof.Machine.execMma c a b p s
  | .mmaz c a b p => Sys2Proof.Machine.execMmaz c a b p s
  | .mmas c a b p => Sys2Proof.Machine.execMmas c a b p s
  | .mmasz c a b p => Sys2Proof.Machine.execMmasz c a b p s
  | .mmac c a b p => Sys2Proof.Machine.execMmac c a b p s
  | .mmacz c a b p => Sys2Proof.Machine.execMmacz c a b p s
  | .gang a => Sys2Proof.Machine.execGang a s
  | .dpload d a => Sys2Proof.Machine.execDpload d a s
  | .thset d a => Sys2Proof.Machine.execThset d a s
  | .thcur d a b => Sys2Proof.Machine.execThcur d a b s
  | .thget d a => Sys2Proof.Machine.execThget d a s
  | .mhad d a b => Sys2Proof.Machine.execMhad d a b s
  | .mdrain d b => Sys2Proof.Machine.execMdrain d b s
  | .mode a b => Sys2Proof.Machine.execMode a b s
  | .scupd d a => Sys2Proof.Machine.execScupd d a s
  | .tres d a b => Sys2Proof.Machine.execTres d a b s
  | .tunres d => Sys2Proof.Machine.execTunres d s
  | .fold d a b f => Sys2Proof.Machine.execFold d a b f s
  | .join d a b => Sys2Proof.Machine.execJoin d a b s
  | .rank d a b => Sys2Proof.Machine.execRank d a b s
  | .rebal d a b => Sys2Proof.Machine.execRebal d a b s
  | .rbtot d a => Sys2Proof.Machine.execRbtot d a s
  | .rgive k => Sys2Proof.Machine.execRgive k s
  | .rtake k => Sys2Proof.Machine.execRtake k s
  | .rqry d => Sys2Proof.Machine.execRqry d s
  | .walk d a h => Sys2Proof.Machine.execWalk d a h s
  | .trclr => Sys2Proof.Machine.execTrclr s
  | .pdig d a b => Sys2Proof.Machine.execPdig d a b s
  | .bra p n o => Sys2Proof.Machine.execBra p n o s
  | .call p n o => Sys2Proof.Machine.execCall p n o s
  | .brx a => Sys2Proof.Machine.execBrx a s
  | .callx a => Sys2Proof.Machine.execCallx a s
  | .ret => Sys2Proof.Machine.execRet s
  | .exit => Sys2Proof.Machine.execExit s
  | .yield => Sys2Proof.Machine.execYield s
  | .rcvset d => Sys2Proof.Machine.execRcvset d s
  | .rcvwait d => Sys2Proof.Machine.execRcvwait d s
  | .pass => Sys2Proof.Machine.execPass s
  | .brk => Sys2Proof.Machine.execBrk s
  | .trap n => Sys2Proof.Machine.execTrap n s
  | .rtt => Sys2Proof.Machine.execRtt s
  | .softi d a b => Sys2Proof.Machine.execSofti d a b s
  | .sleepc a => Sys2Proof.Machine.execSleepc a s
  | .nop32 => Sys2Proof.Machine.execNop32 s
  | .sysr d n => Sys2Proof.Machine.execSysr d n s
  | .sysw a n => Sys2Proof.Machine.execSysw a n s
  | .tlbiVa a b => Sys2Proof.Machine.execTlbiVa a b s
  | .tlbiAsid b => Sys2Proof.Machine.execTlbiAsid b s
  | .tlbiAll b => Sys2Proof.Machine.execTlbiAll b s
  | .movC d u => Sys2Proof.Machine.execMovC d u s
  | .moviC d imm => Sys2Proof.Machine.execMoviC d imm s
  | .addC d u => Sys2Proof.Machine.execAddC d u s
  | .addiC d imm => Sys2Proof.Machine.execAddiC d imm s
  | .subC d u => Sys2Proof.Machine.execSubC d u s
  | .andC d u => Sys2Proof.Machine.execAndC d u s
  | .orC d u => Sys2Proof.Machine.execOrC d u s
  | .xorC d u => Sys2Proof.Machine.execXorC d u s
  | .shliC d n => Sys2Proof.Machine.execShliC d n s
  | .shriC d n => Sys2Proof.Machine.execShriC d n s
  | .sariC d n => Sys2Proof.Machine.execSariC d n s
  | .faddC d u => Sys2Proof.Machine.execFaddC d u s
  | .fmulC d u => Sys2Proof.Machine.execFmulC d u s
  | .fmaxC d u => Sys2Proof.Machine.execFmaxC d u s
  | .minS32C d u => Sys2Proof.Machine.execMinS32C d u s
  | .maxS32C d u => Sys2Proof.Machine.execMaxS32C d u s
  | .braS o => Sys2Proof.Machine.execBraS o s
  | .nopC => Sys2Proof.Machine.execNopC s
  | .yieldC => Sys2Proof.Machine.execYieldC s
  | .exitC => Sys2Proof.Machine.execExitC s
  | .retC => Sys2Proof.Machine.execRetC s
  | .translationWalk w => Sys2Proof.Machine.execTranslationWalk w s
  | .snapshotPrefetch team va => Sys2Proof.Machine.execSnapshotPrefetch team va s
  | .snapshotEmpty team va => Sys2Proof.Machine.execSnapshotEmpty team va s
  | .writeBufferDrain team n => Sys2Proof.Machine.execWriteBufferDrain team n s
  | .outboundPerform n => Sys2Proof.Machine.execOutboundPerform n s
  | .copyPiece c => Sys2Proof.Machine.execCopyPiece c s
  | .copyComplete c => Sys2Proof.Machine.execCopyComplete c s
  | .tmcastBufferClaim c => Sys2Proof.Machine.execTmcastBufferClaim c s
  | .tileFetch o => Sys2Proof.Machine.execTileFetch o s
  | .matrixLeaveGrant o => Sys2Proof.Machine.execMatrixLeaveGrant o s
  | .arrayAccumulate o => Sys2Proof.Machine.execArrayAccumulate o s
  | .drainRowCommit o => Sys2Proof.Machine.execDrainRowCommit o s
  | .chainRecordRead ch => Sys2Proof.Machine.execChainRecordRead ch s
  | .chainChunk ch => Sys2Proof.Machine.execChainChunk ch s
  | .chainRecordComplete ch => Sys2Proof.Machine.execChainRecordComplete ch s
  | .promotion f => Sys2Proof.Machine.execPromotion f s
  | .migrationRequest r => Sys2Proof.Machine.execMigrationRequest r s
  | .migrationComplete m r => Sys2Proof.Machine.execMigrationComplete m r s
  | .peerRequest r => Sys2Proof.Machine.execPeerRequest r s
  | .faultReplay p => Sys2Proof.Machine.execFaultReplay p s
  | .parkAgeTrigger team => Sys2Proof.Machine.execParkAgeTrigger team s
  | .parkShareTrigger team => Sys2Proof.Machine.execParkShareTrigger team s
  | .swapComplete team => Sys2Proof.Machine.execSwapComplete team s
  | .readmit team => Sys2Proof.Machine.execReadmit team s
  | .placeTeam => Sys2Proof.Machine.execPlaceTeam s
  | .packetNop vf ring => Sys2Proof.Machine.execPacketNop vf ring s
  | .packetBarrier vf ring => Sys2Proof.Machine.execPacketBarrier vf ring s
  | .packetLaunch vf ring => Sys2Proof.Machine.execPacketLaunch vf ring s
  | .gridEnd g => Sys2Proof.Machine.execGridEnd g s
  | .stall team => Sys2Proof.Machine.execStall team s
  | .lanesetExchange q => Sys2Proof.Machine.execLanesetExchange q s
  | .passHoldEnd q => Sys2Proof.Machine.execPassHoldEnd q s
  | .sleepcWake team tid => Sys2Proof.Machine.execSleepcWake team tid s
  | .auditBlockClose vf => Sys2Proof.Machine.execAuditBlockClose vf s
  | .eventRecordWrite fn => Sys2Proof.Machine.execEventRecordWrite fn s
  | .resolveCmd fn => Sys2Proof.Machine.execResolveCmd fn s
  | .rejectCmd fn => Sys2Proof.Machine.execRejectCmd fn s
  | .demoteCmd fn => Sys2Proof.Machine.execDemoteCmd fn s
  | .sealCmd fn => Sys2Proof.Machine.execSealCmd fn s
  | .freeCmd fn => Sys2Proof.Machine.execFreeCmd fn s
  | .vacateCmd fn => Sys2Proof.Machine.execVacateCmd fn s
  | .releaseCmd fn => Sys2Proof.Machine.execReleaseCmd fn s
  | .audittakeCmd fn => Sys2Proof.Machine.execAudittakeCmd fn s
  | .auditflushCmd fn => Sys2Proof.Machine.execAuditflushCmd fn s
  | .attestCmd fn => Sys2Proof.Machine.execAttestCmd fn s
  | .loadkeyCmd fn => Sys2Proof.Machine.execLoadkeyCmd fn s
  | .exportCmd fn => Sys2Proof.Machine.execExportCmd fn s
  | .dbgnonceCmd fn => Sys2Proof.Machine.execDbgnonceCmd fn s
  | .debugCmd fn => Sys2Proof.Machine.execDebugCmd fn s
  | .mqUnknownOp fn => Sys2Proof.Machine.execMqUnknownOp fn s
  | .vfReset vf => Sys2Proof.Machine.execVfReset vf s
  | .functionLevelReset vf => Sys2Proof.Machine.execFunctionLevelReset vf s
  | .vfcfgWrite vf v => Sys2Proof.Machine.execVfcfgWrite vf v s
  | .ringtabWrite vf v => Sys2Proof.Machine.execRingtabWrite vf v s
  | .pstateWrite v => Sys2Proof.Machine.execPstateWrite v s
  | .powercapWrite v => Sys2Proof.Machine.execPowercapWrite v s
  | .registerWrite fn off v => Sys2Proof.Machine.execRegisterWrite fn off v s
  | .deviceReset images => Sys2Proof.Machine.execDeviceReset images s
  | .thermalHigh => Sys2Proof.Machine.execThermalHigh s
  | .thermalLow => Sys2Proof.Machine.execThermalLow s
  | .idleEntry => Sys2Proof.Machine.execIdleEntry s
  | .idleWake => Sys2Proof.Machine.execIdleWake s
  | .peerPortFail port => Sys2Proof.Machine.execPeerPortFail port s
  | .memoryErrorDetect e => Sys2Proof.Machine.execMemoryErrorDetect e s
  | .correctedErrorReport unit k => Sys2Proof.Machine.execCorrectedErrorReport unit k s
  | .hostAccess r => Sys2Proof.Machine.execHostAccess r s
  | .wakeRegisterAction => Sys2Proof.Machine.execWakeRegisterAction s
  | .pfReset => Sys2Proof.Machine.execPfReset s

end Sys2Proof.Machine
end

