-- ==== Sys2Proof/Machine/Turn.lean ====
section
/-! DEFINITION. What the package does in one step (DESIGN CHOICE, log 1, 2): an input or a chosen event of its agenda, else the
next issue group
(R285) or the next event of its engines, dispatcher, management core and timers. -/

namespace Sys2Proof.Machine

/-- A meaning, and with a prefix or a replay the instruction that follows from it (R31, R300; DESIGN CHOICE, log 3). -/
def thenFollow (o : Out) : Out :=
  match o with
  | .next s =>
    match s.follow with
    | none => .next s
    | some j => exec j { s with follow := none }
  | o => o
/-- A step that raises the fatal condition ends every team (R339). -/
def withFatal (s : State) : Out → Out
  | .next t => if t.fatal && !s.fatal then finish (failDevice t) else .next t
  | o => o
/-- What a step makes of an instruction or an event: what follows from it, too. -/
def run (f : State → Out) (s : State) : Out := withFatal s (thenFollow (f s))

/-- The step needs room for one more record than may wait (R329). -/
def jammed : Out → Bool
  | .next s => s.jam
  | _ => false
/-- A thread that waits for room for the record of what it was to do (R329). -/
def Thread.waitRoom (t : Thread) (fn now : Nat) : Thread := { t with wait := .room fn, since := now }
/-- An issue group goes on, unless a record that it raises must wait for room: then its threads wait before their instruction, as they are
(R329). -/
def held (s : State) (o : Out) : Out :=
  if jammed o then .next (s.tids.foldl (fun s tid => s.modThread s.cur.team tid (·.waitRoom s.here.vf s.clock)) s) else o
/-- The issue group's instruction: fetched, or as issued where it executes further (log 49). -/
def issued (s : State) : Option Instr × State :=
  match (s.here.thread (s.tids.headD 0)).resume with
  | some ⟨some i, word, next, x, vc, _⟩ => (some i, { s with cur := { s.cur with word := word, next := next, x := x, vc := vc } })
  | _ => fetchGroup s
/-- The queued node reads that go before the instruction, or the word that it prefixes (R31, R242). -/
def readsFirst (s : State) : Instr → List Nat
  | .pfx p n c x =>
    (match execPfx p n c x s with
     | .next t => (match t.follow with | some j => ahead t j | none => [])
     | _ => [])
  | i => ahead s i
/-- The issue group fetches and executes (R285). Where node reads must go first, they are what happens, and the group issues later. -/
def issueGroup (before s : State) : Out :=
  match issued s with
  | (none, t) => held s (finish t)
  | (some i, t) =>
    if readsFirst t i = [] then held s (run (exec i) t)
    else finish ((readsFirst t i).foldl (fun u tid => nodeStep s.cur.team tid u) before)
/-- The next issue group; none where no thread can issue. -/
def issue (s : State) : Option Out := (nextIssue s).map (issueGroup s)

/-- The management command at the head of a function's queue (R327, R328). -/
def commandEvent (s : State) (fn : Nat) : List (State → Out) :=
  match headCommand s fn with
  | none => []
  | some (_, _, c) =>
    match cmdOp c with
    | 1 => [execResolveCmd fn]
    | 2 => [execRejectCmd fn]
    | 3 => [execDemoteCmd fn]
    | 4 => [execSealCmd fn]
    | 5 => [execFreeCmd fn]
    | 6 => [execVacateCmd fn]
    | 7 => [execReleaseCmd fn]
    | 8 => [execAudittakeCmd fn]
    | 9 => [execAuditflushCmd fn]
    | 10 => [execAttestCmd fn]
    | 11 => [execLoadkeyCmd fn]
    | 12 => [execExportCmd fn]
    | 13 => [execDbgnonceCmd fn]
    | 14 => [execDebugCmd fn]
    | _ => [execMqUnknownOp fn]

/-- The threads of a team that sleep (R289). -/
def sleepers (t : Team) : List Nat :=
  (t.threads.filter fun t => match t.2.wait with | .sleep _ => true | _ => false).map (·.1)
/-- Every thread of the team whose sleep is over wakes (R289), in one step, so that a laneset's threads wake together. -/
def wakeTeam (k : Nat) (tids : List Nat) (s : State) : Out :=
  tids.foldl (fun o tid => match o with | .next s => execSleepcWake k tid s | o => o) (.next s)

/-- The events that may be due, for each thing that could have one. -/
def candidates (s : State) : List (State → Out) :=
  (nextReplay s).toList.map (fun p => execFaultReplay p.id)
  ++ s.faults.map (fun f => execPromotion f.id)
  ++ s.walks.map (fun w => execTranslationWalk w.1)
  ++ s.copies.flatMap (fun c => [execCopyPiece c.id, execCopyComplete c.id, execTmcastBufferClaim c.id])
  ++ s.mops.flatMap (fun m => [execTileFetch m.id, execMatrixLeaveGrant m.id, execArrayAccumulate m.id, execDrainRowCommit m.id])
  ++ s.chans.flatMap (fun c => [execChainRecordRead c.1, execChainChunk c.1, execChainRecordComplete c.1])
  ++ (s.teams.filter fun e => enginesRun s e.1).flatMap (fun e => e.2.queued.map fun tid s => finish (nodeStep e.1 tid s))
  ++ (s.teams.filter fun e => e.2.phase = .swapping).map (fun e => execSwapComplete e.1)
  ++ (if s.vacates.any fun v => !v.done && v.settled s then [fun s => finish (settleVacates s)] else [])
  ++ s.moves.map (fun m => match m.request with | some r => execMigrationRequest r | none => execDemoteCmd m.fn)
  ++ (s.teams.filter fun e => ageTrigger s e.1).map (fun e => execParkAgeTrigger e.1)
  ++ (s.teams.filter fun e => shareDue s e.1).map (fun e => execParkShareTrigger e.1)
  ++ (s.teams.filter fun e => stalled s e.1).map (fun e => execStall e.1)
  ++ (nextReadmit s).toList.map (fun e => execReadmit e.1)
  ++ (if placeDue s then [execPlaceTeam] else [])
  ++ (nextPacket s).toList.flatMap (fun e => [execPacketNop e.1 e.2, execPacketBarrier e.1 e.2, execPacketLaunch e.1 e.2])
  ++ (s.grids.filter fun e => match e.2 with | some g => gridOver s e.1 g | none => false).map (fun e => execGridEnd e.1)
  ++ (s.quads.filter fun q => q.2.pending ≠ []).map (fun q => execLanesetExchange q.1)
  ++ (s.quads.filter fun q => q.2.holds ≠ []).map (fun q => execPassHoldEnd q.1)
  ++ (s.teams.filter fun e => sleepers e.2 ≠ []).map (fun e => wakeTeam e.1 (sleepers e.2))
  ++ (s.vfs.filter fun v => blockFull s v.1).map (fun v => execAuditBlockClose v.1)
  ++ s.evWait.map (fun e => execEventRecordWrite e.1)
  ++ [execWakeRegisterAction, execOutboundPerform 0]
  ++ (s.vfs.map (·.1) ++ [pf]).flatMap (commandEvent s)

/-- The first of the candidates, from one that the clock picks, that changes anything and finds room for its records: it is the event that
happens (R329; DESIGN CHOICE, log 2). -/
def nextEvent (s : State) : Option Out :=
  let l := candidates s
  let n := s.clock / 2 % max 1 l.length
  firstSome (fun (f : State → Out) => match run f s with
    | .next s' => if s' = s || s'.jam then none else some (.next s')
    | o => some o) (l.drop n ++ l.take n)

/-- A range notes for good the bytes whose pages no longer map what they were copied from (R104). -/
def Range.noteMoved (s : State) (r : Range) : Range :=
  let off := ((List.range r.src.length).filter fun i => r.moved s (r.base + 256 * i)).flatMap fun i => (List.range 256).map (256 * i + ·)
  { r with stale := r.stale ++ off.filter fun o => !r.stale.contains o }
/-- The clock advances, but in power state P4 (R290, R337; DESIGN CHOICE, log 10). What holds by itself from step to step is brought up to
date: the quadrants' sets (R284), the ranges whose pages are remapped (R104), the signals of rings without an entry (R275). -/
def tick (s : State) : State :=
  if s.off then s
  else
    let s := { s with clock := s.clock + 1 }
    spendBells { s with quads := s.quads.map fun e => (e.1, e.2.refreshed s)
                        cores := s.cores.map fun e => (e.1, { e.2 with ranges := e.2.ranges.map (·.noteMoved s) }) }

/-- Nothing happens but the clock, which is gated in power state P3 (R337). -/
def rest (s : State) : Out := .next (if s.idle then { s with clock := s.clock - 1 } else s)
/-- A step with nothing on the agenda: threads and the rest of the package take turns. -/
def turnStep (s : State) : Out :=
  if s.off then .next s
  else if s.clock % 2 = 1 then ((issue s).or (nextEvent s)).getD (rest s)
  else ((nextEvent s).or (issue s)).getD (rest s)

/-- One step of the package. Only events stand on the agenda: an instruction with a word there is passed over; an event that finds no room
for its record waits behind the others (R329; DESIGN CHOICE, log 45). -/
def packageStep (s : State) : Out :=
  let s := tick s
  match s.agenda with
  | i :: rest =>
    if i.hasWord then .next { s with agenda := rest }
    else
      let o := run (exec i) { s with agenda := rest }
      if jammed o then turnStep { s with agenda := rest ++ [i] } else o
  | [] => turnStep s

-- A state that fetches a given instruction

/-- The team that runs it: one thread of a supervisor team at virtual address 0x10000, with every register and tile
(DESIGN CHOICE, log 13). -/
def fetchTeam (clock : Nat) : Team :=
  { Team.absent with phase := .resident, super := true, place := some ⟨0, 0, 0⟩
                     desc := { Desc.zero with entry := 0x10000, handler := 0x10100, lanesets := [1], regs := [128], padKiB := 64, copyslots := 8,
                                              acctiles := 32, nd := 31 }
                     kargs := List.replicate 64 0, drains := List.replicate 31 (List.replicate 32 0), lanesets := [⟨0, 128, 0, false⟩]
                     lastIssue := clock, admitted := clock, threads := [(0, { Thread.unused with life := .live, pc := 0x10000 })] }

/-- The page tables of VMID 0 and ASID 0 with one executable page, and code at its start: the VMID record, the address-space
record, one entry of each level (R72, R76, R77). -/
def codeImage (m : Store Byte) (code : List Byte) : Store Byte :=
  let put (m : Store Byte) (a x : Nat) : Store Byte := Store.setN memDefault m a (leBytes 8 x)
  let m := put (put (put m 0x10000 0) 0x10008 0x20000) 0x10010 1
  let m := put (put (put (put m 0x20000 0x30001) 0x30000 0x40003) 0x40000 0x50003) 0x50008 0x60E0D
  Store.setN memDefault m 0x60000 code

/-- The translation of that page, as the slice of its first bytes holds it (R79). -/
def codeEntry : TlbEntry := { slice := 0, vmid := 0, asid := 0, page := 0x10000, big := false, leaf := 0x60E0D, leafAddr := 0x50008, pa := 0x60000 }
/-- The package about to fetch this code with its next step (DESIGN CHOICE, log 13). -/
def placeCode (s : State) (code : List Byte) : State :=
  let clock := s.clock / 2 * 2
  let k := s.nextKey
  { s with agenda := [], follow := none, halt := none, jam := false, off := false, turn := 0, clock := clock, nextKey := k + 1, vmtbase := 0x10000
           mem := codeImage s.mem code, poison := s.poison.filter fun q => !(decide (0x10000 ≤ q * 32) && decide (q * 32 < 0x70000))
           tlb := codeEntry :: s.tlb.filter fun e => !(e.vmid = 0 && e.asid = 0), walks := s.walks.filter fun w => !(w.2.vmid = 0 && w.2.asid = 0)
           icache := s.icache.filter fun e => !(decide (0x60000 ≤ e.2.1) && decide (e.2.1 < 0x60008))
           teams := Store.set Team.absent s.teams k (fetchTeam clock), quads := Store.set Quad.idle s.quads 0 ⟨[(k, 0, clock)], [], [], 0⟩ }

end Sys2Proof.Machine
end

