-- ==== Sys2Proof/Machine/Step.lean ====
section
/-! DEFINITION. The step of the machine, and the state that fetches a given instruction next. -/

namespace Sys2Proof.Machine

/-- One step (DESIGN CHOICE, log 1). -/
def step (s : State) : Host.Outcome State Fault Refusal := packageStep s

/-- `s` with an instruction of `nbits` bits stored where the next step fetches it, zeros after it (DESIGN CHOICE, log 13). -/
def State.withFetchWord (s : State) (nbits w : Nat) : State := placeCode s (leBytes (nbits / 8) w ++ List.replicate (8 - nbits / 8) 0)

end Sys2Proof.Machine
end

