-- ==== Sys2Proof/Safety.lean ====
section
/-! DEFINITION. What claims speak of: the steps that an issue group's instruction may take, the frames that say what it leaves
alone, and the invariants of a sound package. -/

namespace Sys2Proof.Machine

/-- The package differs from `s` in nothing but threads of the issue group's team. -/
structure Agree (s t : State) : Prop where
  state : t = { s with teams := t.teams }
  team : t.here = { s.here with threads := t.here.threads }
  others : ∀ k, k ≠ s.cur.team → t.team k = s.team k

/-- The threads of the issue group become what `g` makes of them; every other thread, and everything else in the package,
stays as it was. -/
structure Moves (s t : State) (g : Nat → Thread → Thread) : Prop where
  agree : Agree s t
  group : ∀ tid ∈ s.tids, t.thread s.cur.team tid = g tid (s.thread s.cur.team tid)
  rest : ∀ tid, tid ∉ s.tids → t.thread s.cur.team tid = s.thread s.cur.team tid

/-- The issue group belongs to a team that has not ended, its prefix has a guard that can pass, and no fault is pending. -/
structure Ready (s : State) : Prop where
  team : s.here.phase ≠ .ended
  guard : s.cur.never = false
  halt : s.halt = none

/-- Every thread of the group that executes has the registers (R33, R143). -/
def Has (s : State) (regs : List Nat) : Prop :=
  ∀ tid ∈ s.tids, passes s.cur (s.thread s.cur.team tid) = true → ∀ r ∈ regs, r < s.here.countOf tid

/-- What an instruction does to a thread: `g` where its guards pass, else on to the next instruction (R28). -/
def actThread (c : Issue) (g : Thread → Thread) (t : Thread) : Thread := if passes c t then g t else t.done c.next

/-- What an instruction that completes does to a thread: `f` where its guards pass, then on to the next instruction (R28). -/
def stepThread (c : Issue) (f : Thread → Thread) (t : Thread) : Thread := (if passes c t then f t else t).done c.next

/-- One thread executes alone: the issue group is this thread, its guards pass, and it has the registers. A group of several
executes its lanes in ascending order (R156). -/
structure Solo (s : State) (tid : Nat) (regs : List Nat) : Prop where
  ready : Ready s
  group : s.tids = [tid]
  guard : passes s.cur (s.thread s.cur.team tid) = true
  regs : ∀ r ∈ regs, r < s.here.countOf tid

/-- Of all threads only `tid` of the issue group's team changes, as `g` says. -/
structure Only (s t : State) (tid : Nat) (g : Thread → Thread) : Prop where
  thread : t.thread s.cur.team tid = g (s.thread s.cur.team tid)
  rest : ∀ j, j ≠ tid → t.thread s.cur.team j = s.thread s.cur.team j
  others : ∀ k, k ≠ s.cur.team → t.team k = s.team k

/-- No engine, walk or queued write is under way, no completed copy waits to be observed, and no sector is poisoned. -/
structure AtRest (s : State) : Prop where
  copies : s.copies = []
  landed : ∀ k, (s.team k).landed = []
  mops : s.mops = []
  walks : s.walks = []
  outbound : s.outbound = []
  poison : s.poison = []

/-- The byte of memory at a physical address. -/
def State.byteAt (s : State) (x : Nat) : Byte := Store.get memDefault s.mem x

/-- An access of `n` bytes at `addr` by a thread of the issue group finds the physical address `pa`, which exists, in state `u`: the
translation succeeds (R83) and keeps the low 16 bits (R16), a frame that is written is not sealed and its peer is in reach; `d` is the leaf
whose dirty bit the access would set (R81). -/
structure Found (s u : State) (tid : Nat) (k : Acc) (addr n pa : Nat) (d : Option Nat) : Prop where
  found : ∃ sl, translate s (whoThread s tid) k addr n = (.ok pa sl d, u)
  halt : u.halt = none
  there : mapped pa = true
  inReach : lost u pa = false
  page : pa % 2 ^ 16 = addr % 2 ^ 16
  unsealed : k.writes = true → pa / 2 ^ 16 ∉ u.sealMap

/-- The access reaches that address in state `s1`, which has the dirty bit, and the race detector is off. -/
structure Reaches (s s1 : State) (tid : Nat) (k : Acc) (addr n pa : Nat) : Prop where
  reached : ∃ u d, Found s u tid k addr n pa d ∧ s1 = setDirty u d
  race : raceMode s1 s.here.vmid s.here.asid = 0

/-- Bytes stand at an address of the pad, and every other pad byte is as it was. -/
def PadHolds (before after : Team) (addr : Nat) (bs : List Byte) : Prop :=
  ∀ x, Store.get 0 after.pad x = if addr ≤ x ∧ x < addr + bs.length then bs.getD (x - addr) 0 else Store.get 0 before.pad x

/-- Bytes stand at a physical address, and every other byte of memory is as it was. A resident range notes which of the bytes it was copied
from have been written (R104), and while a grid is live the halfwords that are replaced are noted for its instruction caches (R20; log 11). -/
structure MemHolds (before after : State) (pa : Nat) (bs : List Byte) : Prop where
  bytes : ∀ x, after.byteAt x = if pa ≤ x ∧ x < pa + bs.length then bs.getD (x - pa) 0 else before.byteAt x
  cores : ∀ c, after.core c = (before.core c).wrote pa bs.length
  icache : after.icache = oldHalves before pa bs ++ before.icache

/-- One write to memory, and nothing else. -/
structure Wrote (before after : State) (pa : Nat) (bs : List Byte) : Prop where
  holds : MemHolds before after pa bs
  frame : after = { before with mem := after.mem, icache := after.icache, cores := after.cores }

/-- A write of a ring instruction: a 64-byte block that it replaces whole is the host's no longer (R282). -/
def RingWrote (before after : State) (pa : Nat) (bs : List Byte) : Prop :=
  ∃ w, Wrote before w pa bs ∧ after = { w with hostBlocks := before.hostBlocks.filter fun q => !(decide (pa ≤ 64 * q) && decide (64 * q + 64 ≤ pa + bs.length)) }

/-- The pad bytes that a thread has written and not fenced: address, value before, thread (R140, R258). -/
def unfencedOf (t : Team) (tid addr n : Nat) : List (Nat × Byte × Nat) := (List.range n).map fun i => (addr + i, Store.get 0 t.pad (addr + i), tid)

/-- A thread's pad write of `bs` at `addr` and its completion: the pad bytes, their marks, the threads that wait in WAITA on a word
of them (`look`), `g` for the thread itself, and `base` for the rest of its team; nothing else in the package changes. -/
structure PadStep (s t : State) (tid addr : Nat) (bs : List Byte) (base : Team) (look : Store Byte → Thread → Thread) (g : Thread → Thread) : Prop where
  state : t = { s with teams := t.teams }
  pad : PadHolds s.here t.here addr bs
  team : t.here = { base with pad := t.here.pad, unfenced := unfencedOf s.here tid addr bs.length ++ s.here.unfenced, threads := t.here.threads }
  thread : t.thread s.cur.team tid = g (s.thread s.cur.team tid)
  rest : ∀ j, j ≠ tid → t.thread s.cur.team j = look t.here.pad (s.thread s.cur.team j)
  others : ∀ k, k ≠ s.cur.team → t.team k = s.team k

/-- One thread acts: `g` on it, `base` for the rest of its team, `u` for the rest of the package. -/
structure Acts (t u : State) (tid : Nat) (base : Team) (g : Thread → Thread) : Prop where
  state : t = { u with teams := t.teams }
  team : t.here = { base with threads := t.here.threads }
  only : Only u t tid g

/-- No other thread of the team changes but in what it waits for, and no other team changes. -/
structure Bystanders (s t : State) (tid : Nat) : Prop where
  threads : ∀ j, j ≠ tid → { t.thread s.cur.team j with wait := (s.thread s.cur.team j).wait } = s.thread s.cur.team j
  others : ∀ k, k ≠ s.cur.team → t.team k = s.team k

/-- The threads of the issue group's team are listed once each, ascending. -/
def Listed (s : State) : Prop := Store.wf Thread.unused s.here.threads = true

/-- One thread executes alone and is the only live one of its resident team: no relational instance is open, no claim is queued, and the
thread has nothing outstanding and no failure to take. -/
structure Alone (s : State) (tid : Nat) (regs : List Nat) : Prop where
  solo : Solo s tid regs
  listed : Listed s
  live : s.here.live = [tid]
  phase : s.here.phase = .resident
  insts : s.here.insts = []
  claims : s.here.claims = []
  counters : (s.thread s.cur.team tid).ld = 0 ∧ (s.thread s.cur.team tid).st = 0 ∧ (s.thread s.cur.team tid).cp = 0 ∧ (s.thread s.cur.team tid).tl = 0
  failures : (s.thread s.cur.team tid).failures = []

/-- Memory is in its canonical form, no step waits for room for a record, and the registers hold values that their fields allow: VMTBASE a multiple of 64 KiB, PEERID of
four bits, POWERCAP within its limits, PSTATE and the debug state assigned codes, PEERROUTE of twelve ports (R322, R337). -/
structure Sound (s : State) : Prop where
  memory : Memory.wf s.mem = true
  jam : s.jam = false
  vmtbase : s.vmtbase.toNat % 2 ^ 16 = 0
  peerid : s.peerid.toNat < 16
  powercap : 500 ≤ s.powercap.toNat ∧ s.powercap.toNat ≤ 3000
  pstate : s.pstate.toNat ∈ [0, 1, 4]
  debug : s.debug ≠ 3
  peerroute : ∀ p, (Store.get 0 s.peerroute p).toNat < 2 ^ 12

/-- A halfword of code: its address translates for a fetch by a TLB entry as it stands, and no write since its grid was created has replaced
another value there (R19, R20, DESIGN CHOICE, log 11). -/
structure CodeHalf (s : State) (va half : Nat) : Prop where
  found : ∃ pa sl d, translate s (whoThread s (s.tids.headD 0)) .fetch va 2 = (.ok pa sl d, s) ∧ poisoned s pa 2 = false ∧ mapped pa = true ∧
    mapped (pa + 1) = true ∧ s.rdNat pa 2 = half ∧ ∀ e ∈ s.icache, s.here.grid < e.1 → e.2.1 = pa → e.2.2.toNat = half

/-- The bytes of the instruction at an address: two, or four where bit 0 of the first halfword is set (R17). -/
inductive Code (s : State) (va : BitVec 64) : List Byte → Prop where
  | short (h : Nat) : h % 2 = 0 → CodeHalf s va.toNat h → Code s va (leBytes 2 h)
  | long (lo hi : Nat) : lo % 2 = 1 → CodeHalf s va.toNat lo → CodeHalf s (va + 2).toNat hi → Code s va (leBytes 2 lo ++ leBytes 2 hi)

end Sys2Proof.Machine
end

