-- ==== Sys2Proof/Rules.lean ====
section
/-! DEFINITION. The rules of the spec written a second time, apart from the meanings: the lane instructions (spec/02, spec/03, spec/07,
spec/13) as tables of exact integers, single bits and truth values; what the memory, copy, matrix, relational and tree
instructions capture and compute; and a few encodings. The statements hold the machine to them. -/

namespace Sys2Proof.Rules
open Sys2Proof.Machine

/-- What a rule gives one thread: the registers it names, and its result from the thread as it was. -/
structure Rule (α : Type) where
  regs : List Nat
  dest : Nat
  value : Thread → α

/-- The `n` bits that a function gives, bit 0 first. -/
def fromBits (f : Nat → Bool) : (n : Nat) → BitVec n
  | 0 => 0#0
  | n + 1 => (fromBits f n).cons (f n)

/-- vd from two registers. -/
def from2 {α : Type} (d a b : Reg) (f : Word → Word → α) : Rule α :=
  ⟨[d.toNat, a.toNat, b.toNat], d.toNat, fun t => f (t.reg a.toNat) (t.reg b.toNat)⟩
/-- vd from one register. -/
def from1 {α : Type} (d a : Reg) (f : Word → α) : Rule α := ⟨[d.toNat, a.toNat], d.toNat, fun t => f (t.reg a.toNat)⟩
/-- The lane register that a 16-bit form names (R26). -/
def low (r : BitVec 5) : Reg := r.zeroExtend 7

/-- R162 in exact numbers, of which the low 32 bits are written, with the 16-bit forms (R26). -/
def inta : Instr → Option (Rule Int)
  | .add d a b => some (from2 d a b fun x y => x.toNat + y.toNat)
  | .sub d a b => some (from2 d a b fun x y => x.toNat - y.toNat)
  | .mul d a b => some (from2 d a b fun x y => x.toNat * y.toNat)
  | .mulhS32 d a b => some (from2 d a b fun x y => x.toInt * y.toInt / 2 ^ 32)
  | .mulhN32 d a b => some (from2 d a b fun x y => x.toNat * y.toNat / 2 ^ 32)
  | .minS32 d a b => some (from2 d a b fun x y => min x.toInt y.toInt)
  | .minN32 d a b => some (from2 d a b fun x y => min x.toNat y.toNat)
  | .maxS32 d a b => some (from2 d a b fun x y => max x.toInt y.toInt)
  | .maxN32 d a b => some (from2 d a b fun x y => max x.toNat y.toNat)
  | .shl d a b => some (from2 d a b fun x y => if y.toNat < 32 then x.toNat * 2 ^ y.toNat else 0)
  | .shr d a b => some (from2 d a b fun x y => if y.toNat < 32 then x.toNat / 2 ^ y.toNat else 0)
  | .sar d a b => some (from2 d a b fun x y => if y.toNat < 32 then x.toInt / 2 ^ y.toNat else if x.toInt < 0 then -1 else 0)
  | .addC d v => some (from2 (low d) (low d) (low v) fun x y => x.toNat + y.toNat)
  | .subC d v => some (from2 (low d) (low d) (low v) fun x y => x.toNat - y.toNat)
  | .minS32C d v => some (from2 (low d) (low d) (low v) fun x y => min x.toInt y.toInt)
  | .maxS32C d v => some (from2 (low d) (low d) (low v) fun x y => max x.toInt y.toInt)
  | _ => none

/-- R163 and R164 for the forms that write one register: exact numbers; `c` is vc or vd. -/
def intb (c : Issue) : Instr → Option (Rule Int)
  | .mad d a b => some ⟨[d.toNat, a.toNat, b.toNat, (third c d).toNat], d.toNat,
      fun t => (t.reg a.toNat).toNat * (t.reg b.toNat).toNat + (t.reg (third c d).toNat).toNat⟩
  | .divS32 d a b => some (from2 d a b fun x y => if y = 0 then 0xFFFFFFFF else x.toInt.tdiv y.toInt)
  | .divN32 d a b => some (from2 d a b fun x y => if y = 0 then 0xFFFFFFFF else x.toNat / y.toNat)
  | .remS32 d a b => some (from2 d a b fun x y => if y = 0 then x.toNat else x.toInt - x.toInt.tdiv y.toInt * y.toInt)
  | .remN32 d a b => some (from2 d a b fun x y => if y = 0 then x.toNat else x.toNat - x.toNat / y.toNat * y.toNat)
  | .absdS32 d a b => some (from2 d a b fun x y => max (x.toInt - y.toInt) (y.toInt - x.toInt))
  | _ => none

/-- R163 and R167 for the forms that write a pair: exact numbers, of which the low 64 bits are written. -/
def pairs (c : Issue) : Instr → Option (Rule Int)
  | .madwS32 d a b => some ⟨two d ++ [a.toNat, b.toNat] ++ two (third c d), d.toNat,
      fun t => (t.reg a.toNat).toInt * (t.reg b.toNat).toInt + (t.pair (third c d).toNat).toNat⟩
  | .madwN32 d a b => some ⟨two d ++ [a.toNat, b.toNat] ++ two (third c d), d.toNat,
      fun t => (t.reg a.toNat).toNat * (t.reg b.toNat).toNat + (t.pair (third c d).toNat).toNat⟩
  | .addB64 d a b => some ⟨two d ++ two a ++ two b, d.toNat, fun t => (t.pair a.toNat).toNat + (t.pair b.toNat).toNat⟩
  | .subB64 d a b => some ⟨two d ++ two a ++ two b, d.toNat, fun t => (t.pair a.toNat).toNat - (t.pair b.toNat).toNat⟩
  | .lea0 d a b => some (index d a b 1)
  | .lea1 d a b => some (index d a b 2)
  | .lea2 d a b => some (index d a b 4)
  | .lea3 d a b => some (index d a b 8)
  | .movB64 d a => some ⟨two d ++ two a, d.toNat, fun t => (t.pair a.toNat).toNat⟩
  | _ => none
where
  /-- LEA.k: a base pair and an index of elements of `n` bytes. -/
  index (d a b : Reg) (n : Nat) : Rule Int :=
    ⟨two d ++ two a ++ [b.toNat], d.toNat, fun t => (t.pair a.toNat).toNat + (t.reg b.toNat).toNat * n⟩

/-- R22, R166 and the counts and copies of R167 in exact numbers, of which the low 32 bits are written, with the 16-bit forms. -/
def immediate : Instr → Option (Rule Int)
  | .addi d a i => some (from1 d a fun x => x.toNat + i.toInt)
  | .shli d a n => some (from1 d a fun x => x.toNat * 2 ^ n.toNat)
  | .shri d a n => some (from1 d a fun x => x.toNat / 2 ^ n.toNat)
  | .sari d a n => some (from1 d a fun x => x.toInt / 2 ^ n.toNat)
  | .movi d i => some ⟨[d.toNat], d.toNat, fun _ => i.toInt⟩
  | .movhi d i => some ⟨[d.toNat], d.toNat, fun t => i.toNat * 2 ^ 14 + (t.reg d.toNat).toNat % 2 ^ 14⟩
  | .mov d a => some (from1 d a fun x => x.toNat)
  | .popc d a => some (from1 d a fun x => (((List.range 32).map fun i => (x.getLsbD i).toNat).sum : Nat))
  | .clz d a => some (from1 d a fun x => (((List.range 33).filter fun n => x.toNat * 2 ^ n < 2 ^ 32).foldl max 0 : Nat))
  | .ffs d a => some (from1 d a fun x => (((List.range 33).filter fun n => x.toNat % 2 ^ n = 0).foldl max 0 : Nat))
  | .sext8 d a => some (from1 d a fun x => ((x.toNat + 2 ^ 7) % 2 ^ 8 : Int) - 2 ^ 7)
  | .sext16 d a => some (from1 d a fun x => ((x.toNat + 2 ^ 15) % 2 ^ 16 : Int) - 2 ^ 15)
  | .zext8 d a => some (from1 d a fun x => x.toNat % 2 ^ 8)
  | .zext16 d a => some (from1 d a fun x => x.toNat % 2 ^ 16)
  | .movC d v => some (from1 (low d) (low v) fun x => x.toNat)
  | .moviC d i => some ⟨[(low d).toNat], (low d).toNat, fun _ => i.toInt⟩
  | .addiC d i => some (from1 (low d) (low d) fun x => x.toNat + i.toInt)
  | .shliC d n => some (from1 (low d) (low d) fun x => x.toNat * 2 ^ n.toNat)
  | .shriC d n => some (from1 (low d) (low d) fun x => x.toNat / 2 ^ n.toNat)
  | .sariC d n => some (from1 (low d) (low d) fun x => x.toInt / 2 ^ n.toNat)
  | _ => none

/-- The position and the length of a field (R167). -/
def pos (y : Word) : Nat := y.toNat % 32
def len (y : Word) : Nat := min (y.toNat / 256 % 64) (32 - pos y)

/-- The instructions that move bits (R162, R163, R165 to R167, R169, R175, R26): bit i of the result. -/
def bitwise (c : Issue) : Instr → Option (Rule (Nat → Bool))
  | .andB d a b => some (from2 d a b fun x y i => x.getLsbD i && y.getLsbD i)
  | .orB d a b => some (from2 d a b fun x y i => x.getLsbD i || y.getLsbD i)
  | .xorB d a b => some (from2 d a b fun x y i => x.getLsbD i != y.getLsbD i)
  | .andn d a b => some (from2 d a b fun x y i => x.getLsbD i && !y.getLsbD i)
  | .andi d a m => some (from1 d a fun x i => x.getLsbD i && m.getLsbD (min i 10))
  | .ori d a m => some (from1 d a fun x i => x.getLsbD i || m.getLsbD (min i 10))
  | .xori d a m => some (from1 d a fun x i => x.getLsbD i != m.getLsbD (min i 10))
  | .notB d a => some (from1 d a fun x i => !x.getLsbD i)
  | .brev d a => some (from1 d a fun x i => x.getLsbD (31 - i))
  | .rot d a b => some (from2 d a b fun x y i => x.getLsbD ((i + 32 - y.toNat % 32) % 32))
  | .roti d a n => some (from1 d a fun x i => x.getLsbD ((i + 32 - n.toNat) % 32))
  | .prmt d a b => some ⟨[d.toNat, a.toNat, b.toNat], d.toNat, fun t i =>
      let sel := (t.reg b.toNat).toNat / 2 ^ (4 * (i / 8)) % 16
      let src (j : Nat) := if sel % 8 < 4 then (t.reg a.toNat).getLsbD (8 * (sel % 4) + j) else (t.reg d.toNat).getLsbD (8 * (sel % 4) + j)
      if sel < 8 then src (i % 8) else src 7⟩
  | .bfeN32 d a b => some (from2 d a b fun x y i => i < len y && x.getLsbD (pos y + i))
  | .bfeS32 d a b => some (from2 d a b fun x y i => len y ≠ 0 && x.getLsbD (pos y + min i (len y - 1)))
  | .bfi d a b => some ⟨[d.toNat, a.toNat, b.toNat, (third c d).toNat], d.toNat, fun t i =>
      let y := t.reg b.toNat
      if pos y ≤ i ∧ i < pos y + len y then (t.reg a.toNat).getLsbD (i - pos y) else (t.reg (third c d).toNat).getLsbD i⟩
  | .fcopys d a b => some (from2 d a b fun x y i => if i = 31 then y.getLsbD 31 else x.getLsbD i)
  | .ptov d => some ⟨[d.toNat], d.toNat, fun t i => t.pred i⟩
  | .andC d v => some (from2 (low d) (low d) (low v) fun x y i => x.getLsbD i && y.getLsbD i)
  | .orC d v => some (from2 (low d) (low d) (low v) fun x y i => x.getLsbD i || y.getLsbD i)
  | .xorC d v => some (from2 (low d) (low d) (low v) fun x y i => x.getLsbD i != y.getLsbD i)
  | _ => none

/-- The combine field g over the old pd and the condition's truth (R168). -/
def mix (g : BitVec 2) (old t : Bool) : Bool :=
  if g = 0 then t else if g = 1 then old && t else if g = 2 then old || t else !t
/-- The conditions of R168 on signed and on unsigned values: LT, LE, GT, GE. -/
def order (n : Nat) (x y : Int) : Bool :=
  if n = 0 then decide (x < y) else if n = 1 then decide (x ≤ y) else if n = 2 then decide (x > y) else decide (x ≥ y)
def cond (c : Nat) (x y : Word) : Bool :=
  if c = 0 then decide (x.toNat = y.toNat) else if c = 1 then decide (x.toNat ≠ y.toNat)
  else if c < 6 then order (c - 2) x.toInt y.toInt else order (c - 6) x.toNat y.toNat
def condPair (c : Nat) (x y : DWord) : Bool :=
  if c = 10 then decide (x.toNat = y.toNat) else if c = 11 then decide (x.toNat ≠ y.toNat)
  else if c = 12 then decide (x.toInt < y.toInt) else if c = 13 then decide (x.toNat < y.toNat)
  else if c = 14 then decide (x.toInt ≥ y.toInt) else decide (x.toNat ≥ y.toNat)
/-- The conditions of R179. -/
def condFloat (c : Nat) (x y : Val) : Bool :=
  let ordered := !x.isNan && !y.isNan
  if c = 0 then valEq x y else if c = 1 then !valEq x y
  else if c = 2 then valLt x y else if c = 3 then ordered && (valLt x y || valEq x y)
  else if c = 4 then valLt y x else if c = 5 then ordered && (valLt y x || valEq x y)
  else if c = 6 then ordered else !ordered

/-- The predicates that CMP, CMPI (R168), PRED (R169) and FCMP (R179) write. -/
def predicate : Instr → Option (Rule Bool)
  | .cmp p g a b c =>
    if c.toNat < 10 then some ⟨[a.toNat, b.toNat], p.toNat, fun t => mix g (t.pred p.toNat) (cond c.toNat (t.reg a.toNat) (t.reg b.toNat))⟩
    else some ⟨two a ++ two b, p.toNat, fun t => mix g (t.pred p.toNat) (condPair c.toNat (t.pair a.toNat) (t.pair b.toNat))⟩
  | .cmpi p g a c i =>
    if c.toNat < 10 then some ⟨[a.toNat], p.toNat, fun t => mix g (t.pred p.toNat) (cond c.toNat (t.reg a.toNat) (BitVec.ofInt 32 i.toInt))⟩
    else none
  | .pand d a b => some ⟨[], d.toNat, fun t => t.pred a.toNat && t.pred b.toNat⟩
  | .por d a b => some ⟨[], d.toNat, fun t => t.pred a.toNat || t.pred b.toNat⟩
  | .pxor d a b => some ⟨[], d.toNat, fun t => t.pred a.toNat != t.pred b.toNat⟩
  | .pandn d a b => some ⟨[], d.toNat, fun t => t.pred a.toNat && !t.pred b.toNat⟩
  | .pnot d a => some ⟨[], d.toNat, fun t => !t.pred a.toNat⟩
  | .fcmp p g a b c =>
    if c.toNat < 8 then some ⟨[a.toNat, b.toNat], p.toNat, fun t =>
      mix g (t.pred p.toNat) (condFloat c.toNat (f32.decode (t.reg a.toNat).toNat) (f32.decode (t.reg b.toNat).toNat))⟩
    else some ⟨two a ++ two b, p.toNat, fun t =>
      mix g (t.pred p.toNat) (condFloat (c.toNat - 8) (f64.decode (t.pair a.toNat).toNat) (f64.decode (t.pair b.toNat).toNat))⟩
  | _ => none

/-- The lane is a member of the group that executes: in the issue group, its guards passed (R161). -/
def member (s : State) (l : Nat) : Bool := s.cur.mask.getLsbD l && passes s.cur (s.thread s.cur.team (32 * s.cur.laneset + l))
/-- A lane's thread at issue. -/
def lane (s : State) (l : Nat) : Thread := s.thread s.cur.team (32 * s.cur.laneset + l)
/-- The members whose thread satisfies a test, as a mask (R171). -/
def mask (s : State) (p : Thread → Bool) : Word := fromBits (fun l => member s l && p (lane s l)) 32
/-- Some member satisfies a test. -/
def some_ (s : State) (p : Thread → Bool) : Bool := (List.range 32).any fun l => member s l && p (lane s l)

/-- The predicates that VOTE writes (R171). -/
def voteBit (s : State) : Instr → Option (Rule Bool)
  | .voteAny d a => some ⟨[], d.toNat, fun _ => some_ s fun t => t.pred a.toNat⟩
  | .voteAll d a => some ⟨[], d.toNat, fun _ => !some_ s fun t => !t.pred a.toNat⟩
  | _ => none
/-- The source lane of SHFL (R172). -/
def source : Instr → Nat → Nat → Int
  | .shflIdx .., _, n => (n % 32 : Nat)
  | .shflUp .., l, n => (l : Int) - n
  | .shflDown .., l, n => (l : Int) + n
  | .shflXor .., l, n => (l ^^^ n % 32 : Nat)
  | _, l, _ => l
/-- What a lane takes in a SHFL: its source's va where that lane is a member, else its own (R172). -/
def taken (s : State) (i : Instr) (a b : Reg) (l : Nat) (t : Thread) : Word :=
  let q := source i l (t.reg b.toNat).toNat
  if 0 ≤ q ∧ q ≤ 31 ∧ member s q.toNat then (lane s q.toNat).reg a.toNat else t.reg a.toNat
/-- One step of SHFL.RDX.op (R173), f 4 to 14. -/
def combine (f : Nat) (m : Word) (x y : Word) : Word :=
  if f = 4 then BitVec.ofInt 32 (x.toNat + y.toNat)
  else if f = 5 then BitVec.ofInt 32 (min x.toInt y.toInt)
  else if f = 6 then BitVec.ofInt 32 (max x.toInt y.toInt)
  else if f = 7 then BitVec.ofInt 32 (min x.toNat y.toNat)
  else if f = 8 then BitVec.ofInt 32 (max x.toNat y.toNat)
  else if f = 9 then fromBits (fun i => x.getLsbD i && y.getLsbD i) 32
  else if f = 10 then fromBits (fun i => x.getLsbD i || y.getLsbD i) 32
  else if f = 11 then fromBits (fun i => x.getLsbD i != y.getLsbD i) 32
  else if f = 12 then BitVec.ofNat 32 (f32.round (modeRnd m) false (modeNanp m) (valAdd (modeRnd m) (f32.decode x.toNat) (f32.decode y.toNat)))
  else BitVec.ofNat 32 (f32.minmax (modeNanp m) (f == 13) false x.toNat y.toNat)
/-- The members' values from the lowest lane up. -/
def values (s : State) (a : Reg) : List Word := ((List.range 32).filter (member s)).map fun l => (lane s l).reg a.toNat
/-- What VOTE, SHFL and SHFL.RDX write into lane `l` (R171 to R173). -/
def across (s : State) (l : Nat) : Instr → Option (Rule Word)
  | .voteBallot d a => some ⟨[d.toNat], d.toNat, fun _ => mask s fun t => t.pred a.toNat⟩
  | .voteMatch d a => some ⟨[d.toNat, a.toNat], d.toNat, fun t => mask s fun u => u.reg a.toNat == t.reg a.toNat⟩
  | .voteActive d => some ⟨[d.toNat], d.toNat, fun _ => mask s fun _ => true⟩
  | .votePopn d a => some ⟨[d.toNat], d.toNat, fun _ =>
      BitVec.ofNat 32 ((List.range 32).filter fun l => member s l && (lane s l).pred a.toNat).length⟩
  | .shflIdx d a b => some ⟨[d.toNat, a.toNat, b.toNat], d.toNat, taken s (.shflIdx d a b) a b l⟩
  | .shflUp d a b => some ⟨[d.toNat, a.toNat, b.toNat], d.toNat, taken s (.shflUp d a b) a b l⟩
  | .shflDown d a b => some ⟨[d.toNat, a.toNat, b.toNat], d.toNat, taken s (.shflDown d a b) a b l⟩
  | .shflXor d a b => some ⟨[d.toNat, a.toNat, b.toNat], d.toNat, taken s (.shflXor d a b) a b l⟩
  | .shflRdx d a f => some ⟨[d.toNat, a.toNat], d.toNat, fun _ => match values s a with
      | [] => 0
      | v :: vs => vs.foldl (combine f.toNat s.here.mode) v⟩
  | _ => none

/-- A floating form's exact operation on decoded sources, or a choice among the patterns (R174 to R176). -/
inductive Exact where
  | sum | difference | product | fused | negated | scaled
  | least (isMax number : Bool)
/-- The pattern that an exact operation gives in a format, rounded once (R174, R52, R53). -/
def Exact.pattern (o : Exact) (f : Flt) (md : Rnd) (nanp : Bool) (x y z : Nat) : Nat :=
  let a := f.decode x
  let b := f.decode y
  let c := f.decode z
  match o with
  | .sum => f.round md false nanp (valAdd md a b)
  | .difference => f.round md false nanp (valSub md a b)
  | .product => f.round md false nanp (valMul a b)
  | .fused => f.round md false nanp (valFma md a b c)
  | .negated => f.round md false nanp (valFnma md a b c)
  | .scaled => f.round md false nanp (valScale a (toSigned 32 y))
  | .least isMax number => f.minmax nanp isMax number x y

/-- R52 for ±m·2^e in a format: of the two neighbouring patterns that enclose its magnitude, the mode's; above the largest finite value the
upper neighbour is infinity. -/
def Rounded (f : Flt) (md : Rnd) (neg : Bool) (m : Nat) (e : Int) (x : Nat) : Prop :=
  ∃ (p n : Nat) (g : Int), p < f.infBits ∧ f.decode p = .num false n g ∧
    let v : Val := .num false m e
    let half : Val := .num false (2 * n + 1) (g - 1)
    let up : Bool := match md with | .rne => valLt half v || (valEq half v && decide (p % 2 = 1)) | .rz => false | .rd => neg | .ru => !neg
    valLt v (.num false n g) = false ∧ (valLt v (.num false (n + 1) g) = true ∨ p + 1 = f.infBits) ∧
    x = f.sign neg + (if valEq v (.num false n g) || !up then p else p + 1)
/-- R52, R57 for a positive number that may have no binary form, with a sign: the pattern nearest to it, an even one of two as near. The number
is known by its order: `n·2^g` is below it where the first value of `order n g` is below the second. -/
def NearestEven (f : Flt) (order : Nat → Int → Val × Val) (neg : Bool) (x : Nat) : Prop :=
  let below (n : Nat) (g : Int) : Bool := valLt (order n g).1 (order n g).2
  let above (n : Nat) (g : Int) : Bool := valLt (order n g).2 (order n g).1
  ∃ (p n : Nat) (g : Int), p < f.infBits ∧ f.decode p = .num false n g ∧ above n g = false ∧ (above (n + 1) g = true ∨ p + 1 = f.infBits) ∧
    x = f.sign neg + if below (2 * n + 1) (g - 1) = true ∨ above (2 * n + 1) (g - 1) = false ∧ p % 2 = 1 then p + 1 else p
/-- The order of `n·2^g` and the exact result of RCP, SQRT or RSQ for m·2^e (R57), which is the order of these two values. -/
def exactOrder (m : Nat) (e : Int) : Instr → Option (Nat → Int → Val × Val)
  | .rcp .. => some fun n g => (.num false (n * m) (g + e), .num false 1 0)
  | .sqrt .. => some fun n g => (.num false (n * n) (2 * g), .num false m e)
  | .rsq .. => some fun n g => (.num false (n * n * m) (2 * g + e), .num false 1 0)
  | _ => none
/-- R53: a NaN result, canonical or made from a source: its sign, the payload bits that fit from the top, and the quiet bit. -/
def nanPattern (f : Flt) (nanp : Bool) : Option NanSrc → Nat
  | none => f.infBits + 2 ^ (f.mb - 1)
  | some n =>
    let payload := if f.mb ≤ n.w then n.frac / 2 ^ (n.w - f.mb) else n.frac * 2 ^ (f.mb - n.w)
    if nanp then f.sign n.neg + f.infBits + 2 ^ (f.mb - 1) + payload % 2 ^ (f.mb - 1) else f.infBits + 2 ^ (f.mb - 1)
/-- The patterns that are no NaN in the order of R176, where −0 is below +0. -/
def place (f : Flt) (x : Nat) : Int := if x < 2 ^ (f.eb + f.mb) then x else 2 ^ (f.eb + f.mb) - 1 - (x : Int)
/-- R176 on patterns. -/
def extreme (f : Flt) (nanp isMax number : Bool) (x y : Nat) : Nat :=
  match f.decode x, f.decode y with
  | .nan n, .nan _ => nanPattern f nanp n
  | .nan n, _ => if number then y else nanPattern f nanp n
  | _, .nan n => if number then x else nanPattern f nanp n
  | _, _ => if decide (place f x < place f y) = isMax then y else x
/-- The sum of two finite values in units of 2^(the smaller exponent). -/
def sumOf (s : Bool) (m : Nat) (e : Int) (t : Bool) (n : Nat) (g : Int) : Int :=
  let sgn (b : Bool) (x : Nat) : Int := if b then -(x : Int) else x
  sgn s (m * 2 ^ (e - min e g).toNat) + sgn t (n * 2 ^ (g - min e g).toNat)

/-- R58, R52, R53: the sum of terms rounded once to nearest even: the canonical NaN of a NaN or of infinities of both signs, an infinity, or
the exact sum of the numbers; an exact zero is +0 but where every term is −0. -/
def Summed (f : Flt) (terms : List Val) (x : Nat) : Prop :=
  let nan : Prop := (∃ v ∈ terms, v.isNan = true) ∨ (Val.inf false ∈ terms ∧ Val.inf true ∈ terms)
  (nan → x = nanPattern f false none) ∧
  (∀ neg, ¬nan → Val.inf neg ∈ terms → x = f.sign neg + f.infBits) ∧
  (¬nan → (∀ neg, Val.inf neg ∉ terms) → ∀ low : Int, (∀ s m e, Val.num s m e ∈ terms → low ≤ e) →
    let sum : Int := (terms.map fun v => match v with
      | .num s m e => if s then -((m * 2 ^ (e - low).toNat : Nat) : Int) else ((m * 2 ^ (e - low).toNat : Nat) : Int)
      | _ => 0).sum
    (sum = 0 → (∀ v ∈ terms, v.isNeg = true) → x = f.sign true) ∧ (sum = 0 → (∃ v ∈ terms, v.isNeg = false) → x = 0) ∧
    (sum ≠ 0 → Rounded f .rne (decide (sum < 0)) sum.natAbs low x))
/-- R209: an accumulator after groups of products, with one rounding for each. -/
def Accumulates (f : Flt) : Nat → List (List Val) → Nat → Prop
  | x, [], y => y = x
  | x, ps :: rest, y => ∃ z, Summed f (f.decode x :: ps) z ∧ Accumulates f z rest y

/-- The FP32 forms (R175, R26). -/
def scalar : Instr → Option (Reg × Reg × Reg × Exact)
  | .fadd d a b => some (d, a, b, .sum)
  | .fsub d a b => some (d, a, b, .difference)
  | .fmul d a b => some (d, a, b, .product)
  | .ffma d a b => some (d, a, b, .fused)
  | .fnma d a b => some (d, a, b, .negated)
  | .fldx d a b => some (d, a, b, .scaled)
  | .fmin d a b => some (d, a, b, .least false false)
  | .fmax d a b => some (d, a, b, .least true false)
  | .fminn d a b => some (d, a, b, .least false true)
  | .fmaxn d a b => some (d, a, b, .least true true)
  | .faddC d v => some (low d, low d, low v, .sum)
  | .fmulC d v => some (low d, low d, low v, .product)
  | .fmaxC d v => some (low d, low d, low v, .least true false)
  | _ => none
/-- The packed forms: the format of each half (R177). -/
def packed : Instr → Option (Reg × Reg × Reg × Flt × Exact)
  | .hadd2 d a b => some (d, a, b, f16, .sum)
  | .hmul2 d a b => some (d, a, b, f16, .product)
  | .hfma2 d a b => some (d, a, b, f16, .fused)
  | .hmin2 d a b => some (d, a, b, f16, .least false false)
  | .hmax2 d a b => some (d, a, b, f16, .least true false)
  | .badd2 d a b => some (d, a, b, bf16, .sum)
  | .bmul2 d a b => some (d, a, b, bf16, .product)
  | .bfma2 d a b => some (d, a, b, bf16, .fused)
  | .bmin2 d a b => some (d, a, b, bf16, .least false false)
  | .bmax2 d a b => some (d, a, b, bf16, .least true false)
  | _ => none
/-- The FP64 forms (R178). -/
def double : Instr → Option (Reg × Reg × Reg × Exact)
  | .dadd d a b => some (d, a, b, .sum)
  | .dsub d a b => some (d, a, b, .difference)
  | .dmul d a b => some (d, a, b, .product)
  | .dfma d a b => some (d, a, b, .fused)
  | .dmin d a b => some (d, a, b, .least false false)
  | .dmax d a b => some (d, a, b, .least true false)
  | _ => none
/-- The rounding of an instruction: x[2:0] of its prefix less one, else `$mode.rnd` (R32, R174). -/
def rounds (c : Issue) (m : Word) : Rnd := if c.x.toNat % 8 = 0 then rndOf (m.toNat % 4) else rndOf (c.x.toNat % 8 - 1)

/-- The 16-bit half of a word. -/
def halfOf (x : Word) (n : Nat) : Nat := x.toNat / 2 ^ (16 * n) % 2 ^ 16
/-- HPK and BPK: the format and the sources; HTOF and BTOF: the format, the source and the half (R177). -/
def packs : Instr → Option (Reg × Reg × Reg × Flt)
  | .hpk d a b => some (d, a, b, f16)
  | .bpk d a b => some (d, a, b, bf16)
  | _ => none
def widens : Instr → Option (Reg × Reg × Nat × Flt)
  | .htof d a n => some (d, a, if n = 0 then 0 else 1, f16)
  | .btof d a n => some (d, a, if n = 0 then 0 else 1, bf16)
  | _ => none

/-- ±m·2^e rounded to an integer by a mode (R52, R55): the floor n and what is left above it decide. -/
def integral (md : Rnd) (neg : Bool) (m : Nat) (e : Int) : Int :=
  let x : Int := if neg then -(m : Int) else m
  if 0 ≤ e then x * 2 ^ e.toNat
  else
    let d : Int := 2 ^ (-e).toNat
    let n := x / d
    let r := x % d
    let up := match md with
      | .rne => decide (2 * r > d ∨ (2 * r = d ∧ n % 2 = 1))
      | .rz => decide (x < 0 ∧ r ≠ 0)
      | .rd => false
      | .ru => decide (r ≠ 0)
    if up then n + 1 else n
/-- The range of an integer format code (R43): its least and greatest numbers. -/
def range : Nat → Option (Int × Int)
  | 10 => some (-2 ^ 15, 2 ^ 15 - 1)
  | 11 => some (-2 ^ 7, 2 ^ 7 - 1)
  | 12 => some (0, 2 ^ 8 - 1)
  | 13 => some (-2 ^ 3, 2 ^ 3 - 1)
  | 14 => some (0, 2 ^ 4 - 1)
  | 15 => some (-2, 1)
  | 28 => some (-2 ^ 31, 2 ^ 31 - 1)
  | 29 => some (0, 2 ^ 32 - 1)
  | 30 => some (-2 ^ 63, 2 ^ 63 - 1)
  | 31 => some (0, 2 ^ 64 - 1)
  | _ => none
/-- The table of R55: what FCVT writes for a value, as a number cut to the register or the pair. -/
def converted (md : Rnd) (sat nanp : Bool) (dst : Nat) (v : Val) : Int :=
  match range dst with
  | some (lo, hi) =>
    (match v with
     | .nan _ => 0
     | .inf neg => if neg then lo else hi
     | .num neg m e => max lo (min hi (integral md neg m e)))
  | none =>
    match fmtOf dst with
    | .flt f =>
      (match v with
       | .nan src => if f.sp = .plain then (0 : Nat) else f.nanResult nanp src
       | .inf neg => (f.sign neg + (if sat || f.sp = .plain then f.maxBits else if f.sp = .ieee then f.infBits else f.infBits + 2 ^ f.mb - 1) : Nat)
       | .num neg m e => f.roundNum md sat neg m e false)
    | _ =>
      match v with
      | .nan _ => 1
      | .inf neg => if neg then 0 else 1
      | .num neg m _ => if neg ∧ m ≠ 0 then 0 else 1

/-- R57's results for the special operands −∞, −0, +0, +∞ and for operands below 0 where those are named. -/
structure Limits where
  d : Reg
  a : Reg
  negInf : Word
  negZero : Word
  posZero : Word
  posInf : Word
  below : Option Word
/-- The canonical FP32 NaN and some values (R45). -/
def qnan : Word := 0x7FC00000
def limits : Instr → Option Limits
  | .ex2 d a => some ⟨d, a, 0, 0x3F800000, 0x3F800000, 0x7F800000, none⟩
  | .lg2 d a => some ⟨d, a, qnan, 0xFF800000, 0xFF800000, 0x7F800000, some qnan⟩
  | .rcp d a => some ⟨d, a, 0x80000000, 0xFF800000, 0x7F800000, 0, none⟩
  | .rsq d a => some ⟨d, a, qnan, 0xFF800000, 0x7F800000, 0, some qnan⟩
  | .sqrt d a => some ⟨d, a, qnan, 0x80000000, 0, 0x7F800000, some qnan⟩
  | .sin d a => some ⟨d, a, qnan, 0x80000000, 0, qnan, none⟩
  | .cos d a => some ⟨d, a, qnan, 0x3F800000, 0x3F800000, qnan, none⟩
  | .tanh d a => some ⟨d, a, 0xBF800000, 0x80000000, 0, 0x3F800000, none⟩
  | .sig d a => some ⟨d, a, 0, 0x3F000000, 0x3F000000, 0x3F800000, none⟩
  | .rndn d a => some ⟨d, a, 0xFF800000, 0x80000000, 0, 0x7F800000, none⟩
  | .rndz d a => some ⟨d, a, 0xFF800000, 0x80000000, 0, 0x7F800000, none⟩
  | .rndd d a => some ⟨d, a, 0xFF800000, 0x80000000, 0, 0x7F800000, none⟩
  | .rndu d a => some ⟨d, a, 0xFF800000, 0x80000000, 0, 0x7F800000, none⟩
  | _ => none
/-- The rounding of RNDN, RNDZ, RNDD, RNDU. -/
def toIntegral : Instr → Option Rnd
  | .rndn .. => some .rne
  | .rndz .. => some .rz
  | .rndd .. => some .rd
  | .rndu .. => some .ru
  | _ => none
/-- The class of an FP32 pattern (R57): the bit of its mask. -/
def classOf (x : Word) : Nat :=
  let neg := x.getLsbD 31
  let e := x.toNat / 2 ^ 23 % 2 ^ 8
  let m := x.toNat % 2 ^ 23
  if e = 255 ∧ m ≠ 0 then (if x.getLsbD 22 then 9 else 8)
  else if e = 255 then (if neg then 0 else 7)
  else if e = 0 ∧ m = 0 then (if neg then 3 else 4)
  else if e = 0 then (if neg then 2 else 5)
  else if neg then 1 else 6

-- Control flow

/-- A branch: the registers it names, whether its thread takes it, where to, and whether it sets `$lr` (R27, R287, R288). -/
structure Branch where
  regs : List Nat
  taken : Thread → Bool
  target : Thread → Int
  link : Bool
def branch (c : Issue) : Instr → Option Branch
  | .bra p n o => some ⟨[], fun t => t.pred p.toNat != n.getLsbD 0, fun _ => c.word.toNat + 2 * o.toInt, false⟩
  | .call p n o => some ⟨[], fun t => t.pred p.toNat != n.getLsbD 0, fun _ => c.word.toNat + 2 * o.toInt, true⟩
  | .braS o => some ⟨[], fun _ => true, fun _ => c.word.toNat + 2 * o.toInt, false⟩
  | .brx a => some ⟨two a, fun _ => true, fun t => (t.pair a.toNat).toNat, false⟩
  | .callx a => some ⟨two a, fun _ => true, fun t => (t.pair a.toNat).toNat, true⟩
  | .ret => some ⟨[], fun _ => true, fun t => t.lr.toNat, false⟩
  | .retC => some ⟨[], fun _ => true, fun t => t.lr.toNat, false⟩
  | _ => none
/-- A thread that takes a branch: bit 0 of the target is ignored, its guard span ends (R17, R28). -/
def Branch.go (b : Branch) (c : Issue) (t : Thread) : Thread :=
  { t with pc := BitVec.ofInt 64 (2 * (b.target t / 2)), lr := if b.link then BitVec.ofNat 64 (c.word.toNat + 4) else t.lr
           spanLeft := 0, wait := .ready, half := none, command := none, resume := none }

/-- The bits that the fields of `$tinfo` take up for a cause (R84, R198, R210, R225, R267): those above them are reserved. -/
def infoBits (cause : Nat) : Nat :=
  if cause = 3 ∨ cause = 4 ∨ cause = 5 then 12 else if cause = 7 then 14 else if cause = 9 then 16 else if cause = 0xA then 26 else if cause = 0xB then 16 else 32
/-- A system register that SYSR reads (R35): its registers' count and its value. -/
def system (s : State) (tid : Nat) (n : Nat) : Option (Nat × Nat) :=
  let t := s.here
  let th := t.thread tid
  if n = 0 then some (1, tid)
  else if n = 1 then some (1, tid % 32)
  else if n = 2 then some (1, tid / 32)
  else if n = 3 then some (1, (t.laneset (tid / 32)).stage)
  else if n = 4 then some (1, t.x)
  else if n = 5 then some (1, t.y)
  else if n = 6 then some (1, t.z)
  else if n = 7 then some (1, t.gridId.toNat)
  else if n = 8 then some (1, match t.place with | some p => p.core | none => t.lastCore)
  else if n = 0x10 then some (2, s.clock)
  else if n = 0x12 then some (2, th.lr.toNat)
  else if n = 0x14 then some (2, th.tpc.toNat)
  else if n = 0x16 then some (2, th.tfa.toNat)
  else if n = 0x18 then some (2, th.tia.toNat)
  else if n = 0x1A then some (1, th.tcause.toNat)
  else if n = 0x1B then some (1, th.tinfo.toNat % 2 ^ infoBits th.tcause.toNat)
  else if n = 0x1C then some (1, if th.spanLeft = 0 then 0 else th.spanLeft + (if th.spanPass then 32 else 0))
  else if n = 0x20 then some (1, t.mode.toNat)
  else if n = 0x22 then some (2, (t.laneset (tid / 32)).gang.toNat)
  else if 0x100 ≤ n ∧ n < 0x140 then some (1, ((t.kargs[n - 0x100]?).getD 0).toNat)
  else none

-- Traps

/-- The team has a handler and no thread of the group that executes is in it: its traps enter the handler (R311). -/
def CanTrap (s : State) : Prop :=
  s.here.desc.handler ≠ 0 ∧ ∀ tid ∈ s.tids, passes s.cur (s.thread s.cur.team tid) = true → (s.thread s.cur.team tid).handler = false
/-- Trap entry (R311): the frame of R310, the span saved and ended, handler mode, the handler's address. -/
def trapped (handler cause info : Nat) (tfa tia tpc : BitVec 64) (t : Thread) : Thread :=
  { t with tpc := tpc, tia := tia, tfa := tfa, tcause := BitVec.ofNat 32 cause, tinfo := BitVec.ofNat 32 info
           savedPass := t.spanPass, savedLeft := t.spanLeft, spanPass := false, spanLeft := 0
           handler := true, pc := BitVec.ofNat 64 handler, wait := .ready, half := none, command := none, resume := none }
/-- The trap of a thread of the issue group at its own instruction. -/
def trapAt (s : State) (cause info : Nat) (tfa : BitVec 64) : Thread → Thread := trapped s.here.desc.handler cause info tfa s.cur.pc s.cur.pc
/-- Where the last REBAL's table of a thread puts a work item (R196): an owner and an index in its list, or none. -/
def owner (s : State) (t : Thread) (item : Nat) : Word × Word :=
  match t.lastRebal.bind fun u => (Store.get [] s.here.tables u).find? fun e => decide (e.2.1 ≤ item) && decide (item < e.2.1 + e.2.2) with
  | some e => (BitVec.ofNat 32 e.1, BitVec.ofNat 32 (item - e.2.1))
  | none => (0xFFFFFFFF, 0)

-- Memory

/-- A global and a pad address: a register pair, or a register, and the offset in units of the access (R155). -/
def globalAt (u : Thread) (a : Reg) (o : BitVec 8) (n : Nat) : Nat := (((u.pair a.toNat).toNat + o.toInt * n) % 2 ^ 64).toNat
def padAt (u : Thread) (a : Reg) (o : BitVec 8) (n : Nat) : Nat := (((u.reg a.toNat).toNat + o.toInt * n) % 2 ^ 32).toNat
/-- The bytes of a load code and of a store code (R154). -/
def loadBytesOf (z : BitVec 3) : Nat := [1, 1, 2, 2, 4, 8, 16].getD z.toNat 0
def storeBytesOf (z : BitVec 3) : Nat := [1, 2, 4, 8, 16].getD z.toNat 0
/-- Registers from `d` that hold `n` bytes. -/
def spanRegs (d : Reg) (n : Nat) : List Nat := (List.range ((n + 3) / 4)).map (d.toNat + ·)
/-- Registers from `d` written with the words of an exact value, lowest first. -/
def writeWords (d : Reg) (n : Nat) (x : Int) (u : Thread) : Thread :=
  (List.range ((n + 3) / 4)).foldl (fun u i => u.setReg (d.toNat + i) (BitVec.ofInt 32 (x / 2 ^ (32 * i)))) u
/-- The value of bytes, lowest first. -/
def littleEndian (bs : List Byte) : Nat := bs.foldr (fun b x => b.toNat + 256 * x) 0
/-- A loaded value: codes 0 and 2 extend the sign (R154). -/
def loadedValue (z : BitVec 3) (x : Nat) : Int := if z = 0 then toSigned 8 x else if z = 2 then toSigned 16 x else x
/-- The low `n` bytes of the registers from `d` (R154). -/
def storedBytes (d : Reg) (n : Nat) (u : Thread) : List Byte :=
  (List.range n).map fun i => BitVec.ofNat 8 ((u.reg (d.toNat + i / 4)).toNat / 2 ^ (8 * (i % 4)))
/-- The byte that the youngest entry of a write buffer gives an address. -/
def inBuffer (w : List WEntry) (va : Nat) : Option Byte := w.reverse.findSome? fun e => if e.va ≤ va then e.bytes[va - e.va]? else none
/-- The byte that an ordinary load reads (R251): the youngest entry of W, else the filled sector of S, else memory. -/
def viewed (t : Team) (memory : Nat → Byte) (va pa : Nat) : Byte :=
  match inBuffer t.w va with
  | some b => b
  | none => match Store.get [] t.snap (va / 32) with
    | [] => memory pa
    | sector => (sector[va % 32]?).getD 0

/-- A global access of a thread: the registers it names, its address and size, its kind, and whether it counts in `st` (R155, R158, R256,
R262). -/
structure MemoryForm where
  regs : List Nat
  addr : Nat
  size : Nat
  kind : Acc
  store : Bool

/-- The new value of an atomic operation (R262). -/
def atomic (f old b c : Nat) : Nat :=
  let sum (g : Flt) (x y : Nat) : Nat := Exact.sum.pattern g .rne false x y 0
  let each (g : Flt) : Nat := sum g (old % 2 ^ 16) (b % 2 ^ 16) + 2 ^ 16 * sum g (old / 2 ^ 16) (b / 2 ^ 16)
  match f with
  | 0 => (old + b) % 2 ^ 32
  | 1 => if toSigned 32 old ≤ toSigned 32 b then old else b
  | 2 => min old b
  | 3 => if toSigned 32 old ≤ toSigned 32 b then b else old
  | 4 => max old b
  | 5 => old &&& b
  | 6 => old ||| b
  | 7 => old ^^^ b
  | 8 => b
  | 10 => sum f32 old b
  | 11 => each f16
  | 12 => each bf16
  | 13 => (old + b) % 2 ^ 64
  | _ => if old = b then c else old
/-- Compare and swap: the forms that read a fourth register, and their width and the others' (R262). -/
def swaps (f : Nat) : Bool := f = 9 || f = 14 || f = 15
def atomicBytes (f : Nat) : Nat := if f = 15 then 16 else if f = 13 ∨ f = 14 then 8 else 4
/-- A prefix's acquire, release, no return, and scope: 0 team, 1 device, 2 system (R32). -/
def acquires (c : Issue) : Bool := c.x.getLsbD 2
def releases (c : Issue) : Bool := c.x.getLsbD 3
def noReturn (c : Issue) : Bool := c.x.getLsbD 4
def scopeOf (c : Issue) : Nat := if c.x.toNat % 4 = 0 then 1 else if c.x.toNat % 4 = 1 then 0 else 2

/-- LD, LDQ, ST, STL and ATOM as global accesses. -/
def memoryForm (c : Issue) (u : Thread) : Instr → Option MemoryForm
  | .ld d a z o => some ⟨two a ++ spanRegs d (loadBytesOf z), globalAt u a o (loadBytesOf z), loadBytesOf z, .load, false⟩
  | .st d a z o => some ⟨two a ++ spanRegs d (storeBytesOf z), globalAt u a o (storeBytesOf z), storeBytesOf z, .store, true⟩
  | .ldq d a z _ o => let n := if z = 0 then 4 else 8; some ⟨two a ++ spanRegs d n, globalAt u a o n, n, .load, false⟩
  | .stl d a z _ o => let n := if z = 0 then 4 else 8; some ⟨two a ++ spanRegs d n, globalAt u a o n, n, .store, true⟩
  | .atom d a b f =>
    let n := atomicBytes f.toNat
    some ⟨(if noReturn c then [] else spanRegs d n) ++ two a ++ spanRegs b n ++ (if swaps f.toNat then spanRegs (third c d) n else []),
      (u.pair a.toNat).toNat, n, .atomic, noReturn c⟩
  | _ => none

/-- A thread that waits in WAITA looks at its word when a write touches it (R122). -/
def looks (pad : Store Byte) (a n : Nat) (u : Thread) : Thread :=
  match u.wait with
  | .flag f v false => if f < a + n ∧ a < f + 4 ∧ littleEndian (Store.getN 0 pad f 4) = v then { u with wait := .flag f v true } else u
  | _ => u

/-- One unit's arrival at a counting barrier word, and `k` of them (R118). -/
def arriveOne (x : Nat) : Nat :=
  let parity := x / 2 ^ 63 % 2
  let reload := x / 2 ^ 32 % 2 ^ 31
  let remaining := x % 2 ^ 32
  if remaining ≤ 1 then (1 - parity) * 2 ^ 63 + reload * 2 ^ 32 + reload else parity * 2 ^ 63 + reload * 2 ^ 32 + (remaining - 1)
def arrivals (x : Nat) : Nat → Nat
  | 0 => x
  | k + 1 => arriveOne (arrivals x k)
/-- A thread that waits and will execute its instruction again, without another fetch where it was executing further (log 49). -/
def waits (s : State) (w : Wait) (u : Thread) : Thread :=
  { u with pc := s.cur.pc, wait := w, since := if u.wait = w then u.since else s.clock, resume := u.resume.filter (·.instr.isSome) }

/-- An instruction as issued, for a thread that executes it further (log 49): in the issue group of its first issue, a replay's its own (R300). -/
def asIssued (s : State) (tid : Nat) (u : Thread) (i : Option Instr) : Resume :=
  ⟨i, s.cur.word, s.cur.next, s.cur.x, s.cur.vc, match u.resume with
    | some r => r.group
    | none => s.clock * 4096 + if s.cur.replay.isSome then tid + 1 else 0⟩
/-- The completed copies that an access to pad bytes leaves unobserved: those whose completion word it does not touch (R119). -/
def unobserved (l : List Landed) (a n : Nat) : List Landed := l.filter fun e =>
  let mode := e.cpl / 2 ^ 24 % 2 ^ 4
  let at_ := 4 * (e.cpl % 2 ^ 24)
  mode = 0 || decide (a + n ≤ at_) || decide (at_ + (if mode = 3 then 4 else 8) ≤ a)
/-- The unfenced stores after a thread's fence: with each of its own, the older ones to the same byte (R258). -/
def afterFence (l : List (Nat × Byte × Nat)) (tid : Nat) : List (Nat × Byte × Nat) :=
  (l.zipIdx.filter fun e => !(l.take (e.2 + 1)).any fun x => decide (x.1 = e.1.1) && decide (x.2.2 = tid)).map (·.1)

-- Checks

/-- The first check that fails, with what it gives. -/
def firstFailing {α : Type} (l : List (Bool × α)) : Option α := (l.find? (·.1)).map (·.2)
/-- R202's codes for a handle: what the role asks of kind and format, whether its box counts, what it asks of the box origin and of the
box's shape, and whether a blocked layout is asked. -/
def handleTable (h : Handle) (pad kind : Nat) (fmt box origin shape blocks : Bool) : List (Bool × Nat) :=
  let row := (h.cols * fmtWidth h.fmt + 7) / 8
  let last := h.base + (h.rows - 1) * h.stride + row - 1
  let count := h.rows * (h.cols / 64)
  let scales := h.sb + 4 * ((count + 255) / 256)
  let codes := h.sb + 64 * ((4 * ((count + 255) / 256) + 63) / 64) + count
  let inPad := h.base < 2 ^ 32 ∧ last < pad ∧ (blocked h.fmt = true → h.sb < 2 ^ 32 ∧ scales ≤ pad ∧ codes ≤ pad)
  let inMemory := h.base < 2 ^ 52 ∧ last < 2 ^ 52
  [(decide (h.kind ≠ kind), 1), (!fmt, 2), (decide (h.rows = 0 ∨ h.cols = 0 ∨ box = true ∧ (h.brows = 0 ∨ h.bcols = 0)), 3),
   (decide (h.base % 16 ≠ 0 ∨ h.stride % 16 ≠ 0) || !origin, 4), (decide (h.stride < row), 5),
   (decide (¬(if h.space = true then inPad else inMemory) ∨ h.statv = true ∧ pad < h.stats * 16 + 16), 6), (!shape, 7),
   (blocks && blocked h.fmt && decide (h.cols % 64 ≠ 0 ∨ h.sb % 16 ≠ 0), 9)]
/-- An index list or a metadata tensor (R210, R354). -/
def listTable (h : Handle) (pad : Nat) : List (Bool × Nat) := handleTable h pad 0 (h.fmt == 29) false true true false

/-- The checks of R222 to R225 on a word of a drain slot with its number, the last of the words `l` up to it. -/
def wordTable (t : Team) (slot : List Word) (l : List (Nat × Nat)) (e : Nat × Nat) : List (Bool × Nat × Nat) :=
  let w := e.2
  let op := w % 2 ^ 5
  let dst := w / 2 ^ 5 % 2 ^ 3
  let s1 := w / 2 ^ 8 % 2 ^ 3
  let s2 := w / 2 ^ 11 % 2 ^ 3
  let kind := w / 2 ^ 14 % 2 ^ 2
  let imm := w / 2 ^ 16 % 2 ^ 16
  let count (ops : List Nat) := (l.filter fun x => decide (x.2 % 2 ^ 5 ∈ ops)).length
  let drain (c : Nat) : Nat × Nat := (0xB, c + e.1 * 2 ^ 8)
  let reserved : Bool :=
    if op = 0 then decide (w ≠ 0)
    else if op ∈ [17, 18, 19, 20] then decide (dst ≠ 0 ∨ s2 ≠ 0 ∨ kind ≠ 0 ∨ 64 ≤ imm)
    else if op = 21 then decide (dst ≠ 0 ∨ s2 ≠ 0 ∨ kind ≠ 0 ∨ 32 ≤ imm)
    else if op = 16 then decide (s2 ≠ 0 ∨ kind ≠ 0 ∨ 32 ≤ imm)
    else if op ∈ [8, 9, 10, 11, 12, 13, 22, 23] then decide (s2 ≠ 0 ∨ kind ≠ 0 ∨ imm ≠ 0)
    else decide (op = 1 ∧ s1 ≠ 0 ∨ kind = 0 ∧ imm ≠ 0 ∨ kind ≠ 0 ∧ s2 ≠ 0 ∨ 2 ≤ kind ∧ 256 ≤ imm)
  let header := (slot.headD 0).toNat
  let vector := 16 * (if kind = 2 then header % 2 ^ 16 else header / 2 ^ 16) + 256 * imm
  let h := parseHandle (t.handle imm)
  let byte := decide (h.col * fmtWidth h.fmt % 8 = 0)
  let role := if op = 18 then handleTable h t.padSize 0 (blocked h.fmt) true byte (decide (h.bcols = 64 ∧ h.col % 64 = 0)) true
    else handleTable h t.padSize 0 (decide (h.fmt ≤ 16 ∨ 28 ≤ h.fmt)) true byte true true
  [(decide (24 ≤ op), drain 1), (reserved, drain 3), (decide (op = 21 ∧ t.desc.acctiles ≤ imm), drain 4),
   (decide (2 < count [18] ∨ 4 < count [19, 20]), drain 5), (decide (2 ≤ kind ∧ t.padSize < vector + 256), drain 6),
   (decide (op = 16 ∧ ¬(2 ≤ imm ∧ imm ≤ 16)), drain 7)] ++
  if op ∈ [17, 18, 19, 20] then role.map fun c => (c.1, 0xE, c.2 + imm * 2 ^ 8) else []
/-- A slot's words are checked in order up to the first END; a slot without END fails after them (R225). -/
def slotTable (t : Team) (slot : List Word) : List (Bool × Nat × Nat) :=
  let words := (slot.drop 1).zipIdx.map fun e => (e.2 + 1, e.1.toNat)
  let end_ := words.findIdx fun e => e.2 % 2 ^ 5 = 0
  ((List.range (min (end_ + 1) words.length)).flatMap fun i => wordTable t slot (words.take (i + 1)) ((words[i]?).getD (0, 0))) ++
  [(decide (words.length ≤ end_), (0xB, 2))]

/-- The depth of an operand by the class of its format, and the formats of a sparse A (R203, R210). -/
def depth (f : Nat) : Nat :=
  if f = 0 then 16 else if f = 1 then 32 else if f ∈ [2, 3, 10] then 128 else if f = 16 then 1024
  else if f ∈ [9, 13, 14, 15, 17, 18, 23, 25, 26, 27] then 512 else if f < 28 then 256 else 0
def sparseA (f : Nat) : Bool := decide (2 ≤ f ∧ f ≤ 14 ∨ 17 ≤ f ∧ f ≤ 26)
/-- The checks of an opening in the order of R353. -/
def openTable (t : Team) (i : Instr) : List (Bool × Nat × Nat) :=
  let w := mword i
  let a := parseHandle (t.handle w.ha)
  let b := parseHandle (t.handle w.hb)
  let on (n : Nat) (l : List (Bool × Nat)) : List (Bool × Nat × Nat) := l.map fun e => (e.1, 0xE, e.2 + n * 2 ^ 8)
  let byte (h : Handle) := decide (h.col * fmtWidth h.fmt % 8 = 0)
  let box (r c : Nat) (h : Handle) := decide (h.brows = (if h.trans then c else r) ∧ h.bcols = if h.trans then r else c)
  let k := depth a.fmt
  let ofA (ok origin : Bool) := on w.ha (handleTable a t.padSize 0 ok true (byte a && origin) (box 64 k a) true)
  let ofB (ok shape : Bool) := on w.hb (handleTable b t.padSize 0 ok true (byte b) shape true)
  (match w.kind with
   | .dense => ofA (decide (a.fmt < 28)) true ++ ofB (decide (depth b.fmt = k)) (box k 64 b && !decide (a.fmt = 0 ∧ w.dp ≠ 0)) ++
      if a.fmt = 0 then [(decide (w.c % 2 = 1), (1, 7)), (decide (t.desc.acctiles ≤ w.c + 1), (1, 8))] else []
   | .sparse => ofA (sparseA a.fmt) (decide ((if a.trans then a.row else a.col) % 16 = 0)) ++ ofB (decide (depth b.fmt = k)) (box (2 * k) 64 b) ++
      (!a.linkv, 0xE, 8 + w.ha * 2 ^ 8) :: on a.link (listTable (parseHandle (t.handle a.link)) t.padSize)
   | .tile => ofB (decide (b.fmt ≠ 0 ∧ b.fmt < 28)) (box 64 64 b)
   | .had => ofB (decide (b.fmt ≠ 0 ∧ b.fmt < 28)) (box 64 64 b || box 64 1 b || box 1 64 b)
   | .drain => []) ++ if w.dp = 0 then [] else slotTable t ((t.drains[w.dp - 1]?).getD [])
/-- The checks of TRES in order (R102). -/
def tresTable (t : Team) (ranges : List Range) (base len off : Nat) : List (Bool × Nat × Nat × Nat) :=
  let meets (a n b k : Nat) := decide (a < b + k ∧ b < a + n)
  [(decide (base % 2 ^ 10 ≠ 0 ∨ len % 2 ^ 10 ≠ 0 ∨ off % 2 ^ 10 ≠ 0 ∨ len = 0), (2, 0, base)),
   (decide (2 ^ 52 ≤ base ∨ 2 ^ 52 ≤ base + len - 1), (3, 1, base)), (decide (2 ^ 22 - 2 ^ 10 * t.desc.sig.2.2 < off + len), (0xD, 0, 0)),
   (decide (16 ≤ ranges.length) || ranges.any fun r => meets r.off r.len off len || (decide (r.grid = t.grid) && meets r.base r.len base len), (0xD, 0, 0))]

-- Copies and rings

/-- The tile copies with the number of their form (R107). -/
def copyForm : Instr → Option (Nat × Reg × Reg × Reg)
  | .tload d a b => some (0, d, a, b)
  | .tstore d a b => some (1, d, a, b)
  | .tgath d a b => some (2, d, a, b)
  | .tscat d a b => some (3, d, a, b)
  | .tscata d a b => some (4, d, a, b)
  | .tmcast d a b => some (5, d, a, b)
  | .tpref a b => some (6, 0, a, b)
  | _ => none
/-- The command that a thread's tile copy captures (R108). -/
def command (s : State) (tid f : Nat) (d a b : Reg) : Copy :=
  let u := s.thread s.cur.team tid
  let h := s.here.handle b.toNat
  { id := s.nextKey, team := s.cur.team, tid := tid, tia := s.cur.pc.toNat, f := f, pad := (u.reg a.toNat).toNat, a1 := (u.reg (a.toNat + 1)).toNat
    a2 := (u.reg (a.toNat + 2)).toNat, cpl := (u.reg (a.toNat + 3)).toNat, flag := if f = 6 then 0 else u.reg d.toNat, h := h
    link := s.here.handle (h.toNat / 2 ^ 272 % 2 ^ 6), mode := s.here.mode, row := 0, off := 0, idx := [], stage := [], phase := .queued, clash := [], arrived := 0 }
/-- The checks of R111 and R354, in order: what each fails on, with its trap's cause, `$tinfo` and `$tfa`. -/
def copyTable (t : Team) (c : Copy) (n : Nat) : List (Bool × Nat × Nat × Nat) :=
  let h := parseHandle c.h
  let ih := parseHandle c.link
  let handle (code num : Nat) : Nat × Nat × Nat := (0xE, code + num * 2 ^ 8, 0)
  let mode := c.cpl / 2 ^ 24 % 2 ^ 4
  let word := 4 * (c.cpl % 2 ^ 24)
  let size := h.brows * h.pitch
  let barrier := mode = 1 ∨ mode = 2
  let listed := c.f = 2 ∨ c.f = 3 ∨ c.f = 4
  let origin : Int := h.col + (if listed then 0 else toSigned 32 c.a2)
  (handleTable h t.padSize 0 true true true true true).map (fun e => (e.1, handle e.2 n)) ++
  [(h.space, handle 0xC n),
   (decide (origin * fmtWidth h.fmt % 8 ≠ 0 ∨ c.f = 4 ∧ h.fmt ∉ [1, 2, 3, 28, 29] ∨ c.f = 5 ∧ 2 ^ 15 < size ∨ listed ∧ (c.a2 = 0 ∨ h.brows < c.a2)), handle 0xA n)] ++
  (if listed then (!h.linkv, handle 8 n) :: (listTable ih t.padSize).map fun e => (e.1, handle e.2 h.link) else []) ++
  (if c.f = 6 then [] else
  [(decide (c.pad % 16 ≠ 0), (2, 0, c.pad)), (decide (listed ∧ c.a1 % 4 ≠ 0), (2, 0, c.a1)), (decide (barrier ∧ word % 8 ≠ 0), (2, 0, word)),
   (decide (t.padSize < c.pad + size), (0xD, 0, c.pad)), (decide (listed ∧ ih.space = true ∧ t.padSize < ih.base + c.a1 + 4 * c.a2), (0xD, 0, c.a1)),
   (decide (barrier ∧ t.padSize < word + 8 ∨ mode = 3 ∧ t.padSize < word + 4), (0xD, 0, word)), (decide (3 < mode), handle 0xB n)])
/-- The scope of a ring whose header stands at a physical address: system outside the package, else device (R130). -/
def scopeAt (pa : Nat) : Nat := if inPeer pa ∨ inHost pa then 2 else 1
/-- The packet that a device thread pushes: own and QLAUNCH bits, the parent's `$grid`, and for FORK its team (R281, R282). -/
def childPacket (t : Team) (fork : Bool) (x : Nat) : Nat :=
  let x := putBits (putBits x 10 10 1) 63 32 t.gridId.toNat
  if fork then putBits (putBits x 11 11 1) 383 352 t.index else x

-- The matrix engine, relations, trees

/-- A matrix word's tiles and drain slot, and whether it must name a slot (R205, R208, R213, R235). -/
def matrix : Instr → Option (List Nat × Nat × Bool)
  | .mma c _ _ p | .mmaz c _ _ p | .mmas c _ _ p | .mmasz c _ _ p => some ([c.toNat], p.toNat, false)
  | .mmac c a _ p | .mmacz c a _ p => some ([c.toNat, a.toNat], p.toNat, false)
  | .mhad d a _ => some ([d.toNat, a.toNat], 0, false)
  | .mdrain d b => some ([d.toNat], b.toNat, true)
  | _ => none
/-- The operation that one laneset's word opens by itself, with nothing else in flight: what it captures (R206, R228). -/
def operation (s : State) (i : Instr) (tid : Nat) : Mop :=
  let w := mword i
  let h (n : Nat) := s.here.handle n
  let ab := w.kind = .dense ∨ w.kind = .sparse
  let slot := s.here.slot w.dp
  { id := s.nextKey, team := s.cur.team, mask := 2 ^ s.cur.laneset, word := i, issuers := [(s.cur.laneset, s.cur.pc.toNat, [tid])]
    ha := if ab then h w.ha else 0, hb := if w.kind = .drain then 0 else h w.hb
    hm := if w.kind = .sparse then h (parseHandle (h w.ha)).link else 0, mode := s.here.mode, slot := slot
    outs := (program slot).filterMap fun p => if uStores (uOp p.2) then some (uImm p.2, h (uImm p.2)) else none
    vecs := ((program slot).filter fun p => 2 ≤ uKind p.2 && !uOut (uOp p.2)).map fun p => (256 * uKind p.2 + uImm p.2 % 256,
      (List.range 64).map fun n => BitVec.ofNat 32 (littleEndian (Store.getN 0 s.here.pad (vecAddr slot (uKind p.2) (uImm p.2) + 4 * n) 4)))
    scales := [], pages := [], phase := .queued, pad := s.here.pad, clash := [], taint := [], undef := []
    counted := [tid] }
/-- A thread whose instruction completed by a wait inside it that ended at once. -/
def through (s : State) (u : Thread) : Thread := { u with next := s.cur.next, since := s.clock }.done s.cur.next
/-- A thread that waits inside its instruction. -/
def waitsIn (s : State) (w : Wait) (u : Thread) : Thread := { u with pc := s.cur.pc, next := s.cur.next, wait := w, since := s.clock, resume := none }

/-- A relational arrival (R184 to R195): its registers, unit, tag, word without destinations, JOIN's spec and cursor, destination and
key, and the values a FOLD folds. -/
structure Arriving where
  regs : List Nat
  unit : Nat
  tag : Nat
  op : Instr
  extra : Nat × Nat
  dst : Nat
  key : Nat
  vals : List Word
def arriving (s : State) (tid : Nat) : Instr → Option Arriving
  | .fold d a b f =>
    let u := s.thread s.cur.team tid
    let n := s.cur.x.toNat % 16 + 1
    let wide := s.cur.x.getLsbD 4
    some ⟨(if wide then two a else [a.toNat]) ++ (List.range n).map (b.toNat + ·), scope, d.toNat, .fold d 0 0 f, (0, 0), b.toNat,
      if wide then (u.pair a.toNat).toNat else (u.reg a.toNat).toNat, (List.range n).map fun i => u.reg (b.toNat + i)⟩
  | .join d a b =>
    let u := s.thread s.cur.team tid
    some ⟨[a.toNat, b.toNat], (s.here.laneset (tid / 32)).stage, d.toNat, .join d 0 0, ((u.reg a.toNat).toNat, (u.reg b.toNat).toNat), b.toNat, 0, []⟩
  | .rank d a b =>
    let u := s.thread s.cur.team tid
    let wide := s.cur.x.getLsbD 4
    some ⟨d.toNat :: (if wide then two a else [a.toNat]), scope, b.toNat, .rank 0 0 b, (0, 0), d.toNat,
      if wide then (u.pair a.toNat).toNat else (u.reg a.toNat).toNat, []⟩
  | .rebal d a b => some ⟨two d ++ [a.toNat], scope, b.toNat, .rebal 0 0 b, (0, 0), d.toNat, ((s.thread s.cur.team tid).reg a.toNat).toNat, []⟩
  | _ => none
where
  /-- The scope unit: the laneset under x[5], else the stage (R183). -/
  scope : Nat := if s.cur.x.getLsbD 5 then 16 + tid / 32 else (s.here.laneset (tid / 32)).stage
/-- What an arrival records (R184). -/
def Arriving.arrival (r : Arriving) (s : State) (tid : Nat) : Arrival :=
  let u := s.thread s.cur.team tid
  ⟨tid, r.dst, r.key, r.vals, s.here.mode, u.regs, u.preds⟩

/-- Element (i, j) of a handle's box by a read of bytes (R48, R49, R112, R200): in the tensor its code's value, times its block's scale where the
format is blocked; elsewhere the value of zero bits. -/
def boxElement (rd : Nat → Byte) (h : Handle) (i j : Nat) : Val :=
  let r : Int := h.row + i
  let c : Int := h.col + j
  let bit := c.toNat * h.width
  let bytes (a n : Nat) : Nat := littleEndian ((List.range n).map fun x => rd (a + x))
  let code := bytes (h.rowAddr r.toNat + bit / 8) ((bit % 8 + h.width + 7) / 8) / 2 ^ (bit % 8) % 2 ^ h.width
  let v := (fmtOf h.fmt).decode code
  if 0 ≤ r ∧ r < h.rows ∧ 0 ≤ c ∧ c < h.cols then
    if blocked h.fmt then
      let n := r.toNat * (h.cols / 64) + c.toNat / 64
      match blockScale (bytes (h.cb + n) 1) (bytes (h.sb + 4 * (n / 256)) 4) with
      | some b => valMul v b
      | none => .num false 0 0
    else v
  else (fmtOf h.fmt).decode 0
/-- Element (i, j) of an operand, its box transposed where the handle says so (R200). -/
def operandElement (rd : Nat → Byte) (h : Handle) (i j : Nat) : Val := if h.trans then boxElement rd h j i else boxElement rd h i j
/-- Stores to the pad one after another (R229): each puts its bits into the bytes that hold them. -/
def StoredBits (m : Team) : List RowStore → Team → Prop
  | [], t => t.pad = m.pad
  | r :: rs, t => ∃ u : Team, PadHolds m u r.addr (leBytes r.size (putBits (littleEndian (Store.getN 0 m.pad r.addr r.size)) (r.lo + r.w - 1) r.lo r.v)) ∧
    StoredBits u rs t
/-- Statistics records after contributions (R61): a block counted, its retry and its underflows, each up to 2^32 − 1, and the larger absmax. -/
def CountedBlocks (m : Team) : List (Nat × Nat × Nat × Nat) → Team → Prop
  | [], t => t.pad = m.pad
  | e :: es, t => ∃ u : Team, (
      let field (i : Nat) := littleEndian (Store.getN 0 m.pad (e.1 + 4 * i) 4)
      let capped (n : Nat) := min (2 ^ 32 - 1) n
      let top := if valLt (f32.decode (field 3)) (f32.decode e.2.2.2) then e.2.2.2 else field 3
      PadHolds m u e.1 (leBytes 4 (capped (field 0 + 1)) ++ leBytes 4 (capped (field 1 + e.2.1)) ++ leBytes 4 (capped (field 2 + e.2.2.1)) ++ leBytes 4 top)) ∧
    CountedBlocks u es t

/-- A team of a descriptor fits on core `c` beside the teams there, in a team slot and at the base of its pad window (R136, R137, R220, R271, R309). -/
structure Fits (s : State) (key : Nat) (d : Desc) (c slot base : Nat) : Prop where
  opened : ∀ v ∈ s.vacates, v.closed = true → v.grid = key → c ∉ v.cores
  sig : (s.core c).sig = none ∨ (s.core c).sig = some d.sig
  threads : 32 * d.total + ((heldBy s c).map fun e => 32 * e.2.total).sum ≤ 4096
  registers : d.blocks + ((heldBy s c).map fun e => e.2.blocks).sum ≤ d.sig.1
  copies : d.copyslots + ((heldBy s c).map fun e => e.2.copyslots).sum ≤ 64
  tiles : d.acctiles + ((heldBy s c).map fun e => e.2.acctiles).sum ≤ 32
  drains : d.nd + ((heldBy s c).map fun e => e.2.nd).sum ≤ 32
  place : slot < 32 ∧ ∀ e ∈ heldBy s c, e.1.slot ≠ slot
  quadrants : ∀ q < 4, ((List.range d.total).countP fun l => (slot + l) % 4 = q) +
    ((heldBy s c).map fun e => (List.range e.2.total).countP fun l => (e.1.slot + l) % 4 = q).sum ≤ 32
  window : d.sig.1 ≤ base ∧ base + d.padKiB ≤ d.sig.2.1 ∧ ∀ e ∈ heldBy s c, ¬(e.1.padBase < base + d.padKiB ∧ base < e.1.padBase + e.2.padKiB)
/-- Team `i` of a grid just launched at a place (R138, R269 to R271, R311). -/
structure Launched (g : Grid) (key i : Nat) (place : Place) (t : Team) : Prop where
  names : t.phase = .resident ∧ t.place = some place ∧ t.grid = key ∧ t.gridId = g.id ∧ t.index = i
  index : t.x = i % g.x ∧ t.y = i / g.x % g.y ∧ t.z = i / (g.x * g.y)
  owner : t.vf = g.vf ∧ t.vmid = g.vmid ∧ t.asid = g.asid ∧ t.super = g.super
  given : t.desc = g.desc ∧ t.mode = g.mode ∧ t.kargs = g.kargs ∧ t.drains = g.images
  threads : ∀ tid < 32 * g.desc.total,
    let u := t.thread tid
    u.life = .live ∧ u.pc = BitVec.ofNat 64 g.desc.entry ∧ (∀ r, u.reg r = 0) ∧ u.preds = 1 ∧ u.handler = false ∧ u.wait = .ready ∧ u.spanLeft = 0 ∧
      u.trail = [] ∧ (u.ld, u.st, u.cp, u.tl) = (0, 0, 0, 0)
  lanesets : t.lanesets.length = (g.desc.lanesets.zip g.desc.regs).foldl (fun n e => n + e.1) 0 ∧ ∀ (l st n r : Nat),
    (g.desc.lanesets.zip g.desc.regs)[st]? = some (n, r) → (let before := ((g.desc.lanesets.zip g.desc.regs).take st).foldl (fun n e => n + e.1) 0
      before ≤ l ∧ l < before + n) →
    (t.laneset l).stage = st ∧ (t.laneset l).count = r ∧ (t.laneset l).gang = 0 ∧ (t.laneset l).retired = false
  cleared : (∀ x, Store.get 0 t.pad x = 0) ∧ (∀ x, Store.get 0 t.tiles x = 0) ∧ t.w = [] ∧ t.snap = [] ∧ t.account = 0 ∧ t.insts = [] ∧ t.latches = []

/-- Of entries with a clock each, the one whose clock is the least, the first of equals. -/
def FirstOf (l : List (Nat × Nat × Nat)) (e : Nat × Nat × Nat) : Prop :=
  ∃ i : Nat, l[i]? = some e ∧ ∀ (j : Nat) (x : Nat × Nat × Nat), l[j]? = some x → e.2.2 ≤ x.2.2 ∧ (j < i → e.2.2 < x.2.2)
/-- The pending lanesets of a quadrant that hold a ready thread, with the clock since when. -/
def readySince (q : Quad) : List (Nat × Nat × Nat) := q.pending.filterMap fun e => e.2.2.map fun c => (e.1, e.2.1, c)
/-- An exchange in a quadrant (R284): the pending laneset that became ready first enters the active set, and `out` leaves it. -/
def Exchanged (s : State) (q r : Quad) (out : Nat × Nat) : Prop :=
  ∃ k l c, FirstOf (readySince q) (k, l, c) ∧ r = { q with
    active := q.active.filter (fun e => (e.1, e.2.1) ≠ out) ++ [(k, l, s.clock)]
    pending := (q.pending ++ [(out.1, out.2, if hasReady s out then some s.clock else none)]).filter fun e => (e.1, e.2.1) ≠ (k, l)
    holds := q.holds.map fun h => (h.1, h.2.1.filter (fun e => e ≠ out), h.2.2) }

/-- A step of a tree walk on a node's bytes (R241, R244): a leaf's value, or the child that the feature's comparison picks. -/
def walked (h : Tree) (handle n : Nat) (leaf : Bool) (node : List Byte) (pad : Store Byte) (d : Reg) (row : Nat) (u : Thread) : Thread :=
  let field (o k : Nat) := littleEndian ((node.drop o).take k)
  let note (out : Nat) (u : Thread) : Thread := { u with trail := u.trail ++ leBytes 4 n ++ leBytes 4 (handle + 2 ^ 8 * out), steps := u.steps + 1 }
  if leaf ∨ (h.leafEnc = false ∧ field h.offFeat 2 = 0xFFFF) then
    note 2 ((u.setReg (d.toNat + 1) (BitVec.ofNat 32 (widenLeaf h.leafFmt (field h.offLeaf (fmtBytes h.leafFmt))))).setReg d.toNat 0xFFFFFFFF)
  else
    let k := fmtBytes h.featFmt
    let x := (fmtOf h.featFmt).decode (littleEndian (Store.getN 0 pad (row + field h.offFeat 2 * k) k))
    let t := (fmtOf h.thrFmt).decode (field h.offThr (fmtBytes h.thrFmt))
    let right : Bool :=
      if x.isNan || t.isNan then (if h.miss = 0 then false else if h.miss = 1 then true else field h.offFlags 1 % 2 = 1)
      else if h.sense then valLt t x else !valLt x t
    note (if right then 1 else 0) (u.setReg d.toNat (BitVec.ofNat 32 (field (if right then h.offRight else h.offLeft) 4)))

-- The management core

/-- Writes one after another at a list of addresses, each of what the state before it gives. -/
def Writes (what : Nat → State → List Byte) : List Nat → State → State → Prop
  | [], s, t => t = s
  | a :: l, s, t => ∃ u, Wrote s u a (what a s) ∧ Writes what l u t
/-- A page that SEAL and EXPORT take (R98, R328): a local bottom-level leaf of a frame in HBM. -/
def Sealable (s : State) (vmid asid va leaf addr pa : Nat) : Prop :=
  va < 2 ^ 52 ∧ (∃ wide fills, walk s vmid asid va = .leaf leaf addr pa false wide fills) ∧ leafState leaf = .local ∧ inHbm pa = true
/-- A page that they refuse, and the status (R328). -/
inductive Unsealable (s : State) (vmid asid va : Nat) : Nat → Prop where
  | far : 2 ^ 52 ≤ va → Unsealable s vmid asid va 4
  | invalid (stage : Nat) : va < 2 ^ 52 → walk s vmid asid va = .invalid stage → Unsealable s vmid asid va 4
  | record : va < 2 ^ 52 → walk s vmid asid va = .record → Unsealable s vmid asid va 4
  | big (leaf addr pa : Nat) (wide : Bool) (fills : List NtlbEntry) : va < 2 ^ 52 → walk s vmid asid va = .leaf leaf addr pa true wide fills →
      Unsealable s vmid asid va 5
  | elsewhere (leaf addr pa : Nat) (wide : Bool) (fills : List NtlbEntry) : va < 2 ^ 52 → walk s vmid asid va = .leaf leaf addr pa false wide fills →
      leafState leaf ≠ .local ∨ inHbm pa = false → Unsealable s vmid asid va 3
/-- A demotion's tier frame (R93): the ring's next whose version is not exhausted; each exhausted one leaves the ring and is reported. -/
inductive TierTaken (fn vmid asid : Nat) : Nat → State → Option Nat → State → Prop where
  | none (n : Nat) (s t : State) : popTier s vmid = (none, t) → TierTaken fn vmid asid (n + 1) s none t
  | some (n : Nat) (s t : State) (f : Nat) : popTier s vmid = (some f, t) → (tierRec t f).1 < 2 ^ 32 - 1 → TierTaken fn vmid asid (n + 1) s (some f) t
  | worn (n : Nat) (s t u : State) (f : Nat) (o : Option Nat) : popTier s vmid = (some f, t) → 2 ^ 32 - 1 ≤ (tierRec t f).1 →
      TierTaken fn vmid asid n (post t fn 9 0x13 f asid 0) o u → TierTaken fn vmid asid (n + 1) s o u
/-- The audit ring with a block of `n` open records closed and signed (R248). -/
def signedBlock (f : Vf) (n : Nat) : Vf :=
  let records := (List.range n).flatMap fun i => Store.get [] f.auditRecs ((f.auditSigned + i) % 2 ^ 14)
  let chain := sha3_512 (f.auditChain ++ leBytes 8 f.auditSigned ++ leBytes 4 n ++ records)
  { f with auditSigned := f.auditSigned + n, auditChain := chain, signatures := f.signatures ++ [Config.mldsaSign 1 chain] }
/-- All open records of a VF closed and signed, in blocks of at most 4,096 (R248). -/
inductive Flushed : Vf → Vf → Prop where
  | none (f : Vf) : f.auditSeq ≤ f.auditSigned → Flushed f f
  | block (f g : Vf) : f.auditSigned < f.auditSeq → Flushed (signedBlock f (min 4096 (f.auditSeq - f.auditSigned))) g → Flushed f g
/-- Nothing but one VF's registers and records changes, to `g`. -/
structure VfBecomes (s t : State) (v : Nat) (g : Vf) : Prop where
  frame : t = { s with vfs := t.vfs }
  changed : t.vf v = g
  rest : ∀ w, w ≠ v → t.vf w = s.vf w

/-- Teams of a grid on a core. -/
def teamsOn (s : State) (g c : Nat) : Nat := s.teams.countP fun e => e.2.grid = g && e.2.onCore c
/-- A set of cores with every core that a bond of a grid's team on one of them reaches. -/
def Bonded (s : State) (g : Nat) (l : List Nat) : Prop := ∀ e ∈ s.teams, e.2.grid = g → e.2.desc.bond ≠ 0 → ∀ p, e.2.place = some p → p.core ∈ l →
  ∀ m ∈ bondOf s e.1, ∀ q, (s.team m).place = some q → q.core ∈ l
/-- The cores that a vacate request chooses (R309 steps 1 and 2): the `n` that hold the fewest teams of the grid, lower numbers first, and what
their bonds reach. -/
structure ChosenCores (s : State) (g n : Nat) (cores : List Nat) : Prop where
  chosen : ∃ first : List Nat, first.Nodup ∧ (∀ c ∈ first, c ∈ cores ∧ c < 192 ∧ 0 < teamsOn s g c) ∧
    first.length = min n ((List.range 192).countP fun c => 0 < teamsOn s g c) ∧
    (∀ c ∈ first, ∀ d < 192, d ∉ first → 0 < teamsOn s g d → teamsOn s g c < teamsOn s g d ∨ (teamsOn s g c = teamsOn s g d ∧ c < d)) ∧
    ∀ l : List Nat, (∀ c ∈ first, c ∈ l) → Bonded s g l → ∀ c ∈ cores, c ∈ l
  bonded : Bonded s g cores
  once : cores.Nodup

-- Encodings

/-- The 16-bit form with op16 `k` and fields `d` and `v`, and the 32-bit instruction it is short for (R26). -/
def shortForms (d v : BitVec 5) : List (Instr × Instr) :=
  let r := low d
  let q := low v
  [(.movC d v, .mov r q), (.moviC d v, .movi r (v.signExtend 18)), (.addC d v, .add r r q), (.addiC d v, .addi r r (v.signExtend 11)),
   (.subC d v, .sub r r q), (.andC d v, .andB r r q), (.orC d v, .orB r r q), (.xorC d v, .xorB r r q), (.shliC d v, .shli r r v),
   (.shriC d v, .shri r r v), (.sariC d v, .sari r r v), (.faddC d v, .fadd r r q), (.fmulC d v, .fmul r r q), (.fmaxC d v, .fmax r r q),
   (.minS32C d v, .minS32 r r q), (.maxS32C d v, .maxS32 r r q)]

/-- A few of the words that spec/02 and the chapters after it write out, each with the instruction it stands for. -/
def specWords : List (Nat × Instr) :=
  [(0xE1220385, .prmt 7 8 9), (0x20A00099, .cmpi 1 0 0 5 16), (0x22830129, .fcmp 2 0 12 20 2), (0x32C54A9D, .sel 21 21 22 3),
   (0xFFFF805B, .bra 0 0 0x7FFFC), (0x221441CD, .mmaz 3 4 5 2), (0x0007FFC3, .waitc 15 15 15 0), (0x848101AD, .fcvt 3 4 4 1 1),
   (0xA000005F, .rtt), (0xB08082DF, .softi 5 2 4)]

end Sys2Proof.Rules
end

