-- ==== Sys2Proof/Certificates/Slice0/Obligations.lean ====
section
/-! DEFINITION. What the provers are asked to show of the machine: first the encodings and the step, then one statement for each
group of instructions, with its result, its completion and its frame, then traps, events and invariants. -/

open Sys2Proof Sys2Proof.Machine Sys2Proof.Rules

-- Encodings and the step (spec/02)

/-- R17 to R27: the bytes of a well-formed instruction decode to it, whatever stands after them. -/
def Obligations.RoundTrip : Prop := ∀ (i : Instr) (tail : List Byte), i.wellFormed → decode (i.bytes ++ tail) = .ok (i, tail)

/-- R17 to R27: what decodes to an instruction is that instruction's own bytes, so no two words share an instruction and no
reserved word falls to a neighbour. -/
def Obligations.DecodeInverse : Prop := ∀ (bs rest : List Byte) (i : Instr), decode bs = .ok (i, rest) → i.hasWord ∧ bs = i.bytes ++ rest

/-- The words that spec/02, spec/03, spec/07, spec/09, spec/13 and spec/14 write out decode to the instructions they write beside them. -/
def Obligations.SpecWords : Prop := ∀ e ∈ specWords, decodeTableWord 32 e.1 = some e.2

/-- R18: the all-zero halfword is ILL in both places it can stand, and executing it traps ILL with sub-code 0x01. -/
def Obligations.ZeroHalfwordIsIll : Prop :=
  (∀ rest : List Byte, decode ([0, 0] ++ rest) = .ok (.ill, rest)) ∧
  ∀ s : State, Ready s → CanTrap s → ∃ t, exec .ill s = .next t ∧ Moves s t fun _ => actThread s.cur (trapAt s 1 1 0)

/-- R26: codes 0 to 15 hold op16, vd and the second operand in their fields, and have the effect of the 32-bit instruction. -/
def Obligations.ShortFormsEqualLongForms : Prop := ∀ (d v : BitVec 5) (k : Nat) (p : Instr × Instr), (shortForms d v)[k]? = some p →
  (∀ rest : List Byte, k + d.toNat + v.toNat ≠ 0 → decode (leBytes 2 (2 * k + 2 ^ 6 * d.toNat + 2 ^ 11 * v.toNat) ++ rest) = .ok (p.1, rest)) ∧
  ∀ s : State, exec p.1 s = exec p.2 s

/-- R27: codes 16 to 18 with their fields, the MISC selectors, and ILL 0x05 for every other code, selector or bit. BRA.S is always
taken, from its own address; the MISC forms behave as the FLOW forms. -/
def Obligations.SixteenBitCodes : Prop :=
  (∀ (p : BitVec 5) (g : BitVec 1) (n : BitVec 4) (rest : List Byte),
    decode (leBytes 2 (2 * 16 + 2 ^ 6 * p.toNat + 2 ^ 11 * g.toNat + 2 ^ 12 * n.toNat) ++ rest) = .ok (.grd p g n, rest)) ∧
  (∀ (o : BitVec 10) (rest : List Byte), decode (leBytes 2 (2 * 17 + 2 ^ 6 * o.toNat) ++ rest) = .ok (.braS o, rest)) ∧
  (∀ (n : Nat) (rest : List Byte), n < 2 ^ 10 → decode (leBytes 2 (2 * 18 + 2 ^ 6 * n) ++ rest) =
    match ([Instr.nopC, .yieldC, .exitC, .retC][n]?) with | some i => .ok (i, rest) | none => .error (.ill 5)) ∧
  (∀ (k n : Nat) (rest : List Byte), 19 ≤ k → k < 32 → n < 2 ^ 10 → decode (leBytes 2 (2 * k + 2 ^ 6 * n) ++ rest) = .error (.ill 5)) ∧
  (∀ s : State, exec .nopC s = exec .nop32 s ∧ exec .yieldC s = exec .yield s ∧ exec .exitC s = exec .exit s ∧ exec .retC s = exec .ret s) ∧
  ∀ (o : BitVec 10) (s : State), Ready s → ∃ t, exec (.braS o) s = .next t ∧ Moves s t fun _ => actThread s.cur fun u =>
    { u with pc := BitVec.ofInt 64 (s.cur.word.toNat + 2 * o.toInt), spanLeft := 0, wait := .ready, half := none, command := none, resume := none }

/-- R17, R19, R31, R285, R339, R329: a step with an issue group and code at its PC executes the instruction those bytes decode to, and with a
prefix the prefixed instruction in the same step. Before it the group's `next` becomes the address after the bytes; where the instruction
raises the fatal condition, every team ends with it; where it raises an event record for which there is no room, its threads wait before it
instead. A group whose instruction has been issued executes it further as it was issued, and node reads that its threads have left queued go
before what must not precede them. The premises on the agenda and the clock, the hand-over in `follow`, the wait for room, the execution
without another fetch and the queued node reads are the model's (log 1, 2, 3, 30, 49, 51). -/
def Obligations.StepRuns : Prop := ∀ s g : State,
  s.agenda = [] → s.off = false → (s.clock % 2 = 0 ∨ nextEvent (tick s) = none) → nextIssue (tick s) = some g →
  let executes (u : State) (i : Instr) : Prop :=
    let done : Out := match exec i u with
      | .next t => (match t.follow with | none => .next t | some j => exec j { t with follow := none })
      | o => o
    let ended : Out := match done with
      | .next t => if t.fatal = true ∧ u.fatal = false then (match (failDevice t).halt with | none => .next (failDevice t) | some f => .fault f) else .next t
      | o => o
    (readsFirst u i = [] → step s = match ended with
      | .next t => if t.jam then .next (g.tids.foldl (fun g tid => g.modThread g.cur.team tid (·.waitRoom g.here.vf g.clock)) g) else .next t
      | o => o) ∧
    (readsFirst u i ≠ [] → step s = finish ((readsFirst u i).foldl (fun v tid => nodeStep g.cur.team tid v) (tick s))) ∧
    ((∀ tid ∈ g.tids, (g.thread g.cur.team tid).node = none) → readsFirst u i = [])
  let issued := (g.thread g.cur.team (g.tids.headD 0)).resume
  (∀ (bs : List Byte) (i : Instr), issued.bind (·.instr) = none → Code g g.cur.pc bs → decode bs = .ok (i, []) → i.wellFormed →
    executes { g with cur := { g.cur with next := g.cur.pc + BitVec.ofNat 64 bs.length } } i) ∧
  ∀ (r : Resume) (i : Instr), issued = some r → r.instr = some i →
    executes { g with cur := { g.cur with word := r.word, next := r.next, x := r.x, vc := r.vc } } i

/-- R25, R28: bytes that are no instruction, or an instruction whose own fields are illegal, trap ILL in every thread of the group
that no guard suppresses, with the sub-code. A PFX is judged with the word after it. A GRD whose guard never passes traps ILL 0x09 in every
thread of the group, for no span suppresses a GRD. The premises on the agenda and the clock, and that no instruction is being executed
further, are the model's (log 1, 2, 49). -/
def Obligations.IllegalInstructionTraps : Prop := ∀ (s g : State) (bs : List Byte) (code : Nat),
  s.agenda = [] → s.off = false → (s.clock % 2 = 0 ∨ nextEvent (tick s) = none) → nextIssue (tick s) = some g →
  (g.thread g.cur.team (g.tids.headD 0)).resume.bind (·.instr) = none → Code g g.cur.pc bs → Ready g → g.jam = false →
  let u := { g with cur := { g.cur with next := g.cur.pc + BitVec.ofNat 64 bs.length } }
  ((decode bs = .error (.ill code) ∨ ∃ i, decode bs = .ok (i, []) ∧ staticFault i = some code ∧ (∀ p n c x, i ≠ .pfx p n c x) ∧ ∀ p n x, i ≠ .grd p n x) →
    CanTrap g → ∃ t, step s = .next t ∧ Moves u t fun _ => actThread u.cur (trapAt u 1 code 0)) ∧
  ∀ n : BitVec 4, decode bs = .ok (.grd 0 1 n, []) → g.here.desc.handler ≠ 0 → (∀ tid ∈ g.tids, (g.thread g.cur.team tid).handler = false) →
    ∃ t, step s = .next t ∧ Moves u t fun _ => trapAt u 1 9 0

/-- R31, R32: PFX fetches the word after it and hands it on with the prefix's guard, vc and x, a guard that never passes too; a pair that
the rules forbid, or a word after it that is no instruction, traps ILL at the prefix, of a 16-bit word with sub-code 0x06 at most. The
hand-over in `follow` is the model's (log 3); that the prefix's guard suppresses the trap of the pair, and that a guard that never passes
leaves it to the pair's other sub-code, is the model's reading (log 15, DEDUCED). -/
def Obligations.PrefixedInstruction : Prop := ∀ (p : BitVec 5) (n : BitVec 1) (v : BitVec 7) (x : BitVec 12) (s : State) (bs : List Byte),
  s.halt = none → Code s s.cur.next bs →
  let cur := { s.cur with word := s.cur.next, next := s.cur.next + BitVec.ofNat 64 bs.length, x := x, vc := v }
  (∀ i, decode bs = .ok (i, []) → prefixedFault v x i = none → exec (.pfx p n v x) s =
    .next { s with cur := { cur with guard := if p = 0 ∧ n = 0 then none else some (p, n) }, follow := some i }) ∧
  ∀ code, (∃ i, decode bs = .ok (i, []) ∧ prefixedFault v x i = some code) ∨
      (∃ c, decode bs = .error (.ill c) ∧ code = if bs.length = 2 then min c 6 else c) →
    let u := { s with cur := { cur with guard := if p = 0 then none else some (p, n) } }
    Ready u → CanTrap u → ∃ t, exec (.pfx p n v x) s = .next t ∧ Moves u t fun _ => actThread u.cur (trapAt u 1 code 0)

/-- R33, R25, R31, R150: an instruction that names a register its thread does not have traps ILL 0x08 in that thread alone: for each INTA
instruction and its short form with what the other threads do, for every instruction and every register that its form names for one thread,
which for a relational arrival is the only live one of its team. A tile or drain slot that the team lacks is the same trap. Under a guard that never passes an INTA
instruction or short form traps ILL 0x09 in the threads that have the registers, and where a span suppresses it does nothing: that 0x08
comes before 0x09 there is the model's reading (log 15, DEDUCED). -/
def Obligations.MissingRegisterTraps : Prop :=
  (∀ (i : Instr) (r : Rule Int) (s : State), inta i = some r → Ready s → CanTrap s →
    ∃ t, exec i s = .next t ∧ Moves s t fun tid => actThread s.cur fun u =>
      if r.regs.all (· < s.here.countOf tid) then (u.setReg r.dest (BitVec.ofInt 32 (r.value u))).done s.cur.next else trapAt s 1 8 0 u) ∧
  (∀ (i : Instr) (r : Rule Int) (s : State), inta i = some r → s.here.phase ≠ .ended → s.halt = none → s.cur.guard = some (0, 1) → s.here.desc.handler ≠ 0 →
    (∀ tid ∈ s.tids, (s.thread s.cur.team tid).handler = false) →
    ∃ t, exec i s = .next t ∧ Moves s t fun tid u =>
      if u.spanLeft ≠ 0 ∧ u.spanPass = false then u.done s.cur.next
      else trapAt s 1 (if r.regs.all (· < s.here.countOf tid) then 9 else 8) 0 u) ∧
  (∀ (i : Instr) (s : State) (tid : Nat), i.wellFormed → Solo s tid [] → CanTrap s → (∃ r ∈ named s.cur i, s.here.countOf tid ≤ r) →
    ((arriving s tid i).isSome → Alone s tid []) → (∀ d a b, i = .fork d a b → ∀ r ∈ s.here.reasons, r.isFork = false) →
    ∃ t, exec i s = .next t ∧ Acts t s tid s.here (trapAt s 1 8 0)) ∧
  ∀ (s : State) (tid : Nat), Solo s tid [] → CanTrap s →
    (∀ d a b : Reg, s.here.desc.acctiles ≤ b.toNat → ∀ i ∈ [Instr.accrd d a b, .accwr d a b, .mzero b], ∃ t, exec i s = .next t ∧ Acts t s tid s.here (trapAt s 1 8 0)) ∧
    ∀ (i : Instr) (tiles : List Nat) (dp : Nat) (need : Bool), matrix i = some (tiles, dp, need) →
      (∃ c ∈ tiles, s.here.desc.acctiles ≤ c) ∨ s.here.desc.nd < dp ∨ need = true ∧ dp = 0 → ∃ t, exec i s = .next t ∧ Acts t s tid s.here (trapAt s 1 8 0)

-- Lane instructions (spec/07)

/-- R22, R160, R162 to R164, R166, R167, R26: each thread that passes its guards writes the low 32 bits of the exact result into vd,
and completes; nothing else in the package changes. -/
def Obligations.IntegerResults : Prop := ∀ (i : Instr) (r : Rule Int) (s : State), inta i = some r ∨ intb s.cur i = some r ∨ immediate i = some r →
  Ready s → Has s r.regs →
  ∃ t, exec i s = .next t ∧ Moves s t fun _ => stepThread s.cur fun u => u.setReg r.dest (BitVec.ofInt 32 (r.value u))

/-- R163, R167: the forms that write a pair, low word first. -/
def Obligations.PairResults : Prop := ∀ (i : Instr) (r : Rule Int) (s : State), pairs s.cur i = some r → Ready s → Has s r.regs →
  ∃ t, exec i s = .next t ∧ Moves s t fun _ => stepThread s.cur fun u => u.setPair r.dest (BitVec.ofInt 64 (r.value u))

/-- R162, R163, R165 to R167, R169, R175, R26: the instructions that move bits, bit by bit. -/
def Obligations.BitwiseResults : Prop := ∀ (i : Instr) (r : Rule (Nat → Bool)) (s : State), bitwise s.cur i = some r → Ready s → Has s r.regs →
  ∃ t, exec i s = .next t ∧ Moves s t fun _ => stepThread s.cur fun u => u.setReg r.dest (fromBits (r.value u) 32)

/-- R168, R169, R179: what comparisons and PRED write into pd; a write to p0 is ignored (R33). VTOP changes only the predicates
that its mask names, never p0. -/
def Obligations.PredicateResults : Prop :=
  (∀ (i : Instr) (r : Rule Bool) (s : State), predicate i = some r → Ready s → Has s r.regs →
    ∃ t, exec i s = .next t ∧ Moves s t fun _ => stepThread s.cur fun u =>
      if r.dest = 0 then u
      else { u with preds := fromBits (fun n => if n = r.dest then r.value u else u.preds.getLsbD n) 32 }) ∧
  ∀ (a b : Reg) (s : State), Ready s → Has s [a.toNat, b.toNat] →
    ∃ t, exec (.vtop a b) s = .next t ∧ Moves s t fun _ => stepThread s.cur fun u =>
      { u with preds := fromBits (fun n => if n ≠ 0 ∧ (u.reg b.toNat).getLsbD n then (u.reg a.toNat).getLsbD n else u.preds.getLsbD n) 32 }

/-- R170 whole: SEL has major 0x0E and format S, takes va where p_q is set and vb elsewhere, q = 0 always va, and a prefix may give
it a guard and nothing else. -/
def Obligations.SelResults : Prop :=
  (∀ (d a b : Reg) (q : BitVec 4) (s : State), Ready s → Has s [d.toNat, a.toNat, b.toNat] →
    ∃ t, exec (.sel d a b q) s = .next t ∧ Moves s t fun _ => stepThread s.cur fun u =>
      u.setReg d.toNat (if q = 0 ∨ u.preds.getLsbD q.toNat then u.reg a.toNat else u.reg b.toNat)) ∧
  (∀ (d a b : Reg) (q : BitVec 4) (rest : List Byte),
    decode (leBytes 4 (1 + 2 * 0x0E + 2 ^ 7 * d.toNat + 2 ^ 14 * a.toNat + 2 ^ 21 * b.toNat + 2 ^ 28 * q.toNat) ++ rest) = .ok (.sel d a b q, rest)) ∧
  ∀ (d a b : Reg) (q : BitVec 4) (c : BitVec 7) (x : BitVec 12), prefixedFault c x (.sel d a b q) = none ↔ c = 0 ∧ x = 0

/-- R161, R171: VOTE over the member set. -/
def Obligations.VoteResults : Prop :=
  (∀ (i : Instr) (r : Rule Bool) (s : State), voteBit s i = some r → Ready s →
    ∃ t, exec i s = .next t ∧ Moves s t fun _ => stepThread s.cur fun u => u.setPred r.dest (r.value u)) ∧
  ∀ (i : Instr) (s : State), Ready s → (∀ (l : Nat) (r : Rule Word), across s l i = some r → Has s r.regs) → (across s 0 i).isSome →
    ∃ t, exec i s = .next t ∧ Moves s t fun tid => stepThread s.cur fun u =>
      match across s (tid % 32) i with
      | some r => u.setReg r.dest (r.value u)
      | none => u

-- Floating point (spec/03, spec/07)

/-- R174 to R176, R178, R26: the FP32 forms, and the FP64 forms on pairs, round the exact result once, under the prefix's rounding
or `$mode.rnd`. R52, R53, R176: what rounding gives for every number, infinity and NaN in .f16, .bf16, .f32 and .f64, what the minimum and
maximum forms pick, and the exact sum and product of finite values with the sign of a zero. That the payload a NaN hands on is its fraction
below the quiet bit, whatever its width, is the model's reading (log 26, DEDUCED). -/
def Obligations.FloatResults : Prop :=
  (∀ (i : Instr) (d a b : Reg) (o : Exact) (s : State), scalar i = some (d, a, b, o) → Ready s →
    Has s [d.toNat, a.toNat, b.toNat, (third s.cur d).toNat] →
    ∃ t, exec i s = .next t ∧ Moves s t fun _ => stepThread s.cur fun u => u.setReg d.toNat (BitVec.ofNat 32
      (o.pattern f32 (rounds s.cur s.here.mode) (s.here.mode.getLsbD 3) (u.reg a.toNat).toNat (u.reg b.toNat).toNat (u.reg (third s.cur d).toNat).toNat))) ∧
  (∀ (i : Instr) (d a b : Reg) (o : Exact) (s : State), double i = some (d, a, b, o) → Ready s →
    Has s (two d ++ two a ++ two b ++ two (third s.cur d)) →
    ∃ t, exec i s = .next t ∧ Moves s t fun _ => stepThread s.cur fun u => u.setPair d.toNat (BitVec.ofNat 64
      (o.pattern f64 (rounds s.cur s.here.mode) (s.here.mode.getLsbD 3) (u.pair a.toNat).toNat (u.pair b.toNat).toNat (u.pair (third s.cur d).toNat).toNat))) ∧
  (∀ f ∈ [f16, bf16, f32, f64], ∀ (md : Rnd) (nanp : Bool),
    (∀ neg m e, Rounded f md neg m e (f.round md false nanp (.num neg m e))) ∧
    (∀ neg, f.round md false nanp (.inf neg) = f.sign neg + f.infBits) ∧
    (∀ src : Option NanSrc, (∀ n, src = some n → n.frac < 2 ^ n.w) → f.round md false nanp (.nan src) = nanPattern f nanp src) ∧
    ∀ (isMax number : Bool) (x y : Nat), x < 2 ^ (1 + f.eb + f.mb) → y < 2 ^ (1 + f.eb + f.mb) → f.minmax nanp isMax number x y = extreme f nanp isMax number x y) ∧
  ∀ (md : Rnd) (a b : Bool) (m n : Nat) (e g : Int),
    let v := valAdd md (.num a m e) (.num b n g)
    let sum := sumOf a m e b n g
    (sum ≠ 0 → valEq v (.num (decide (sum < 0)) sum.natAbs (min e g)) = true ∧ v.isNeg = decide (sum < 0)) ∧
    (sum = 0 → v.isZero = true ∧ v.isNeg = if a = b then a else decide (md = .rd)) ∧
    valMul (.num a m e) (.num b n g) = .num (a != b) (m * n) (e + g) ∧
    valAdd md (.inf a) (.inf b) = (if a = b then .inf a else .nan none) ∧ valMul (.inf a) (.num b n g) = (if n = 0 then .nan none else .inf (a != b))

/-- R177: the packed forms work on each half alone; HPK and BPK convert both sources; HTOF and BTOF widen every pattern exactly. -/
def Obligations.PackedResults : Prop :=
  (∀ (i : Instr) (d a b : Reg) (f : Flt) (o : Exact) (s : State), packed i = some (d, a, b, f, o) → Ready s →
    Has s [d.toNat, a.toNat, b.toNat, (third s.cur d).toNat] →
    ∃ t, exec i s = .next t ∧ Moves s t fun _ => stepThread s.cur fun u =>
      let h (n : Nat) := o.pattern f (rounds s.cur s.here.mode) (s.here.mode.getLsbD 3)
        (halfOf (u.reg a.toNat) n) (halfOf (u.reg b.toNat) n) (halfOf (u.reg (third s.cur d).toNat) n)
      u.setReg d.toNat (BitVec.ofNat 32 (h 0 + 2 ^ 16 * h 1))) ∧
  (∀ (i : Instr) (d a b : Reg) (f : Flt) (s : State), packs i = some (d, a, b, f) → Ready s → Has s [d.toNat, a.toNat, b.toNat] →
    ∃ t, exec i s = .next t ∧ Moves s t fun _ => stepThread s.cur fun u =>
      let cv (x : Word) := f.round (rounds s.cur s.here.mode) (s.here.mode.getLsbD 2) (s.here.mode.getLsbD 3) (f32.decode x.toNat)
      u.setReg d.toNat (BitVec.ofNat 32 (cv (u.reg a.toNat) + 2 ^ 16 * cv (u.reg b.toNat)))) ∧
  ∀ (i : Instr) (d a : Reg) (n : Nat) (f : Flt) (s : State), widens i = some (d, a, n, f) → Ready s → Has s [d.toNat, a.toNat] →
    ∃ w : Nat → Nat, (∀ x < 2 ^ 16, w x < 2 ^ 32 ∧ match f.decode x with
      | .nan _ => w x = x / 2 ^ 15 * 2 ^ 31 + 255 * 2 ^ 23 + x % 2 ^ f.mb * 2 ^ (23 - f.mb)
      | v => valEq (f32.decode (w x)) v ∧ (f32.decode (w x)).isNeg = v.isNeg) ∧
    ∃ t, exec i s = .next t ∧ Moves s t fun _ => stepThread s.cur fun u => u.setReg d.toNat (BitVec.ofNat 32 (w (halfOf (u.reg a.toNat) n)))

/-- R54 to R56: FCVT by the table of R55; a code of 64 bits takes a pair. -/
def Obligations.FcvtResults : Prop := ∀ (d a : Reg) (w r : BitVec 5) (z : BitVec 1) (s : State), (Instr.fcvt d a w r z).wellFormed → Ready s →
  Has s ((if fmtWidth w.toNat = 64 then two d else [d.toNat]) ++ (if fmtWidth r.toNat = 64 then two a else [a.toNat])) →
  ∃ t, exec (.fcvt d a w r z) s = .next t ∧ Moves s t fun _ => stepThread s.cur fun u =>
    let x := if fmtWidth r.toNat = 64 then (u.pair a.toNat).toNat else (u.reg a.toNat).toNat
    let y := converted (rounds s.cur s.here.mode) (z == 1 || s.here.mode.getLsbD 2) (s.here.mode.getLsbD 3) w.toNat
      ((fmtOf r.toNat).decode (x % 2 ^ fmtWidth r.toNat))
    if fmtWidth w.toNat = 64 then u.setPair d.toNat (BitVec.ofInt 64 y) else u.setReg d.toNat (BitVec.ofInt 32 y)

/-- R180, R57, R53: the special functions complete and give the results that R57 tables for its special operands; a NaN gives a
NaN; RCP, RSQ and SQRT round the exact result once to nearest even for every finite operand, EX2 of an integer and LG2 of a power of two are
exact, as RNDN, RNDZ, RNDD and RNDU are on every finite operand. FCLASS writes the one bit of its class. -/
def Obligations.SpecialResults : Prop :=
  (∀ (i : Instr) (l : Limits) (s : State), limits i = some l → Ready s → Has s [l.d.toNat, l.a.toNat] →
    ∃ f : Word → Word,
      f 0xFF800000 = l.negInf ∧ f 0x80000000 = l.negZero ∧ f 0 = l.posZero ∧ f 0x7F800000 = l.posInf ∧
      (∀ v, l.below = some v → ∀ x : Word, 0x80000000 < x.toNat → x.toNat < 0xFF800000 → f x = v) ∧
      (∀ x : Word, (f32.decode x.toNat).isNan → f x = if s.here.mode.getLsbD 3 then x ||| 0x400000 else qnan) ∧
      (∀ md, toIntegral i = some md → ∀ (x : Word) (neg : Bool) (m : Nat) (e : Int), f32.decode x.toNat = .num neg m e →
        valEq (f32.decode (f x).toNat) (Val.ofInt (integral md neg m e)) ∧ (f x).getLsbD 31 = neg) ∧
      (∀ (x : Word) (neg : Bool) (m : Nat) (e : Int) (order : Nat → Int → Val × Val), f32.decode x.toNat = .num neg m e → m ≠ 0 → neg = false ∨ l.below = none →
        exactOrder m e i = some order → NearestEven f32 order neg (f x).toNat) ∧
      (∀ (x : Word) (n : Int), -149 ≤ n → n ≤ 127 → ((∃ d a, i = .ex2 d a) → valEq (f32.decode x.toNat) (Val.ofInt n) = true →
          valEq (f32.decode (f x).toNat) (.num false 1 n) = true) ∧
        ((∃ d a, i = .lg2 d a) → valEq (f32.decode x.toNat) (.num false 1 n) = true →
          valEq (f32.decode (f x).toNat) (Val.ofInt n) = true ∧ (f x).getLsbD 31 = decide (n < 0))) ∧
      ∃ t, exec i s = .next t ∧ Moves s t fun _ => stepThread s.cur fun u => u.setReg l.d.toNat (f (u.reg l.a.toNat))) ∧
  ∀ (d a : Reg) (s : State), Ready s → Has s [d.toNat, a.toNat] →
    ∃ t, exec (.fclass d a) s = .next t ∧ Moves s t fun _ => stepThread s.cur fun u =>
      u.setReg d.toNat (fromBits (fun n => n == classOf (u.reg a.toNat)) 32)

-- Control flow, system registers, traps of the group's own (spec/02, spec/13, spec/14)

/-- R17, R27, R28, R287, R288: a thread that takes a branch goes to its target, with `$lr` for CALL and CALLX; the others go on. -/
def Obligations.BranchResults : Prop := ∀ (i : Instr) (b : Branch) (s : State), branch s.cur i = some b → Ready s → Has s b.regs →
  ∃ t, exec i s = .next t ∧ Moves s t fun _ => actThread s.cur fun u => if b.taken u then b.go s.cur u else u.done s.cur.next

/-- R28, R149, R196, R243, R288, R290, R291, R27: the instructions that read or write their own thread's other state. -/
def Obligations.ThreadResults : Prop := ∀ s : State, Ready s →
  (∃ t, exec .nop32 s = .next t ∧ Moves s t fun _ => stepThread s.cur id) ∧
  (∃ t, exec .nopC s = .next t ∧ Moves s t fun _ => stepThread s.cur id) ∧
  (∃ t, exec .trclr s = .next t ∧ Moves s t fun _ => stepThread s.cur fun u => { u with trail := [], steps := 0 }) ∧
  (∀ d : BitVec 7, ∃ t, exec (.rcvset d) s = .next t ∧ Moves s t fun _ => stepThread s.cur fun u =>
    { u with rcvs := Vector.ofFn fun i => if i.val = d.toNat % 16 then mask s (fun _ => true) else u.rcvs[i] }) ∧
  (∀ (p : BitVec 5) (g : BitVec 1) (n : BitVec 4), ∃ t, exec (.grd p g n) s = .next t ∧ Moves s t fun _ u =>
    { u with pc := s.cur.next, wait := .ready, half := none, command := none, resume := none, spanPass := u.pred p.toNat != g.getLsbD 0, spanLeft := n.toNat + 1 }) ∧
  (∀ d : Reg, Has s (two d) → ∃ t, exec (.clk d) s = .next t ∧ Moves s t fun _ => stepThread s.cur fun u => u.setPair d.toNat (BitVec.ofNat 64 s.clock)) ∧
  (∀ d : Reg, Has s [d.toNat] → ∃ t, exec (.rqry d) s = .next t ∧ Moves s t fun _ => stepThread s.cur fun u =>
    u.setReg d.toNat (BitVec.ofNat 32 ((s.here.laneset s.cur.laneset).count + 2 ^ 16 * s.here.account))) ∧
  ∀ d a : Reg, Has s (two d ++ [a.toNat]) → ∃ t, exec (.rbtot d a) s = .next t ∧ Moves s t fun _ => stepThread s.cur fun u =>
    (u.setReg d.toNat (owner s u (u.reg a.toNat).toNat).1).setReg (d.toNat + 1) (owner s u (u.reg a.toNat).toNat).2

/-- R35, R317: SYSR reads every assigned register, two registers for a pair; SYSW writes `$lr`, in handler mode the trap frame,
and, by one thread alone, the fields of `$mode`. Any other number, and a trap-frame register outside handler mode, is ILL 0x0A. What
`$span` holds as its pass with no span is the model's (log 14). -/
def Obligations.SystemRegisterResults : Prop := ∀ (s : State) (n : BitVec 11), Ready s →
  (∀ d : Reg, (system s 0 n.toNat).isSome → Has s (if pairSys n.toNat then two d else [d.toNat]) →
    ∃ t, exec (.sysr d n) s = .next t ∧ Moves s t fun tid => stepThread s.cur fun u =>
      match system s tid n.toNat with
      | some (2, v) => u.setPair d.toNat (BitVec.ofNat 64 v)
      | some (_, v) => u.setReg d.toNat (BitVec.ofNat 32 v)
      | none => u) ∧
  (∀ d : Reg, system s 0 n.toNat = none → Has s [d.toNat] → CanTrap s →
    ∃ t, exec (.sysr d n) s = .next t ∧ Moves s t fun _ => actThread s.cur (trapAt s 1 0xA 0)) ∧
  (∀ a : Reg, n.toNat = 0x12 → Has s (two a) →
    ∃ t, exec (.sysw a n) s = .next t ∧ Moves s t fun _ => stepThread s.cur fun u => { u with lr := u.pair a.toNat }) ∧
  (∀ a : Reg, n.toNat ∈ [0x14, 0x16, 0x18, 0x1A, 0x1B] → Has s (if pairSys n.toNat then two a else [a.toNat]) →
    (∀ tid ∈ s.tids, passes s.cur (s.thread s.cur.team tid) = true → (s.thread s.cur.team tid).handler = true) →
    ∃ t, exec (.sysw a n) s = .next t ∧ Moves s t fun _ => stepThread s.cur fun u =>
      { u with tpc := if n = 0x14 then u.pair a.toNat else u.tpc, tfa := if n = 0x16 then u.pair a.toNat else u.tfa
               tia := if n = 0x18 then u.pair a.toNat else u.tia, tcause := if n = 0x1A then u.reg a.toNat else u.tcause
               tinfo := if n = 0x1B then BitVec.ofNat 32 ((u.reg a.toNat).toNat % 2 ^ infoBits u.tcause.toNat) else u.tinfo }) ∧
  (∀ (a : Reg) (tid : Nat), n.toNat = 0x20 → Solo s tid [a.toNat] →
    ∃ t, exec (.sysw a n) s = .next t ∧ t = { s with teams := t.teams } ∧
      t.here = { s.here with mode := (s.thread s.cur.team tid).reg a.toNat &&& 0xFF0F, threads := t.here.threads } ∧
      Only s t tid (Thread.done · s.cur.next)) ∧
  ∀ a : Reg, n.toNat ≠ 0x12 → n.toNat ≠ 0x20 → Has s (if pairSys n.toNat then two a else [a.toNat]) → CanTrap s →
    ∃ t, exec (.sysw a n) s = .next t ∧ Moves s t fun _ => actThread s.cur (trapAt s 1 0xA 0)

/-- R18, R310, R311, R314: ILL traps at its own address; BRK and TRAP trap after completing, with `$tpc` the address after them.
Each thread that executes enters the handler with its frame; registers, predicates and counters are unchanged.
R312, R313: in handler mode, and where the team has no handler, the trap ends the team instead: its write buffer, threads, copy commands,
tile operations and park records go, memory and the other teams stay, and one record is posted, double-fault with the first cause or
the cause itself. -/
def Obligations.TrapEntry : Prop :=
  (∀ s : State, Ready s → CanTrap s →
    (∃ t, exec .ill s = .next t ∧ Moves s t fun _ => actThread s.cur (trapAt s 1 1 0)) ∧
    (∃ t, exec .brk s = .next t ∧ Moves s t fun _ => actThread s.cur fun u =>
      trapped s.here.desc.handler 0x11 0 0 s.cur.pc (s.cur.word + 4) (u.done s.cur.next)) ∧
    ∀ n : BitVec 7, ∃ t, exec (.trap n) s = .next t ∧ Moves s t fun _ => actThread s.cur fun u =>
      trapped s.here.desc.handler 0x10 n.toNat 0 s.cur.pc (s.cur.word + 4) (u.done s.cur.next)) ∧
  ∀ (s : State) (tid : Nat), Solo s tid [] → s.here.frames = [] →
    let k := s.cur.team
    let u := s.thread k tid
    let e := endTeam s k
    let record (cause info tpc : Nat) := let (c, first, second) := if u.handler then (0x12, u.tcause.toNat % 2 ^ 8, cause) else (cause, 0, 0)
      2 + c * 2 ^ 8 + first * 2 ^ 16 + second * 2 ^ 24 + s.clock % 2 ^ 64 * 2 ^ 192 + s.here.gridId.toNat * 2 ^ 256 + s.here.index % 2 ^ 32 * 2 ^ 288 +
        tid % 2 ^ 32 * 2 ^ 320 + info * 2 ^ 352 + tpc * 2 ^ 384
    (u.handler = true ∨ s.here.desc.handler = 0) →
    (∀ (i : Instr) (cause info tpc : Nat), (i, cause, info, tpc) ∈ [(Instr.ill, 1, 1, s.cur.pc.toNat), (.brk, 0x11, 0, (s.cur.word + 4).toNat)] ∨
        (∃ n : BitVec 7, (i, cause, info, tpc) = (.trap n, 0x10, n.toNat, (s.cur.word + 4).toNat)) → i = .ill ∨ (∀ x ∈ s.here.threads, x.2.half = none) →
      (postEvent e s.here.vf (record cause info tpc)).halt = none → exec i s = .next (postEvent e s.here.vf (record cause info tpc))) ∧
    (e.team k).phase = .ended ∧ (e.team k).w = [] ∧ (e.team k).threads = [] ∧ (e.team k).place = none ∧ (∀ j, j ≠ k → e.team j = s.team j) ∧
    e.copies = s.copies.filter (fun c => c.team ≠ k) ∧ e.mops = s.mops.filter (fun m => m.team ≠ k) ∧
    (∀ p, p ∈ e.parks ↔ p ∈ s.parks ∧ (p.team ≠ k ∨ ∃ ch, p.owner = .chan ch)) ∧
    ((∀ x ∈ s.here.threads, x.2.half = none) → e = { s with
      teams := e.teams, copies := e.copies, mops := e.mops, parks := e.parks, quads := e.quads, cores := e.cores, walks := e.walks, answers := e.answers })

/-- R315: RTT leaves handler mode, with bit 0 of `$tpc` cleared and the saved span restored; outside handler mode it is ILL 0x0D. -/
def Obligations.ReturnFromTrap : Prop := ∀ s : State, Ready s →
  ((∀ tid ∈ s.tids, passes s.cur (s.thread s.cur.team tid) = true → (s.thread s.cur.team tid).handler = true) →
    ∃ t, exec .rtt s = .next t ∧ Moves s t fun _ => actThread s.cur fun u =>
      { u with pc := BitVec.ofNat 64 (2 * (u.tpc.toNat / 2)), spanPass := u.savedPass, spanLeft := u.savedLeft, handler := false, wait := .ready }) ∧
  (CanTrap s → ∃ t, exec .rtt s = .next t ∧ Moves s t fun _ => actThread s.cur (trapAt s 1 0xD 0))


-- Memory (spec/04, spec/06, spec/12)

/-- R71: an access whose address has a nonzero bit in [63:52] raises PROT with translation code 0x01, and no translation is
attempted: nothing changes. A thread that executes LD, LDQ, ST, STL or ATOM on such an address takes the trap. -/
def Obligations.NonCanonicalAddress : Prop :=
  (∀ (s : State) (w : Who) (k : Acc) (va n : Nat), 2 ^ 52 ≤ va → translate s w k va n = (.prot (1 + 2 ^ 8 * k.code), s)) ∧
  ∀ (i : Instr) (m : MemoryForm) (s : State) (tid : Nat),
    let u := s.thread s.cur.team tid
    i.wellFormed → memoryForm s.cur u i = some m → Solo s tid m.regs → u.ld < 63 → u.st < 63 → u.half = none →
    (m.kind = .load → rangeFor s s.cur.team m.addr = none) → m.addr % m.size = 0 → 2 ^ 52 ≤ m.addr → CanTrap s →
    ∃ t, exec i s = .next t ∧ Acts t s tid s.here (trapAt s 3 (1 + 2 ^ 8 * m.kind.code) (BitVec.ofNat 64 m.addr))

/-- R79, R81, R82, R99: a translation changes no more than the TLB, the walks and their results, and the counter of open choices; a miss joins
the walk of its page or starts one; a write that may set a dirty bit names the leaf of a TLB entry for its address or of the walk it waited
for, and setting it changes that leaf and its entries alone, the leaf only in a frame that is not sealed.
R155, R158, R256, R262, R263, R83, R296 to R299: LD, LDQ, ST, STL and ATOM trap ALIGN where misaligned, and else trap, wait for the walk, or park on
the fault that the translation gives, with a park record that holds the access; a fault that none is open for is opened, a major one with
its event record. That a thread executes its instruction again after the walk, as it was issued, and takes the result that the walk left for
it is the model's (log 16, DEDUCED; log 49, DESIGN CHOICE). -/
def Obligations.TranslationFrame : Prop :=
  (∀ (s s1 : State) (w : Who) (k : Acc) (va n : Nat) (x : Xlat), translate s w k va n = (x, s1) →
    s1 = { s with tlb := s1.tlb, walks := s1.walks, answers := s1.answers, nextKey := s1.nextKey, freeCount := s1.freeCount } ∧
    (∀ e ∈ s1.tlb, e ∈ s.tlb) ∧ (∀ e ∈ s1.answers, e ∈ s.answers) ∧
    (∀ pa sl leaf, x = .ok pa sl (some leaf) → k.writes = true ∧
      ((∃ e ∈ s.tlb, e.holds w.vmid w.asid va = true ∧ leaf = e.leafAddr) ∨
        ∃ a ∈ s.answers, a.vmid = w.vmid ∧ a.asid = w.asid ∧ ∃ pte fr big wide fills, a.result = .leaf pte leaf fr big wide fills)) ∧
    (va < 2 ^ 52 → answerFor s w va = none → tlbHit s w.vmid w.asid va = none →
      let page (y : Nat × Walk) := y.2.vmid = w.vmid ∧ y.2.asid = w.asid ∧ sameWalk y.2.va va = true
      (∀ j y, s.walks.find? (fun y => decide (page y)) = some (j, y) → x = .walking j ∧ s1 = { s with walks := s1.walks } ∧
        ∃ l, (j, { y with waiters := l }) ∈ s1.walks ∧ (∀ o, o ∈ l ↔ o ∈ y.waiters ∨ w.owner = some o)) ∧
      ((∀ y ∈ s.walks, ¬page y) → x = .walking s.nextKey ∧
        s1 = { s with walks := s.walks ++ [(s.nextKey, ⟨w.vmid, w.asid, va, w.owner.toList⟩)], nextKey := s.nextKey + 1 }))) ∧
  (∀ s : State, setDirty s none = s ∧ ∀ leaf, let t := setDirty s (some leaf)
    (refuses s leaf 8 = false → MemHolds s t leaf (leBytes 8 (s.rdNat leaf 8 ||| 0x400))) ∧ (refuses s leaf 8 = true → t.mem = s.mem) ∧ t = { s with mem := t.mem, icache := t.icache, cores := t.cores, tlb := t.tlb } ∧
    t.tlb = s.tlb.map fun e => if e.leafAddr = leaf then { e with leaf := e.leaf ||| 0x400 } else e) ∧
  (∀ (i : Instr) (m : MemoryForm) (s : State) (tid : Nat),
    let k := s.cur.team
    let u := s.thread k tid
    let addr := BitVec.ofNat 64 m.addr
    i.wellFormed → memoryForm s.cur u i = some m → Solo s tid m.regs → u.ld < 63 → u.st < 63 → u.half = none →
    (m.addr % m.size ≠ 0 → CanTrap s → ∃ t, exec i s = .next t ∧ Acts t s tid s.here (trapAt s 2 0 addr)) ∧
    ∀ x v, m.addr % m.size = 0 → (m.kind = .load → rangeFor s k m.addr = none) → translate s (whoThread s tid) m.kind m.addr m.size = (x, v) →
      (∀ info, x = .prot info → CanTrap s → ∃ t, exec i s = .next t ∧ Acts t v tid s.here (trapAt s 3 info addr)) ∧
      (x = .ecc → CanTrap s → ∃ t, exec i s = .next t ∧ Acts t v tid s.here (trapAt s 6 0 addr)) ∧
      (∀ n, x = .walking n → ∃ t, exec i s = .next t ∧ Acts t v tid s.here fun u =>
        { waits s (.walk n) u with resume := some (asIssued s tid u (some i)) }) ∧
      ∀ f w, (∃ leaf remote, x = .minor leaf remote) ∨ (∃ reason stage, x = .major reason stage) →
        openFault v (whoOf s k) m.addr m.kind.code x = (f, w) → w.halt = none → ∃ t, exec i s = .next t ∧
        Acts t { w with
          nextKey := w.nextKey + 1
          parks := w.parks ++ [⟨w.nextKey, .thread k tid, k, m.addr, m.kind.code, s.clock, s.clock, tid,
            some ⟨i, s.cur.pc, s.cur.word, s.cur.next, 0, s.cur.x, s.cur.vc⟩, .waiting f⟩] } tid s.here fun u =>
          { u with pc := s.cur.pc, wait := .parked, since := s.clock, resume := none, ld := if m.store then u.ld else u.ld + 1, st := if m.store then u.st + 1 else u.st }) ∧
  ∀ (s : State) (w : Who) (va kind : Nat) (x : Xlat),
    let page := va / 2 ^ 16 * 2 ^ 16
    let same (f : FaultRec) := f.vmid = w.vmid ∧ f.asid = w.asid ∧ f.page = page
    (∀ f, s.faults.find? (fun f => decide (same f)) = some f → openFault s w va kind x = (f.id, s)) ∧
    ((∀ f ∈ s.faults, ¬same f ∧ f.id ≠ s.nextKey) →
      (∀ leaf, x = .minor leaf false → openFault s w va kind x = (s.nextKey, { s with
        nextKey := s.nextKey + 1, faults := s.faults ++ [⟨s.nextKey, w.vmid, w.asid, page, w.vf, leaf, kind, none, 0, none, none, none⟩] })) ∧
      ∀ reason stage, x = .major reason stage → eventsFull s w.vf = false →
        let fid := if w.vf = pf then s.pfFid else (s.vf w.vf).nextFid
        let v := if w.vf = pf then { s with pfFid := fid + 1 } else s.setVf w.vf { s.vf w.vf with nextFid := fid + 1 }
        openFault s w va kind x = (s.nextKey, postEvent { v with
            nextKey := s.nextKey + 1
            faults := s.faults ++ [⟨s.nextKey, w.vmid, w.asid, page, w.vf, 0, kind, some (fid, reason), stage, none, none, none⟩] } w.vf
          (1 + reason * 2 ^ 328 + kind * 2 ^ 336 + w.vmid % 2 ^ 12 * 2 ^ 356 + w.asid % 2 ^ 16 * 2 ^ 368 + fid % 2 ^ 64 * 2 ^ 384 + page * 2 ^ 448
            + s.clock % 2 ^ 64 * 2 ^ 192)))

/-- R154, R155, R251, R256, R101: LD reads each byte from the youngest entry of W, else S, else memory, and fills the sector it needed; a live
resident range serves it with no translation. LDQ publishes what overlaps it, reads memory, refreshes S and counts an interval; that its
partial publish carries the LDQ's own scope is the model's reading (log 28). -/
def Obligations.LoadResults : Prop :=
  (∀ (d a : Reg) (z : BitVec 3) (o : BitVec 8) (s : State) (tid : Nat), (Instr.ld d a z o).wellFormed →
    let n := loadBytesOf z
    let u := s.thread s.cur.team tid
    let addr := globalAt u a o n
    Solo s tid (two a ++ spanRegs d n) → AtRest s → u.ld < 63 → addr % n = 0 →
    (∀ s1 pa, rangeFor s s.cur.team addr = none → Reaches s s1 tid .load addr n pa →
      ∃ t, exec (.ld d a z o) s = .next t ∧ t = { s1 with teams := t.teams } ∧
        t.here = { s.here with snap := t.here.snap, threads := t.here.threads } ∧
        (∀ q, Store.get [] t.here.snap q =
          if q = addr / 32 ∧ Store.get [] s.here.snap q = [] ∧ (∃ i < n, inBuffer s.here.w (addr + i) = none) then s1.rd (pa / 32 * 32) 32
          else Store.get [] s.here.snap q) ∧
        Only s t tid fun u => (writeWords d n (loadedValue z (littleEndian ((List.range n).map fun i =>
          viewed s.here s1.byteAt (addr + i) (pa + i)))) u).done s.cur.next) ∧
    ∀ r, rangeFor s s.cur.team addr = some r → (∀ i < n, addr - r.base + i ∉ r.stale ∧ r.moved s (addr + i) = false) →
      ∃ t, exec (.ld d a z o) s = .next t ∧ Acts t s tid s.here fun u =>
        (writeWords d n (loadedValue z (littleEndian ((r.bytes.drop (addr - r.base)).take n))) u).done s.cur.next) ∧
  ∀ (d a : Reg) (z : BitVec 1) (c : BitVec 2) (o : BitVec 8) (s s1 s2 : State) (tid pa : Nat), (Instr.ldq d a z c o).wellFormed →
    let n := if z = 0 then 4 else 8
    let u := s.thread s.cur.team tid
    let addr := globalAt u a o n
    Solo s tid (two a ++ spanRegs d n) → AtRest s → u.ld < 63 → addr % n = 0 → rangeFor s s.cur.team addr = none → Reaches s s1 tid .load addr n pa →
    publishFor s1 s.cur.team c.toNat addr n = s2 → s2.halt = none → s2.outbound = [] →
    ∃ t, exec (.ldq d a z c o) s = .next t ∧ t = { s2 with teams := t.teams } ∧
      t.here = { s2.here with snap := [], interval := (s2.here.interval + 1) % 2 ^ 32, threads := t.here.threads } ∧
      Only s t tid fun u => (writeWords d n (littleEndian (s2.rd pa n)) u).done s.cur.next

/-- R155, R249, R256: ST and a team-scope STL append one entry to W and write no memory; an STL of device or system scope publishes
W, writes its bytes, updates a filled sector of S, leaves its mark for the race detector and counts an interval. That an entry keeps the
physical address to which its store was translated is the model's (log 44, DESIGN CHOICE). -/
def Obligations.StoreResults : Prop :=
  (∀ (d a : Reg) (z : BitVec 3) (o : BitVec 8) (s s1 : State) (tid pa : Nat), (Instr.st d a z o).wellFormed →
    let n := storeBytesOf z
    let u := s.thread s.cur.team tid
    let addr := globalAt u a o n
    Solo s tid (two a ++ spanRegs d n) → u.st < 63 → addr % n = 0 → Reaches s s1 tid .store addr n pa →
    ∃ t, exec (.st d a z o) s = .next t ∧ t = { s1 with teams := t.teams } ∧
      t.here = { s.here with w := s.here.w ++ [⟨addr, pa, storedBytes d n u⟩], threads := t.here.threads } ∧ Only s t tid (Thread.done · s.cur.next)) ∧
  ∀ (d a : Reg) (z : BitVec 1) (c : BitVec 2) (o : BitVec 8) (s s1 : State) (tid pa : Nat), (Instr.stl d a z c o).wellFormed →
    let n := if z = 0 then 4 else 8
    let u := s.thread s.cur.team tid
    let addr := globalAt u a o n
    Solo s tid (two a ++ spanRegs d n) → AtRest s → u.st < 63 → addr % n = 0 → Reaches s s1 tid .store addr n pa →
    (c = 0 → ∃ t, exec (.stl d a z c o) s = .next t ∧ t = { s1 with teams := t.teams } ∧
      t.here = { s.here with w := s.here.w ++ [⟨addr, pa, storedBytes d n u⟩], threads := t.here.threads } ∧ Only s t tid (Thread.done · s.cur.next)) ∧
    ∀ s2, c ≠ 0 → publish s1 s.cur.team c.toNat = s2 → s2.halt = none → inHbm pa →
      ∃ t, exec (.stl d a z c o) s = .next t ∧ t = { s2 with teams := t.teams, mem := t.mem, icache := t.icache, cores := t.cores, shadow := t.shadow } ∧
        MemHolds s2 t pa (storedBytes d n u) ∧
        (∀ q, Store.get none t.shadow q = if q = pa / 32 then some ⟨c.toNat, s2.here.interval, s.cur.team⟩ else Store.get none s2.shadow q) ∧
        t.here = { s2.here with snap := snapUpdate s2.here.snap addr (storedBytes d n u), interval := (s2.here.interval + 1) % 2 ^ 32, threads := t.here.threads } ∧
        Only s t tid (Thread.done · s.cur.next)

/-- R154, R155, R139: LDP reads the pad; a misaligned address traps ALIGN and one outside the pad traps POOL, in that thread. -/
def Obligations.PadLoadResults : Prop := ∀ (d a : Reg) (z : BitVec 3) (o : BitVec 8) (s : State), (Instr.ldp d a z o).wellFormed →
  let n := loadBytesOf z
  Ready s → Has s (a.toNat :: spanRegs d n) → AtRest s →
  (CanTrap s ∨ ∀ tid ∈ s.tids, passes s.cur (s.thread s.cur.team tid) = true →
    padAt (s.thread s.cur.team tid) a o n % n = 0 ∧ padAt (s.thread s.cur.team tid) a o n + n ≤ s.here.padSize) →
  ∃ t, exec (.ldp d a z o) s = .next t ∧ Moves s t fun _ => actThread s.cur fun u =>
    let addr := padAt u a o n
    if addr % n ≠ 0 then trapAt s 2 0 (BitVec.ofNat 64 addr) u
    else if s.here.padSize < addr + n then trapAt s 0xD 0 (BitVec.ofNat 64 addr) u
    else (writeWords d n (loadedValue z (littleEndian (Store.getN 0 s.here.pad addr n))) u).done s.cur.next

/-- R155, R258, R262, R263, R122: STP and ATOMP write their bytes of the pad and no others, noted as not yet operand-visible; a
thread waiting in WAITA on a word they touch looks at it. ATOMP returns the old value and with acquire refreshes S. -/
def Obligations.PadStoreResults : Prop :=
  (∀ (d a : Reg) (z : BitVec 3) (o : BitVec 8) (s : State) (tid : Nat), (Instr.stp d a z o).wellFormed →
    let n := storeBytesOf z
    let u := s.thread s.cur.team tid
    let addr := padAt u a o n
    Solo s tid (a.toNat :: spanRegs d n) → AtRest s → addr % n = 0 → addr + n ≤ s.here.padSize →
    ∃ t, exec (.stp d a z o) s = .next t ∧ PadStep s t tid addr (storedBytes d n u) s.here (looks · addr n) (Thread.done · s.cur.next)) ∧
  ∀ (d a b : Reg) (f : BitVec 4) (s : State) (tid : Nat), f.toNat < 13 →
    let u := s.thread s.cur.team tid
    let addr := (u.reg a.toNat).toNat
    let old := littleEndian (Store.getN 0 s.here.pad addr 4)
    let new := atomic f.toNat old (u.reg b.toNat).toNat (u.reg (third s.cur d).toNat).toNat
    Solo s tid ([d.toNat, a.toNat, b.toNat, (third s.cur d).toNat]) → AtRest s → addr % 4 = 0 → addr + 4 ≤ s.here.padSize →
    ∃ t, exec (.atomp d a b f) s = .next t ∧ PadStep s t tid addr (leBytes 4 new)
      (if acquires s.cur then { s.here with snap := [], interval := (s.here.interval + 1) % 2 ^ 32 } else s.here) (looks · addr 4)
      fun u => (if noReturn s.cur then u else u.setReg d.toNat (BitVec.ofNat 32 old)).done s.cur.next

/-- R262, R263, R70, R355, R300: an ATOM of one thread publishes (release) or partly publishes W, replaces its bytes of HBM by the
operation's value and returns the old one; acquire refreshes S. A packed form does its low half, then, on the next
execution, its high half at the same address (the split in two executions, the second without another fetch, is the model's, log 4, 49). That the partial publish carries the
ATOM's scope is the model's reading (log 28). -/
def Obligations.AtomicResults : Prop := ∀ (d a b : Reg) (f : BitVec 4) (s : State) (tid : Nat), (Instr.atom d a b f).wellFormed →
  let n := atomicBytes f.toNat
  let u := s.thread s.cur.team tid
  let addr := (u.pair a.toNat).toNat
  let num (r : Reg) := littleEndian (storedBytes r n u)
  let marked (v t : State) (base : Nat) := t = { v with teams := t.teams, mem := t.mem, icache := t.icache, cores := t.cores, shadow := t.shadow } ∧
    ∀ q, Store.get none t.shadow q = if q = base / 32 then some ⟨scopeOf s.cur, v.here.interval, s.cur.team⟩ else Store.get none v.shadow q
  let ended (v t : State) (base : Nat) (bs : List Byte) := t.here = { v.here with
      snap := if acquires s.cur then [] else snapUpdate v.here.snap base bs
      interval := if acquires s.cur ∨ releases s.cur ∧ 0 < scopeOf s.cur then (v.here.interval + 1) % 2 ^ 32 else v.here.interval
      threads := t.here.threads }
  Solo s tid (two a ++ spanRegs b n ++ spanRegs d n ++ spanRegs (third s.cur d) n) → AtRest s →
  (∀ s1 s2 pa, u.half = none → u.ld < 63 → u.st < 63 → addr % n = 0 → Reaches s s1 tid .atomic addr n pa → inHbm pa →
    publishFor (if releases s.cur then publish s1 s.cur.team (scopeOf s.cur) else s1) s.cur.team (scopeOf s.cur) addr n = s2 → s2.halt = none → s2.outbound = [] →
    (f.toNat ≠ 11 → f.toNat ≠ 12 →
      let old := s2.rdNat pa n
      let new := leBytes n (atomic f.toNat old (num b) (num (third s.cur d)))
      ∃ t, exec (.atom d a b f) s = .next t ∧ marked s2 t pa ∧ MemHolds s2 t pa new ∧ ended s2 t addr new ∧
        Only s t tid fun u => (if noReturn s.cur then u else writeWords d n old u).done s.cur.next) ∧
    (f.toNat = 11 ∨ f.toNat = 12 →
      let new := leBytes 2 (atomic f.toNat (s2.rdNat pa 4) (num b) 0)
      ∃ t, exec (.atom d a b f) s = .next t ∧ marked s2 t pa ∧ MemHolds s2 t pa new ∧
        t.here = { s2.here with snap := snapUpdate s2.here.snap addr new, threads := t.here.threads } ∧
        Only s t tid fun u =>
          let r := asIssued s tid u (some (.atom d a b f))
          { u with half := some ⟨pa, addr, s2.rdNat pa 2, f.toNat, num b / 2 ^ 16, scopeOf s.cur, r.group⟩, pc := s.cur.pc, wait := .ready, resume := some r })) ∧
  ∀ h : Half, u.half = some h → f.toNat = 11 ∨ f.toNat = 12 → inHbm h.pa → h.pa % 4 = 0 → h.pa / 2 ^ 16 ∉ s.sealMap →
    let old := s.rdNat (h.pa + 2) 2
    let new := leBytes 2 (atomic f.toNat (2 ^ 16 * old) (2 ^ 16 * h.high) 0 / 2 ^ 16)
    ∃ t, exec (.atom d a b f) s = .next t ∧ marked s t h.pa ∧ MemHolds s t (h.pa + 2) new ∧ ended s t (addr + 2) new ∧
      Only s t tid fun u => (if noReturn s.cur then u else writeWords d 4 (h.low + 2 ^ 16 * old) u).done s.cur.next

/-- R253, R265, R99: a publish of a team's W to HBM empties W, and each address then holds the byte of the youngest entry that covers it,
every other byte of memory as it was; the sectors written carry the writer's mark. Team scope publishes nothing. Each entry is
written at the physical address noted at its store, which is the model's (log 44, DESIGN CHOICE). -/
def Obligations.PublishResults : Prop :=
  (∀ (s : State) (k : Nat), publish s k 0 = s) ∧
  ∀ (s : State) (k scope : Nat), 0 < scope → AtRest s → s.halt = none → raceMode s (s.team k).vmid (s.team k).asid = 0 →
    let w := (s.team k).w
    let record := s.vmtbase.toNat + 64 * (s.team k).vmid + 8
    let space := vmidRec s (s.team k).vmid 8 + 32 * (s.team k).asid
    let t := publish s k scope
    (∀ e ∈ w, 0 < e.bytes.length ∧ e.pa + e.bytes.length ≤ 2 ^ 39 ∧ (e.pa + e.bytes.length ≤ record ∨ record + 8 ≤ e.pa) ∧
      (e.pa + e.bytes.length ≤ space ∨ space + 8 ≤ e.pa) ∧ e.pa / 2 ^ 16 ∉ s.sealMap ∧ (e.pa + e.bytes.length - 1) / 2 ^ 16 ∉ s.sealMap) →
    t = { s with teams := t.teams, mem := t.mem, icache := t.icache, cores := t.cores, shadow := t.shadow } ∧
    t.team k = { s.team k with w := [], snap := (t.team k).snap } ∧ (∀ j, j ≠ k → t.team j = s.team j) ∧
    (∀ x, t.byteAt x = (w.reverse.findSome? fun e => if e.pa ≤ x then e.bytes[x - e.pa]? else none).getD (s.byteAt x)) ∧
    (∀ c, t.core c = w.foldl (fun x e => x.wrote e.pa e.bytes.length) (s.core c)) ∧
    ((∀ e ∈ s.grids, e.2 = none) → t.icache = s.icache) ∧
    ∀ q, Store.get none t.shadow q =
      if ∃ e ∈ w, e.pa < 32 * q + 32 ∧ 32 * q < e.pa + e.bytes.length then some ⟨scope, (s.team k).interval, k⟩ else Store.get none s.shadow q

/-- R257, R258, R253, R254, R265, R159: PHASE publishes at its scope and refreshes S; FENCE.ENG publishes at device scope; each
publish or refresh event counts an interval. FENCE.OP makes the thread's pad stores operand-visible, and with them the older ones of their
bytes. PREF starts at most a walk. -/
def Obligations.OrderingResults : Prop := ∀ (s : State) (tid : Nat), Solo s tid [] →
  (∀ (i : Instr) (scope : Nat) (u : State), (i, scope) ∈ [(Instr.phaseTeam, 0), (.phaseDev, 1), (.phaseSys, 2)] → publish s s.cur.team scope = u → u.halt = none →
    ∃ t, exec i s = .next t ∧ Acts t u tid { u.here with snap := [], interval := (u.here.interval + 1) % 2 ^ 32 } (Thread.done · s.cur.next)) ∧
  (∀ u, publish s s.cur.team 1 = u → u.halt = none → ∃ t, exec .fenceEng s = .next t ∧
    Acts t u tid { u.here with interval := (u.here.interval + 1) % 2 ^ 32 } (Thread.done · s.cur.next)) ∧
  (∃ t, exec .fenceOp s = .next t ∧ Acts t s tid { s.here with unfenced := afterFence s.here.unfenced tid } (Thread.done · s.cur.next)) ∧
  ∀ a : Reg, (∀ r ∈ two a, r < s.here.countOf tid) →
    let va := ((s.thread s.cur.team tid).pair a.toNat).toNat
    let misses := va < 2 ^ 52 ∧ tlbHit s s.here.vmid s.here.asid va = none ∧
      ∀ y ∈ s.walks, ¬(y.2.vmid = s.here.vmid ∧ y.2.asid = s.here.asid ∧ sameWalk y.2.va va = true)
    ∃ t, exec (.pref a) s = .next t ∧ Acts t { s with
      walks := if misses then s.walks ++ [(s.nextKey, ⟨s.here.vmid, s.here.asid, va, []⟩)] else s.walks
      nextKey := if misses then s.nextKey + 1 else s.nextKey } tid s.here (Thread.done · s.cur.next)

/-- R118, R121: an arrival of k units is k arrivals of one; BINIT, BARR, BTEST and BWAIT read and write the word in the pad. -/
def Obligations.BarrierResults : Prop :=
  (∀ x k : Nat, x < 2 ^ 64 → arrive x k = arrivals x k) ∧
  ∀ (d a b : Reg) (s : State) (tid : Nat),
    let u := s.thread s.cur.team tid
    let addr := (u.reg a.toNat).toNat
    let word := littleEndian (Store.getN 0 s.here.pad addr 8)
    let v := (u.reg b.toNat).toNat
    let n := max 1 (v % 2 ^ 31)
    Solo s tid [d.toNat, a.toNat, b.toNat] → AtRest s → addr % 8 = 0 → addr + 8 ≤ s.here.padSize →
    (∃ t, exec (.binit a b) s = .next t ∧ PadStep s t tid addr (leBytes 8 (n * 2 ^ 32 + n)) s.here (looks · addr 8) (Thread.done · s.cur.next)) ∧
    (v ≠ 0 → ∃ t, exec (.barr d a b) s = .next t ∧ PadStep s t tid addr (leBytes 8 (arrivals word v)) s.here (looks · addr 8)
      fun u => (u.setReg d.toNat (BitVec.ofNat 32 (word / 2 ^ 63))).done s.cur.next) ∧
    (v = 0 → ∃ t, exec (.barr d a b) s = .next t ∧ Acts t s tid s.here fun u => (u.setReg d.toNat (BitVec.ofNat 32 (word / 2 ^ 63))).done s.cur.next) ∧
    (∃ t, exec (.btest d a b) s = .next t ∧ Acts t s tid s.here
      fun u => (u.setReg d.toNat (if word / 2 ^ 63 ≠ v % 2 then 1 else 0)).done s.cur.next) ∧
    (word / 2 ^ 63 ≠ v % 2 → ∃ t, exec (.bwait a b) s = .next t ∧
      Acts t s tid { s.here with snap := [], interval := (s.here.interval + 1) % 2 ^ 32 } (Thread.done · s.cur.next)) ∧
    (word / 2 ^ 63 = v % 2 → ∃ t, exec (.bwait a b) s = .next t ∧ Acts t s tid s.here (waits s (.barrier addr (v % 2 = 1))))

/-- R119, R120, R122, R124, R127, R207, R289: WAITA, WAITC, PFREE and SLEEPC complete where their conditions hold, and wait else; a WAITC
takes the first failure that its fields cover, as a trap at its own instruction. That WAITA observes the completions whose word it reads, and
WAITC with c those of its thread's copies, is the model's reading (log 20, DEDUCED), as is that WAITC with tl notes which operations its
laneset has waited for (log 23, DEDUCED); that WAITA is not fetched again once it waits is the model's (log 49). -/
def Obligations.WaitResults : Prop := ∀ (s : State) (tid : Nat), Solo s tid [] →
  let u := s.thread s.cur.team tid
  let refreshed := { s.here with snap := [], interval := (s.here.interval + 1) % 2 ^ 32 }
  (∀ a b : Reg, (∀ r ∈ [a.toNat, b.toNat], r < s.here.countOf tid) →
    let addr := (u.reg a.toNat).toNat
    let v := (u.reg b.toNat).toNat
    let met := u.wait = .flag addr v true ∨ littleEndian (Store.getN 0 s.here.pad addr 4) = v
    addr % 4 = 0 → addr + 4 ≤ s.here.padSize →
    (u.wait = .flag addr v true ∨ ∀ x, addr ≤ x → x < addr + 4 → copyStores s s.cur.team x = false ∧ drainStores s 0 (padSpot s.cur.team x) = false) →
    (met → ∃ t, exec (.waita a b) s = .next t ∧ Acts t s tid { refreshed with landed := unobserved s.here.landed addr 4 } (Thread.done · s.cur.next)) ∧
    (¬met → ∃ t, exec (.waita a b) s = .next t ∧ Acts t s tid s.here fun u =>
      { waits s (.flag addr v false) u with resume := some (asIssued s tid u (some (.waita a b))) })) ∧
  (∀ l st c tl : BitVec 4,
    let reached := (l = 15 ∨ u.ld ≤ l.toNat) ∧ (st = 15 ∨ u.st ≤ st.toNat) ∧ (c = 15 ∨ u.cp ≤ c.toNat) ∧ (tl = 15 ∨ u.tl ≤ tl.toNat)
    let covered (f : Failure) := (f.tile = true ∧ tl ≠ 15) ∨ (f.tile = false ∧ c ≠ 15)
    let base := { if c ≠ 15 ∨ tl ≠ 15 then refreshed else s.here with landed := if c ≠ 15 then s.here.landed.filter fun l => l.team ≠ s.cur.team ∨ l.tid ≠ tid else s.here.landed }
    ((∀ f ∈ u.failures, ¬covered f) → reached → ∃ t, exec (.waitc l st c tl) s = .next t ∧
      Acts t s tid (if tl ≠ 15 then { base with unseen := base.unseen.map (Unseen.waited (tid / 32)) } else base) (Thread.done · s.cur.next)) ∧
    ((∀ f ∈ u.failures, ¬covered f) → ¬reached → ∃ t, exec (.waitc l st c tl) s = .next t ∧
      Acts t s tid s.here (waits s (.counters l.toNat st.toNat c.toNat tl.toNat))) ∧
    ∀ (before after : List Failure) (f : Failure), u.failures = before ++ f :: after → (∀ g ∈ before, ¬covered g) → covered f → CanTrap s →
      ∃ t, exec (.waitc l st c tl) s = .next t ∧ Acts t s tid s.here fun u =>
        trapped s.here.desc.handler f.cause f.info (BitVec.ofNat 64 f.tfa) (BitVec.ofNat 64 f.tia) s.cur.pc { u with failures := before ++ after }) ∧
  (∀ a : Reg, a.toNat < s.here.countOf tid →
    (u.ld = 0 → ∃ t, exec (.pfree a) s = .next t ∧ Acts t s tid { s.here with bufFree := s.here.bufFree ||| (u.reg a.toNat).truncate 16 } (Thread.done · s.cur.next)) ∧
    (u.ld ≠ 0 → ∃ t, exec (.pfree a) s = .next t ∧ Acts t s tid s.here (waits s (.counters 0 15 15 15))) ∧
    ∃ t, exec (.sleepc a) s = .next t ∧ Acts t s tid s.here fun u =>
      if u.reg a.toNat = 0 then u.done s.cur.next
      else { u with pc := s.cur.pc, next := s.cur.next, since := s.clock, resume := none, wait := .sleep (s.clock + min (u.reg a.toNat).toNat (2 ^ 24)) })

/-- R150, R151: ACCRD, ACCWR and MZERO read and write the elements of a tile that no unfinished operation uses. -/
def Obligations.TileElementResults : Prop := ∀ (d a b : Reg) (s : State) (tid : Nat),
  let u := s.thread s.cur.team tid
  let element := 4096 * b.toNat + (u.reg a.toNat).toNat % 4096
  Solo s tid [d.toNat, a.toNat] → AtRest s → b.toNat < s.here.desc.acctiles →
  (∃ t, exec (.accrd d a b) s = .next t ∧ Acts t s tid s.here fun u => (u.setReg d.toNat (Store.get 0 s.here.tiles element)).done s.cur.next) ∧
  (∃ t, exec (.accwr d a b) s = .next t ∧ Acts t s tid { s.here with tiles := t.here.tiles } (Thread.done · s.cur.next) ∧
    ∀ k, Store.get 0 t.here.tiles k = if k = element then u.reg d.toNat else Store.get 0 s.here.tiles k) ∧
  ∃ t, exec (.mzero b) s = .next t ∧ Acts t s tid { s.here with tiles := t.here.tiles } (Thread.done · s.cur.next) ∧
    ∀ k, Store.get 0 t.here.tiles k = if k / 4096 = b.toNat then 0 else Store.get 0 s.here.tiles k

-- Copy engines, rings, launches (spec/05, spec/13)

/-- R107 to R111, R139, R354: a tile copy that passes its checks puts the command it captured into the copy queue and counts in `cp`, but
for TPREF; the first failing check of R111's order is a trap instead; a full queue or counter makes the thread wait. That completion modes 4
to 15 have no target to check and an index list beyond the pad traps after the image is the model's reading (log 19, DEDUCED), as is that `sb`
is checked of blocked formats only (log 21, DEDUCED). -/
def Obligations.CopyIssueResults : Prop := ∀ (i : Instr) (f : Nat) (d a b : Reg) (s : State) (tid : Nat), copyForm i = some (f, d, a, b) →
  let u := s.thread s.cur.team tid
  let c := command s tid f d a b
  let table := copyTable s.here c b.toNat
  copyCheck s.here c b.toNat = firstFailing table ∧ (Solo s tid ((if f = 6 then [] else [d.toNat]) ++ four a) →
    (f = 6 ∨ u.cp < 63 → copiesOf s s.cur.team < s.here.desc.copyslots →
      (firstFailing table = none → ∃ t clash, exec i s = .next t ∧ (s.copies = [] → s.here.landed = [] → clash = []) ∧
        Acts t { s with copies := s.copies ++ [{ c with clash := clash }], nextKey := s.nextKey + 1 } tid s.here fun u =>
          { u with cp := if f = 6 then u.cp else u.cp + 1 }.done s.cur.next) ∧
      ∀ cause info tfa, firstFailing table = some (cause, info, tfa) → CanTrap s →
        ∃ t, exec i s = .next t ∧ Acts t { s with nextKey := s.nextKey + 1 } tid s.here (trapAt s cause info (BitVec.ofNat 64 tfa))) ∧
    (f = 6 ∨ u.cp < 63 → s.here.desc.copyslots ≤ copiesOf s s.cur.team → ∃ t, exec i s = .next t ∧ Acts t s tid s.here (waits s .copySlot)) ∧
    (f ≠ 6 → 63 ≤ u.cp → ∃ t, exec i s = .next t ∧ Acts t s tid s.here (waits s .limit)))

/-- R130, R273, R81: RAWAIT gives the address of the entry at rp of a ring that is not empty, and waits else; RREL advances rp; RPUSH
stores an entry of pad bytes at wp and then advances wp, or writes 0 where the ring is full. A leaf's dirty bit is set once the ring is
found to be one. That RAWAIT publishes what overlaps wp alone, and refreshes S where it completes, is the model's reading (log 28, DEDUCED). -/
def Obligations.RingResults : Prop := ∀ (d a b : Reg) (s : State) (tid pa : Nat),
  let u := s.thread s.cur.team tid
  let hdr := (u.pair a.toNat).toNat
  let counted (v : State) : Team := { v.here with interval := (v.here.interval + 1) % 2 ^ 32 }
  Solo s tid (two d ++ two a ++ [b.toNat]) → AtRest s → hdr % 64 = 0 → mapped (pa + 63) = true →
  (∀ s1 s2, u.ld < 63 → Reaches s s1 tid .load hdr 64 pa → (ringAt s1 pa).okHdr = true → publishFor s1 s.cur.team (scopeAt pa) (hdr + 12) 4 = s2 →
    s2.halt = none → s2.outbound = [] →
    let r := ringAt s2 pa
    (r.rp ≠ r.wp → ∃ t, exec (.rawait d a) s = .next t ∧ Acts t s2 tid { counted s2 with snap := [] } fun u =>
      (u.setPair d.toNat (BitVec.ofNat 64 (r.base + r.rp % 2 ^ r.n * (8 * r.esc)))).done s.cur.next) ∧
    (r.rp = r.wp → ∃ t, exec (.rawait d a) s = .next t ∧ Acts t s1 tid s.here (waits s (.ring hdr)))) ∧
  ∀ v dirty s2, u.st < 63 → Found s v tid .store hdr 64 pa dirty → publish v s.cur.team (scopeAt pa) = s2 → s2.halt = none → s2.outbound = [] →
    (ringAt s2 pa).okHdr = true →
    let r := ringAt s2 pa
    let s3 := setDirty s2 dirty
    (r.rp = r.wp → ∃ t, exec (.rrel a) s = .next t ∧ Acts t s3 tid (counted s2) (Thread.done · s.cur.next)) ∧
    (r.rp ≠ r.wp → ∃ t w, exec (.rrel a) s = .next t ∧ Wrote s3 w (pa + 8) (leBytes 4 (r.rp + 1)) ∧ Acts t w tid (counted s2) (Thread.done · s.cur.next)) ∧
    let x := (u.reg b.toNat).toNat
    let n := 8 * r.esc
    let entry := r.base + r.wp % 2 ^ r.n * n
    (x % 16 = 0 → x + n ≤ s.here.padSize →
      ((r.wp + 2 ^ 32 - r.rp) % 2 ^ 32 = 2 ^ r.n → ∃ t, exec (.rpush d a b) s = .next t ∧
        Acts t s3 tid (counted s2) fun u => (u.setReg d.toNat 0).done s.cur.next) ∧
      ∀ dest dirts w, (r.wp + 2 ^ 32 - r.rp) % 2 ^ 32 ≠ 2 ^ r.n →
        translateRange (bump s2 s.cur.team) (whoThread s tid) .store entry n = (.ok ([(entry, dest, n)], dirts), w) →
        mapped dest = true → mapped (dest + n - 1) = true → refuses w dest n = false →
        ∃ t w1 w2, exec (.rpush d a b) s = .next t ∧ RingWrote (setAllDirty (setDirty w dirty) dirts) w1 dest (Store.getN 0 s.here.pad x n) ∧
          Wrote w1 w2 (pa + 12) (leBytes 4 (r.wp + 1)) ∧ Acts t w2 tid (counted s2) fun u => (u.setReg d.toNat 1).done s.cur.next)

/-- R132, R281, R282, R302, R319: QLAUNCH and FORK push the packet at vb with their bits and the parent's `$grid` in it; FORK then starts the
team's swap, with its child noted, and with its park records where they are due or unresolved. A header that is no ring of the function gives
2, a full ring 0. CHAIN publishes at device scope, and starts the function's channel vb on the record at va where it is stopped (0); else it
writes 1 (in use) or 2 (beyond the function's). That an unlisted header gives 2 with no check that it is a ring is the model's reading
(log 28, DEDUCED). -/
def Obligations.LaunchResults : Prop :=
  (∀ (fork : Bool) (d a b : Reg) (s v s2 : State) (dirty : Option Nat) (tid pa : Nat),
    let i : Instr := if fork then .fork d a b else .qlaunch d a b
    let k := s.cur.team
    let u := s.thread k tid
    let hdr := (u.pair a.toNat).toNat
    let x := (u.reg b.toNat).toNat
    let counted : Team := { s2.here with interval := (s2.here.interval + 1) % 2 ^ 32 }
    Solo s tid (d.toNat :: b.toNat :: two a) → AtRest s → hdr % 64 = 0 → mapped (pa + 63) = true → x % 16 = 0 → x + 64 ≤ s.here.padSize → u.st < 63 →
    s.here.phase = .resident → s.here.reasons = [] → s.clock < s.here.lastIssue + 4096 → Found s v tid .store hdr 64 pa dirty →
    publish v k (scopeAt pa) = s2 → s2.halt = none → s2.outbound = [] →
    let r := ringAt s2 pa
    let entry := r.base + r.wp % 2 ^ r.n * (8 * r.esc)
    (ringIndex v s.here.vf pa = none → ∃ t, exec i s = .next t ∧ Acts t s2 tid counted fun u => (u.setReg d.toNat 2).done s.cur.next) ∧
    ∀ n, ringIndex v s.here.vf pa = some n → r.okHdr = true →
      ((r.wp + 2 ^ 32 - r.rp) % 2 ^ 32 = 2 ^ r.n → ∃ t, exec i s = .next t ∧ Acts t (setDirty s2 dirty) tid counted fun u => (u.setReg d.toNat 0).done s.cur.next) ∧
      ∀ dest dirts w, (r.wp + 2 ^ 32 - r.rp) % 2 ^ 32 ≠ 2 ^ r.n →
        translateRange (bump s2 k) (whoThread s tid) .store entry 64 = (.ok ([(entry, dest, 64)], dirts), w) →
        mapped dest = true → mapped (dest + 63) = true → refuses w dest 64 = false →
        ∃ t w1 w2, exec i s = .next t ∧
          RingWrote (setAllDirty (setDirty w dirty) dirts) w1 dest (leBytes 64 (childPacket s.here fork (littleEndian (Store.getN 0 s.here.pad x 64)))) ∧
          Wrote w1 w2 (pa + 12) (leBytes 4 (r.wp + 1)) ∧
          Acts t (if fork then { w2 with nextKey := w2.nextKey + 1 } else w2) tid
            (if fork then { counted with
              phase := .swapping, swapNo := w2.nextKey
              reasons := .fork [(s.here.vf, n, r.wp)] :: if aged s k = true ∨ unresolved s k = true then [.park] else [] } else counted)
            fun u => (u.setReg d.toNat 1).done s.cur.next) ∧
  ∀ (d a b : Reg) (s s2 : State) (tid : Nat),
    let u := s.thread s.cur.team tid
    let cfg := (s.vf s.here.vf).cfg.toNat
    let n := (u.reg b.toNat).toNat
    let ch := (cfg / 2 ^ 28 % 2 ^ 6 + n) % 64
    let counted := { s2.here with interval := (s2.here.interval + 1) % 2 ^ 32 }
    Solo s tid (d.toNat :: b.toNat :: two a) → publish s s.cur.team 1 = s2 → s2.halt = none →
    (cfg / 2 ^ 34 % 2 ^ 7 ≤ n → ∃ t, exec (.chain d a b) s = .next t ∧ Acts t s2 tid counted fun u => (u.setReg d.toNat 2).done s.cur.next) ∧
    (n < cfg / 2 ^ 34 % 2 ^ 7 → (s2.chan ch).phase ≠ .stopped →
      ∃ t, exec (.chain d a b) s = .next t ∧ Acts t s2 tid counted fun u => (u.setReg d.toNat 1).done s.cur.next) ∧
    (n < cfg / 2 ^ 34 % 2 ^ 7 → (s2.chan ch).phase = .stopped →
      ∃ t, exec (.chain d a b) s = .next t ∧ Acts t { s2 with
        chans := t.chans
        answers := s2.answers.filter fun e => e.owner ≠ .chan ch
        walks := s2.walks.map fun e => (e.1, { e.2 with waiters := e.2.waiters.filter fun o => o ≠ .chan ch }) } tid counted (fun u => (u.setReg d.toNat 0).done s.cur.next) ∧
        t.chan ch = ⟨.readRecord, (u.pair a.toNat).toNat, [], s.here.vf, s.here.vmid, s.here.asid, s.here.super⟩ ∧ ∀ k, k ≠ ch → t.chan k = s2.chan k)

-- The matrix engine (spec/09, spec/10)

/-- R201, R204, R227, R236, R237, R62: the instructions that set a team's handles, drain slots, gangs and mode, each writing what it
names and nothing else; THGET writes the entry to the pad; SCUPD clears the statistics record and writes the new scale, in the pad as pad
writes of its thread (R258): which checks it makes,
that a scale is written only from a positive finite absmax, and that its store is no entry of the shadow are the model's reading (log 25,
DEDUCED). -/
def Obligations.MatrixTableResults : Prop := ∀ (d a b : Reg) (s : State) (tid : Nat),
  let u := s.thread s.cur.team tid
  let addr := (u.reg a.toNat).toNat
  let v := u.reg b.toNat
  let read (n : Nat) := Store.getN 0 s.here.pad addr n
  let inPad (n : Nat) := addr % 16 = 0 ∧ addr + n ≤ s.here.padSize
  Solo s tid [a.toNat, b.toNat] → AtRest s →
  (inPad 64 → ∃ t, exec (.thset d a) s = .next t ∧ Acts t s tid (s.here.setHandle d.toNat (BitVec.ofNat 512 (littleEndian (read 64)))) (Thread.done · s.cur.next)) ∧
  (∃ t, exec (.thcur d a b) s = .next t ∧ Acts t s tid (s.here.setHandle d.toNat (BitVec.ofNat 512
      (putBits (putBits (s.here.handle d.toNat).toNat 351 320 addr) 383 352 v.toNat))) (Thread.done · s.cur.next)) ∧
  (inPad 64 → ∃ t, exec (.thget d a) s = .next t ∧
    PadStep s t tid addr (leBytes 64 (s.here.handle d.toNat).toNat) s.here (looks · addr 64) (Thread.done · s.cur.next)) ∧
  (inPad 128 → 0 < d.toNat → d.toNat ≤ s.here.desc.nd → ∃ t, exec (.dpload d a) s = .next t ∧
    Acts t s tid { s.here with drains := setAt s.here.drains (d.toNat - 1) ((List.range 32).map fun i => BitVec.ofNat 32 (littleEndian (((read 128).drop (4 * i)).take 4))) }
      (Thread.done · s.cur.next)) ∧
  (∃ t, exec (.mode a b) s = .next t ∧ Acts t s tid { s.here with
      mode := fromBits (fun n => if v.getLsbD n ∧ (n < 4 ∨ 8 ≤ n ∧ n < 16) then (u.reg a.toNat).getLsbD n else s.here.mode.getLsbD n) 32 } (Thread.done · s.cur.next)) ∧
  (∀ m, m = u.pair a.toNat →
    a.toNat + 1 < s.here.countOf tid → m.getLsbD (tid / 32) = true → ((List.range 64).filter (m.getLsbD ·)).length ≤ 6 →
    (∀ i < 64, m.getLsbD i = true → i < s.here.lanesets.length ∧ (s.here.laneset i).retired = false) →
    ∃ t, exec (.gang a) s = .next t ∧ Acts t s tid { s.here with lanesets := setAt s.here.lanesets (tid / 32) { s.here.laneset (tid / 32) with gang := m } }
      (Thread.done · s.cur.next)) ∧
  let h := parseHandle (s.here.handle d.toNat)
  let scale := newScale h.fmt ((s.here.padNat (16 * h.stats) 16) / 2 ^ 96)
  let at_ := h.sb + 4 * addr
  let cleared := unfencedOf s.here tid (16 * h.stats) 16 ++ s.here.unfenced
  u.tl = 0 → h.check s.here.padSize { origin := true } = none → blocked h.fmt = true → h.statv = true → addr < h.ns →
    (h.space = true → ∃ t m, exec (.scupd d a) s = .next t ∧ t = { s with teams := t.teams } ∧ PadHolds s.here m (16 * h.stats) (List.replicate 16 0) ∧
      (match scale with
       | some x => PadHolds m t.here at_ (leBytes 4 x) ∧ t.here.unfenced = unfencedOf m tid at_ 4 ++ cleared
       | none => m.pad = t.here.pad ∧ t.here.unfenced = cleared) ∧
      t.here = { s.here with pad := t.here.pad, unfenced := t.here.unfenced, threads := t.here.threads } ∧ t.thread s.cur.team tid = u.done s.cur.next ∧ Bystanders s t tid) ∧
    ∀ v dirty pa, h.space = false → Found s v tid .store at_ 4 pa dirty → inHbm pa → inHbm (pa + 3) → ∃ t w, exec (.scupd d a) s = .next t ∧
      (match scale with | some x => Wrote (setDirty v dirty) w pa (leBytes 4 x) | none => w = v) ∧ t = { w with teams := t.teams } ∧
      PadHolds s.here t.here (16 * h.stats) (List.replicate 16 0) ∧
      t.here = { s.here with pad := t.here.pad, unfenced := cleared, threads := t.here.threads } ∧ t.thread s.cur.team tid = u.done s.cur.next ∧ Bystanders s t tid

/-- R205 to R207, R225, R353: a matrix word of a laneset that is in no gang opens its operation at once where its checks pass: the operation
it captured stands in the matrix queue and `tl` counts it; the first failing check of R353's order is a trap instead. In a gang of several
lanesets the first to issue waits in the latch. That the slot program's lowest illegal code of a word is the one reported, with word 0 and code
0x02 for a slot without END (log 24, DEDUCED), and that an `sb` is checked of blocked formats alone (log 21, DEDUCED), is the model's reading. -/
def Obligations.MatrixIssueResults : Prop := ∀ (i : Instr) (tiles : List Nat) (dp : Nat) (need : Bool) (s : State) (tid : Nat),
  matrix i = some (tiles, dp, need) →
  let ls := s.cur.laneset
  let u := s.thread s.cur.team tid
  let g := (s.here.laneset ls).gang
  Solo s tid [] → AtRest s → Listed s → s.here.liveIn ls = [tid] → s.here.latches = [] → s.here.unfenced = [] → s.here.unseen = [] → u.tl < 63 →
  (∀ c ∈ tiles, c < s.here.desc.acctiles) → dp ≤ s.here.desc.nd → (need = true → dp ≠ 0) →
  openCheck s.here (mword i) = firstFailing (openTable s.here i) ∧
  (g = 0 ∨ g = BitVec.twoPow 64 ls →
    (firstFailing (openTable s.here i) = none → ∃ t, exec i s = .next t ∧
      Acts t { s with mops := [operation s i tid], nextKey := s.nextKey + 1 } tid s.here fun u => through s { u with tl := u.tl + 1 }) ∧
    ∀ cause info, firstFailing (openTable s.here i) = some (cause, info) → CanTrap s →
      ∃ t, exec i s = .next t ∧ Acts t s tid s.here fun u => trapAt s cause info 0 { u with next := s.cur.next, since := s.clock }) ∧
  ((∃ j < 64, j ≠ ls ∧ g.getLsbD j = true) → ∃ t, exec i s = .next t ∧
    Acts t s tid { s.here with latches := [⟨g.toNat, i, [(ls, s.cur.pc.toNat, [tid])], [tid]⟩] } fun u => waitsIn s (.gang g.toNat) { u with tl := u.tl + 1 })

/-- R101 to R103: TRES that passes its checks copies its range piece by piece, notes where each piece came from, and then makes it live; the
first failing check of R102's order is a trap instead. TUNRES drops the grid's range at its offset. What `$tfa` holds for a failed check is the
model's reading (log 43, DEDUCED). -/
def Obligations.ResidentRangeResults : Prop := ∀ (d a b : Reg) (s : State) (tid : Nat) (place : Place),
  let u := s.thread s.cur.team tid
  let base := (u.pair a.toNat).toNat
  let len := (u.reg b.toNat).toNat
  let off := (u.reg d.toNat).toNat
  let ranges := (s.core place.core).ranges
  let table := tresTable s.here ranges base len off
  Solo s tid (d.toNat :: b.toNat :: two a) → AtRest s → s.here.place = some place → raceMode s s.here.vmid s.here.asid = 0 →
  tresCheck s s.cur.team base len off = firstFailing table ∧
  (u.ld < 63 → (∀ r ∈ ranges, r.filler ≠ (s.cur.team, tid)) →
    (∀ cause info tfa, firstFailing table = some (cause, info, tfa) → CanTrap s →
      ∃ t, exec (.tres d a b) s = .next t ∧ Acts t s tid s.here (trapAt s cause info (BitVec.ofNat 64 tfa))) ∧
    ∀ at_ : Nat → Nat, firstFailing table = none →
      (∀ i < len / 256, mapped (at_ i) = true ∧ lost s (at_ i) = false ∧ at_ i % 256 = 0 ∧
        ∃ sl, translate s (whoThread s tid) .load (base + 256 * i) 256 = (.ok (at_ i) sl none, s)) →
      ∃ t, exec (.tres d a b) s = .next t ∧ Acts t { s with cores := t.cores } tid s.here (Thread.done · s.cur.next) ∧
        (t.core place.core).sig = (s.core place.core).sig ∧
        (t.core place.core).ranges = ranges ++ [⟨s.here.grid, s.here.vmid, s.here.asid, base, len, off, true,
          (List.range (len / 256)).flatMap fun i => s.rd (at_ i) 256, (s.cur.team, tid), (List.range (len / 256)).map at_, []⟩] ∧
        ∀ c, c ≠ place.core → t.core c = s.core c) ∧
  ∃ t, exec (.tunres d) s = .next t ∧ Acts t { s with cores := t.cores } tid s.here (Thread.done · s.cur.next) ∧
    (t.core place.core).sig = (s.core place.core).sig ∧ (t.core place.core).ranges = ranges.filter (fun r => ¬(r.grid = s.here.grid ∧ r.off = off)) ∧
    ∀ c, c ≠ place.core → t.core c = s.core c

-- Relations, barriers between threads, exit (spec/06, spec/08, spec/13)

/-- R182 to R195: where the arriving thread is its unit's whole population, its instance opens and completes in one step, with the
results of one row: FOLD's row (1 for COUNT), RANK 0, the whole of REBAL's work, and of JOIN no match. Where another live
thread of its unit can go on, it waits in the instance it opened, its operands captured. -/
def Obligations.RelationalResults : Prop := ∀ (i : Instr) (r : Arriving) (s : State) (tid : Nat), arriving s tid i = some r →
  let k := s.cur.team
  let open_ : Inst := ⟨r.unit, r.tag, r.op, if i matches .join .. then 0 else s.cur.x.toNat, r.extra, population s.here r.unit, [r.arrival s tid]⟩
  let pad := (∃ d a b, i = .join d a b) → r.extra.1 % 64 = 0 ∧ r.extra.1 + 64 ≤ s.here.padSize
  (Alone s tid r.regs → pad →
    (∀ d a b f, i = .fold d a b f → ∃ t, exec i s = .next t ∧ Acts t s tid s.here fun u => through s (if f = 12 then u.setReg b.toNat 1 else u)) ∧
    (∀ d a b, i = .rank d a b → ∃ t, exec i s = .next t ∧ Acts t s tid s.here fun u => through s (u.setReg d.toNat 0)) ∧
    (∀ d a b, i = .rebal d a b → ∃ t, exec i s = .next t ∧
      Acts t s tid { s.here with tables := Store.set [] s.here.tables r.unit (if r.key = 0 then [] else [(tid, 0, r.key)]) } fun u =>
        through s (({ u with lastRebal := some r.unit }.setReg d.toNat 0).setReg (d.toNat + 1) (BitVec.ofNat 32 r.key))) ∧
    ∀ d a b, i = .join d a b → AtRest s → joinValid s.here (parseJoin (s.here.padNat r.extra.1 64)) [r.arrival s tid] = true →
      ∃ t, exec i s = .next t ∧ t = { s with teams := t.teams } ∧
        t.here = { s.here with pad := t.here.pad, unfenced := unfencedOf s.here tid (r.extra.1 + 24) 8 ++ s.here.unfenced, threads := t.here.threads } ∧
        t.thread k tid = through s ((s.thread k tid).setReg b.toNat 0xFFFFFFFF) ∧ Bystanders s t tid ∧
        PadHolds s.here t.here (r.extra.1 + 24) (List.replicate 8 0)) ∧
  ∀ j, Solo s tid r.regs → Listed s → s.here.phase = .resident → s.here.insts = [] → s.here.claims = [] → pad →
    (s.thread k tid).ld = 0 ∧ (s.thread k tid).st = 0 ∧ (s.thread k tid).cp = 0 ∧ (s.thread k tid).tl = 0 ∧ (s.thread k tid).failures = [] →
    (∀ l ∈ s.here.live, l ≠ tid → (s.thread k l).wait = .ready) → j ≠ tid → j ∈ population s.here r.unit →
    ∃ t, exec i s = .next t ∧ Acts t s tid { s.here with insts := [open_] } (waitsIn s (.arrived r.unit r.tag))

/-- R146 to R148, R291, R293, R294: RGIVE, RTAKE, TBAR, RCVWAIT and EXIT of the only live thread take effect at once; beside other
threads that can go on, the first four wait and EXIT exits, its lane in no barrier of its laneset any longer. The last exit of a team publishes
at device scope and ends it. -/
def Obligations.ArrivalAndExitResults : Prop := ∀ (s : State) (tid : Nat) (n : BitVec 7),
  let k := s.cur.team
  let l := tid / 32
  let count := (s.here.laneset l).count
  let block := 8 * n.toNat
  let refreshed := { s.here with snap := [], interval := (s.here.interval + 1) % 2 ^ 32 }
  let resized (m : Nat) := setAt s.here.lanesets l { s.here.laneset l with count := m }
  let gone (u : Thread) : Thread := { u with life := .exited, wait := .ready, resume := none, trail := [], steps := 0, spanLeft := 0 }
  let without (u : Thread) : Thread := { u with rcvs := Vector.ofFn fun i => u.rcvs[i] &&& ~~~BitVec.twoPow 32 (tid % 32) }
  (Alone s tid [] → l < s.here.lanesets.length →
    (block + 8 ≤ count → ∃ t, exec (.rgive n) s = .next t ∧
      Acts t s tid { s.here with lanesets := resized (count - block), account := s.here.account + n.toNat } (through s)) ∧
    (n ≠ 0 → count + block ≤ 128 → n.toNat ≤ s.here.account → ∃ t, exec (.rtake n) s = .next t ∧
      Acts t s tid { s.here with lanesets := resized (count + block), account := s.here.account - n.toNat } fun u =>
        through s ((List.range block).foldl (fun u j => u.setReg (count + j) 0) u)) ∧
    (count + block ≤ 128 → s.here.account < n.toNat → ∃ t, exec (.rtake n) s = .next t ∧
      Acts t s tid { s.here with claims := [(l, n.toNat)] } (waitsIn s .claim)) ∧
    (∃ t, exec .tbar s = .next t ∧ Acts t s tid refreshed (through s)) ∧
    (∃ t, exec (.rcvwait n) s = .next t ∧ Acts t s tid s.here (through s)) ∧
    ∀ (i : Instr) (p : State), i = .exit ∨ i = .exitC → publish s k 1 = p → p.halt = none → s.here.latches = [] →
      teamBlocked (s.thread k tid).wait = none → ∃ t, exec i s = .next t ∧ (t.team k).phase = .ended ∧ t.mem = p.mem ∧ t.copies = p.copies.filter (fun c => c.team ≠ k) ∧
        t.mops = p.mops.filter (fun m => m.team ≠ k) ∧ (∀ q ∈ t.parks, q.team = k → ∃ ch, q.owner = .chan ch) ∧ ∀ j, j ≠ k → t.team j = s.team j) ∧
  ∀ j, Solo s tid [] → Listed s → s.here.phase = .resident → s.here.insts = [] → s.here.claims = [] → j ≠ tid → j ∈ s.here.liveIn l → tid ∈ s.here.liveIn l →
    (∀ i ∈ s.here.live, i ≠ tid → (s.thread k i).wait = .ready) →
    (∃ t, exec (.rgive n) s = .next t ∧ Acts t s tid s.here (waitsIn s (.regs false n.toNat))) ∧
    (∃ t, exec (.rtake n) s = .next t ∧ Acts t s tid s.here (waitsIn s (.regs true n.toNat))) ∧
    (∃ t, exec .tbar s = .next t ∧ Acts t s tid s.here (waitsIn s .tbar)) ∧
    (((s.thread k tid).rcvs[n.toNat % 16]'(Nat.mod_lt _ (by decide))).getLsbD (j % 32) = true →
      ∃ t, exec (.rcvwait n) s = .next t ∧ Acts t s tid s.here (waitsIn s (.rcv n.toNat))) ∧
    ∀ i, i = .exit ∨ i = .exitC → (s.thread k tid).ld = 0 ∧ (s.thread k tid).st = 0 ∧ (s.thread k tid).cp = 0 ∧ (s.thread k tid).tl = 0 →
      (s.thread k tid).failures = [] → ∃ t, exec i s = .next t ∧ t = { s with teams := t.teams } ∧ t.here = { s.here with threads := t.here.threads } ∧
        t.thread k tid = without (gone (s.thread k tid)) ∧
        (∀ m, m ≠ tid → t.thread k m = if m / 32 = l then without (s.thread k m) else s.thread k m) ∧ ∀ m, m ≠ k → t.team m = s.team m

/-- R284, R289: YIELD, its short form and PASS complete. YIELD exchanges its laneset, if it is active, with the pending laneset that
became ready first, if there is one; PASS holds its laneset back until the other active lanesets that can issue have issued. -/
def Obligations.YieldAndPassResults : Prop := ∀ (s : State) (n : Nat), Ready s → quadOf s s.cur.team s.cur.laneset = some n →
  (∃ tid ∈ s.tids, passes s.cur (s.thread s.cur.team tid) = true) →
  let me := (s.cur.team, s.cur.laneset)
  ∃ u, Moves s u (fun _ => stepThread s.cur id) ∧
    (∀ i, i = .yield ∨ i = .yieldC →
      let q := (refreshQuad u n).quad n
      ∃ t, exec i s = .next t ∧ t = { u with quads := t.quads } ∧ (∀ m, m ≠ n → t.quad m = u.quad m) ∧
        ((∃ c, (me.1, me.2, c) ∈ q.active) → readySince q ≠ [] → Exchanged u q (t.quad n) me) ∧
        ((∀ c, (me.1, me.2, c) ∉ q.active) ∨ readySince q = [] → t.quad n = q)) ∧
    ∃ t, exec .pass s = .next t ∧
      let others := ((u.quad n).active.map fun e => (e.1, e.2.1)).filter fun e => e ≠ me ∧ hasReady u e = true
      t = { u with quads := t.quads } ∧ (∀ m, m ≠ n → t.quad m = u.quad m) ∧
      t.quad n = { u.quad n with holds := if others = [] then (u.quad n).holds else (u.quad n).holds ++ [(me, others, s.clock)] }

-- Trees, signals, invalidation (spec/04, spec/11, spec/14)

/-- R240 to R246, R101, R201: WALK does nothing at the end of a path. Else it traps where the node is none of the tree or the path is too
deep, or hands the walk unit a command with the handle's entry; the command's step, an execution of its own (log 45, 49), reads its node from the
pad, memory or a resident range, and takes one step of the tree, or traps PROT 0x0A where a seal is asked for and memory is not sealed. A node
of a global table is read at that step or at a later one that `ld` counts, with the bytes that stand there then, or, where its translation no
longer stands, as they were: which of them is an open choice, and both are the model's reading (log 51, DEDUCED).
PDIG writes the audit record of the trail's digest, gives its number and clears the trail, or waits for room. -/
def Obligations.WalkResults : Prop :=
  (∀ (d a : Reg) (n : BitVec 4) (s : State) (tid : Nat), Solo s tid (a.toNat :: two d) →
    let u := s.thread s.cur.team tid
    let h := parseTree (s.here.handle n.toNat)
    let x := (u.reg d.toNat).toNat
    let leaf := h.leafEnc && decide (2 ^ 31 ≤ x)
    let node := if leaf then x - 2 ^ 31 else x
    let va := BitVec.ofNat 64 (h.base + node * h.stride)
    u.command = none →
    (x = 0xFFFFFFFF → ∃ t, exec (.walk d a n) s = .next t ∧ Acts t s tid s.here (Thread.done · s.cur.next)) ∧
    (x ≠ 0xFFFFFFFF → u.ld < 63 → h.check s.here.padSize = none →
      (CanTrap s → h.nodes ≤ node → ∃ t, exec (.walk d a n) s = .next t ∧ Acts t s tid s.here (trapAt s 0xC (1 + n.toNat * 2 ^ 8) va)) ∧
      (CanTrap s → node < h.nodes → h.maxDepth ≤ u.steps →
        ∃ t, exec (.walk d a n) s = .next t ∧ Acts t s tid s.here (trapAt s 0xC (2 + n.toNat * 2 ^ 8) va)) ∧
      (node < h.nodes → u.steps < h.maxDepth → ∃ t, exec (.walk d a n) s = .next t ∧ Acts t s tid s.here fun u =>
        { u with pc := s.cur.pc, wait := .ready, command := some ⟨s.here.handle n.toNat, x, (u.reg a.toNat).toNat⟩
                 resume := some (asIssued s tid u (some (.walk d a n))) }))) ∧
  (∀ (d a : Reg) (n : BitVec 4) (c : WalkCmd) (s : State) (tid : Nat), Solo s tid (a.toNat :: two d) → AtRest s →
    let h := parseTree c.handle
    let leaf := h.leafEnc && decide (2 ^ 31 ≤ c.node)
    let node := if leaf then c.node - 2 ^ 31 else c.node
    let va := h.base + node * h.stride
    let feat (bytes : List Byte) := littleEndian ((bytes.drop h.offFeat).take 2)
    let inside (bytes : List Byte) := leaf = true ∨ (h.leafEnc = false ∧ feat bytes = 0xFFFF) ∨
      c.row + feat bytes * fmtBytes h.featFmt + fmtBytes h.featFmt ≤ s.here.padSize
    let steps (t u : State) (bytes : List Byte) := Acts t u tid s.here fun v =>
      (walked h n.toNat node leaf bytes s.here.pad d c.row v).done s.cur.next
    let reads (t u : State) (pa : Nat) (bytes : List Byte) :=
      let u := { u with freeCount := u.freeCount + 1 }
      if Config.freeBit s.freeCount then steps t u bytes
      else Acts t u tid s.here fun v => { v with ld := v.ld + 1, node := some ⟨c, d, n.toNat, [(va, pa, h.stride)], bytes⟩ }.done s.cur.next
    (s.thread s.cur.team tid).command = some c → c.node < 2 ^ 32 →
    (h.space = true →
      (inside (Store.getN 0 s.here.pad va h.stride) →
        ∃ t, exec (.walk d a n) s = .next t ∧ steps t s (Store.getN 0 s.here.pad va h.stride)) ∧
      (CanTrap s → ¬inside (Store.getN 0 s.here.pad va h.stride) → ∃ t, exec (.walk d a n) s = .next t ∧
        Acts t s tid s.here (trapAt s 0xD 0 (BitVec.ofNat 64 (c.row + feat (Store.getN 0 s.here.pad va h.stride) * fmtBytes h.featFmt))))) ∧
    (h.space = false → 0 < h.stride → va % 2 ^ 10 + h.stride ≤ 2 ^ 10 →
      (∀ s1 pa, (h.sealReq = false → rangeFor s s.cur.team va = none) → rangeFor s1 s.cur.team va = none → Reaches s s1 tid .load va h.stride pa →
        (h.sealReq = true → ∃ d, translate s (whoThread s tid) .load va h.stride = (.ok pa true d, s1)) → (h.sealReq = true → pa / 2 ^ 16 ∈ s1.sealMap) →
        s1.freeCount = s.freeCount → inside (s1.rd pa h.stride) → ∃ t, exec (.walk d a n) s = .next t ∧ reads t s1 pa (s1.rd pa h.stride)) ∧
      (∀ r, h.sealReq = false → rangeFor s s.cur.team va = some r →
        (∀ i < h.stride, va - r.base + i ∉ r.stale ∧ r.moved s (va + i) = false) → inside ((r.bytes.drop (va - r.base)).take h.stride) →
        ∃ t, exec (.walk d a n) s = .next t ∧ reads t s 0 ((r.bytes.drop (va - r.base)).take h.stride)) ∧
      ∀ s1 pa sl d', h.sealReq = true → CanTrap s → translate s (whoThread s tid) .load va h.stride = (.ok pa sl d', s1) → s1.halt = none →
        lost s1 pa = false → (sl = false ∨ pa / 2 ^ 16 ∉ s1.sealMap) → d' = none →
        ∃ t, exec (.walk d a n) s = .next t ∧ Acts t s1 tid s.here (trapAt s 3 0xA (BitVec.ofNat 64 va)))) ∧
  (∀ (s : State) (k tid va pa len : Nat) (n : NodeRead), AtRest s → (s.thread k tid).node = some n → n.cmd.node < 2 ^ 32 → n.parts = [(va, pa, len)] →
    rangeFor s k va = none → raceMode s (s.team k).vmid (s.team k).asid = 0 → mapped pa = true → mapped (pa + len - 1) = true →
    let h := parseTree n.cmd.handle
    let leaf := h.leafEnc && decide (2 ^ 31 ≤ n.cmd.node)
    let feat (bytes : List Byte) := littleEndian ((bytes.drop h.offFeat).take 2)
    let inside (bytes : List Byte) := leaf = true ∨ (h.leafEnc = false ∧ feat bytes = 0xFFFF) ∨
      n.cmd.row + feat bytes * fmtBytes h.featFmt + fmtBytes h.featFmt ≤ (s.team k).padSize
    let stands := peek s (s.team k).vmid (s.team k).asid va = some pa ∧ lost s pa = false ∧ (h.sealReq = true → pa / 2 ^ 16 ∈ s.sealMap)
    ∀ bytes, (stands ∧ inside (s.rd pa len) → bytes = s.rd pa len) → (¬(stands ∧ inside (s.rd pa len)) → bytes = n.bytes ∧ inside n.bytes) →
      nodeStep k tid s = s.modThread k tid fun u =>
        { walked h n.handle (if leaf then n.cmd.node - 2 ^ 31 else n.cmd.node) leaf bytes (s.team k).pad n.d n.cmd.row u with ld := u.ld - 1, node := none }) ∧
  ∀ (d a b : Reg) (s : State) (tid : Nat),
    let u := s.thread s.cur.team tid
    let f := s.vf s.here.vf
    let key := (u.pair a.toNat).toNat
    let value := (u.reg b.toNat).toNat
    let digest := sha3_256 (u.trail ++ leBytes 8 key ++ leBytes 4 value)
    Solo s tid (b.toNat :: (two d ++ two a)) →
    (f.auditSeq - f.auditTaken < Config.auditRing → ∃ t, exec (.pdig d a b) s = .next t ∧
      Acts t { s with vfs := t.vfs } tid s.here (fun u => { (u.setPair d.toNat (BitVec.ofNat 64 f.auditSeq)) with trail := [], steps := 0 }.done s.cur.next) ∧
      t.vf s.here.vf = { f with
        auditSeq := f.auditSeq + 1
        auditRecs := Store.set [] f.auditRecs (f.auditSeq % Config.auditRing) (auditRecord f.auditSeq tid s.here.gridId.toNat u.steps value key digest) } ∧ ∀ v, v ≠ s.here.vf → t.vf v = s.vf v) ∧
    (Config.auditRing ≤ f.auditSeq - f.auditTaken → ∃ t, exec (.pdig d a b) s = .next t ∧ Acts t s tid s.here (waits s .audit))

/-- R86, R87, R316, R253: SOFTI publishes at system scope and signals the management core or a ring of its function's table. A TLBI of
a supervisor team publishes, drops the TLB entries it names, what a walk has answered by them and the sectors of S of the teams they serve,
and waits for the accesses under way that were translated so; another team's takes PROT 0x0B. That TLBI.VA empties the sectors that bits [51:16]
name, and no TLB entry, where a bit of [63:52] is set is the model's reading (log 42, DEDUCED); that it executes further without another fetch
is the model's (log 49, DESIGN CHOICE). -/
def Obligations.SignalAndInvalidateResults : Prop := ∀ (d a b : Reg) (s p : State) (tid : Nat), Solo s tid (d.toNat :: b.toNat :: two a) → AtRest s →
  let u := s.thread s.cur.team tid
  let hdr := (u.pair a.toNat).toNat
  let v := u.reg b.toNat
  let counted (p : State) := { p.here with interval := (p.here.interval + 1) % 2 ^ 32 }
  (publish s s.cur.team 2 = p → p.halt = none →
    (hdr = 0 → ∃ t, exec (.softi d a b) s = .next t ∧ Acts t { p with wakeReg := p.wakeReg ++ [(s.here.vf, v.toNat)] } tid (counted p)
      fun u => (u.setReg d.toNat 1).done s.cur.next) ∧
    (hdr ≠ 0 → ringEntry p s.here.vf hdr = none → ∃ t, exec (.softi d a b) s = .next t ∧ Acts t p tid (counted p) fun u => (u.setReg d.toNat 2).done s.cur.next) ∧
    ∀ e, hdr ≠ 0 → ringEntry p s.here.vf hdr = some e → ∃ t, exec (.softi d a b) s = .next t ∧
      Acts t { p with vfs := t.vfs, msix := p.msix ++ [(s.here.vf, e.toNat / 2 ^ 72 % 2 ^ 8)] } tid (counted p) (fun u => (u.setReg d.toNat 1).done s.cur.next) ∧
      t.vf s.here.vf = { p.vf s.here.vf with wakes := (t.vf s.here.vf).wakes } ∧ (∀ w, w ≠ s.here.vf → t.vf w = p.vf w) ∧
      ∀ h, Store.get 0 (t.vf s.here.vf).wakes h = Store.get 0 (p.vf s.here.vf).wakes h + (if h = hdr then 1 else 0)) ∧
  (s.here.super = true → ∀ l, u.wait = .tlbi l → ∀ i, i = .tlbiVa a b ∨ i = .tlbiAsid b ∨ i = .tlbiAll b →
    ∃ t, exec i s = .next t ∧ Acts t s tid s.here (Thread.done · s.cur.next)) ∧
  (publish s s.cur.team 1 = p → p.halt = none → s.here.super = true → (∀ l, u.wait ≠ .tlbi l) →
    let vm := if s.here.vmid = 0 then v.toNat / 2 ^ 16 % 2 ^ 12 else s.here.vmid
    let asid := v.toNat % 2 ^ 16
    let page := hdr / 2 ^ 16 % 2 ^ 36
    let under (x : Nat) := x / 2 ^ 16 = page ∨ ∃ w ∈ p.tlb, w.big = true ∧ w.vmid = vm ∧ w.asid = asid ∧ w.page = x / 2 ^ 28 * 2 ^ 28 ∧
      ∃ i < 4096, (w.page + i * 65536) / 2 ^ 16 = page
    let still := (∀ e ∈ p.teams, ∀ x ∈ e.2.threads, x.2.half = none) ∧ ∀ e ∈ p.chans, ∀ k m o r, e.2.phase ≠ .moving k m o r
    let dropped (t : State) (space : Nat → Nat → Prop) (entry line : Nat → Prop) :=
      (∀ e, e ∈ t.tlb ↔ e ∈ p.tlb ∧ ¬(space e.vmid e.asid ∧ entry e.page)) ∧
      (∀ e, e ∈ t.answers ↔ e ∈ p.answers ∧ ¬(space e.vmid e.asid ∧ entry e.va)) ∧
      (∀ j q, (space (p.team j).vmid (p.team j).asid ∧ line q → Store.get [] (t.team j).snap q = []) ∧
        (¬(space (p.team j).vmid (p.team j).asid ∧ line q) → Store.get [] (t.team j).snap q = Store.get [] (p.team j).snap q)) ∧
      t = { p with tlb := t.tlb, ntlb := t.ntlb, answers := t.answers, teams := t.teams } ∧ t.thread s.cur.team tid = u.done s.cur.next ∧
      (∀ j, t.team j = { p.team j with
        snap := (t.team j).snap, threads := (t.team j).threads
        interval := if j = s.cur.team then ((p.team j).interval + 1) % 2 ^ 32 else (p.team j).interval }) ∧
      ∀ j m, (j, m) ≠ (s.cur.team, tid) → t.thread j m = p.thread j m
    (still →
      (∃ t, exec (.tlbiVa a b) s = .next t ∧ t.ntlb = p.ntlb ∧
        dropped t (fun v w => v = vm ∧ w = asid) (fun x => hdr < 2 ^ 52 ∧ under x) (fun q => 32 * q / 2 ^ 16 = page)) ∧
      (∃ t, exec (.tlbiAsid b) s = .next t ∧ t.ntlb = p.ntlb ∧ dropped t (fun v w => v = vm ∧ w = asid) (fun _ => True) fun _ => True) ∧
      ∃ t, exec (.tlbiAll b) s = .next t ∧ (∀ e, e ∈ t.ntlb ↔ e ∈ p.ntlb ∧ e.vmid ≠ vm) ∧ dropped t (fun v _ => v = vm) (fun _ => True) fun _ => True) ∧
    ∀ e ∈ p.chans, e.2.vmid = vm → e.2.asid = asid → (∃ k m o r, e.2.phase = .moving k m o r) →
      ∃ t l, exec (.tlbiAsid b) s = .next t ∧ l ≠ [] ∧ (t.thread s.cur.team tid).wait = .tlbi l ∧ (t.thread s.cur.team tid).pc = s.cur.pc ∧
        (t.thread s.cur.team tid).resume = some (asIssued s tid u (some (.tlbiAsid b))) ∧
        ∀ e, e ∈ t.tlb ↔ e ∈ p.tlb ∧ ¬(e.vmid = vm ∧ e.asid = asid)) ∧
  (s.here.super = false → CanTrap s → ∀ i, i = .tlbiVa a b ∨ i = .tlbiAsid b ∨ i = .tlbiAll b →
    ∃ t, exec i s = .next t ∧ Acts t s tid s.here (trapAt s 3 0xB 0))

-- Machine events (spec/95)

/-- R79, R81, R82, R251, R252, R253, R255, R321, R331: one of the first sixteen walks of a slice completes: it fills the TLB with the leaf's
frame, sets the accessed bit where it is not set, and answers every request attached to it; a later walk waits. A prefetch fills one
sector of S and an emptying empties one; an undelayed entry of W, or of the outbound queue, is written where it goes, but for one to a
peer out of reach. A leaf in a sealed frame keeps its bits (R99). That an entry keeps its physical address is the model's (log 44, DESIGN CHOICE), and
that an older entry of the page stays beside the new one its reading (log 17, DEDUCED). -/
def Obligations.MemoryEventResults : Prop := ∀ (s : State) (k n : Nat) (va : BitVec 64), AtRest { s with walks := [], outbound := [] } → s.halt = none →
  (∀ x, s.walks.find? (·.1 = n) = some (n, x) →
    let before := (s.walks.takeWhile fun e => e.1 ≠ n).countP fun e => e.2.va / 2 ^ 8 % 2 ^ 8 = x.va / 2 ^ 8 % 2 ^ 8
    let answered (t : State) (w : Walked) := t.answers = s.answers ++ x.waiters.map fun o => ⟨o, x.vmid, x.asid, x.va, w⟩
    (16 ≤ before → exec (.translationWalk n) s = .next s) ∧
    (before < 16 → s.ntlb = [] → lost s (s.vmtbase.toNat + 64 * x.vmid) = false → (walkFill s x.vmid x.asid x.va).2.halt = none →
      ∃ t, exec (.translationWalk n) s = .next t ∧
        t = { s with mem := t.mem, icache := t.icache, cores := t.cores, tlb := t.tlb, ntlb := t.ntlb, walks := s.walks.filter fun e => e.1 ≠ n, answers := t.answers } ∧
        (∀ pte addr pa big wide fills, walk s x.vmid x.asid x.va = .leaf pte addr pa big wide fills →
          (leafState pte = .local ∨ leafState pte = .remote →
            (∃ e ∈ t.tlb, e.holds x.vmid x.asid x.va = true ∧ e.frame x.va = pa) ∧
            (tlbHit s x.vmid x.asid x.va = none → (tlbHit t x.vmid x.asid x.va).map (·.frame x.va) = some pa) ∧
            answered t (.leaf (pte ||| 0x200) addr pa big wide fills) ∧ (bit pte 9 = true ∨ refuses s addr 8 = true → t.mem = s.mem) ∧
            (bit pte 9 = false → refuses s addr 8 = false → MemHolds s t addr (leBytes 8 (s.rdNat addr 8 ||| 0x200)))) ∧
          (leafState pte ≠ .local → leafState pte ≠ .remote → t.mem = s.mem ∧ t.tlb = s.tlb ∧ answered t (walk s x.vmid x.asid x.va))) ∧
        ((∀ pte addr pa big wide fills, walk s x.vmid x.asid x.va ≠ .leaf pte addr pa big wide fills) →
          t.mem = s.mem ∧ t.tlb = s.tlb ∧ t.ntlb = [] ∧ answered t (walk s x.vmid x.asid x.va)))) ∧
  (∀ s1 pa sl d, s.outbound = [] → (s.team k).phase = .resident → translate s (whoOf s k) .load va.toNat 1 = (.ok pa sl d, s1) → s1.halt = none →
    mapped pa = true → lost s1 pa = false → Store.get [] (s.team k).snap (va.toNat / 32) = [] →
    ∃ t, exec (.snapshotPrefetch k va) s = .next t ∧ t = { s1 with teams := t.teams } ∧ (∀ j, j ≠ k → t.team j = s.team j) ∧
      t.team k = { s.team k with snap := (t.team k).snap } ∧
      ∀ q, Store.get [] (t.team k).snap q = if q = va.toNat / 32 then s1.rd (pa / 32 * 32) 32 else Store.get [] (s.team k).snap q) ∧
  (∃ t, exec (.snapshotEmpty k va) s = .next t ∧ t = { s with teams := t.teams } ∧ (∀ j, j ≠ k → t.team j = s.team j) ∧
    t.team k = { s.team k with snap := (t.team k).snap } ∧
    ∀ q, Store.get [] (t.team k).snap q = if q = va.toNat / 32 then [] else Store.get [] (s.team k).snap q) ∧
  (∀ e, s.outbound = [] → (s.team k).w[n]? = some e → (∀ o ∈ (s.team k).w.take n, ¬(o.va < e.va + e.bytes.length ∧ e.va < o.va + o.bytes.length)) →
    (s.team k).phase = .resident → raceMode s (s.team k).vmid (s.team k).asid = 0 → 0 < e.bytes.length → e.pa + e.bytes.length ≤ 2 ^ 39 →
    e.pa / 2 ^ 16 ∉ s.sealMap → (e.pa + e.bytes.length - 1) / 2 ^ 16 ∉ s.sealMap →
    ∃ t, exec (.writeBufferDrain k n) s = .next t ∧
      t = { s with teams := t.teams, mem := t.mem, icache := t.icache, cores := t.cores, shadow := t.shadow } ∧ MemHolds s t e.pa e.bytes ∧
      (∀ j, j ≠ k → t.team j = s.team j) ∧
      t.team k = { s.team k with w := (s.team k).w.eraseIdx n, snap := snapUpdate (s.team k).snap e.va e.bytes } ∧
      ∀ q, Store.get none t.shadow q =
        if e.pa < 32 * q + 32 ∧ 32 * q < e.pa + e.bytes.length then some ⟨0, (s.team k).interval, k⟩ else Store.get none s.shadow q) ∧
  ∀ o, s.outbound[n]? = some o → (∀ e ∈ s.outbound.take n, outOrdered e o = false) →
    (lost s o.pa = true → exec (.outboundPerform n) s = .next { s with outbound := s.outbound.eraseIdx n }) ∧
    (lost s o.pa = false → mapped o.pa = true → mapped (o.pa + o.bytes.length - 1) = true →
      ∃ t, exec (.outboundPerform n) s = .next t ∧ Wrote { s with outbound := s.outbound.eraseIdx n } t o.pa o.bytes)

/-- R89 to R97, R296 to R301, R332, R337: a promotion decrypts the tier page into a free frame and makes its leaf local; where a tag does not
check the fault fails INTEGRITY and the frame goes back, and with no frame it becomes a major fault. A page that migrates is in transit
until the accesses under way have completed; then its bytes and its leaf's new value go out, or the request is refused. What was parked
on the fault is then replayed, a fetch with its instruction's other bytes, or trapped where the fault failed. That a request names the
requester's frame, and the order of settling, are the model's (log 31, 32); that a failed replay drops the thread's unfinished resident range,
and that a fetch's record lowers no counter, is its reading (log 34, DEDUCED). -/
def Obligations.PagingEventResults : Prop := ∀ (s : State), s.poison = [] → s.halt = none →
  (∀ f : FaultRec, findFault s f.id = some f → promotable s f = true → leafState (s.rdNat f.pteAddr 8) = .tier → vmidRead s f.vmid = s →
    let leaf := s.rdNat f.pteAddr 8
    let tier := pteFrame leaf
    (∀ s1, takeFrame s f.vmid = (none, s1) → (makeMajor s1 f.id 0x10).halt = none → exec (.promotion f.id) s = .next (makeMajor s1 f.id 0x10)) ∧
    ∀ (fr version : Nat) (s1 s2 : State) (key : List Byte) (tags : List (List Byte)),
      takeFrame s f.vmid = (some fr, s1) → tierRec s1 tier = (version, tags) → workKey s1 f.vmid f.key = (key, s2) →
      mapped tier = true → mapped (tier + 65535) = true → mapped fr = true → mapped (fr + 65535) = true →
      refuses s2 fr 65536 = false → refuses s2 f.pteAddr 8 = false →
      (∀ page, decryptPage key version tier (recVf s2 f.vmid) tags (s2.rd tier 65536) = some page → page.length = 65536 →
        ∃ m1 m2, Wrote s2 m1 fr page ∧ Wrote m1 m2 f.pteAddr (leBytes 8 (putBits (putBits (localLeaf leaf fr (pteCount leaf + 1)) 8 8 0) 10 10 0)) ∧
          ((giveTier m2 f.vmid tier).halt = none → exec (.promotion f.id) s = .next (resolveFault (giveTier m2 f.vmid tier) f.id))) ∧
      (decryptPage key version tier (recVf s2 f.vmid) tags (s2.rd tier 65536) = none →
        let u := post (endFault (giveFrame s2 f.vmid fr) f.id fun n => .failed n 5 0) f.vf 8 0 f.page f.asid tier
        u.halt = none → exec (.promotion f.id) s = .next u)) ∧
  (∀ r : MigRequest,
    let page := r.page.toNat / 2 ^ 16 * 2 ^ 16
    let vmid := vmidOf s r.vf
    let asid := r.asid.toNat
    let replies (x : MigReply) := exec (.migrationRequest r) s = .next { s with migReply := some x, idle := false }
    (s.off = true → exec (.migrationRequest r) s = .next s) ∧
    (s.off = false → (∀ m ∈ s.moves, m.request ≠ some r) →
      (exported s r.frame ≠ r.tenant.toNat + 1 → replies .denied) ∧
      (exported s r.frame = r.tenant.toNat + 1 → vmidRead s vmid = s →
        (∀ leaf addr pa big wide fills, walk s vmid asid page = .leaf leaf addr pa big wide fills →
          (leafState leaf = .remote ∨ leafState leaf = .transit → replies .moved) ∧
          (leafState leaf = .tier → replies .refused) ∧
          (leafState leaf = .local → big = true ∨ pa ≠ r.frame ∨ inHbm pa = false ∨ bit leaf 4 = true ∨ pa / 2 ^ 16 ∈ s.sealMap ∨ pteCount leaf = 3 → replies .refused) ∧
          (leafState leaf = .local → big = false → pa = r.frame → inHbm pa = true → bit leaf 4 = false → pa / 2 ^ 16 ∉ s.sealMap → pteCount leaf ≠ 3 →
            refuses s addr 8 = false → ∃ m, Wrote { s with migReply := none, idle := false } m addr (leBytes 8 (putBits (putBits leaf 63 63 1) 5 5 1)) ∧
              exec (.migrationRequest r) s = .next { (dropPage m vmid asid page).2 with
                moves := s.moves ++ [⟨r.vf, vmid, asid, page, addr, leaf, pa, none, some r, (dropPage m vmid asid page).1, none⟩] })) ∧
        ((∀ leaf addr pa big wide fills, walk s vmid asid page ≠ .leaf leaf addr pa big wide fills) → replies .refused))) ∧
    ∀ m, s.off = false → s.moves.find? (fun m => m.request = some r) = some m →
      let n := max (pteCount m.old) r.mcount.toNat + 1
      let s1 := giveFrame s m.vmid m.frame
      (m.wait.any (inFlight s) = true → exec (.migrationRequest r) s = .next s) ∧
      (m.wait.any (inFlight s) = false → inHbm (m.frame + 65535) = true → s1.halt = none → refuses s1 m.leafAddr 8 = false →
        ∃ u, Wrote s1 u m.leafAddr (leBytes 8 (putBits (putBits (putBits (putBits (putBits m.old 63 63 1) 5 5 0) 59 56 r.peer.toNat) 51 16 (r.held / 2 ^ 16)) 7 6 n)) ∧
          let v := settleRecord (setExport (dropMove u m) m.frame 0) r.vf m.page m.asid r.peer.toNat n
          (v.halt = none → exec (.migrationRequest r) s = .next { v with migReply := some (.page (s.rd m.frame 65536) (BitVec.ofNat 2 n)) }))) ∧
  (∀ (f : FaultRec) (fr : Nat), findFault s f.id = some f → f.held = some fr →
    (∀ (bytes : List Byte) (n : BitVec 2), bytes.length = 65536 → mapped fr = true → mapped (fr + 65535) = true →
      refuses s fr 65536 = false → refuses s f.pteAddr 8 = false → ∃ m1 m2, Wrote s m1 fr bytes ∧ Wrote m1 m2 f.pteAddr (leBytes 8 (localLeaf (s.rdNat f.pteAddr 8) fr n.toNat)) ∧
        let u := settleRecord (setExport m2 fr (tenantOf s f.vf + 1)) f.vf f.page f.asid (bits s.peerid.toNat 3 0) n.toNat
        (u.halt = none → exec (.migrationComplete f.id (.page bytes n)) s = .next (resolveFault u f.id))) ∧
    ∀ u, dropHeld s f = u → u.halt = none →
      exec (.migrationComplete f.id .moved) s = .next (endFault u f.id fun n => .resolved n) ∧
      exec (.migrationComplete f.id .denied) s = .next (endFault u f.id fun n => .failed n 3 0xD) ∧
      ((makeMajor u f.id 0x11).halt = none → exec (.migrationComplete f.id .refused) s = .next (makeMajor u f.id 0x11))) ∧
  ∀ (k tid : Nat) (p : Park) (q : Parked), nextReplay s = some p → p.owner = .thread k tid → p.instr = some q →
    let store := p.kind = 1 ∨ p.kind = 3 ∧ q.x.getLsbD 4 = true
    let unparked (u : Thread) : Thread := { u with
      wait := .ready, ld := if p.kind = 2 ∨ store then u.ld else u.ld - 1, st := if store then u.st - 1 else u.st }
    (∀ n, p.state = .resolved n → p.kind ≠ 2 → ∃ t, exec (.faultReplay p.id) s = .next t ∧
      t = { s with teams := t.teams, parks := s.parks.filter (fun e => e.id ≠ p.id), follow := some q.instr, cur := t.cur } ∧
      t.cur = ⟨k, tid / 32, BitVec.twoPow 32 (tid % 32), q.pc, q.word, q.next, q.x, q.vc, none, some q.piece⟩ ∧
      t.thread k tid = unparked (s.thread k tid) ∧ (∀ j, j ≠ tid → t.thread k j = s.thread k j) ∧
      t.team k = { s.team k with threads := (t.team k).threads } ∧ ∀ j, j ≠ k → t.team j = s.team j) ∧
    (∀ n bs i, p.state = .resolved n → p.kind = 2 →
      let v := { s.modThread k tid unparked with
        parks := s.parks.filter (fun e => e.id ≠ p.id)
        cur := ⟨k, tid / 32, BitVec.twoPow 32 (tid % 32), q.pc, q.pc, q.pc, 0, 0, none, none⟩ }
      Code v q.pc bs → decode bs = .ok (i, []) → i.wellFormed → (∀ p n c x, i ≠ .pfx p n c x) →
        exec (.faultReplay p.id) s = .next { v with cur := { v.cur with next := q.pc + BitVec.ofNat 64 bs.length } }) ∧
    ∀ n cause info, p.state = .failed n cause info → cause ≠ 6 → (s.team k).phase ≠ .ended → (s.team k).desc.handler ≠ 0 → (s.thread k tid).handler = false →
      ∃ t, exec (.faultReplay p.id) s = .next t ∧ t = { s with teams := t.teams, cores := t.cores, parks := s.parks.filter (fun e => e.id ≠ p.id) } ∧
      (∀ c, t.core c = { s.core c with
        ranges := (s.core c).ranges.filter fun r => (s.team k).place.map (·.core) ≠ some c ∨ r.filler ≠ (k, tid) ∨ r.live = true }) ∧
      t.thread k tid = trapped (s.team k).desc.handler cause (putBits info 9 8 p.kind) (BitVec.ofNat 64 p.va) q.pc q.pc (unparked (s.thread k tid)) ∧
      (∀ j, j ≠ tid → t.thread k j = s.thread k j) ∧ t.team k = { s.team k with threads := (t.team k).threads } ∧ ∀ j, j ≠ k → t.team j = s.team j

/-- R101, R112 to R117, R119, R125 to R127: a command that runs moves its next piece, of at most 256 bytes of a row or one element of a TSCATA:
TLOAD and TGATH from memory or a resident range into the pad, whose row is zero elsewhere, TMCAST into its staging store; TSTORE and
TSCAT from the pad into memory; TSCATA adds; TPREF changes nothing. An index list is read first, by sectors. A row that no tensor row
stands behind is zero, or moves nothing. A piece that does not translate waits for its walk, fails the command, or parks it. A finished
command applies its completion, lowers `cp` and leaves; a TMCAST does so in each team of its bond once it finds its buffer free there.
Rows that have moved may arrive early. Pieces, the moment a unit counts and when a completion is observed are the model's (log 20). -/
def Obligations.CopyEventResults : Prop := ∀ (c : Copy) (s : State), s.copies = [c] → s.mops = [] → s.outbound = [] → s.poison = [] → s.halt = none →
  let h := parseHandle c.h
  let k := c.team
  let mode := c.cpl / 2 ^ 24 % 2 ^ 4
  let at_ := 4 * (c.cpl % 2 ^ 24)
  let rows := if c.f = 3 ∨ c.f = 4 then c.a2 else h.brows
  let per := if mode = 1 then 1 else (h.pitch + 63) / 64
  let padRow := c.pad + c.row * h.pitch
  let lists : Bool := c.f = 2 ∨ c.f = 3 ∨ c.f = 4
  let onRow (r : Nat) : Prop := if lists then c.idx[c.row]? = some r ∧ c.row < c.a2 ∧ r < h.rows else (r : Int) = h.row + toSigned 32 c.a1 + c.row ∧ r < h.rows
  let first : Int := max 0 (-(c.col * h.width))
  let last : Int := min (h.bcols * h.width) (h.cols * h.width - c.col * h.width)
  let nextRow : Copy := { c with
    row := c.row + 1, off := 0, phase := if h.brows ≤ c.row + 1 then (if c.f = 5 then .staged else .done) else .queued }
  let threads (j : Nat) (t : State) := ∀ i, { t.thread j i with wait := (s.thread j i).wait } = s.thread j i
  let others (t : State) := threads k t ∧ ∀ j, j ≠ k → t.team j = s.team j
  let completed (m t : Team) := (mode = 0 → t.pad = m.pad) ∧ (mode = 3 → PadHolds m t at_ (leBytes 4 c.flag.toNat)) ∧
    (mode = 1 ∨ mode = 2 → PadHolds m t at_ (leBytes 8 (arrive (m.padNat at_ 8) (rows * per - c.arrived))))
  let landed (fills : Bool) (t : Team) := (⟨c.id, k, c.tid, c.cpl, c.pad, c.pad + h.brows * h.pitch, fills⟩ : Landed) :: t.landed
  (c.phase = .queued → (s.team k).phase = .resident → c.clash = [] → (lists = true → c.a2 ≤ c.idx.length) →
    (∀ r lo hi : Nat, onRow r → (lo : Int) = first → (hi : Int) = last → lo < hi → lo % 8 = 0 → hi % 8 = 0 →
      let len := hi / 8 - lo / 8
      let n := if c.f = 4 then h.width / 8 else min 256 (len - c.off)
      let whole := if c.f = 4 ∧ c.off % 256 = 0 then min 256 (len - c.off) else n
      let va := (h.rowAddr r + c.col * h.width / 8 + (lo / 8 : Nat)).toNat + c.off
      let from_ := padRow + (lo / 8 + c.off)
      let next : Copy := if len ≤ c.off + n then nextRow else { c with off := c.off + n }
      let access : Acc × Nat × Nat := if c.f = 1 ∨ c.f = 3 then (.store, 1, 5) else if c.f = 4 then (.atomic, 3, 5) else (.load, 0, 4)
      let put (t u : State) (pa : Nat) (bs : List Byte) :=
        t = { u with mem := t.mem, icache := t.icache, cores := t.cores, shadow := t.shadow, copies := [next] } ∧ MemHolds u t pa bs ∧
        ∀ q, Store.get none t.shadow q = if pa < 32 * q + 32 ∧ 32 * q < pa + n then some ⟨1, (s.team k).interval, k⟩ else Store.get none u.shadow q
      c.off < len → 0 < n → (mode = 0 ∨ mode = 3 ∨ c.f = 5 ∨ c.f = 6 ∨ c.off + n < len) →
      (c.f = 0 ∨ c.f = 2 ∨ c.f = 5 → va % 2 ^ 10 + n ≤ 2 ^ 10 → ∀ (s1 : State) (bs : List Byte), raceMode s1 (s.team k).vmid (s.team k).asid = 0 →
        (∃ pa sl d, (c.f ≠ 5 → rangeFor s k va = none ∧ rangeFor s1 k va = none) ∧ translate s (c.who s) .load va n = (.ok pa sl d, s1) ∧ s1.halt = none ∧
          mapped pa = true ∧ lost s1 pa = false ∧ pa % 2 ^ 16 = va % 2 ^ 16 ∧ bs = s1.rd pa n) ∨
        (∃ e, c.f ≠ 5 ∧ s1 = s ∧ rangeFor s k va = some e ∧ (∀ i < n, va - e.base + i ∉ e.stale ∧ e.moved s (va + i) = false) ∧
          bs = (e.bytes.drop (va - e.base)).take n ∧ bs.length = n) →
        (c.f ≠ 5 → ∃ t m, exec (.copyPiece c.id) s = .next t ∧ t = { s1 with teams := t.teams, copies := [next] } ∧
          (if c.off = 0 then PadHolds (s.team k) m padRow (List.replicate h.pitch 0) else m = s.team k) ∧ PadHolds m (t.team k) from_ bs ∧
          t.team k = { s.team k with pad := (t.team k).pad, unfenced := (t.team k).unfenced, threads := (t.team k).threads } ∧
          (∀ e, e ∈ (t.team k).unfenced ↔ e ∈ (s.team k).unfenced ∧ ¬(from_ ≤ e.1 ∧ e.1 < from_ + n) ∧
            ¬(c.off = 0 ∧ padRow ≤ e.1 ∧ e.1 < padRow + h.pitch)) ∧ others t) ∧
        (c.f = 5 → ∃ t stage, exec (.copyPiece c.id) s = .next t ∧ t = { s1 with copies := [{ next with stage := stage }] } ∧
          ∀ x, stage.getD x 0 = if from_ - c.pad ≤ x ∧ x < from_ - c.pad + n then bs.getD (x - (from_ - c.pad)) 0
            else if c.off = 0 ∧ c.row * h.pitch ≤ x ∧ x < c.row * h.pitch + h.pitch then 0 else c.stage.getD x 0)) ∧
      (∀ s1 s2 pa sl d, va % 2 ^ 16 + whole ≤ 2 ^ 16 → translate s (c.who s) access.1 va whole = (.ok pa sl d, s1) → setDirty s1 d = s2 → s2.halt = none →
        inHbm pa = true → pa % 2 ^ 16 = va % 2 ^ 16 → raceMode s2 (s.team k).vmid (s.team k).asid = 0 →
        (c.f = 1 ∨ c.f = 3 → ∃ t, exec (.copyPiece c.id) s = .next t ∧ put t s2 pa (Store.getN 0 (s.team k).pad from_ n)) ∧
        (c.f = 4 → scataFmt h.fmt = true → n ≤ whole → ∃ t, exec (.copyPiece c.id) s = .next t ∧
          let old := s2.rdNat pa n
          let add := littleEndian (Store.getN 0 (s.team k).pad from_ n)
          put t s2 pa (leBytes n (if h.fmt = 1 then Exact.sum.pattern f32 .rne false old add 0 else if h.fmt = 2 then Exact.sum.pattern f16 .rne false old add 0
            else if h.fmt = 3 then Exact.sum.pattern bf16 .rne false old add 0 else (old + add) % 2 ^ 32)))) ∧
      ∀ x s1, translate s (c.who s) access.1 va (if c.f = 4 then whole else n) = (x, s1) → s1.halt = none → va % 2 ^ 10 + whole ≤ 2 ^ 10 →
        (c.f = 6 → (∀ w, x ≠ .walking w) → exec (.copyPiece c.id) s = .next { s1 with copies := [next] }) ∧
        (c.f < 6 → (c.f = 0 ∨ c.f = 2 → rangeFor s k va = none) →
          (∀ w, x = .walking w → exec (.copyPiece c.id) s = .next s1) ∧
          (∀ info, x = .prot info → ∃ t, exec (.copyPiece c.id) s = .next t ∧ t = { s1 with copies := [], teams := t.teams } ∧
            t.thread k c.tid = { s1.thread k c.tid with
              cp := (s1.thread k c.tid).cp - 1
              failures := (s1.thread k c.tid).failures ++ [⟨false, 3, putBits info 9 8 access.2.1, va, c.tia⟩] } ∧
            (∀ j, j ≠ c.tid → t.thread k j = s1.thread k j) ∧ t.team k = { s1.team k with threads := (t.team k).threads } ∧ ∀ j, j ≠ k → t.team j = s1.team j) ∧
          ∀ f u, ((∃ a b, x = .minor a b) ∨ ∃ a b, x = .major a b) → openFault s1 (whoOf s1 k) va access.2.2 x = (f, u) → u.halt = none →
            exec (.copyPiece c.id) s = .next { u with
              parks := u.parks ++ [⟨u.nextKey, .copy c.id, k, va, access.2.2, u.clock, u.clock, c.tid, none, .waiting f⟩]
              nextKey := u.nextKey + 1, copies := u.copies.map fun d => if d.id = c.id then { c with phase := .parked } else d })) ∧
    ((∀ r, ¬onRow r) ∨ last ≤ first →
      (c.f = 0 ∨ c.f = 2 → mode = 0 ∨ mode = 3 → ∃ t, exec (.copyPiece c.id) s = .next t ∧ t = { s with teams := t.teams, copies := [nextRow] } ∧
        PadHolds (s.team k) (t.team k) padRow (List.replicate h.pitch 0) ∧
        t.team k = { s.team k with pad := (t.team k).pad, unfenced := (t.team k).unfenced, threads := (t.team k).threads } ∧ others t) ∧
      (c.f = 6 ∨ (c.f = 1 ∨ c.f = 3 ∨ c.f = 4) ∧ (mode = 0 ∨ mode = 3) → exec (.copyPiece c.id) s = .next { s with copies := [nextRow] }) ∧
      (c.f = 5 → ∃ t stage, exec (.copyPiece c.id) s = .next t ∧ t = { s with copies := [{ nextRow with stage := stage }] } ∧
        ∀ x, stage.getD x 0 = if c.row * h.pitch ≤ x ∧ x < c.row * h.pitch + h.pitch then 0 else c.stage.getD x 0) ∧
      (c.f = 1 ∨ c.f = 3 ∨ c.f = 4 → mode = 1 ∨ mode = 2 →
        let n := min (c.row + 1) (rows - 1) * per - c.arrived
        let now := Config.freeBit s.freeCount
        (n = 0 → exec (.copyPiece c.id) s = .next { s with copies := [nextRow] }) ∧
        (0 < n → now = false → exec (.copyPiece c.id) s = .next { s with copies := [nextRow], freeCount := s.freeCount + 1 }) ∧
        (0 < n → now = true → ∃ t, exec (.copyPiece c.id) s = .next t ∧
          t = { s with teams := t.teams, copies := [{ nextRow with arrived := c.arrived + n }], freeCount := s.freeCount + 1 } ∧
          PadHolds (s.team k) (t.team k) at_ (leBytes 8 (arrive ((s.team k).padNat at_ 8) n)) ∧ others t)))) ∧
  (c.phase = .queued → (s.team k).phase = .resident → c.clash = [] → lists = true → c.idx.length < c.a2 →
    let ih := parseHandle c.link
    let va := ih.base + c.a1 + 4 * c.idx.length
    let n := min ((32 - va % 32) / 4) (c.a2 - c.idx.length)
    let read (bs : List Byte) : Copy := { c with idx := c.idx ++ (List.range n).map fun i => littleEndian ((bs.drop (4 * i)).take 4) }
    va % 4 = 0 →
    (ih.space = true → exec (.copyPiece c.id) s = .next { s with copies := [read (Store.getN 0 (s.team k).pad va (4 * n))] }) ∧
    ∀ s1 pa sl d, ih.space = false → translate s (c.who s) .load va (4 * n) = (.ok pa sl d, s1) → s1.halt = none → mapped pa = true → lost s1 pa = false →
      pa % 2 ^ 16 = va % 2 ^ 16 → raceMode s1 (s.team k).vmid (s.team k).asid = 0 → exec (.copyPiece c.id) s = .next { s1 with copies := [read (s1.rd pa (4 * n))] }) ∧
  (c.phase = .done → ∃ t, exec (.copyComplete c.id) s = .next t ∧ t = { s with teams := t.teams, copies := [] } ∧
    (c.f < 5 → completed (s.team k) (t.team k) ∧ t.team k = { s.team k with
      pad := (t.team k).pad, unfenced := (t.team k).unfenced, threads := (t.team k).threads, landed := landed (c.f = 0 ∨ c.f = 2) (s.team k) }) ∧
    (c.f = 5 ∨ c.f = 6 → t.team k = { s.team k with threads := (t.team k).threads }) ∧
    (∀ j, { t.thread k j with wait := (s.thread k j).wait } =
      if j = c.tid ∧ c.f ≠ 6 then { s.thread k j with cp := (s.thread k j).cp - 1 } else s.thread k j) ∧
    ∀ j, j ≠ k → t.team j = s.team j) ∧
  (c.f = 5 → c.phase = .staged → c.clash = [] → k ∈ bondOf s k → (bondOf s k).Nodup →
    (∀ j ∈ bondOf s k, (s.team j).phase = .resident ∧ (s.team j).bufFree.getLsbD (c.cpl / 2 ^ 28 % 2 ^ 4) = true) →
    ∃ t, exec (.tmcastBufferClaim c.id) s = .next t ∧ t = { s with teams := t.teams, copies := [{ c with phase := .done }] } ∧
      (∀ j ∈ bondOf s k, ∃ m, PadHolds (s.team j) m c.pad c.stage ∧ completed m (t.team j) ∧ threads j t ∧ t.team j = { s.team j with
        pad := (t.team j).pad, unfenced := (t.team j).unfenced, threads := (t.team j).threads, landed := landed true (s.team j)
        bufFree := (s.team j).bufFree &&& ~~~BitVec.twoPow 16 (c.cpl / 2 ^ 28 % 2 ^ 4) }) ∧
      ∀ j, j ∉ bondOf s k → t.team j = s.team j)

/-- R131 to R133, R99, R331: a channel reads its record, and takes it up only where it owns it and finds it well formed; translates a
chunk's destination and source and moves it piece by piece; and writes status, completion and next. Where a chunk's destination does not
translate, PROT ends the record with its status, and a fault writes the progress and parks; a destination sealed meanwhile ends it as PROT,
a peer out of reach as ECC. Pieces of 256 bytes are the model's (log 20). That a record at a misaligned address ends with status 2 and keeps
its progress and tcode, that a frame sealed meanwhile gives status 3 with tcode 0x07 and a lost peer status 6, and that an unaligned
completion is written from the place of its first byte on, is the model's reading (log 29, DEDUCED). -/
def Obligations.ChainEventResults : Prop := ∀ (ch : Nat) (s s1 : State) (pa : Nat) (sl : Bool) (d : Option Nat),
  let c := s.chan ch
  let r := parseChain c.bytes
  let u := setDirty s1 d
  let goes (t v : State) (phase : ChanPhase) := t = { v with chans := t.chans } ∧ t.chan ch = { c with phase := phase } ∧ ∀ j, j ≠ ch → t.chan j = s.chan j
  let writes (t v : State) (phase : ChanPhase) (at_ : Nat) (bs : List Byte) := MemHolds v t at_ bs ∧
    t = { v with chans := t.chans, mem := t.mem, icache := t.icache, cores := t.cores } ∧ t.chan ch = { c with phase := phase } ∧ ∀ j, j ≠ ch → t.chan j = s.chan j
  AtRest s → s.halt = none → chanParked s ch = false →
  (c.phase = .readRecord → translate s (c.who ch) .load c.rec_ 64 = (.ok pa sl d, s1) → s1.halt = none → mapped pa = true → mapped (pa + 63) = true →
    lost s1 pa = false → ∃ t, exec (.chainRecordRead ch) s = .next t ∧ t = { s1 with chans := t.chans } ∧ (∀ j, j ≠ ch → t.chan j = s.chan j) ∧
    let q := parseChain (s1.rd pa 64)
    t.chan ch = { c with bytes := s1.rd pa 64, phase :=
      if q.own = false then .stopped
      else if c.rec_ % 64 = 0 ∧ q.src % 256 = 0 ∧ q.dst % 256 = 0 ∧ q.len % 256 = 0 ∧ 0 < q.len ∧ q.src % 65536 = q.dst % 65536 ∧ q.src + q.len ≤ 2 ^ 52 ∧
        q.dst + q.len ≤ 2 ^ 52 then (if q.progress < q.chunks then .chunk q.progress else .ending q.chunks 1 0)
      else (.ending q.progress 2 q.tcode) }) ∧
  (∀ j, c.phase = .chunk j →
    let va := r.dst + (r.chunk j).1
    let n := (r.chunk j).2
    (∀ s2 from_ sl2 d2, translate s (c.who ch) .store va n = (.ok pa sl d, s1) → translate s1 (c.who ch) .load (r.src + (r.chunk j).1) n = (.ok from_ sl2 d2, s2) →
      lost s2 from_ = false → (setDirty s2 d).halt = none →
      ∃ t, exec (.chainChunk ch) s = .next t ∧ goes t (setDirty s2 d) (.moving j 0 from_ pa)) ∧
    (∀ x, translate s (c.who ch) .store va n = (x, s1) → s1.halt = none →
      (∀ w, x = .walking w → exec (.chainChunk ch) s = .next s1) ∧
      (∀ info, x = .prot info → ∃ t, exec (.chainChunk ch) s = .next t ∧ goes t s1 (.ending j 3 (info % 256))) ∧
      ∀ s2 at_ sl2 d2, ((∃ a b, x = .minor a b) ∨ ∃ a b, x = .major a b) → translate s1 (c.who ch) .store c.rec_ 16 = (.ok at_ sl2 d2, s2) →
        refuses s2 at_ 16 = false → (setDirty s2 d2).halt = none → inHbm (at_ + 15) = true →
        ∃ m, Wrote (setDirty s2 d2) m (at_ + 12) (leBytes 4 j) ∧ ∀ f v, openFault m (c.who ch) va 5 x = (f, v) → v.halt = none →
          exec (.chainChunk ch) s = .next { v with
            parks := v.parks ++ [⟨v.nextKey, .chan ch, 0, va, 5, v.clock, v.clock, 0, none, .waiting f⟩], nextKey := v.nextKey + 1 })) ∧
  (∀ j off from_ dest, c.phase = .moving j off from_ dest →
    let n := (r.chunk j).2
    let m := min 256 (n - off)
    (lost s (from_ + off) = true ∨ lost s dest = true → ∃ t, exec (.chainChunk ch) s = .next t ∧ goes t s (.ending j 6 0)) ∧
    (lost s (from_ + off) = false → lost s dest = false → refuses s dest n = true → ∃ t, exec (.chainChunk ch) s = .next t ∧ goes t s (.ending j 3 7)) ∧
    (0 < m → lost s (from_ + off) = false → refuses s dest n = false → mapped (from_ + off) = true → mapped (from_ + off + m - 1) = true →
      inHbm (dest + off + m) = true → ∃ t, exec (.chainChunk ch) s = .next t ∧
        writes t s (if off + m < n then .moving j (off + m) from_ dest else if j + 1 < r.chunks then .chunk (j + 1) else .ending r.chunks 1 0)
          (dest + off) (s.rd (from_ + off) m))) ∧
  (∀ j st code, c.phase = .ending j st code → translate s (c.who ch) .store c.rec_ 16 = (.ok pa sl d, s1) → u.halt = none → inHbm (pa + 15) = true →
    ∃ t, exec (.chainRecordComplete ch) s = .next t ∧
      writes t u (if st = 2 then .stopped else .completing st) pa (leBytes 16 (j * 2 ^ 96 + code * 2 ^ 16 + st * 2 ^ 8))) ∧
  (∀ st, c.phase = .completing st →
    (r.cpladdr = 0 → ∃ t, exec (.chainRecordComplete ch) s = .next t ∧ goes t s (if st = 1 then .follow else .stopped)) ∧
    (r.cpladdr ≠ 0 → translate s (c.who ch) .store r.cpladdr 4 = (.ok pa sl d, s1) → u.halt = none → refuses u pa 4 = false → mapped pa = true → mapped (pa + 3) = true →
      ∃ t, exec (.chainRecordComplete ch) s = .next t ∧ writes t u (if st = 1 then .follow else .stopped) pa (leBytes 4 r.cplval))) ∧
  (c.phase = .follow → translate s (c.who ch) .load (c.rec_ + 56) 8 = (.ok pa sl d, s1) → s1.halt = none → mapped pa = true → mapped (pa + 7) = true →
    lost s1 pa = false → ∃ t, exec (.chainRecordComplete ch) s = .next t ∧ t = { s1 with chans := t.chans } ∧ (∀ j, j ≠ ch → t.chan j = s.chan j) ∧
    t.chan ch = if s1.rdNat pa 8 = 0 then { c with phase := .stopped } else { c with phase := .readRecord, rec_ := s1.rdNat pa 8 })

/-- R58, R61, R203, R206 to R210, R213 to R215, R219, R229, R232, R233: the only operation in the queue fetches its operand pages in order, each
translated at its first operand byte (log 47), waits, parks or fails where one does not translate, and fails SPARSE_META at its first
illegal nibble; gets leave; accumulates each element of its tile group by group with one rounding each, a position that metadata drops
giving zero, or multiplies it for MHAD; and commits its drain row by row: tiles, stores, statistics, and after row 63 its end. The cut into
events is the model's (log 2, 22). -/
def Obligations.MatrixEventResults : Prop := ∀ (m : Mop) (s : State), s.mops = [m] → s.copies = [] → s.outbound = [] → s.poison = [] → s.halt = none →
  let k := m.team
  let w := mword m.word
  let a := parseHandle m.ha
  let b := parseHandle m.hb
  let mt := metaBox m.ha m.hm
  let read (h : Handle) : Nat → Byte := if h.space then Store.get 0 m.pad else fun x => s.byteAt (m.phys x)
  let others (t : State) := ∀ j, j ≠ k → t.team j = s.team j
  let ends (t : State) (fails : Nat → List Failure) := t.mops = [] ∧ others t ∧ ∀ j, { t.thread k j with wait := (s.thread k j).wait } =
    { s.thread k j with tl := (s.thread k j).tl - m.counted.count j, failures := (s.thread k j).failures ++ fails j }
  let fails (cause info tfa : Nat) (j : Nat) : List Failure := m.issuers.flatMap fun e => (e.2.2.filter (· = j)).map fun _ => ⟨true, cause, info, tfa, e.2.1⟩
  let failed (t u : State) (cause info tfa : Nat) := t = { u with teams := t.teams, mops := [] } ∧ ends t (fails cause info tfa) ∧
    t.team k = { s.team k with threads := (t.team k).threads, unseen := (t.team k).unseen }
  let faulted (i : Instr) (x : Xlat) (s1 : State) (va kind park : Nat) (row : Option Nat) := s1.halt = none →
    (∀ n, x = .walking n → exec i s = .next s1) ∧
    (∀ info, x = .prot info → ∃ t, exec i s = .next t ∧ failed t s1 3 (putBits info 9 8 kind) va) ∧
    ∀ f u, ((∃ c d, x = .minor c d) ∨ ∃ c d, x = .major c d) → openFault s1 (whoOf s1 k) va park x = (f, u) → u.halt = none → u.mops = [m] →
      exec i s = .next { u with
        parks := u.parks ++ [⟨u.nextKey, .mop m.id, k, va, park, u.clock, u.clock, m.lowTid, none, .waiting f⟩], nextKey := u.nextKey + 1
        mops := [{ m with phase := .parked row }] }
  (s.team k).phase = .resident → m.undef = [] → m.clash = [] → m.taint = [] → (∀ x, rangeFor s k x = none) →
  (m.phase = .queued → m.qnts = [] →
    (w.kind ≠ .sparse → (∀ e ∈ m.fetches, e.1 = true) → ∃ t, exec (.tileFetch m.id) s = .next t ∧
      t = { s with mops := [{ m with pages := [], scales := [], phase := .fetched }] }) ∧
    (w.kind = .dense → a.space = false → b.space = false → ∀ p q : Nat, p ≠ q → a.ranges ≠ [] → b.ranges ≠ [] →
      (∀ e ∈ a.ranges, 0 < e.2 ∧ e.1 / 2 ^ 16 = p ∧ (e.1 + e.2 - 1) / 2 ^ 16 = p) → (∀ e ∈ b.ranges, 0 < e.2 ∧ e.1 / 2 ^ 16 = q ∧ (e.1 + e.2 - 1) / 2 ^ 16 = q) →
      ∀ va vb : Nat, (∃ n, (va, n) ∈ a.ranges) → (∀ e ∈ a.ranges, va ≤ e.1) → (∃ n, (vb, n) ∈ b.ranges) → (∀ e ∈ b.ranges, vb ≤ e.1) →
      (∀ x s1, translate s (m.who s) .load va 1 = (x, s1) → faulted (.tileFetch m.id) x s1 va 0 4 none) ∧
      ∀ s1 s2 pa pb sl sl' d d', translate s (m.who s) .load va 1 = (.ok pa sl d, s1) → translate s1 (m.who s) .load vb 1 = (.ok pb sl' d', s2) → s2.halt = none →
        (∀ x, x / 2 ^ 16 = p → lost s2 (pa - va % 2 ^ 16 + x % 2 ^ 16) = false) → (∀ x, x / 2 ^ 16 = q → lost s2 (pb - vb % 2 ^ 16 + x % 2 ^ 16) = false) →
        exec (.tileFetch m.id) s = .next { s2 with
          mops := [{ m with pages := [(p, pa - va % 2 ^ 16), (q, pb - vb % 2 ^ 16)], scales := [], phase := .fetched }] }) ∧
    (w.kind = .sparse → a.space = true → b.space = true → mt.space = true →
      let inside (i g : Nat) := mt.inside (mt.row + i) (mt.col + (g / 8 : Nat))
      let at_ (i g : Nat) := mt.rowAddr (mt.row + i).toNat + 4 * (mt.col + (g / 8 : Nat)).toNat
      let nib (i g : Nat) : Nat := if inside i g then littleEndian (Store.getN 0 m.pad (at_ i g) 4) / 2 ^ (4 * (g % 8)) % 16 else 8
      let legal (i g : Nat) := nib i g % 4 < nib i g / 4
      let groups := classK (opClass a.fmt) / 2
      ((∀ i < 64, ∀ g < groups, legal i g) → exec (.tileFetch m.id) s = .next { s with mops := [{ m with pages := [], scales := [], phase := .fetched }] }) ∧
      ∀ i g, i < 64 → g < groups → ¬legal i g → (∀ i' g', i' < 64 → g' < groups → i' < i ∨ i' = i ∧ g' < g → legal i' g') →
        ∃ t, exec (.tileFetch m.id) s = .next t ∧ failed t s 7 (g + i * 2 ^ 8) (at_ i g))) ∧
  (m.phase = .fetched → exec (.matrixLeaveGrant m.id) s = .next { s with mops := [{ m with phase := .granted }] }) ∧
  (m.phase = .granted → w.kind ≠ .drain →
    (∀ h ∈ (match w.kind with | .dense => [a, b] | .sparse => [a, b, { mt with bcols := (classK (opClass a.fmt) / 2 + 7) / 8 }] | _ => [b]), h.space = false →
      ∀ e ∈ h.ranges, ∀ x, e.1 ≤ x → x < e.1 + e.2 → mapped (m.phys x) = true ∧ lost s (m.phys x) = false) →
    (w.kind = .dense ∨ w.kind = .sparse → boxIs 64 (classK (opClass a.fmt)) a = true) →
    (w.kind = .dense → boxIs (classK (opClass a.fmt)) 64 b = true) → (w.kind = .sparse → boxIs (2 * classK (opClass a.fmt)) 64 b = true ∧ sparseFmt a.fmt = true) →
    (w.kind = .tile → boxIs 64 64 b = true) →
    let wide := w.kind = .dense ∧ opClass a.fmt = .fp64
    let held (c i j : Nat) : Nat := (Store.get 0 (s.team k).tiles (4096 * c + 64 * i + j)).toNat
    let start (c i j : Nat) : Nat := if w.zero then 0 else held c i j
    let written := if wide then [w.c, w.c + 1] else [w.c]
    let word (i g : Nat) : Nat := if mt.inside (mt.row + i) (mt.col + (g / 8 : Nat)) then
      littleEndian ((List.range 4).map fun x => read mt (mt.rowAddr (mt.row + i).toNat + 4 * (mt.col + (g / 8 : Nat)).toNat + x)) else 0x88888888
    let nib (i g : Nat) := word i g / 2 ^ (4 * (g % 8)) % 16
    let left (i l : Nat) : Option Val := match w.kind with
      | .dense => some (operandElement (read a) a i l)
      | .sparse => if l % 4 = nib i (l / 4) % 4 then some (operandElement (read a) a i (2 * (l / 4)))
          else if l % 4 = nib i (l / 4) / 4 then some (operandElement (read a) a i (2 * (l / 4) + 1)) else none
      | _ => some (f32.decode (held w.ha i l))
    let right (l j : Nat) : Val := operandElement (read b) b l j
    let depth := match w.kind with | .dense => classK (opClass a.fmt) | .sparse => 2 * classK (opClass a.fmt) | _ => 64
    let size := match w.kind with | .dense => classG (opClass a.fmt) | .sparse => 2 * classG (opClass a.fmt) | _ => 1
    let products (i j : Nat) : List (List Val) := (List.range (depth / size)).map fun g => (List.range size).map fun q =>
      match left i (size * g + q) with
      | some x => valMul x (right (size * g + q) j)
      | none => .num false 0 0
    ∃ t, exec (.arrayAccumulate m.id) s = .next t ∧ t = { s with teams := t.teams, mops := t.mops } ∧ others t ∧
      (w.kind ≠ .had → ¬wide → ∀ i < 64, ∀ j < 64, ∃ y, Accumulates f32 (start w.c i j) (products i j) y ∧
        Store.get 0 (t.team k).tiles (4096 * w.c + 64 * i + j) = BitVec.ofNat 32 y) ∧
      (wide → ∀ i < 64, ∀ j < 64, ∃ y, Accumulates f64 (start w.c i j + 2 ^ 32 * start (w.c + 1) i j) (products i j) y ∧
        Store.get 0 (t.team k).tiles (4096 * w.c + 64 * i + j) = BitVec.ofNat 32 y ∧
        Store.get 0 (t.team k).tiles (4096 * (w.c + 1) + 64 * i + j) = BitVec.ofNat 32 (y / 2 ^ 32)) ∧
      (w.kind = .had → boxIs 64 64 b = true ∨ boxIs 64 1 b = true ∨ boxIs 1 64 b = true → ∀ i < 64, ∀ j < 64,
        Store.get 0 (t.team k).tiles (4096 * w.c + 64 * i + j) =
          BitVec.ofNat 32 (f32.round .rne false false (valMul (f32.decode (held w.ha i j)) (right (if boxIs 1 64 b then 0 else i) (if boxIs 64 1 b then 0 else j))))) ∧
      (∀ x, x / 4096 ∉ written → Store.get 0 (t.team k).tiles x = Store.get 0 (s.team k).tiles x) ∧
      (w.dp ≠ 0 → t.mops = [{ m with phase := .draining 0, pages := [] }] ∧ t.team k = { s.team k with tiles := (t.team k).tiles }) ∧
      (w.dp = 0 → ends t (fun _ => []) ∧ t.team k = { s.team k with tiles := (t.team k).tiles, threads := (t.team k).threads, unseen := (t.team k).unseen })) ∧
  ∀ i row, i < 64 → m.phase = .draining i ∨ (m.phase = .granted ∧ i = 0 ∧ ∃ d p, m.word = .mdrain d p) →
    drainRow m i (Store.getN 0 (s.team k).tiles (4096 * m.tile + 64 * i) 64) = row →
    let tiles := row.accw.foldl (fun ts e => Store.set 0 ts (4096 * e.1 + 64 * i + e.2.1) (BitVec.ofNat 32 e.2.2)) (s.team k).tiles
    let then_ (t : State) := (i < 63 → t.mops = [{ m with phase := .draining (i + 1) }] ∧ others t ∧
      ∀ j, { t.thread k j with wait := (s.thread k j).wait } = s.thread k j) ∧ (i = 63 → ends t fun _ => [])
    ((∀ r ∈ row.stores, r.pad = true) → ∃ t u, exec (.drainRowCommit m.id) s = .next t ∧ t = { s with teams := t.teams, mops := t.mops } ∧ then_ t ∧
      StoredBits (s.team k) row.stores u ∧ CountedBlocks u row.stats (t.team k) ∧ t.team k = { s.team k with
        tiles := tiles, pad := (t.team k).pad, unfenced := (t.team k).unfenced, threads := (t.team k).threads
        unseen := if i = 63 then (t.team k).unseen else (s.team k).unseen }) ∧
    ∀ r, row.stores = [r] → row.stats = [] → r.pad = false → 0 < r.w → r.addr % 2 ^ 16 + r.size ≤ 2 ^ 16 →
      (∀ x s1, translate s (m.who s) .store r.addr r.size = (x, s1) → faulted (.drainRowCommit m.id) x s1 r.addr 1 5 (some i)) ∧
      ∀ s1 s2 pa sl d, translate s (m.who s) .store r.addr r.size = (.ok pa sl d, s1) → setDirty s1 d = s2 → s2.halt = none → inHbm pa = true →
        pa % 2 ^ 16 = r.addr % 2 ^ 16 → raceMode s2 (s.team k).vmid (s.team k).asid = 0 →
        ∃ t, exec (.drainRowCommit m.id) s = .next t ∧ then_ t ∧
          t = { s2 with teams := t.teams, mops := t.mops, mem := t.mem, icache := t.icache, cores := t.cores, shadow := t.shadow } ∧
          MemHolds s2 t pa (leBytes r.size (putBits (s2.rdNat pa r.size) (r.lo + r.w - 1) r.lo r.v)) ∧
          (∀ q, Store.get none t.shadow q = if pa < 32 * q + 32 ∧ 32 * q < pa + r.size then some ⟨1, (s.team k).interval, k⟩ else Store.get none s2.shadow q) ∧
          t.team k = { s.team k with tiles := tiles, threads := (t.team k).threads, unseen := if i = 63 then (t.team k).unseen else (s.team k).unseen }

/-- R198, R284, R289, R302, R319: the events of a core's quadrants and of a waiting team. A trigger starts the team's swap, and the age
trigger adds its reason to one that runs; STALL traps every live thread. Only lanesets with a ready thread stay active, and they fill the
places that are free; an exchange brings in the pending laneset that became ready first, after 2,048 clocks, for the one active longest.
The end of a PASS hold and of a sleep do only that. -/
def Obligations.SchedulerEventResults : Prop := ∀ (s : State) (k n tid : Nat),
  let old : Prop := ∃ p ∈ ownParks s k, p.waits = true ∧ p.origin + (s.team k).desc.park * 1500 ≤ s.clock
  let swap (t : State) := t = { s with teams := t.teams, nextKey := s.nextKey + 1 } ∧ (∀ j, j ≠ k → t.team j = s.team j) ∧
    t.team k = { s.team k with phase := .swapping, swapNo := s.nextKey, reasons := (s.team k).reasons ++ [.park] }
  ((s.team k).phase = .resident → old → ∃ t, exec (.parkAgeTrigger k) s = .next t ∧ swap t) ∧
  ((s.team k).phase = .swapping → old → ∃ t, exec (.parkAgeTrigger k) s = .next t ∧ t = { s with teams := t.teams } ∧ (∀ j, j ≠ k → t.team j = s.team j) ∧
    t.team k = { s.team k with reasons := if .park ∈ (s.team k).reasons then (s.team k).reasons else (s.team k).reasons ++ [.park] }) ∧
  (let parked := (s.team k).live.filter fun i => (s.thread k i).wait = .parked
   (s.team k).phase = .resident → parked ≠ [] → (s.team k).live.length ≤ 2 * parked.length → (s.team k).lastIssue + 4096 ≤ s.clock →
    ∃ t, exec (.parkShareTrigger k) s = .next t ∧ swap t) ∧
  (stalled s k = true → s.halt = none → Store.wf Thread.unused (s.team k).threads = true → (s.team k).latches = [] → (s.team k).desc.handler ≠ 0 →
    (∀ i ∈ (s.team k).live, (s.thread k i).handler = false) →
    ∃ t, exec (.stall k) s = .next t ∧ t = { s with teams := t.teams } ∧ (∀ j, j ≠ k → t.team j = s.team j) ∧
      t.team k = { s.team k with insts := [], claims := [], threads := (t.team k).threads } ∧
      ∀ i, t.thread k i = if i ∈ (s.team k).live then
          let e := (teamBlocked (s.thread k i).wait).getD (0, 0)
          trapped (s.team k).desc.handler 9 (e.1 + 2 ^ 8 * e.2) 0 (s.thread k i).pc (s.thread k i).pc (s.thread k i)
        else s.thread k i) ∧
  (let q := (refreshQuad s n).quad n
   (∀ e ∈ (s.quad n).active, hasReady s (e.1, e.2.1) = true → e ∈ q.active) ∧ (∀ e ∈ q.active, hasReady s (e.1, e.2.1) = true) ∧
   (8 ≤ q.active.length ∨ ∀ e ∈ q.pending, hasReady s (e.1, e.2.1) = false) ∧
   (∀ k l c out, FirstOf (readySince q) (k, l, c) → 8 ≤ q.active.length → c + 2048 ≤ s.clock → q.lastExchange + 2048 ≤ s.clock → FirstOf q.active out →
     ∃ t r, exec (.lanesetExchange n) s = .next t ∧ Exchanged s q r (out.1, out.2.1) ∧ t = { s with quads := t.quads } ∧
       t.quad n = { r with lastExchange := s.clock } ∧ ∀ m, m ≠ n → t.quad m = s.quad m) ∧
   ((∀ e ∈ readySince q, s.clock < e.2.2 + 2048) ∨ s.clock < q.lastExchange + 2048 → exec (.lanesetExchange n) s = .next s)) ∧
  (∃ t, exec (.passHoldEnd n) s = .next t ∧ t = { s with quads := t.quads } ∧ (∀ m, m ≠ n → t.quad m = s.quad m) ∧
    t.quad n = { s.quad n with holds := (s.quad n).holds.filter fun h => s.clock < h.2.2 + 64 }) ∧
  ∀ until_, (s.thread k tid).wait = .sleep until_ → until_ ≤ s.clock → (s.team k).phase = .resident → ∃ t, exec (.sleepcWake k tid) s = .next t ∧
    t = { s with teams := t.teams } ∧ t.thread k tid = (s.thread k tid).done (s.thread k tid).next ∧ (∀ j, j ≠ tid → t.thread k j = s.thread k j) ∧
    t.team k = { s.team k with threads := (t.team k).threads } ∧ ∀ j, j ≠ k → t.team j = s.team j

/-- R15, R136 to R138, R275 to R280, R303, R308: the dispatcher starts a packet, advancing rp, and writes a NOP's or BARRIER's completion, creates a
LAUNCH's grid, or refuses it with the lowest code that applies. It places a grid's next team, in its state at launch, on the lowest core
that fits it, at the lowest slot and pad window, and a bond on the lowest run of cores of a die that fits all of it; ends a grid whose
teams have all ended; and takes a team off its core and back. The cut into events, and the key and place a team keeps here, are the model's
(log 2, 9, 35). -/
def Obligations.DispatcherEventResults : Prop := ∀ (s : State) (v n h k : Nat) (r : RingHdr) (p : Packet), s.poison = [] → s.outbound = [] → s.halt = none →
  let parksLeft := s.parks.filter fun q => q.owner ≠ .packet v n
  let begun (t u : State) := MemHolds u t (h + 8) (leBytes 4 (r.rp + 1)) ∧
    t = { u with mem := t.mem, icache := t.icache, cores := t.cores, vfs := t.vfs, rrPos := Store.set 0 s.rrPos r.prio (64 * v + n + 1), parks := parksLeft } ∧
    t.vf v = { u.vf v with bells := (t.vf v).bells } ∧ (∀ w, w ≠ v → t.vf w = u.vf w) ∧
    ∀ i, Store.get (0, false) (t.vf v).bells i = if i = n then (r.wp, decide ((r.rp + 1) % 2 ^ 32 ≠ r.wp)) else Store.get (0, false) (u.vf v).bells i
  (headPacket s v n = some (h, r, p) → nextPacket s = some (v, n) → packetFailed s v n 5 = false → headPoisoned s h r = false → mapped (h + 8) = true →
    mapped (h + 11) = true → refuses s (h + 8) 4 = false → childOf s v n r.rp = none →
    (∀ i, (i, p.type) ∈ [(Instr.packetNop v n, 0), (Instr.packetBarrier v n, 2)] →
      (p.cpladdr = 0 → ∃ u, begun u s ∧ exec i s = .next { u with freeCount := s.freeCount + 1 }) ∧
      ∀ s1 pa sl d, p.cpladdr ≠ 0 → p.cpladdr % 4 = 0 → translate s { packetWho s v n p with super := false } .store p.cpladdr 4 = (.ok pa sl d, s1) →
        s1.halt = none → s1.parks = s.parks → s1.rrPos = s.rrPos → s1.teams = s.teams → mapped pa = true → mapped (pa + 3) = true →
        refuses s pa 4 = false → ∃ t u, exec i s = .next t ∧ begun u s1 ∧ MemHolds (setDirty u d) t pa (leBytes 4 p.cplval) ∧
          t = { setDirty u d with mem := t.mem, icache := t.icache, cores := t.cores, freeCount := s1.freeCount + 1 }) ∧
    (p.type ≠ 0 → p.type ≠ 2 → s.fatal = false →
      let malformed : Prop := 3 ≤ p.type ∨ p.reserved = true ∨ p.kdesc % 64 ≠ 0 ∨ p.kargs % 64 ≠ 0 ∨ (p.cpladdr ≠ 0 ∧ p.cpladdr % 4 ≠ 0)
      let turned (s1 : State) (code : Nat) := ∃ u, begun u s1 ∧
        let q := post { u with freeCount := s1.freeCount + 1 } v 6 code h r.rp 0
        (q.halt = none → exec (.packetLaunch v n) s = .next q)
      (malformed → p.cpladdr = 0 → turned s 1) ∧
      (¬malformed → p.cpladdr = 0 → packetFailed s v n 4 = true → turned s 2) ∧
      ∀ (e : BitVec 128) (got : Got Launch) (s1 : State), ¬malformed → packetFailed s v n 4 = false → (s.vf v).ringCopy[n]? = some e → readLaunch s (packetWho s v n p) p = (got, s1) →
        s1.halt = none → s1.parks = s.parks → s1.rrPos = s.rrPos → s1.teams = s.teams →
        (p.cpladdr = 0 → (match got with | .bad => True | _ => False) → turned s1 2) ∧
        ∀ l : Launch, (match got with | .ok l' => l' = l | _ => False) →
          let fits : Prop := ∃ slot base, fitBeside [] l.desc = some (slot, base)
          let sized : Prop := p.x ≠ 0 ∧ p.y ≠ 0 ∧ p.z ≠ 0 ∧ p.x * p.y * p.z < 2 ^ 32 ∧ (l.desc.bond = 0 ∨ p.x * p.y * p.z % l.desc.bond = 0)
          let allowed : Prop := p.super = true → e.toNat.testBit 65 = true
          (p.cpladdr = 0 → (l.valid = false → turned s1 3) ∧ (l.valid = true → ¬fits → turned s1 4) ∧ (l.valid = true → fits → ¬sized → turned s1 5) ∧
            (l.valid = true → fits → sized → ¬allowed → turned s1 6)) ∧
          (l.valid = true → fits → sized → allowed → ∃ t u, begun u s1 ∧ exec (.packetLaunch v n) s = .next t ∧
            t = { u with grids := t.grids, nextKey := s1.nextKey + 1 } ∧ (∀ g, g ≠ s1.nextKey → t.grid g = s1.grid g) ∧
            ∃ g, t.grid s1.nextKey = some g ∧ g.id.toNat = (v * 2 ^ 24 + n * 2 ^ 18 + r.rp % 2 ^ 18) % 2 ^ 32 ∧ g.vf = v ∧ g.ring = n ∧ g.level = r.prio ∧
              (g.x, g.y, g.z) = (p.x, p.y, p.z) ∧ g.asid = p.asid ∧ g.super = p.super ∧ g.desc = l.desc ∧ g.kargs = l.kargs ∧ g.images = l.images ∧
              g.mode = BitVec.ofNat 32 p.mode ∧ (g.cpladdr, g.cplval) = (p.cpladdr, p.cplval) ∧ g.next = 0 ∧ g.pteam = none))) ∧
  (∀ (d : Desc) (c : Nat),
    (∀ p, fitCore s k d c = some p → p.core = c ∧ Fits s k d c p.slot p.padBase ∧ ∀ slot base, Fits s k d c slot base → p.slot ≤ slot ∧ p.padBase ≤ base) ∧
    (fitCore s k d c = none → ∀ slot base, ¬Fits s k d c slot base)) ∧
  (∀ g rest, nextReadmit s = none → placeOrder s = (k, g) :: rest → k < s.nextKey → s.grid k = some g →
    let stands (t : State) (team : Nat) (place : Place) := (t.core place.core).sig.isSome = true ∧ ∀ l < (t.team team).lanesets.length,
      (team, l, some s.clock) ∈ (t.quad (4 * place.core + (place.slot + l) % 4)).pending
    (∀ place, g.desc.bond = 0 → place.core < Config.cores → fitCore s k g.desc place.core = some place → (∀ c < place.core, fitCore s k g.desc c = none) →
      ∃ t, exec .placeTeam s = .next t ∧ t.grid k = some { g with next := g.next + 1, waitSince := none } ∧ (∀ j, j ≠ k → t.grid j = s.grid j) ∧
        Launched g k g.next place (t.team s.nextKey) ∧ stands t s.nextKey place ∧ (∀ j, j ≠ s.nextKey → t.team j = s.team j) ∧ t.mem = s.mem) ∧
    (∀ (c : Nat) (places : Nat → Place), 0 < g.desc.bond → c < Config.cores → c % 48 + g.desc.bond ≤ 48 →
      (∀ j < g.desc.bond, fitCore s k g.desc (c + j) = some (places j)) →
      (∀ c' < c, c' % 48 + g.desc.bond ≤ 48 → ∃ j < g.desc.bond, fitCore s k g.desc (c' + j) = none) →
      ∃ t, exec .placeTeam s = .next t ∧ t.grid k = some { g with next := g.next + g.desc.bond, waitSince := none } ∧ (∀ j, j ≠ k → t.grid j = s.grid j) ∧
        (∀ j < g.desc.bond, Launched g k (g.next + j) (places j) (t.team (s.nextKey + j)) ∧ stands t (s.nextKey + j) (places j)) ∧
        (∀ j, j < s.nextKey → t.team j = s.team j) ∧ t.mem = s.mem)) ∧
  (∀ g, s.grid k = some g → gridOver s k g = true → (∀ q ∈ s.parks, q.owner ≠ .grid k) →
    (g.cpladdr = 0 → exec (.gridEnd k) s = .next { s with grids := Store.set none s.grids k none }) ∧
    ∀ s1 pa sl d, g.cpladdr ≠ 0 → g.cpladdr % 4 = 0 →
      translate s ⟨g.vmid, g.asid, g.vf, g.super, 0, none, some (.grid k)⟩ .store g.cpladdr 4 = (.ok pa sl d, s1) → s1.halt = none → s1.grids = s.grids →
      mapped pa = true → mapped (pa + 3) = true → refuses s pa 4 = false → ∃ t, exec (.gridEnd k) s = .next t ∧ MemHolds (setDirty s1 d) t pa (leBytes 4 g.cplval) ∧
        t = { setDirty s1 d with mem := t.mem, icache := t.icache, cores := t.cores, grids := Store.set none s.grids k none }) ∧
  (∀ frames s1, (s.team k).phase = .swapping → saveable s k = true → takeFrames s (s.team k).vmid (Config.carafeFrames (savedBytes (s.team k))) = (some frames, s1) →
    s1.halt = none → (∀ f ∈ frames, mapped f = true ∧ mapped (f + 65535) = true) → s.vacates = [] →
    ∃ t, exec (.swapComplete k) s = .next t ∧ (t.team k).phase = .away ∧ (t.team k).place = none ∧ (t.team k).frames = frames ∧ (t.team k).snap = [] ∧
      (t.team k).w = (s.team k).w ∧ (t.team k).handles = (s.team k).handles ∧ (t.team k).tiles = (s.team k).tiles ∧ (t.team k).pad = (s.team k).pad ∧
      (∀ j, t.thread k j = (s.thread k j).saved) ∧ (∀ j, j ≠ k → t.team j = s.team j) ∧ t.parks = s.parks ∧ t.mops = s.mops) ∧
  ∀ place, nextReadmit s = some (k, [(k, place)]) → carafePoisoned s k = false → (settle (admitTeam s k place) k []).halt = none →
    let u := admitTeam s k place
    exec (.readmit k) s = .next (settle u k []) ∧ (u.team k).phase = .resident ∧ (u.team k).place = some place ∧ (u.team k).snap = [] ∧ (u.team k).frames = [] ∧
    (u.team k).reasons = [] ∧ (u.team k).threads = (s.team k).threads ∧ (u.team k).interval = ((s.team k).interval + 1) % 2 ^ 32

/-- R93, R98, R99, R248, R299, R309, R327, R328, R330, R332, R334 to R336: a management command is executed, taken from its queue and answered by one
record with its identifier, op, status and result; each command's effect. DEMOTE, SEAL and FREE stay at the head of their queue between
the invalidation and the moment when the accesses under way have completed; LOADKEY while its slot is at work. Where the model chose
(crypto, exports, seal checks, what a reset leaves of a demotion) the log says so (log 8, 36, 37, 40). -/
def Obligations.CommandResults : Prop := ∀ (s : State) (fn h c : Nat) (r : RingHdr), s.poison = [] → s.outbound = [] → s.halt = none →
  let reply (h c : Nat) (r : RingHdr) (u : State) (status result : Nat) : State :=
    post (setMqBell (u.sysPut (linkOf u fn) (h + 8) (leBytes 4 (r.rp + 1))) fn r.wp (decide ((r.rp + 1) % 2 ^ 32 ≠ r.wp))) fn 4 status (c / 2 ^ 32 % 2 ^ 32) (c % 2 ^ 8) result
  let op := c % 2 ^ 8
  let arg (n : Nat) := c / 2 ^ (256 + 64 * n) % 2 ^ 64
  let vmid := if fn = pf then arg 0 / 2 ^ 16 % 2 ^ 12 else vmidOf s fn
  let asid := arg 0 % 2 ^ 16
  let f := s.vf fn
  let open_ (pa n : Nat) : Prop := mapped pa = true ∧ mapped (pa + n - 1) = true ∧ lost s pa = false ∧ pa / 2 ^ 16 ∉ s.sealMap ∧ (pa + n - 1) / 2 ^ 16 ∉ s.sealMap
  let ranged : Prop := arg 1 % 2 ^ 16 = 0 ∧ arg 2 % 2 ^ 16 = 0 ∧ arg 2 ≠ 0
  (∀ m tf, s.moves.find? (fun m => m.fn = fn ∧ m.tier.isSome) = some m → m.tier = some tf → vmidRead s m.vmid = s →
    (m.wait.any (inFlight s) = true ∨ eventsFull s fn = true → exec (.demoteCmd fn) s = .next s) ∧
    ∀ version tags key s1, m.wait.any (inFlight s) = false → eventsFull s fn = false → tierRec s tf = (version, tags) → workKey s m.vmid m.key = (key, s1) → key.length = 32 →
      mapped m.frame = true → mapped (m.frame + 65535) = true → mapped tf = true → mapped (tf + 65535) = true → refuses s m.leafAddr 8 = false →
      let blocks := (List.range 16).map fun i => gcmEncrypt key (tierIv (version + 1) tf (recVf s m.vmid) i) (s.rd (m.frame + 4096 * i) 4096)
      ∃ a b, Wrote s1 a tf (blocks.flatMap (·.1)) ∧
        Wrote { a with tierRecs := Store.set (0, []) s.tierRecs (tf / 2 ^ 16) (version + 1, blocks.map (·.2)) } b m.leafAddr
          (leBytes 8 (putBits (putBits (putBits (putBits m.old 51 16 (tf / 2 ^ 16)) 5 5 1) 8 8 1) 7 6 (pteCount m.old + 1))) ∧
        let u := giveFrame { b with moves := b.moves.filter fun x => x ≠ m } m.vmid m.frame
        u.halt = none → (headCommand u fn = none → exec (.demoteCmd fn) s = .next u) ∧
          ∀ h c r, headCommand u fn = some (h, r, c) → c % 2 ^ 8 = 3 → headPoisoned u h r = false → (reply h c r u 0 0).halt = none →
            exec (.demoteCmd fn) s = .next (reply h c r u 0 0)) ∧
  (headCommand s fn = some (h, r, c) → headPoisoned s h r = false →
  let answered (i : Instr) (u : State) (status result : Nat) := (reply h c r u status result).halt = none → exec i s = .next (reply h c r u status result)
  (op = 1 → (∀ x, faultByFid s fn (arg 1) = some x → answered (.resolveCmd fn) (endFault s x.id fun n => .resolved n) 0 0) ∧
    (faultByFid s fn (arg 1) = none → answered (.resolveCmd fn) s 4 0)) ∧
  (op = 2 → (∀ x, faultByFid s fn (arg 1) = some x → answered (.rejectCmd fn) (endFault s x.id fun n => .failed n 4 (2 + 2 ^ 10 * x.stage)) 0 0) ∧
    (faultByFid s fn (arg 1) = none → answered (.rejectCmd fn) s 4 0)) ∧
  (op = 3 → vmidRead s vmid = s → (∀ m ∈ s.moves, ¬(m.fn = fn ∧ m.tier.isSome)) → let page := arg 1 / 2 ^ 16 * 2 ^ 16
    let refused (code : Nat) := answered (.demoteCmd fn) (post s fn 7 code page asid 0) 0 0
    (2 ^ 52 ≤ page → refused 1) ∧
    (page < 2 ^ 52 → (∀ leaf addr pa big wide fills, walk s vmid asid page ≠ .leaf leaf addr pa big wide fills) → refused 1) ∧
    ∀ leaf addr pa big wide fills, page < 2 ^ 52 → walk s vmid asid page = .leaf leaf addr pa big wide fills →
      let sealed_ : Prop := bit leaf 4 = true ∨ pa / 2 ^ 16 ∈ s.sealMap
      (big = true → answered (.demoteCmd fn) s 5 0) ∧
      (big = false → (leafState leaf ≠ .local → refused 1) ∧ (leafState leaf = .local → sealed_ → refused 2) ∧
        (leafState leaf = .local → ¬sealed_ → inHost pa = true → refused 3) ∧
        (leafState leaf = .local → ¬sealed_ → inHost pa = false → 2 ≤ pteCount leaf → refused 4) ∧
        (leafState leaf = .local → ¬sealed_ → inHost pa = false → pteCount leaf < 2 →
          (∀ s1, TierTaken fn vmid asid 4097 s none s1 → answered (.demoteCmd fn) (post s1 fn 7 5 page asid 0) 0 0) ∧
          ∀ tf s1, TierTaken fn vmid asid 4097 s (some tf) s1 → s1.halt = none → refuses s addr 8 = false → ∃ m, Wrote s1 m addr (leBytes 8 (putBits (putBits leaf 63 63 1) 5 5 1)) ∧
            exec (.demoteCmd fn) s = .next { (dropPage m vmid asid page).2 with
              moves := s1.moves ++ [⟨fn, vmid, asid, page, addr, leaf, pa, some tf, none, (dropPage m vmid asid page).1, none⟩] }))) ∧
  (op = 4 ∨ op = 5 → let i : Instr := if op = 4 then .sealCmd fn else .freeCmd fn
    (jobOf s fn c = none → vmidRead s vmid = s →
      (op = 4 → s.debug = 2 → answered i s 2 0) ∧ (op = 5 → fn ≠ pf → answered i s 2 0) ∧
      (op = 4 ∧ s.debug ≠ 2 ∨ op = 5 ∧ fn = pf → (¬ranged → answered i s 1 0) ∧
        (∀ k status leaf addr pa, ranged → k < arg 2 / 2 ^ 16 → (∀ j < k, ∃ leaf addr pa, Sealable s vmid asid (arg 1 + 2 ^ 16 * j) leaf addr pa) →
          (op = 4 → Unsealable s vmid asid (arg 1 + 2 ^ 16 * k) status → answered i s status 0) ∧
          (op = 5 → Unsealable s vmid asid (arg 1 + 2 ^ 16 * k) status → answered i s 4 0) ∧
          (op = 5 → (∀ j < arg 2 / 2 ^ 16, ∃ leaf addr pa, Sealable s vmid asid (arg 1 + 2 ^ 16 * j) leaf addr pa) →
            Sealable s vmid asid (arg 1 + 2 ^ 16 * k) leaf addr pa → bit leaf 4 = false ∨ pa / 2 ^ 16 ∉ s.sealMap → answered i s 4 0)) ∧
        ∀ l : List (Nat × Nat × Nat), ranged → l.length = arg 2 / 2 ^ 16 →
          (∀ (k : Nat) (e : Nat × Nat × Nat), l[k]? = some e → Sealable s vmid asid (arg 1 + 2 ^ 16 * k) e.1 e.2.1 e.2.2) →
          (op = 5 → ∀ e ∈ l, bit e.1 4 = true ∧ e.2.2 / 2 ^ 16 ∈ s.sealMap) → (∀ e ∈ l, refuses s e.2.1 8 = false) →
          ∃ u marks, Writes (fun a v => let x := v.rdNat a 8
              leBytes 8 (if op = 4 then putBits (putBits x 4 4 1) 2 2 0 else putBits x 0 0 0)) (l.map (·.2.1)) s u ∧
            (∀ q, q ∈ marks ↔ q ∈ s.sealMap ∨ (op = 4 ∧ ∃ e ∈ l, q = e.2.2 / 2 ^ 16)) ∧
            let v := dropAsid { u with sealMap := marks } vmid asid
            exec i s = .next { v.2 with jobs := s.jobs ++ [⟨fn, c, l.map (·.2.2), v.1⟩] })) ∧
    ∀ j, jobOf s fn c = some j → (j.wait.any (inFlight s) = true → exec i s = .next s) ∧
      (j.wait.any (inFlight s) = false → let s1 := { s with jobs := s.jobs.filter fun x => x ≠ j }
        (op = 4 → (∀ a ∈ j.frames, lost s a = false) →
          let m := sha3_512 (j.frames.flatMap fun a => s.rd a 65536)
          ∃ u, VfBecomes s1 u fn { f with sealChain := sha3_512 (f.sealChain ++ m ++ leBytes 2 asid ++ leBytes 8 (arg 1) ++ leBytes 8 (arg 2)) } ∧
            (open_ (arg 3) m.length → ∃ t, Wrote u t (arg 3) m ∧ answered i t 0 0) ∧
            (arg 3 / 2 ^ 16 ∈ s.sealMap → answered i u 0 0)) ∧
        (op = 5 → (∀ a ∈ j.frames, mapped a = true ∧ mapped (a + 65535) = true) → ∃ u, Writes (fun _ _ => List.replicate 65536 0) j.frames s1 u ∧
          answered i { u with sealMap := s.sealMap.filter fun q => ∀ a ∈ j.frames, a / 2 ^ 16 ≠ q } 0 0))) ∧
  (op = 6 → (∀ g x, gridOf s vmid (arg 1) = some (g, x) → (∀ e ∈ s.teams, ∀ p, e.2.place = some p → p.core < 192) →
      ∃ (cores : List Nat) (u : State), ChosenCores s g (arg 2) cores ∧ u = { s with teams := u.teams, nextKey := u.nextKey } ∧
        let here := (s.teams.filter fun e => e.2.grid = g && cores.any fun c => e.2.onCore c).map (·.1)
        (∀ k, (k ∈ here ∧ (s.team k).phase = .resident →
            ∃ no reasons, u.team k = { s.team k with phase := .swapping, swapNo := no, reasons := reasons } ∧ .vacate ∈ reasons ∧
              (∀ x ∈ (s.team k).reasons, x ∈ reasons) ∧ (ageDue s k = true ∨ shareDue s k = true → .park ∈ reasons)) ∧
          (¬(k ∈ here ∧ (s.team k).phase = .resident) → u.team k = s.team k)) ∧
        answered (.vacateCmd fn) (settleVacates { u with
          vacates := s.vacates ++ [⟨g, x.id, match s.grid g with | some y => y.vmid | none => 0, cores, fn, here, true, false⟩] }) 0 0) ∧
    (gridOf s vmid (arg 1) = none → answered (.vacateCmd fn) s 4 0)) ∧
  (op = 7 → let hit (v : Vacate) := v.closed && decide (v.vmid = vmid) && decide (v.id.toNat = arg 1)
    (s.vacates.any hit = true → answered (.releaseCmd fn) (settleVacates { s with vacates := s.vacates.map fun v => if hit v then { v with closed := false } else v }) 0 0) ∧
    (s.vacates.any hit = false → answered (.releaseCmd fn) s 4 0)) ∧
  (op = 8 → let n := f.auditTaken + min (arg 1) (f.auditSigned - f.auditTaken)
    answered (.audittakeCmd fn) (s.setVf fn { f with auditTaken := n }) 0 n) ∧
  (op = 9 → f.auditSeq - f.auditSigned ≤ 2 ^ 14 → ∃ g u, Flushed f g ∧ VfBecomes s u fn g ∧ answered (.auditflushCmd fn) u 0 0) ∧
  (op = 10 → open_ (arg 2) 12288 → ∃ out u, out.length = 12288 ∧ Wrote s u (arg 2) out ∧ answered (.attestCmd fn) u 0 0 ∧
    let at_ (offset : Nat) (bs : List Byte) : Prop := (out.drop offset).take bs.length = bs
    at_ 0 (leBytes 4 1) ∧ at_ 4 [BitVec.ofNat 8 (b2n Config.manufacturing)] ∧ at_ 5 [(s.debug).zeroExtend 8] ∧ at_ 6 [BitVec.ofNat 8 (powerState s)] ∧ at_ 7 [0] ∧
    at_ 8 (leBytes 2 (if fn = pf then 0xFFFF else fn)) ∧ at_ 10 (List.replicate 6 0) ∧ at_ 16 (leBytes 8 (arg 1)) ∧ at_ 24 (List.replicate 8 0) ∧
    at_ 32 (sized 64 s.firmware) ∧ at_ 96 (sized 64 (sha3_512 (Config.fuses ++ (List.range 256).flatMap fun v => leBytes 16 (s.vf v).cfg.toNat))) ∧
    at_ 160 (sized 64 f.sealChain) ∧ at_ 224 (sized 2592 (Config.mldsaPublic 0)) ∧ at_ 2816 (sized 2592 (Config.mldsaPublic 1)) ∧
    at_ 5408 (sized 1568 Config.mlkemPublic) ∧ at_ 6976 (sized 4627 (Config.mldsaSign 0 (sha3_512 (out.take 6976)))) ∧ at_ 11603 (List.replicate 685 0)) ∧
  (op = 11 → mapped (arg 1) = true → mapped (arg 1 + 1607) = true → lost s (arg 1) = false → vmidRead s (vmidOf s fn) = s →
    let b := s.rd (arg 1) 1608
    (∀ key, Config.keyUnwrap (Config.mlkemDecap (b.take 1568)) (b.drop 1568) = some key →
      (slotBusy s (keySlot s (vmidOf s fn)) = true → exec (.loadkeyCmd fn) s = .next s) ∧
      (slotBusy s (keySlot s (vmidOf s fn)) = false → answered (.loadkeyCmd fn) { s with keys := Store.set none s.keys (keySlot s (vmidOf s fn)) (some key) } 0 0)) ∧
    (Config.keyUnwrap (Config.mlkemDecap (b.take 1568)) (b.drop 1568) = none → answered (.loadkeyCmd fn) s 1 0)) ∧
  (op = 12 → vmidRead s vmid = s → (¬ranged → answered (.exportCmd fn) s 1 0) ∧
    ∀ leaf addr pa, arg 1 % 2 ^ 16 = 0 → arg 2 = 2 ^ 16 → Sealable s vmid asid (arg 1) leaf addr pa →
      let tenant := arg 3 % 2 ^ 16
      (arg 3 / 2 ^ 16 % 2 = 1 → answered (.exportCmd fn) (setExport s pa (tenant + 1)) 0 0) ∧
      (arg 3 / 2 ^ 16 % 2 = 0 → answered (.exportCmd fn) (if exported s pa = tenant + 1 then setExport s pa 0 else s) 0 0)) ∧
  (op = 13 → (fn ≠ pf → answered (.dbgnonceCmd fn) s 2 0) ∧
    (fn = pf → open_ (arg 1) 32 → let bytes := sized 32 (Config.freshNonce s.nextKey)
      ∃ u, Wrote { s with nextKey := s.nextKey + 1, nonce := some bytes } u (arg 1) bytes ∧ answered (.dbgnonceCmd fn) u 0 0)) ∧
  (op = 14 → let d := BitVec.ofNat 2 (arg 1)
    (fn ≠ pf → answered (.debugCmd fn) s 2 0) ∧ (fn = pf → d = 3 → answered (.debugCmd fn) s 1 0) ∧ (fn = pf → d = s.debug → d ≠ 3 → answered (.debugCmd fn) s 0 0) ∧
    (fn = pf → d ≠ s.debug → d = 0 ∨ d = 1 ∨ d = 2 ∧ Config.manufacturing = true → answered (.debugCmd fn) (setDebug s d) 0 0) ∧
    (fn = pf → d ≠ s.debug → d = 2 → Config.manufacturing = false → mapped (arg 2) = true → mapped (arg 2 + 4626) = true → lost s (arg 2) = false →
      let ok : Prop := ∃ n, s.nonce = some n ∧ Config.mldsaVerify (sha3_512 (sized 2592 (Config.mldsaPublic 0) ++ n ++ [2])) (s.rd (arg 2) 4627) (Config.mldsaPublic 2) = true
      (ok → answered (.debugCmd fn) (setDebug { s with nonce := none } 2) 0 0) ∧ (¬ok → answered (.debugCmd fn) { s with nonce := none } 2 0))) ∧
  (op = 0 ∨ 14 < op → answered (.mqUnknownOp fn) s 1 0))

/-- R313, R322 to R327, R329, R331, R333, R337 to R340, R248: what writes of the function registers, resets, power and error events do; an error
in a team's own state fails the drain it hits or ends the team, one in the management core is fatal. A write of a register wakes the device.
That it starts no work of rings that are not empty, and keeps the signals they have (log 35, DEDUCED), and that the low bits of VMTBASE and
RINGTAB are ignored (log 41, DEDUCED), is the model's reading; memory kept over DEVICE_RESET, the address an error record names and which of
drain and team an error in a drain's values ends are its choice (log 39), and so is what a reset leaves of a promotion (log 40). -/
def Obligations.DeviceEventResults : Prop := ∀ (s : State) (v : Nat),
  let wakes : State := { s with idle := false }
  let listed (t : State) (n h : Nat) : Prop := let bell := Store.get (0, false) (t.vf v).bells n
    bell.1 = (ringAt t h).wp ∧ (bell.2 = true ↔ (ringAt t h).empty = false ∧ ∃ m, ringHeader s v m = some h ∧ rung s v m (ringAt s h) = true)
  let named (fn h : Nat) : Nat × Bool :=
    ((ringAt s h).wp, decide (mqHeader s fn = h ∧ mqRung s fn (ringAt s h) = true ∧ (ringAt s h).empty = false))
  (∀ (i : Instr) (x cfg : BitVec 128) (s0 : State),
    v < 256 → ((i = .vfReset v ∨ i = .functionLevelReset v) ∧ s0 = s ∧ cfg = (s.vf v).cfg &&& ~~~(0x2000000 : BitVec 128)) ∨
      (i = .vfcfgWrite v x ∧ s0 = wakes ∧ x &&& 0xFFFF01FFF3000FFF = x ∧ x.getLsbD 25 = false ∧ cfg = x ∧
        ((s.vf v).cfg.getLsbD 25 = true → x.toNat % 2 ^ 12 = (s.vf v).cfg.toNat % 2 ^ 12)) →
    let h := mqHeader s v
    let r := ringAt s h
    let held : Prop := h ≠ 0 ∧ r.formed = true ∧ r.esc = 8 ∧ r.empty = false
    let slot := keySlot s (vmidOf s v)
    let gone (n : Nat) : Prop := vmidOf s v ≠ 0 ∧ n = slot
    (resetVf s0 v).halt = none → ∃ t, exec i s = .next t ∧ t = { resetVf s0 v with vfs := t.vfs } ∧ (t.vf v).cfg = cfg ∧
      (∀ k, (s.team k).vf = v → (t.team k).phase = .ended) ∧ (∀ c, (s.chan c).vf = v → (t.chan c).phase = .stopped) ∧
      (∀ p ∈ t.parks, p ∈ s.parks ∧ p.vfIs s v = false) ∧ (∀ j ∈ t.jobs, j ∈ s.jobs ∧ j.fn ≠ v) ∧ (∀ m ∈ t.moves, m.fn = v → m.tier = none) ∧
      (∀ f ∈ t.faults, f.vf = v → f.major = none ∧ f.held = none) ∧
      ((∀ e ∈ s.teams, e.2.vf = v → e.2.phase = .ended) → (∀ f ∈ s.faults, f.vf = v → f.held = none) → s.outbound = [] → s.poison = [] →
        (held → mapped (h + 8) = true ∧ mapped (h + 11) = true ∧ refuses s (h + 8) 4 = false ∧ (let a := s.vmtbase.toNat + 64 * vmidOf s v + 16
          h + 12 ≤ a ∨ a + 8 ≤ h + 8)) → s.vacates = [] → (s.vf v).auditSeq - (s.vf v).auditSigned ≤ 2 ^ 14 →
        (held → MemHolds s t (h + 8) (leBytes 4 r.wp) ∧ Store.get (0, false) t.mqBells v = (r.wp, false)) ∧ (¬held → t.mem = s.mem) ∧
        (∀ n, (gone n → Store.get none t.keys n = none) ∧ (¬gone n → Store.get none t.keys n = Store.get none s.keys n)) ∧
        (∃ g, Flushed (s.vf v) g ∧ t.vf v = { g with cfg := cfg }) ∧ (∀ w, w ≠ v → t.vf w = s.vf w) ∧ t.msix = s.msix ∧ t.evWait = s.evWait ∧
        (¬held → ∀ f ∈ s.faults, f.vf ≠ v ∨ promotable s f = true → ∃ g ∈ t.faults, g = { f with key := g.key }))) ∧
  (∀ x : BitVec 128, v < 256 → x &&& 0xFFFF01FFF3000FFF = x → let old := (s.vf v).cfg
    (x.getLsbD 25 = true ∧ x.toNat % 2 ^ 12 = 0 ∨ old.getLsbD 25 = true ∧ x.toNat % 2 ^ 12 ≠ old.toNat % 2 ^ 12 → exec (.vfcfgWrite v x) s = .next wakes) ∧
    (x.getLsbD 25 = true → old.getLsbD 25 = true → x.toNat % 2 ^ 12 ≠ 0 → x.toNat % 2 ^ 12 = old.toNat % 2 ^ 12 →
      exec (.vfcfgWrite v x) s = .next (wakes.setVf v { s.vf v with cfg := x })) ∧
    (x.getLsbD 25 = true → old.getLsbD 25 = false → x.toNat % 2 ^ 12 ≠ 0 → exec (.vfcfgWrite v x) s = .next (wakes.setVf v { s.vf v with
      cfg := x, auditSeq := 0, auditTaken := 0, auditSigned := 0, auditRecs := [], auditChain := List.replicate 64 0, signatures := []
      sealChain := List.replicate 64 0 }))) ∧
  (∀ x : BitVec 64, v < 256 → s.halt = none → let base := x.toNat / 2 ^ 10 * 2 ^ 10
    mapped base = true → mapped (base + 1023) = true → poisoned s base 1024 = false →
    let entry (i : Nat) := s.rdNat (base + 16 * i) 16
    let valid (e : Nat) : Bool := decide (e / 2 ^ 64 % 2 = 1 ∧ e / 2 ^ 80 % 2 ^ 48 = 0 ∧ e / 2 ^ 66 % 2 ^ 6 = 0 ∧ e % 2 ^ 6 = 0)
    ∀ i, i = .ringtabWrite v x ∨ i = .registerWrite v 0 x → ∃ t, exec i s = .next t ∧ t = { wakes with vfs := t.vfs } ∧ (∀ w, w ≠ v → t.vf w = s.vf w) ∧
      t.vf v = { s.vf v with ringtab := BitVec.ofNat 64 base, bells := (t.vf v).bells
                             ringCopy := (List.range 64).map fun n => if valid (entry n) then BitVec.ofNat 128 (entry n) else 0 } ∧
      ∀ n < 64, valid (entry n) = true → listed t n (entry n % 2 ^ 64)) ∧
  (∀ x : BitVec 32,
    (x.toNat % 8 = 1 → exec (.pstateWrite x) s = .next { wakes with pstate := 1 }) ∧
    (x.toNat % 8 = 0 → s.off = false → exec (.pstateWrite x) s = .next { wakes with pstate := 0 }) ∧
    (x.toNat % 8 = 0 → s.off = true → exec (.pstateWrite x) s = .next { wakes with
      pstate := 0, off := false, firmware := s.images.foldl (fun fw i => sha3_512 (fw ++ sha3_512 i.bytes)) (List.replicate 64 0)
      fatal := s.fatal || s.images.any fun i => !Config.mldsaVerify i.bytes i.sig (Config.mldsaPublic 2) }) ∧
    (x.toNat % 8 ∉ [0, 1, 4] → exec (.pstateWrite x) s = .next wakes) ∧
    (x.toNat % 8 = 4 → (∃ e ∈ s.vfs, bit e.2.cfg.toNat 25 = true) → exec (.pstateWrite x) s = .next wakes) ∧
    (x.toNat % 8 = 4 → (∀ e ∈ s.vfs, bit e.2.cfg.toNat 25 = false) → exec (.pstateWrite x) s = .next { setDebug wakes 0 with pstate := 4, off := true }) ∧
    exec (.powercapWrite x) s = .next (if 500 ≤ x.toNat ∧ x.toNat ≤ 3000 then { wakes with powercap := x } else wakes)) ∧
  (∀ x : BitVec 64, exec (.registerWrite pf 0x10 x) s = .next { wakes with vmtbase := BitVec.ofNat 64 (x.toNat / 2 ^ 16 * 2 ^ 16) } ∧
    exec (.registerWrite pf 0x18 x) s = .next { wakes with peerid := BitVec.ofNat 32 (x.toNat % 2 ^ 4) } ∧
    exec (.registerWrite pf 0x28 x) s = .next { wakes with pfmq := x, mqBells := Store.set (0, false) s.mqBells pf (named pf x.toNat) } ∧
    (v < 256 → exec (.registerWrite v 8 x) s = .next { (wakes.setVf v { s.vf v with mqhdr := x }) with
      mqBells := Store.set (0, false) s.mqBells v (named v x.toNat) }) ∧
    ∀ p < 16, exec (.registerWrite pf (0x40 + 4 * p) x) s = .next { wakes with peerroute := Store.set 0 s.peerroute p (BitVec.ofNat 32 (x.toNat % 2 ^ 12)) }) ∧
  (∀ images : List FwImage, exec (.deviceReset images) s = .next { State.reset with
      agenda := s.agenda, freeCount := s.freeCount, nextKey := s.nextKey, mem := s.mem, poison := s.poison, tierRecs := s.tierRecs, images := images
      firmware := images.foldl (fun fw i => sha3_512 (fw ++ sha3_512 i.bytes)) (List.replicate 64 0)
      fatal := images.any fun i => !Config.mldsaVerify i.bytes i.sig (Config.mldsaPublic 2) }) ∧
  exec .pfReset s = .next { s with fatal := false } ∧ exec .thermalHigh s = .next { s with hot := true } ∧ exec .thermalLow s = .next { s with hot := false } ∧
  exec .idleWake s = .next { s with idle := false } ∧ (workless s = true → s.off = false → exec .idleEntry s = .next { s with idle := true }) ∧
  (∀ e u, s.evWait.find? (·.1 = v) = some e → tryEvent s v e.2 = (true, u) → let w := { u with evWait := s.evWait.erase e }
    ((∀ f ∈ u.faults, f.vf = v → f.pend = none) → u.halt = none → exec (.eventRecordWrite v) s = .next w) ∧
    ∀ f reason clock, u.faults.find? (fun f => f.vf = v && f.pend.isSome) = some f → f.pend = some (reason, clock) →
      (makeMajorAt w f.id reason clock).halt = none → exec (.eventRecordWrite v) s = .next (makeMajorAt w f.id reason clock)) ∧
  ((s.vf v).auditSigned + 4096 ≤ (s.vf v).auditSeq → ∃ t, VfBecomes s t v (signedBlock (s.vf v) 4096) ∧ exec (.auditBlockClose v) s = .next t) ∧
  (∀ port, ∃ t, exec (.peerPortFail port) s = .next t ∧ t = { s with portsUp := t.portsUp, outbound := t.outbound } ∧
    (∀ p, t.portsUp.getLsbD p = (s.portsUp.getLsbD p && p != port)) ∧
    ∀ o, o ∈ t.outbound ↔ o ∈ s.outbound ∧ (inPeer o.pa = false ∨ Store.get 0 s.peerroute ((o.pa - 2 ^ 42) / 2 ^ 40) &&& t.portsUp.zeroExtend 32 ≠ 0)) ∧
  (∀ pa, s.poison.contains (pa / 32) = false → ∀ e u, (e, u) ∈ [(MemError.hbm pa, 0), (.l2 pa, 1)] →
    let t := post { s with poison := s.poison ++ [pa / 32] } pf 11 1 (32 * (pa / 32)) u 1
    t.halt = none → exec (.memoryErrorDetect e) s = .next t) ∧
  (∀ unit k, let u := post { s with freeCount := s.freeCount + 2 } pf 11 1 (Config.freeWord s.freeCount).toNat unit 1
    let w := { u with freeCount := u.freeCount + 1 }
    let fails := (unit = 3 ∨ unit = 4) ∧ Config.freeBit u.freeCount = true
    let x := settleVacates (abortTeam w k true 6 0 0 0xFFFFFFFF 0 (Config.freeWord (s.freeCount + 1)).toNat 0)
    (¬fails ∨ (∀ m ∈ s.mops, m.team = k → draining m = false) → (s.team k).phase ≠ .ended → x.halt = none →
      exec (.memoryErrorDetect (.team unit k)) s = .next x ∧ (x.team k).phase = .ended ∧ (x.team k).place = none ∧ (∀ m ∈ x.mops, m.team ≠ k) ∧ ∀ c ∈ x.copies, c.team ≠ k) ∧
    ∀ m, fails → s.mops = [m] → m.team = k → draining m = true → m.undef = [] → u.halt = none → ∃ t, exec (.memoryErrorDetect (.team unit k)) s = .next t ∧
      t = { w with teams := t.teams, mops := [] } ∧ (∀ j, j ≠ k → t.team j = s.team j) ∧
      t.team k = { s.team k with threads := (t.team k).threads, unseen := (t.team k).unseen } ∧ ∀ j, { t.thread k j with wait := (s.thread k j).wait } =
        { s.thread k j with tl := (s.thread k j).tl - m.counted.count j, failures := (s.thread k j).failures ++
          (m.issuers.flatMap fun e => (e.2.2.filter (· = j)).map fun _ => ⟨true, 6, 0, 0, e.2.1⟩) }) ∧
  (∀ u, u = failDevice (post { s with freeCount := s.freeCount + 1, fatal := true } pf 11 1 (Config.freeWord s.freeCount).toNat 5 1) →
    u.halt = none → exec (.memoryErrorDetect .management) s = .next u ∧ u.fatal = true ∧ ∀ k, (u.team k).phase = .ended) ∧
  (∀ unit n, let total := Store.get 0 s.errCounts unit + n
    0 < total → Store.get 0 s.errClock unit = 0 ∨ Store.get 0 s.errClock unit + 1500000000 ≤ s.clock →
    let t := post { s with freeCount := s.freeCount + 1, errCounts := Store.set 0 s.errCounts unit 0, errClock := Store.set 0 s.errClock unit (max s.clock 1) }
      pf 11 0 (Config.freeWord s.freeCount).toNat unit total
    t.halt = none → Store.wf 0 s.errCounts = true → exec (.correctedErrorReport unit n) s = .next t) ∧
  ∀ x rest, s.wakeReg = (v, x) :: rest → let u := { s with wakeReg := rest }
    (x = 1 → (s.vf v).auditSeq - (s.vf v).auditSigned ≤ 2 ^ 14 → ∃ g t, Flushed (s.vf v) g ∧ VfBecomes u t v g ∧ exec .wakeRegisterAction s = .next t) ∧
    (x = 2 → exec .wakeRegisterAction s = .next { u with msix := s.msix ++ [(v, 0)] }) ∧ (x ≠ 1 → x ≠ 2 → exec .wakeRegisterAction s = .next u)

/-- R15, R255, R332, R337, R99: a host or a granted peer access to HBM is performed at its slice and answered, leaves P3, and signals the rings and
queues whose wp it writes where they are not empty; a store or atomic to a sealed frame is answered by an error and changes nothing; a peer access to a frame not
granted to its tenant is refused. In P4 peer requests and writes of a wp are ignored. The reply fields are the model's (log 38). -/
def Obligations.OutsideAccessResults : Prop := ∀ (s : State) (pa : Nat) (tenant : BitVec 16), s.poison = [] → s.halt = none →
  (∀ q, conflict s 0 q true = none) → inHbm pa = true →
  let granted (n : Nat) := ∀ i < n, exported s (pa + i) = tenant.toNat + 1
  let unsealed (n : Nat) := ∀ i < n, (pa + i) / 2 ^ 16 ∉ s.sealMap
  let performed (op : AgentOp) (t : State → State → Prop) (reply : Reply) :=
    (∃ u w, t { s with idle := false } u ∧ w = { u with hostReply := reply, hostBlocks := w.hostBlocks } ∧ exec (.hostAccess ⟨pa, op⟩) s = .next w ∧
      ∀ q, q ∈ w.hostBlocks ↔ q ∈ s.hostBlocks ∨ reply ≠ .error ∧ agentStores op = true ∧ pa < 64 * q + 64 ∧ 64 * q < pa + agentSize op) ∧
    (granted (agentSize op) → ∃ u w, t { s with idle := false } u ∧ w = { u with peerReply := reply } ∧ exec (.peerRequest ⟨tenant, pa, op⟩) s = .next w)
  let rings (n : Nat) (u t : State) : Prop := t = { u with vfs := t.vfs, mqBells := t.mqBells } ∧
    (∀ v, t.vf v = { u.vf v with bells := (t.vf v).bells } ∧ ∀ i, Store.get (0, false) (t.vf v).bells i =
      match ringHeader u v i with
      | some h => if pa < h + 16 ∧ h + 12 < pa + n then ((ringAt u h).wp, !(ringAt u h).empty) else Store.get (0, false) (u.vf v).bells i
      | none => Store.get (0, false) (u.vf v).bells i) ∧
    ∀ fn, fn ≤ pf → let h := mqHeader u fn
      Store.get (0, false) t.mqBells fn = if h ≠ 0 ∧ pa < h + 16 ∧ h + 12 < pa + n then ((ringAt u h).wp, !(ringAt u h).empty) else Store.get (0, false) u.mqBells fn
  let stored (bs : List Byte) (u t : State) : Prop := ∃ m, Wrote u m pa bs ∧ rings bs.length m t
  (s.off = false →
    (∀ n, 0 < n → inHbm (pa + n - 1) = true → performed (.load n) (fun u t => t = u) (.bytes (s.rd pa n))) ∧
    (∀ bs, bs ≠ [] → inHbm (pa + bs.length - 1) = true → unsealed bs.length → performed (.store bs) (stored bs) (.bytes [])) ∧
    (∀ b, pa / 2 ^ 16 ∈ s.sealMap → performed (.store [b]) (fun u t => t = u) .error) ∧
    (∀ (f : BitVec 4) (b c : BitVec 128), let n := atomicBytes f.toNat
      pa % n = 0 → unsealed n → performed (.atomic f b c)
        (stored (leBytes n (atomic f.toNat (s.rdNat pa n) (b.toNat % 2 ^ (8 * n)) (c.toNat % 2 ^ (8 * n))))) (.bytes (s.rd pa n))) ∧
    ∀ op, 0 < agentSize op → exported s pa ≠ tenant.toNat + 1 → exec (.peerRequest ⟨tenant, pa, op⟩) s = .next { s with peerReply := .refused, idle := false }) ∧
  (s.off = true → (∀ op, exec (.peerRequest ⟨tenant, pa, op⟩) s = .next s) ∧
    ∀ bs h, h ∈ doorbells s → pa < h + 16 → h + 12 < pa + bs.length → inHbm (pa + bs.length - 1) = true → exec (.hostAccess ⟨pa, .store bs⟩) s = .next s)

-- Reset and invariants

/-- R35, R136, R246, R265, R322 to R324, R333: what device reset leaves, where the spec gives values: no team, grid, range, shadow entry
or translation, all function registers 0 but POWERCAP, which reads 3,000; and memory in its canonical form (the
model's, log 6). Channels stopped and an empty TLB are the model's choice (log 7). -/
def Obligations.ResetState : Prop :=
  let s := State.reset
  (∀ k, s.team k = Team.absent) ∧ (∀ g, s.grid g = none) ∧ (∀ c, s.core c = ⟨none, []⟩) ∧ (∀ c, (s.chan c).phase = .stopped) ∧ (∀ v, s.vf v = Vf.unset) ∧
  s.tlb = [] ∧ s.ntlb = [] ∧ s.shadow = [] ∧ s.exports = [] ∧ s.keys = [] ∧ s.debug = 0 ∧ s.fatal = false ∧
  (∀ v, v < 256 → readRegister s v 0 = 0 ∧ readRegister s v 8 = 0 ∧ readRegister s pf (0x1000 + 16 * v) = 0) ∧
  readRegister s pf 0x10 = 0 ∧ readRegister s pf 0x18 = 0 ∧ readRegister s pf 0x1C = 3000 ∧ readRegister s pf 0x20 = 0 ∧ readRegister s pf 0x28 = 0 ∧ Sound s

/-- Every step that answers a next state keeps the package sound: memory canonical, no step left waiting for room (the model's, log 30), and the
device registers within their fields. -/
def Obligations.SoundKept : Prop := ∀ s t : State, Sound s → step s = .next t → Sound t
end

