-- ==== Sys2Proof/Laws/Encoding.lean ====
section
/-! SUPPORT. The fields of an encoded word read back (spec/02 R21, R26, R27): for each format, the major opcode and every field,
and that the word fits its length. -/

namespace Sys2Proof.Laws

open Machine (bits leNat leBytes)

/-- The word fits. -/
theorem wordR_lt (m : Nat) (f : Nat) (d : BitVec 7) (a : BitVec 7) (b : BitVec 7) (hm : m < 64) (hf : f < 16) : wordR m f d a b < 4294967296 := by
  have := d.isLt; have := a.isLt; have := b.isLt
  simp only [wordR]
  omega
theorem wordR_bit0 (m : Nat) (f : Nat) (d : BitVec 7) (a : BitVec 7) (b : BitVec 7) : wordR m f d a b % 2 = 1 := by
  have := d.isLt; have := a.isLt; have := b.isLt
  simp only [wordR]
  omega
theorem wordR_m (m : Nat) (f : Nat) (d : BitVec 7) (a : BitVec 7) (b : BitVec 7) (hm : m < 64) : bits (wordR m f d a b) 6 1 = m := by
  have := d.isLt; have := a.isLt; have := b.isLt
  simp only [bits, wordR]
  omega
theorem wordR_d (m : Nat) (f : Nat) (d : BitVec 7) (a : BitVec 7) (b : BitVec 7) (hm : m < 64) : bits (wordR m f d a b) 13 7 = d.toNat := by
  have := d.isLt; have := a.isLt; have := b.isLt
  simp only [bits, wordR]
  omega
theorem wordR_a (m : Nat) (f : Nat) (d : BitVec 7) (a : BitVec 7) (b : BitVec 7) (hm : m < 64) : bits (wordR m f d a b) 20 14 = a.toNat := by
  have := d.isLt; have := a.isLt; have := b.isLt
  simp only [bits, wordR]
  omega
theorem wordR_b (m : Nat) (f : Nat) (d : BitVec 7) (a : BitVec 7) (b : BitVec 7) (hm : m < 64) : bits (wordR m f d a b) 27 21 = b.toNat := by
  have := d.isLt; have := a.isLt; have := b.isLt
  simp only [bits, wordR]
  omega
theorem wordR_f (m : Nat) (f : Nat) (d : BitVec 7) (a : BitVec 7) (b : BitVec 7) (hm : m < 64) (hf : f < 16) : bits (wordR m f d a b) 31 28 = f := by
  have := d.isLt; have := a.isLt; have := b.isLt
  simp only [bits, wordR]
  omega

/-- The word fits. -/
theorem wordI_lt (m : Nat) (d : BitVec 7) (a : BitVec 7) (i : BitVec 11) (hm : m < 64) : wordI m d a i < 4294967296 := by
  have := d.isLt; have := a.isLt; have := i.isLt
  simp only [wordI]
  omega
theorem wordI_bit0 (m : Nat) (d : BitVec 7) (a : BitVec 7) (i : BitVec 11) : wordI m d a i % 2 = 1 := by
  have := d.isLt; have := a.isLt; have := i.isLt
  simp only [wordI]
  omega
theorem wordI_m (m : Nat) (d : BitVec 7) (a : BitVec 7) (i : BitVec 11) (hm : m < 64) : bits (wordI m d a i) 6 1 = m := by
  have := d.isLt; have := a.isLt; have := i.isLt
  simp only [bits, wordI]
  omega
theorem wordI_d (m : Nat) (d : BitVec 7) (a : BitVec 7) (i : BitVec 11) (hm : m < 64) : bits (wordI m d a i) 13 7 = d.toNat := by
  have := d.isLt; have := a.isLt; have := i.isLt
  simp only [bits, wordI]
  omega
theorem wordI_a (m : Nat) (d : BitVec 7) (a : BitVec 7) (i : BitVec 11) (hm : m < 64) : bits (wordI m d a i) 20 14 = a.toNat := by
  have := d.isLt; have := a.isLt; have := i.isLt
  simp only [bits, wordI]
  omega
theorem wordI_i (m : Nat) (d : BitVec 7) (a : BitVec 7) (i : BitVec 11) (hm : m < 64) : bits (wordI m d a i) 31 21 = i.toNat := by
  have := d.isLt; have := a.isLt; have := i.isLt
  simp only [bits, wordI]
  omega

/-- The word fits. -/
theorem wordK_lt (k : Nat) (d : BitVec 7) (a : BitVec 7) (s : BitVec 5) (hk : k < 4) : wordK k d a s < 4294967296 := by
  have := d.isLt; have := a.isLt; have := s.isLt
  simp only [wordK]
  omega
theorem wordK_bit0 (k : Nat) (d : BitVec 7) (a : BitVec 7) (s : BitVec 5) : wordK k d a s % 2 = 1 := by
  have := d.isLt; have := a.isLt; have := s.isLt
  simp only [wordK]
  omega
theorem wordK_major (k : Nat) (d : BitVec 7) (a : BitVec 7) (s : BitVec 5) : bits (wordK k d a s) 6 1 = 7 := by
  have := d.isLt; have := a.isLt; have := s.isLt
  simp only [bits, wordK]
  omega
theorem wordK_d (k : Nat) (d : BitVec 7) (a : BitVec 7) (s : BitVec 5) : bits (wordK k d a s) 13 7 = d.toNat := by
  have := d.isLt; have := a.isLt; have := s.isLt
  simp only [bits, wordK]
  omega
theorem wordK_a (k : Nat) (d : BitVec 7) (a : BitVec 7) (s : BitVec 5) : bits (wordK k d a s) 20 14 = a.toNat := by
  have := d.isLt; have := a.isLt; have := s.isLt
  simp only [bits, wordK]
  omega
theorem wordK_s (k : Nat) (d : BitVec 7) (a : BitVec 7) (s : BitVec 5) : bits (wordK k d a s) 25 21 = s.toNat := by
  have := d.isLt; have := a.isLt; have := s.isLt
  simp only [bits, wordK]
  omega
theorem wordK_k (k : Nat) (d : BitVec 7) (a : BitVec 7) (s : BitVec 5) (hk : k < 4) : bits (wordK k d a s) 27 26 = k := by
  have := d.isLt; have := a.isLt; have := s.isLt
  simp only [bits, wordK]
  omega
theorem wordK_rest (k : Nat) (d : BitVec 7) (a : BitVec 7) (s : BitVec 5) (hk : k < 4) : bits (wordK k d a s) 31 28 = 0 := by
  have := d.isLt; have := a.isLt; have := s.isLt
  simp only [bits, wordK]
  omega

/-- The word fits. -/
theorem wordU_lt (m : Nat) (d : BitVec 7) (i : BitVec 18) (hm : m < 64) : wordU m d i < 4294967296 := by
  have := d.isLt; have := i.isLt
  simp only [wordU]
  omega
theorem wordU_bit0 (m : Nat) (d : BitVec 7) (i : BitVec 18) : wordU m d i % 2 = 1 := by
  have := d.isLt; have := i.isLt
  simp only [wordU]
  omega
theorem wordU_m (m : Nat) (d : BitVec 7) (i : BitVec 18) (hm : m < 64) : bits (wordU m d i) 6 1 = m := by
  have := d.isLt; have := i.isLt
  simp only [bits, wordU]
  omega
theorem wordU_d (m : Nat) (d : BitVec 7) (i : BitVec 18) (hm : m < 64) : bits (wordU m d i) 13 7 = d.toNat := by
  have := d.isLt; have := i.isLt
  simp only [bits, wordU]
  omega
theorem wordU_i (m : Nat) (d : BitVec 7) (i : BitVec 18) (hm : m < 64) : bits (wordU m d i) 31 14 = i.toNat := by
  have := d.isLt; have := i.isLt
  simp only [bits, wordU]
  omega

/-- The word fits. -/
theorem wordM_lt (m : Nat) (d : BitVec 7) (a : BitVec 7) (z : BitVec 3) (o : BitVec 8) (hm : m < 64) : wordM m d a z o < 4294967296 := by
  have := d.isLt; have := a.isLt; have := z.isLt; have := o.isLt
  simp only [wordM]
  omega
theorem wordM_bit0 (m : Nat) (d : BitVec 7) (a : BitVec 7) (z : BitVec 3) (o : BitVec 8) : wordM m d a z o % 2 = 1 := by
  have := d.isLt; have := a.isLt; have := z.isLt; have := o.isLt
  simp only [wordM]
  omega
theorem wordM_m (m : Nat) (d : BitVec 7) (a : BitVec 7) (z : BitVec 3) (o : BitVec 8) (hm : m < 64) : bits (wordM m d a z o) 6 1 = m := by
  have := d.isLt; have := a.isLt; have := z.isLt; have := o.isLt
  simp only [bits, wordM]
  omega
theorem wordM_d (m : Nat) (d : BitVec 7) (a : BitVec 7) (z : BitVec 3) (o : BitVec 8) (hm : m < 64) : bits (wordM m d a z o) 13 7 = d.toNat := by
  have := d.isLt; have := a.isLt; have := z.isLt; have := o.isLt
  simp only [bits, wordM]
  omega
theorem wordM_a (m : Nat) (d : BitVec 7) (a : BitVec 7) (z : BitVec 3) (o : BitVec 8) (hm : m < 64) : bits (wordM m d a z o) 20 14 = a.toNat := by
  have := d.isLt; have := a.isLt; have := z.isLt; have := o.isLt
  simp only [bits, wordM]
  omega
theorem wordM_z (m : Nat) (d : BitVec 7) (a : BitVec 7) (z : BitVec 3) (o : BitVec 8) (hm : m < 64) : bits (wordM m d a z o) 23 21 = z.toNat := by
  have := d.isLt; have := a.isLt; have := z.isLt; have := o.isLt
  simp only [bits, wordM]
  omega
theorem wordM_o (m : Nat) (d : BitVec 7) (a : BitVec 7) (z : BitVec 3) (o : BitVec 8) (hm : m < 64) : bits (wordM m d a z o) 31 24 = o.toNat := by
  have := d.isLt; have := a.isLt; have := z.isLt; have := o.isLt
  simp only [bits, wordM]
  omega

/-- The word fits. -/
theorem wordQ_lt (m : Nat) (d : BitVec 7) (a : BitVec 7) (z : BitVec 1) (s : BitVec 2) (o : BitVec 8) (hm : m < 64) : wordQ m d a z s o < 4294967296 := by
  have := d.isLt; have := a.isLt; have := z.isLt; have := s.isLt; have := o.isLt
  simp only [wordQ]
  omega
theorem wordQ_bit0 (m : Nat) (d : BitVec 7) (a : BitVec 7) (z : BitVec 1) (s : BitVec 2) (o : BitVec 8) : wordQ m d a z s o % 2 = 1 := by
  have := d.isLt; have := a.isLt; have := z.isLt; have := s.isLt; have := o.isLt
  simp only [wordQ]
  omega
theorem wordQ_m (m : Nat) (d : BitVec 7) (a : BitVec 7) (z : BitVec 1) (s : BitVec 2) (o : BitVec 8) (hm : m < 64) : bits (wordQ m d a z s o) 6 1 = m := by
  have := d.isLt; have := a.isLt; have := z.isLt; have := s.isLt; have := o.isLt
  simp only [bits, wordQ]
  omega
theorem wordQ_d (m : Nat) (d : BitVec 7) (a : BitVec 7) (z : BitVec 1) (s : BitVec 2) (o : BitVec 8) (hm : m < 64) : bits (wordQ m d a z s o) 13 7 = d.toNat := by
  have := d.isLt; have := a.isLt; have := z.isLt; have := s.isLt; have := o.isLt
  simp only [bits, wordQ]
  omega
theorem wordQ_a (m : Nat) (d : BitVec 7) (a : BitVec 7) (z : BitVec 1) (s : BitVec 2) (o : BitVec 8) (hm : m < 64) : bits (wordQ m d a z s o) 20 14 = a.toNat := by
  have := d.isLt; have := a.isLt; have := z.isLt; have := s.isLt; have := o.isLt
  simp only [bits, wordQ]
  omega
theorem wordQ_z (m : Nat) (d : BitVec 7) (a : BitVec 7) (z : BitVec 1) (s : BitVec 2) (o : BitVec 8) (hm : m < 64) : bits (wordQ m d a z s o) 21 21 = z.toNat := by
  have := d.isLt; have := a.isLt; have := z.isLt; have := s.isLt; have := o.isLt
  simp only [bits, wordQ]
  omega
theorem wordQ_s (m : Nat) (d : BitVec 7) (a : BitVec 7) (z : BitVec 1) (s : BitVec 2) (o : BitVec 8) (hm : m < 64) : bits (wordQ m d a z s o) 23 22 = s.toNat := by
  have := d.isLt; have := a.isLt; have := z.isLt; have := s.isLt; have := o.isLt
  simp only [bits, wordQ]
  omega
theorem wordQ_o (m : Nat) (d : BitVec 7) (a : BitVec 7) (z : BitVec 1) (s : BitVec 2) (o : BitVec 8) (hm : m < 64) : bits (wordQ m d a z s o) 31 24 = o.toNat := by
  have := d.isLt; have := a.isLt; have := z.isLt; have := s.isLt; have := o.isLt
  simp only [bits, wordQ]
  omega

/-- The word fits. -/
theorem wordC_lt (m : Nat) (p : BitVec 5) (g : BitVec 2) (a : BitVec 7) (b : BitVec 7) (c : BitVec 4) (hm : m < 64) : wordC m p g a b c < 4294967296 := by
  have := p.isLt; have := g.isLt; have := a.isLt; have := b.isLt; have := c.isLt
  simp only [wordC]
  omega
theorem wordC_bit0 (m : Nat) (p : BitVec 5) (g : BitVec 2) (a : BitVec 7) (b : BitVec 7) (c : BitVec 4) : wordC m p g a b c % 2 = 1 := by
  have := p.isLt; have := g.isLt; have := a.isLt; have := b.isLt; have := c.isLt
  simp only [wordC]
  omega
theorem wordC_m (m : Nat) (p : BitVec 5) (g : BitVec 2) (a : BitVec 7) (b : BitVec 7) (c : BitVec 4) (hm : m < 64) : bits (wordC m p g a b c) 6 1 = m := by
  have := p.isLt; have := g.isLt; have := a.isLt; have := b.isLt; have := c.isLt
  simp only [bits, wordC]
  omega
theorem wordC_p (m : Nat) (p : BitVec 5) (g : BitVec 2) (a : BitVec 7) (b : BitVec 7) (c : BitVec 4) (hm : m < 64) : bits (wordC m p g a b c) 11 7 = p.toNat := by
  have := p.isLt; have := g.isLt; have := a.isLt; have := b.isLt; have := c.isLt
  simp only [bits, wordC]
  omega
theorem wordC_g (m : Nat) (p : BitVec 5) (g : BitVec 2) (a : BitVec 7) (b : BitVec 7) (c : BitVec 4) (hm : m < 64) : bits (wordC m p g a b c) 13 12 = g.toNat := by
  have := p.isLt; have := g.isLt; have := a.isLt; have := b.isLt; have := c.isLt
  simp only [bits, wordC]
  omega
theorem wordC_a (m : Nat) (p : BitVec 5) (g : BitVec 2) (a : BitVec 7) (b : BitVec 7) (c : BitVec 4) (hm : m < 64) : bits (wordC m p g a b c) 20 14 = a.toNat := by
  have := p.isLt; have := g.isLt; have := a.isLt; have := b.isLt; have := c.isLt
  simp only [bits, wordC]
  omega
theorem wordC_b (m : Nat) (p : BitVec 5) (g : BitVec 2) (a : BitVec 7) (b : BitVec 7) (c : BitVec 4) (hm : m < 64) : bits (wordC m p g a b c) 27 21 = b.toNat := by
  have := p.isLt; have := g.isLt; have := a.isLt; have := b.isLt; have := c.isLt
  simp only [bits, wordC]
  omega
theorem wordC_c (m : Nat) (p : BitVec 5) (g : BitVec 2) (a : BitVec 7) (b : BitVec 7) (c : BitVec 4) (hm : m < 64) : bits (wordC m p g a b c) 31 28 = c.toNat := by
  have := p.isLt; have := g.isLt; have := a.isLt; have := b.isLt; have := c.isLt
  simp only [bits, wordC]
  omega

/-- The word fits. -/
theorem wordCI_lt (p : BitVec 5) (g : BitVec 2) (a : BitVec 7) (c : BitVec 4) (i : BitVec 7) : wordCI p g a c i < 4294967296 := by
  have := p.isLt; have := g.isLt; have := a.isLt; have := c.isLt; have := i.isLt
  simp only [wordCI]
  omega
theorem wordCI_bit0 (p : BitVec 5) (g : BitVec 2) (a : BitVec 7) (c : BitVec 4) (i : BitVec 7) : wordCI p g a c i % 2 = 1 := by
  have := p.isLt; have := g.isLt; have := a.isLt; have := c.isLt; have := i.isLt
  simp only [wordCI]
  omega
theorem wordCI_major (p : BitVec 5) (g : BitVec 2) (a : BitVec 7) (c : BitVec 4) (i : BitVec 7) : bits (wordCI p g a c i) 6 1 = 12 := by
  have := p.isLt; have := g.isLt; have := a.isLt; have := c.isLt; have := i.isLt
  simp only [bits, wordCI]
  omega
theorem wordCI_p (p : BitVec 5) (g : BitVec 2) (a : BitVec 7) (c : BitVec 4) (i : BitVec 7) : bits (wordCI p g a c i) 11 7 = p.toNat := by
  have := p.isLt; have := g.isLt; have := a.isLt; have := c.isLt; have := i.isLt
  simp only [bits, wordCI]
  omega
theorem wordCI_g (p : BitVec 5) (g : BitVec 2) (a : BitVec 7) (c : BitVec 4) (i : BitVec 7) : bits (wordCI p g a c i) 13 12 = g.toNat := by
  have := p.isLt; have := g.isLt; have := a.isLt; have := c.isLt; have := i.isLt
  simp only [bits, wordCI]
  omega
theorem wordCI_a (p : BitVec 5) (g : BitVec 2) (a : BitVec 7) (c : BitVec 4) (i : BitVec 7) : bits (wordCI p g a c i) 20 14 = a.toNat := by
  have := p.isLt; have := g.isLt; have := a.isLt; have := c.isLt; have := i.isLt
  simp only [bits, wordCI]
  omega
theorem wordCI_c (p : BitVec 5) (g : BitVec 2) (a : BitVec 7) (c : BitVec 4) (i : BitVec 7) : bits (wordCI p g a c i) 24 21 = c.toNat := by
  have := p.isLt; have := g.isLt; have := a.isLt; have := c.isLt; have := i.isLt
  simp only [bits, wordCI]
  omega
theorem wordCI_i (p : BitVec 5) (g : BitVec 2) (a : BitVec 7) (c : BitVec 4) (i : BitVec 7) : bits (wordCI p g a c i) 31 25 = i.toNat := by
  have := p.isLt; have := g.isLt; have := a.isLt; have := c.isLt; have := i.isLt
  simp only [bits, wordCI]
  omega

/-- The word fits. -/
theorem wordB_lt (m : Nat) (p : BitVec 5) (n : BitVec 1) (o : BitVec 19) (hm : m < 64) : wordB m p n o < 4294967296 := by
  have := p.isLt; have := n.isLt; have := o.isLt
  simp only [wordB]
  omega
theorem wordB_bit0 (m : Nat) (p : BitVec 5) (n : BitVec 1) (o : BitVec 19) : wordB m p n o % 2 = 1 := by
  have := p.isLt; have := n.isLt; have := o.isLt
  simp only [wordB]
  omega
theorem wordB_m (m : Nat) (p : BitVec 5) (n : BitVec 1) (o : BitVec 19) (hm : m < 64) : bits (wordB m p n o) 6 1 = m := by
  have := p.isLt; have := n.isLt; have := o.isLt
  simp only [bits, wordB]
  omega
theorem wordB_p (m : Nat) (p : BitVec 5) (n : BitVec 1) (o : BitVec 19) (hm : m < 64) : bits (wordB m p n o) 11 7 = p.toNat := by
  have := p.isLt; have := n.isLt; have := o.isLt
  simp only [bits, wordB]
  omega
theorem wordB_n (m : Nat) (p : BitVec 5) (n : BitVec 1) (o : BitVec 19) (hm : m < 64) : bits (wordB m p n o) 12 12 = n.toNat := by
  have := p.isLt; have := n.isLt; have := o.isLt
  simp only [bits, wordB]
  omega
theorem wordB_o (m : Nat) (p : BitVec 5) (n : BitVec 1) (o : BitVec 19) (hm : m < 64) : bits (wordB m p n o) 31 13 = o.toNat := by
  have := p.isLt; have := n.isLt; have := o.isLt
  simp only [bits, wordB]
  omega

/-- The word fits. -/
theorem wordT_lt (f : Nat) (c : BitVec 5) (a : BitVec 6) (b : BitVec 6) (p : BitVec 5) (hf : f < 8) : wordT f c a b p < 4294967296 := by
  have := c.isLt; have := a.isLt; have := b.isLt; have := p.isLt
  simp only [wordT]
  omega
theorem wordT_bit0 (f : Nat) (c : BitVec 5) (a : BitVec 6) (b : BitVec 6) (p : BitVec 5) : wordT f c a b p % 2 = 1 := by
  have := c.isLt; have := a.isLt; have := b.isLt; have := p.isLt
  simp only [wordT]
  omega
theorem wordT_major (f : Nat) (c : BitVec 5) (a : BitVec 6) (b : BitVec 6) (p : BitVec 5) : bits (wordT f c a b p) 6 1 = 38 := by
  have := c.isLt; have := a.isLt; have := b.isLt; have := p.isLt
  simp only [bits, wordT]
  omega
theorem wordT_c (f : Nat) (c : BitVec 5) (a : BitVec 6) (b : BitVec 6) (p : BitVec 5) : bits (wordT f c a b p) 11 7 = c.toNat := by
  have := c.isLt; have := a.isLt; have := b.isLt; have := p.isLt
  simp only [bits, wordT]
  omega
theorem wordT_a (f : Nat) (c : BitVec 5) (a : BitVec 6) (b : BitVec 6) (p : BitVec 5) : bits (wordT f c a b p) 17 12 = a.toNat := by
  have := c.isLt; have := a.isLt; have := b.isLt; have := p.isLt
  simp only [bits, wordT]
  omega
theorem wordT_b (f : Nat) (c : BitVec 5) (a : BitVec 6) (b : BitVec 6) (p : BitVec 5) : bits (wordT f c a b p) 23 18 = b.toNat := by
  have := c.isLt; have := a.isLt; have := b.isLt; have := p.isLt
  simp only [bits, wordT]
  omega
theorem wordT_p (f : Nat) (c : BitVec 5) (a : BitVec 6) (b : BitVec 6) (p : BitVec 5) : bits (wordT f c a b p) 28 24 = p.toNat := by
  have := c.isLt; have := a.isLt; have := b.isLt; have := p.isLt
  simp only [bits, wordT]
  omega
theorem wordT_f (f : Nat) (c : BitVec 5) (a : BitVec 6) (b : BitVec 6) (p : BitVec 5) (hf : f < 8) : bits (wordT f c a b p) 31 29 = f := by
  have := c.isLt; have := a.isLt; have := b.isLt; have := p.isLt
  simp only [bits, wordT]
  omega

/-- The word fits. -/
theorem wordW_lt (l : BitVec 4) (s : BitVec 4) (c : BitVec 4) (t : BitVec 4) : wordW l s c t < 4294967296 := by
  have := l.isLt; have := s.isLt; have := c.isLt; have := t.isLt
  simp only [wordW]
  omega
theorem wordW_bit0 (l : BitVec 4) (s : BitVec 4) (c : BitVec 4) (t : BitVec 4) : wordW l s c t % 2 = 1 := by
  have := l.isLt; have := s.isLt; have := c.isLt; have := t.isLt
  simp only [wordW]
  omega
theorem wordW_major (l : BitVec 4) (s : BitVec 4) (c : BitVec 4) (t : BitVec 4) : bits (wordW l s c t) 6 1 = 33 := by
  have := l.isLt; have := s.isLt; have := c.isLt; have := t.isLt
  simp only [bits, wordW]
  omega
theorem wordW_l (l : BitVec 4) (s : BitVec 4) (c : BitVec 4) (t : BitVec 4) : bits (wordW l s c t) 10 7 = l.toNat := by
  have := l.isLt; have := s.isLt; have := c.isLt; have := t.isLt
  simp only [bits, wordW]
  omega
theorem wordW_s (l : BitVec 4) (s : BitVec 4) (c : BitVec 4) (t : BitVec 4) : bits (wordW l s c t) 14 11 = s.toNat := by
  have := l.isLt; have := s.isLt; have := c.isLt; have := t.isLt
  simp only [bits, wordW]
  omega
theorem wordW_c (l : BitVec 4) (s : BitVec 4) (c : BitVec 4) (t : BitVec 4) : bits (wordW l s c t) 18 15 = c.toNat := by
  have := l.isLt; have := s.isLt; have := c.isLt; have := t.isLt
  simp only [bits, wordW]
  omega
theorem wordW_t (l : BitVec 4) (s : BitVec 4) (c : BitVec 4) (t : BitVec 4) : bits (wordW l s c t) 22 19 = t.toNat := by
  have := l.isLt; have := s.isLt; have := c.isLt; have := t.isLt
  simp only [bits, wordW]
  omega
theorem wordW_rest (l : BitVec 4) (s : BitVec 4) (c : BitVec 4) (t : BitVec 4) : bits (wordW l s c t) 31 23 = 0 := by
  have := l.isLt; have := s.isLt; have := c.isLt; have := t.isLt
  simp only [bits, wordW]
  omega

/-- The word fits. -/
theorem wordP_lt (p : BitVec 5) (n : BitVec 1) (c : BitVec 7) (x : BitVec 12) : wordP p n c x < 4294967296 := by
  have := p.isLt; have := n.isLt; have := c.isLt; have := x.isLt
  simp only [wordP]
  omega
theorem wordP_bit0 (p : BitVec 5) (n : BitVec 1) (c : BitVec 7) (x : BitVec 12) : wordP p n c x % 2 = 1 := by
  have := p.isLt; have := n.isLt; have := c.isLt; have := x.isLt
  simp only [wordP]
  omega
theorem wordP_major (p : BitVec 5) (n : BitVec 1) (c : BitVec 7) (x : BitVec 12) : bits (wordP p n c x) 6 1 = 0 := by
  have := p.isLt; have := n.isLt; have := c.isLt; have := x.isLt
  simp only [bits, wordP]
  omega
theorem wordP_p (p : BitVec 5) (n : BitVec 1) (c : BitVec 7) (x : BitVec 12) : bits (wordP p n c x) 11 7 = p.toNat := by
  have := p.isLt; have := n.isLt; have := c.isLt; have := x.isLt
  simp only [bits, wordP]
  omega
theorem wordP_n (p : BitVec 5) (n : BitVec 1) (c : BitVec 7) (x : BitVec 12) : bits (wordP p n c x) 12 12 = n.toNat := by
  have := p.isLt; have := n.isLt; have := c.isLt; have := x.isLt
  simp only [bits, wordP]
  omega
theorem wordP_c (p : BitVec 5) (n : BitVec 1) (c : BitVec 7) (x : BitVec 12) : bits (wordP p n c x) 19 13 = c.toNat := by
  have := p.isLt; have := n.isLt; have := c.isLt; have := x.isLt
  simp only [bits, wordP]
  omega
theorem wordP_x (p : BitVec 5) (n : BitVec 1) (c : BitVec 7) (x : BitVec 12) : bits (wordP p n c x) 31 20 = x.toNat := by
  have := p.isLt; have := n.isLt; have := c.isLt; have := x.isLt
  simp only [bits, wordP]
  omega

/-- The word fits. -/
theorem wordF_lt (d : BitVec 7) (a : BitVec 7) (w : BitVec 5) (r : BitVec 5) (t : BitVec 1) : wordF d a w r t < 4294967296 := by
  have := d.isLt; have := a.isLt; have := w.isLt; have := r.isLt; have := t.isLt
  simp only [wordF]
  omega
theorem wordF_bit0 (d : BitVec 7) (a : BitVec 7) (w : BitVec 5) (r : BitVec 5) (t : BitVec 1) : wordF d a w r t % 2 = 1 := by
  have := d.isLt; have := a.isLt; have := w.isLt; have := r.isLt; have := t.isLt
  simp only [wordF]
  omega
theorem wordF_major (d : BitVec 7) (a : BitVec 7) (w : BitVec 5) (r : BitVec 5) (t : BitVec 1) : bits (wordF d a w r t) 6 1 = 22 := by
  have := d.isLt; have := a.isLt; have := w.isLt; have := r.isLt; have := t.isLt
  simp only [bits, wordF]
  omega
theorem wordF_d (d : BitVec 7) (a : BitVec 7) (w : BitVec 5) (r : BitVec 5) (t : BitVec 1) : bits (wordF d a w r t) 13 7 = d.toNat := by
  have := d.isLt; have := a.isLt; have := w.isLt; have := r.isLt; have := t.isLt
  simp only [bits, wordF]
  omega
theorem wordF_a (d : BitVec 7) (a : BitVec 7) (w : BitVec 5) (r : BitVec 5) (t : BitVec 1) : bits (wordF d a w r t) 20 14 = a.toNat := by
  have := d.isLt; have := a.isLt; have := w.isLt; have := r.isLt; have := t.isLt
  simp only [bits, wordF]
  omega
theorem wordF_w (d : BitVec 7) (a : BitVec 7) (w : BitVec 5) (r : BitVec 5) (t : BitVec 1) : bits (wordF d a w r t) 25 21 = w.toNat := by
  have := d.isLt; have := a.isLt; have := w.isLt; have := r.isLt; have := t.isLt
  simp only [bits, wordF]
  omega
theorem wordF_r (d : BitVec 7) (a : BitVec 7) (w : BitVec 5) (r : BitVec 5) (t : BitVec 1) : bits (wordF d a w r t) 30 26 = r.toNat := by
  have := d.isLt; have := a.isLt; have := w.isLt; have := r.isLt; have := t.isLt
  simp only [bits, wordF]
  omega
theorem wordF_t (d : BitVec 7) (a : BitVec 7) (w : BitVec 5) (r : BitVec 5) (t : BitVec 1) : bits (wordF d a w r t) 31 31 = t.toNat := by
  have := d.isLt; have := a.isLt; have := w.isLt; have := r.isLt; have := t.isLt
  simp only [bits, wordF]
  omega

/-- The word fits. -/
theorem wordH_lt (op : Nat) (d : BitVec 5) (v : BitVec 5) (hop : op < 32) : wordH op d v < 65536 := by
  have := d.isLt; have := v.isLt
  simp only [wordH]
  omega
theorem wordH_bit0 (op : Nat) (d : BitVec 5) (v : BitVec 5) : wordH op d v % 2 = 0 := by
  have := d.isLt; have := v.isLt
  simp only [wordH]
  omega
theorem wordH_op (op : Nat) (d : BitVec 5) (v : BitVec 5) (hop : op < 32) : bits (wordH op d v) 5 1 = op := by
  have := d.isLt; have := v.isLt
  simp only [bits, wordH]
  omega
theorem wordH_d (op : Nat) (d : BitVec 5) (v : BitVec 5) (hop : op < 32) : bits (wordH op d v) 10 6 = d.toNat := by
  have := d.isLt; have := v.isLt
  simp only [bits, wordH]
  omega
theorem wordH_v (op : Nat) (d : BitVec 5) (v : BitVec 5) (hop : op < 32) : bits (wordH op d v) 15 11 = v.toNat := by
  have := d.isLt; have := v.isLt
  simp only [bits, wordH]
  omega

/-- The word fits. -/
theorem wordG_lt (p : BitVec 5) (g : BitVec 1) (s : BitVec 4) : wordG p g s < 65536 := by
  have := p.isLt; have := g.isLt; have := s.isLt
  simp only [wordG]
  omega
theorem wordG_bit0 (p : BitVec 5) (g : BitVec 1) (s : BitVec 4) : wordG p g s % 2 = 0 := by
  have := p.isLt; have := g.isLt; have := s.isLt
  simp only [wordG]
  omega
theorem wordG_op (p : BitVec 5) (g : BitVec 1) (s : BitVec 4) : bits (wordG p g s) 5 1 = 16 := by
  have := p.isLt; have := g.isLt; have := s.isLt
  simp only [bits, wordG]
  omega
theorem wordG_p (p : BitVec 5) (g : BitVec 1) (s : BitVec 4) : bits (wordG p g s) 10 6 = p.toNat := by
  have := p.isLt; have := g.isLt; have := s.isLt
  simp only [bits, wordG]
  omega
theorem wordG_g (p : BitVec 5) (g : BitVec 1) (s : BitVec 4) : bits (wordG p g s) 11 11 = g.toNat := by
  have := p.isLt; have := g.isLt; have := s.isLt
  simp only [bits, wordG]
  omega
theorem wordG_s (p : BitVec 5) (g : BitVec 1) (s : BitVec 4) : bits (wordG p g s) 15 12 = s.toNat := by
  have := p.isLt; have := g.isLt; have := s.isLt
  simp only [bits, wordG]
  omega

/-- The bytes of a number of `n` bytes give the number back (R1). -/
theorem leNat_leBytes (n x : Nat) (h : x < 256 ^ n) : leNat (leBytes n x) = x := by
  induction n generalizing x with
  | zero => simp only [leBytes, leNat]; simp at h; omega
  | succ n ih =>
    simp only [leBytes, leNat, BitVec.toNat_ofNat]
    rw [ih (x / 256) (by rw [Nat.pow_succ] at h; omega)]
    omega
/-- An instruction of 32 bits whose word decodes to it round trips as bytes. -/
theorem round32 {i : Instr} {x : Nat} (hn : i.nbits = 32) (he : encode i = x) (hx : x < 4294967296) (h1 : x % 2 = 1)
    (hd : decode32 x = .ok i) (rest : List Byte) : decode (i.bytes ++ rest) = .ok (i, rest) := by
  have h := leNat_leBytes 4 x (by omega)
  simp only [Instr.bytes, hn, he]
  simp only [leBytes, List.cons_append, List.nil_append, decode, show 32 / 8 = 4 from rfl] at *
  rw [if_neg (by simp only [BitVec.toNat_ofNat]; omega), h, hd]
/-- An instruction of 16 bits whose word decodes to it round trips as bytes. -/
theorem round16 {i : Instr} {x : Nat} (hn : i.nbits = 16) (he : encode i = x) (hx : x < 65536) (h0 : x % 2 = 0)
    (hd : decode16 x = .ok i) (rest : List Byte) : decode (i.bytes ++ rest) = .ok (i, rest) := by
  have h := leNat_leBytes 2 x (by omega)
  simp only [Instr.bytes, hn, he]
  simp only [leBytes, List.cons_append, List.nil_append, decode, show 16 / 8 = 2 from rfl] at *
  rw [if_pos (by simp only [BitVec.toNat_ofNat]; omega), h, hd]

end Sys2Proof.Laws
end

