-- ==== Sys2Proof/Laws/Store.lean ====
section
/-! SUPPORT. Laws of stores: reading after writing, and that every write keeps the canonical form. -/

namespace Sys2Proof.Machine

variable {α : Type}

@[simp] theorem Store.get_nil (d : α) (i : Nat) : Store.get d [] i = d := rfl

/-- An erased key reads as unlisted, and no other key changes. -/
theorem Store.get_erase (d : α) (m : Store α) (i j : Nat) :
    Store.get d (Store.erase m i) j = if j = i then d else Store.get d m j := by
  induction m with
  | nil => simp [Store.erase]
  | cons e m ih =>
    obtain ⟨k, v⟩ := e
    by_cases h : k = i
    · subst h
      by_cases h' : j = k
      · subst h'; simp [Store.erase, ih]
      · simp [Store.erase, Store.get, ih, h', Ne.symm h']
    · by_cases h' : j = i
      · subst h'; simp [Store.erase, Store.get, ih, h]
      · simp [Store.erase, Store.get, ih, h, h']

/-- A placed key reads as its value where it was not listed before. -/
theorem Store.get_place (d : α) (m : Store α) (i j : Nat) (x : α) (h : ∀ e ∈ m, e.1 ≠ i) :
    Store.get d (Store.place m i x) j = if j = i then x else Store.get d m j := by
  induction m with
  | nil => by_cases h' : i = j <;> simp [Store.place, Store.get, h', eq_comm]
  | cons e m ih =>
    obtain ⟨k, v⟩ := e
    have hk : k ≠ i := h (k, v) (by simp)
    have ih := ih fun e he => h e (List.mem_cons_of_mem _ he)
    by_cases hlt : i < k <;> simp only [Store.place, Store.get, hlt, if_true, if_false, ih]
    · by_cases h' : j = i
      · simp [h']
      · simp [h', Ne.symm h']
    · by_cases h' : j = i
      · subst h'; simp [hk]
      · simp [h']

theorem Store.erase_ne (m : Store α) (i : Nat) : ∀ e ∈ Store.erase m i, e.1 ≠ i := by
  induction m with
  | nil => simp [Store.erase]
  | cons e m ih =>
    simp only [Store.erase]
    split
    · exact ih
    · intro e he
      rcases List.mem_cons.mp he with rfl | he
      · assumption
      · exact ih e he

/-- Reading after one write (the law that every other one rests on). -/
theorem Store.get_set [DecidableEq α] (d : α) (m : Store α) (i j : Nat) (x : α) :
    Store.get d (Store.set d m i x) j = if j = i then x else Store.get d m j := by
  unfold Store.set
  split
  · rename_i h; subst h; exact Store.get_erase x m i j
  · rw [Store.get_place d _ i j x (Store.erase_ne m i), Store.get_erase]; split <;> rfl

@[simp] theorem Store.get_set_same [DecidableEq α] (d : α) (m : Store α) (i : Nat) (x : α) :
    Store.get d (Store.set d m i x) i = x := by simp [Store.get_set]

theorem Store.get_set_other [DecidableEq α] (d : α) (m : Store α) {i j : Nat} (x : α) (h : j ≠ i) :
    Store.get d (Store.set d m i x) j = Store.get d m j := by simp [Store.get_set, h]

/-- Reading after writing consecutive values. -/
theorem Store.get_setN [DecidableEq α] (d : α) (xs : List α) : ∀ (m : Store α) (i j : Nat),
    Store.get d (Store.setN d m i xs) j = if i ≤ j ∧ j < i + xs.length then xs.getD (j - i) d else Store.get d m j := by
  induction xs with
  | nil => intro m i j; rw [if_neg (by simp)]; rfl
  | cons x xs ih =>
    intro m i j
    simp only [Store.setN, ih, Store.get_set, List.length_cons]
    by_cases h1 : j = i
    · subst h1
      rw [if_neg (by omega), if_pos rfl, if_pos (by omega)]; simp
    · by_cases h2 : i + 1 ≤ j ∧ j < i + 1 + xs.length
      · rw [if_pos h2, if_pos (by omega)]
        obtain ⟨n, hn⟩ : ∃ n, j - i = n + 1 := ⟨j - i - 1, by omega⟩
        rw [hn, List.getD_cons_succ]; congr 1; omega
      · rw [if_neg h2, if_neg h1, if_neg (by omega)]

/-- A key outside the values written reads as before. -/
theorem Store.get_setN_outside [DecidableEq α] (d : α) (m : Store α) (i j : Nat) (xs : List α)
    (h : j < i ∨ i + xs.length ≤ j) : Store.get d (Store.setN d m i xs) j = Store.get d m j := by
  rw [Store.get_setN, if_neg (by omega)]

theorem Store.getN_congr (d : α) (m m' : Store α) : ∀ (n i : Nat),
    (∀ j, i ≤ j → j < i + n → Store.get d m j = Store.get d m' j) → Store.getN d m i n = Store.getN d m' i n := by
  intro n
  induction n with
  | zero => intro i _; rfl
  | succ n ih =>
    intro i h
    simp only [Store.getN]
    rw [h i (by omega) (by omega), ih (i + 1) fun j h1 h2 => h j (by omega) (by omega)]

@[simp] theorem Store.length_getN (d : α) (m : Store α) : ∀ (n i : Nat), (Store.getN d m i n).length = n := by
  intro n
  induction n with
  | zero => intro i; rfl
  | succ n ih => intro i; simp [Store.getN, ih]

/-- What was written reads back. -/
theorem Store.getN_setN [DecidableEq α] (d : α) (xs : List α) : ∀ (m : Store α) (i : Nat),
    Store.getN d (Store.setN d m i xs) i xs.length = xs := by
  induction xs with
  | nil => intro m i; rfl
  | cons x xs ih =>
    intro m i
    simp only [Store.setN, List.length_cons, Store.getN, ih]
    rw [Store.get_setN_outside _ _ _ _ _ (by omega)]; simp

-- The canonical form

theorem Store.wfFrom_mono [DecidableEq α] (d : α) (m : Store α) {lo lo' : Nat} (h : lo' ≤ lo)
    (w : Store.wfFrom d lo m = true) : Store.wfFrom d lo' m = true := by
  cases m with
  | nil => rfl
  | cons e m =>
    obtain ⟨k, v⟩ := e
    simp only [Store.wfFrom, Bool.and_eq_true, decide_eq_true_eq] at w ⊢
    exact ⟨⟨by omega, w.1.2⟩, w.2⟩

theorem Store.wfFrom_erase [DecidableEq α] (d : α) (i : Nat) : ∀ (m : Store α) (lo : Nat),
    Store.wfFrom d lo m = true → Store.wfFrom d lo (Store.erase m i) = true := by
  intro m
  induction m with
  | nil => intro lo _; rfl
  | cons e m ih =>
    obtain ⟨k, v⟩ := e
    intro lo w
    simp only [Store.wfFrom, Bool.and_eq_true, decide_eq_true_eq] at w
    simp only [Store.erase]
    split
    · exact Store.wfFrom_mono d _ (by omega) (ih (k + 1) w.2)
    · simp only [Store.wfFrom, Bool.and_eq_true, decide_eq_true_eq]
      exact ⟨w.1, ih (k + 1) w.2⟩

theorem Store.wfFrom_place [DecidableEq α] (d : α) (i : Nat) (x : α) (hx : x ≠ d) : ∀ (m : Store α) (lo : Nat),
    lo ≤ i → (∀ e ∈ m, e.1 ≠ i) → Store.wfFrom d lo m = true → Store.wfFrom d lo (Store.place m i x) = true := by
  intro m
  induction m with
  | nil => intro lo hl _ _; simp [Store.place, Store.wfFrom, hl, hx]
  | cons e m ih =>
    obtain ⟨k, v⟩ := e
    intro lo hl hne w
    have hk : k ≠ i := hne (k, v) (by simp)
    simp only [Store.wfFrom, Bool.and_eq_true, decide_eq_true_eq] at w
    simp only [Store.place]
    split <;> simp only [Store.wfFrom, Bool.and_eq_true, decide_eq_true_eq]
    · exact ⟨⟨hl, by simp [hx]⟩, ⟨by omega, w.1.2⟩, w.2⟩
    · exact ⟨w.1, ih (k + 1) (by omega) (fun e he => hne e (List.mem_cons_of_mem _ he)) w.2⟩

/-- A write keeps the canonical form. -/
theorem Store.wf_set [DecidableEq α] (d : α) (m : Store α) (i : Nat) (x : α) (w : Store.wf d m = true) :
    Store.wf d (Store.set d m i x) = true := by
  unfold Store.set
  split
  · exact Store.wfFrom_erase d i m 0 w
  · rename_i h
    exact Store.wfFrom_place d i x h _ 0 (by omega) (Store.erase_ne m i) (Store.wfFrom_erase d i m 0 w)

/-- A write of consecutive values keeps the canonical form. -/
theorem Store.wf_setN [DecidableEq α] (d : α) (xs : List α) : ∀ (m : Store α) (i : Nat),
    Store.wf d m = true → Store.wf d (Store.setN d m i xs) = true := by
  induction xs with
  | nil => intro m i w; exact w
  | cons x xs ih => intro m i w; exact ih _ _ (Store.wf_set d m i x w)

theorem Store.wfFrom_filter [DecidableEq α] (d : α) (p : Nat × α → Bool) : ∀ (m : Store α) (lo : Nat),
    Store.wfFrom d lo m = true → Store.wfFrom d lo (m.filter p) = true := by
  intro m
  induction m with
  | nil => intro lo _; rfl
  | cons e m ih =>
    obtain ⟨k, v⟩ := e
    intro lo w
    simp only [Store.wfFrom, Bool.and_eq_true, decide_eq_true_eq] at w
    by_cases h : p (k, v)
    · rw [List.filter_cons_of_pos h]
      simp only [Store.wfFrom, Bool.and_eq_true, decide_eq_true_eq]
      exact ⟨w.1, ih (k + 1) w.2⟩
    · rw [List.filter_cons_of_neg h]
      exact Store.wfFrom_mono d _ (by omega) (ih (k + 1) w.2)

-- Numbers and bytes

@[simp] theorem leBytes_length : ∀ (n x : Nat), (leBytes n x).length = n := by
  intro n
  induction n with
  | zero => intro x; rfl
  | succ n ih => intro x; simp [leBytes, ih]

/-- The bytes of a number give it back (R1). -/
theorem leNat_leBytes : ∀ (n x : Nat), leNat (leBytes n x) = x % 2 ^ (8 * n) := by
  intro n
  induction n with
  | zero => intro x; simp [leBytes, leNat]; omega
  | succ n ih =>
    intro x
    simp only [leBytes, leNat, ih, BitVec.toNat_ofNat]
    have h : (2 : Nat) ^ (8 * (n + 1)) = 256 * 2 ^ (8 * n) := by rw [show 8 * (n + 1) = 8 + 8 * n by omega, Nat.pow_add]
    rw [h, Nat.mod_mul, show (2 : Nat) ^ 8 = 256 from rfl]

end Sys2Proof.Machine
end

