-- ==== Sys2Proof/Laws/State.lean ====
section
/-! SUPPORT. One lemma for each field and each named update of State, Team and Thread, so that no proof unfolds a record update. -/

namespace Sys2Proof.Machine


-- State.setTeam

@[simp] theorem State.setTeam_agenda (s : State) (k : Nat) (x : Team) : (s.setTeam k x).agenda = s.agenda := rfl
@[simp] theorem State.setTeam_follow (s : State) (k : Nat) (x : Team) : (s.setTeam k x).follow = s.follow := rfl
@[simp] theorem State.setTeam_cur (s : State) (k : Nat) (x : Team) : (s.setTeam k x).cur = s.cur := rfl
@[simp] theorem State.setTeam_turn (s : State) (k : Nat) (x : Team) : (s.setTeam k x).turn = s.turn := rfl
@[simp] theorem State.setTeam_freeCount (s : State) (k : Nat) (x : Team) : (s.setTeam k x).freeCount = s.freeCount := rfl
@[simp] theorem State.setTeam_halt (s : State) (k : Nat) (x : Team) : (s.setTeam k x).halt = s.halt := rfl
@[simp] theorem State.setTeam_jam (s : State) (k : Nat) (x : Team) : (s.setTeam k x).jam = s.jam := rfl
@[simp] theorem State.setTeam_nextKey (s : State) (k : Nat) (x : Team) : (s.setTeam k x).nextKey = s.nextKey := rfl
@[simp] theorem State.setTeam_clock (s : State) (k : Nat) (x : Team) : (s.setTeam k x).clock = s.clock := rfl
@[simp] theorem State.setTeam_mem (s : State) (k : Nat) (x : Team) : (s.setTeam k x).mem = s.mem := rfl
@[simp] theorem State.setTeam_poison (s : State) (k : Nat) (x : Team) : (s.setTeam k x).poison = s.poison := rfl
@[simp] theorem State.setTeam_outbound (s : State) (k : Nat) (x : Team) : (s.setTeam k x).outbound = s.outbound := rfl
@[simp] theorem State.setTeam_tlb (s : State) (k : Nat) (x : Team) : (s.setTeam k x).tlb = s.tlb := rfl
@[simp] theorem State.setTeam_ntlb (s : State) (k : Nat) (x : Team) : (s.setTeam k x).ntlb = s.ntlb := rfl
@[simp] theorem State.setTeam_walks (s : State) (k : Nat) (x : Team) : (s.setTeam k x).walks = s.walks := rfl
@[simp] theorem State.setTeam_answers (s : State) (k : Nat) (x : Team) : (s.setTeam k x).answers = s.answers := rfl
@[simp] theorem State.setTeam_icache (s : State) (k : Nat) (x : Team) : (s.setTeam k x).icache = s.icache := rfl
@[simp] theorem State.setTeam_sealMap (s : State) (k : Nat) (x : Team) : (s.setTeam k x).sealMap = s.sealMap := rfl
@[simp] theorem State.setTeam_tierRecs (s : State) (k : Nat) (x : Team) : (s.setTeam k x).tierRecs = s.tierRecs := rfl
@[simp] theorem State.setTeam_shadow (s : State) (k : Nat) (x : Team) : (s.setTeam k x).shadow = s.shadow := rfl
@[simp] theorem State.setTeam_dropped (s : State) (k : Nat) (x : Team) : (s.setTeam k x).dropped = s.dropped := rfl
@[simp] theorem State.setTeam_cores (s : State) (k : Nat) (x : Team) : (s.setTeam k x).cores = s.cores := rfl
@[simp] theorem State.setTeam_quads (s : State) (k : Nat) (x : Team) : (s.setTeam k x).quads = s.quads := rfl
@[simp] theorem State.setTeam_teams (s : State) (k : Nat) (x : Team) : (s.setTeam k x).teams = Store.set Team.absent s.teams k x := rfl
@[simp] theorem State.setTeam_grids (s : State) (k : Nat) (x : Team) : (s.setTeam k x).grids = s.grids := rfl
@[simp] theorem State.setTeam_rrPos (s : State) (k : Nat) (x : Team) : (s.setTeam k x).rrPos = s.rrPos := rfl
@[simp] theorem State.setTeam_copies (s : State) (k : Nat) (x : Team) : (s.setTeam k x).copies = s.copies := rfl
@[simp] theorem State.setTeam_mops (s : State) (k : Nat) (x : Team) : (s.setTeam k x).mops = s.mops := rfl
@[simp] theorem State.setTeam_chans (s : State) (k : Nat) (x : Team) : (s.setTeam k x).chans = s.chans := rfl
@[simp] theorem State.setTeam_parks (s : State) (k : Nat) (x : Team) : (s.setTeam k x).parks = s.parks := rfl
@[simp] theorem State.setTeam_faults (s : State) (k : Nat) (x : Team) : (s.setTeam k x).faults = s.faults := rfl
@[simp] theorem State.setTeam_moves (s : State) (k : Nat) (x : Team) : (s.setTeam k x).moves = s.moves := rfl
@[simp] theorem State.setTeam_jobs (s : State) (k : Nat) (x : Team) : (s.setTeam k x).jobs = s.jobs := rfl
@[simp] theorem State.setTeam_resolveNo (s : State) (k : Nat) (x : Team) : (s.setTeam k x).resolveNo = s.resolveNo := rfl
@[simp] theorem State.setTeam_vfs (s : State) (k : Nat) (x : Team) : (s.setTeam k x).vfs = s.vfs := rfl
@[simp] theorem State.setTeam_vmtbase (s : State) (k : Nat) (x : Team) : (s.setTeam k x).vmtbase = s.vmtbase := rfl
@[simp] theorem State.setTeam_peerid (s : State) (k : Nat) (x : Team) : (s.setTeam k x).peerid = s.peerid := rfl
@[simp] theorem State.setTeam_powercap (s : State) (k : Nat) (x : Team) : (s.setTeam k x).powercap = s.powercap := rfl
@[simp] theorem State.setTeam_pstate (s : State) (k : Nat) (x : Team) : (s.setTeam k x).pstate = s.pstate := rfl
@[simp] theorem State.setTeam_pfmq (s : State) (k : Nat) (x : Team) : (s.setTeam k x).pfmq = s.pfmq := rfl
@[simp] theorem State.setTeam_peerroute (s : State) (k : Nat) (x : Team) : (s.setTeam k x).peerroute = s.peerroute := rfl
@[simp] theorem State.setTeam_pfFid (s : State) (k : Nat) (x : Team) : (s.setTeam k x).pfFid = s.pfFid := rfl
@[simp] theorem State.setTeam_mqBells (s : State) (k : Nat) (x : Team) : (s.setTeam k x).mqBells = s.mqBells := rfl
@[simp] theorem State.setTeam_hostBlocks (s : State) (k : Nat) (x : Team) : (s.setTeam k x).hostBlocks = s.hostBlocks := rfl
@[simp] theorem State.setTeam_debug (s : State) (k : Nat) (x : Team) : (s.setTeam k x).debug = s.debug := rfl
@[simp] theorem State.setTeam_fatal (s : State) (k : Nat) (x : Team) : (s.setTeam k x).fatal = s.fatal := rfl
@[simp] theorem State.setTeam_hot (s : State) (k : Nat) (x : Team) : (s.setTeam k x).hot = s.hot := rfl
@[simp] theorem State.setTeam_idle (s : State) (k : Nat) (x : Team) : (s.setTeam k x).idle = s.idle := rfl
@[simp] theorem State.setTeam_off (s : State) (k : Nat) (x : Team) : (s.setTeam k x).off = s.off := rfl
@[simp] theorem State.setTeam_images (s : State) (k : Nat) (x : Team) : (s.setTeam k x).images = s.images := rfl
@[simp] theorem State.setTeam_firmware (s : State) (k : Nat) (x : Team) : (s.setTeam k x).firmware = s.firmware := rfl
@[simp] theorem State.setTeam_nonce (s : State) (k : Nat) (x : Team) : (s.setTeam k x).nonce = s.nonce := rfl
@[simp] theorem State.setTeam_keys (s : State) (k : Nat) (x : Team) : (s.setTeam k x).keys = s.keys := rfl
@[simp] theorem State.setTeam_exports (s : State) (k : Nat) (x : Team) : (s.setTeam k x).exports = s.exports := rfl
@[simp] theorem State.setTeam_portsUp (s : State) (k : Nat) (x : Team) : (s.setTeam k x).portsUp = s.portsUp := rfl
@[simp] theorem State.setTeam_evWait (s : State) (k : Nat) (x : Team) : (s.setTeam k x).evWait = s.evWait := rfl
@[simp] theorem State.setTeam_msix (s : State) (k : Nat) (x : Team) : (s.setTeam k x).msix = s.msix := rfl
@[simp] theorem State.setTeam_wakeReg (s : State) (k : Nat) (x : Team) : (s.setTeam k x).wakeReg = s.wakeReg := rfl
@[simp] theorem State.setTeam_vacates (s : State) (k : Nat) (x : Team) : (s.setTeam k x).vacates = s.vacates := rfl
@[simp] theorem State.setTeam_errCounts (s : State) (k : Nat) (x : Team) : (s.setTeam k x).errCounts = s.errCounts := rfl
@[simp] theorem State.setTeam_errClock (s : State) (k : Nat) (x : Team) : (s.setTeam k x).errClock = s.errClock := rfl
@[simp] theorem State.setTeam_hostReply (s : State) (k : Nat) (x : Team) : (s.setTeam k x).hostReply = s.hostReply := rfl
@[simp] theorem State.setTeam_peerReply (s : State) (k : Nat) (x : Team) : (s.setTeam k x).peerReply = s.peerReply := rfl
@[simp] theorem State.setTeam_migReply (s : State) (k : Nat) (x : Team) : (s.setTeam k x).migReply = s.migReply := rfl

-- State.setVf

@[simp] theorem State.setVf_agenda (s : State) (k : Nat) (x : Vf) : (s.setVf k x).agenda = s.agenda := rfl
@[simp] theorem State.setVf_follow (s : State) (k : Nat) (x : Vf) : (s.setVf k x).follow = s.follow := rfl
@[simp] theorem State.setVf_cur (s : State) (k : Nat) (x : Vf) : (s.setVf k x).cur = s.cur := rfl
@[simp] theorem State.setVf_turn (s : State) (k : Nat) (x : Vf) : (s.setVf k x).turn = s.turn := rfl
@[simp] theorem State.setVf_freeCount (s : State) (k : Nat) (x : Vf) : (s.setVf k x).freeCount = s.freeCount := rfl
@[simp] theorem State.setVf_halt (s : State) (k : Nat) (x : Vf) : (s.setVf k x).halt = s.halt := rfl
@[simp] theorem State.setVf_jam (s : State) (k : Nat) (x : Vf) : (s.setVf k x).jam = s.jam := rfl
@[simp] theorem State.setVf_nextKey (s : State) (k : Nat) (x : Vf) : (s.setVf k x).nextKey = s.nextKey := rfl
@[simp] theorem State.setVf_clock (s : State) (k : Nat) (x : Vf) : (s.setVf k x).clock = s.clock := rfl
@[simp] theorem State.setVf_mem (s : State) (k : Nat) (x : Vf) : (s.setVf k x).mem = s.mem := rfl
@[simp] theorem State.setVf_poison (s : State) (k : Nat) (x : Vf) : (s.setVf k x).poison = s.poison := rfl
@[simp] theorem State.setVf_outbound (s : State) (k : Nat) (x : Vf) : (s.setVf k x).outbound = s.outbound := rfl
@[simp] theorem State.setVf_tlb (s : State) (k : Nat) (x : Vf) : (s.setVf k x).tlb = s.tlb := rfl
@[simp] theorem State.setVf_ntlb (s : State) (k : Nat) (x : Vf) : (s.setVf k x).ntlb = s.ntlb := rfl
@[simp] theorem State.setVf_walks (s : State) (k : Nat) (x : Vf) : (s.setVf k x).walks = s.walks := rfl
@[simp] theorem State.setVf_answers (s : State) (k : Nat) (x : Vf) : (s.setVf k x).answers = s.answers := rfl
@[simp] theorem State.setVf_icache (s : State) (k : Nat) (x : Vf) : (s.setVf k x).icache = s.icache := rfl
@[simp] theorem State.setVf_sealMap (s : State) (k : Nat) (x : Vf) : (s.setVf k x).sealMap = s.sealMap := rfl
@[simp] theorem State.setVf_tierRecs (s : State) (k : Nat) (x : Vf) : (s.setVf k x).tierRecs = s.tierRecs := rfl
@[simp] theorem State.setVf_shadow (s : State) (k : Nat) (x : Vf) : (s.setVf k x).shadow = s.shadow := rfl
@[simp] theorem State.setVf_dropped (s : State) (k : Nat) (x : Vf) : (s.setVf k x).dropped = s.dropped := rfl
@[simp] theorem State.setVf_cores (s : State) (k : Nat) (x : Vf) : (s.setVf k x).cores = s.cores := rfl
@[simp] theorem State.setVf_quads (s : State) (k : Nat) (x : Vf) : (s.setVf k x).quads = s.quads := rfl
@[simp] theorem State.setVf_teams (s : State) (k : Nat) (x : Vf) : (s.setVf k x).teams = s.teams := rfl
@[simp] theorem State.setVf_grids (s : State) (k : Nat) (x : Vf) : (s.setVf k x).grids = s.grids := rfl
@[simp] theorem State.setVf_rrPos (s : State) (k : Nat) (x : Vf) : (s.setVf k x).rrPos = s.rrPos := rfl
@[simp] theorem State.setVf_copies (s : State) (k : Nat) (x : Vf) : (s.setVf k x).copies = s.copies := rfl
@[simp] theorem State.setVf_mops (s : State) (k : Nat) (x : Vf) : (s.setVf k x).mops = s.mops := rfl
@[simp] theorem State.setVf_chans (s : State) (k : Nat) (x : Vf) : (s.setVf k x).chans = s.chans := rfl
@[simp] theorem State.setVf_parks (s : State) (k : Nat) (x : Vf) : (s.setVf k x).parks = s.parks := rfl
@[simp] theorem State.setVf_faults (s : State) (k : Nat) (x : Vf) : (s.setVf k x).faults = s.faults := rfl
@[simp] theorem State.setVf_moves (s : State) (k : Nat) (x : Vf) : (s.setVf k x).moves = s.moves := rfl
@[simp] theorem State.setVf_jobs (s : State) (k : Nat) (x : Vf) : (s.setVf k x).jobs = s.jobs := rfl
@[simp] theorem State.setVf_resolveNo (s : State) (k : Nat) (x : Vf) : (s.setVf k x).resolveNo = s.resolveNo := rfl
@[simp] theorem State.setVf_vfs (s : State) (k : Nat) (x : Vf) : (s.setVf k x).vfs = Store.set Vf.unset s.vfs k x := rfl
@[simp] theorem State.setVf_vmtbase (s : State) (k : Nat) (x : Vf) : (s.setVf k x).vmtbase = s.vmtbase := rfl
@[simp] theorem State.setVf_peerid (s : State) (k : Nat) (x : Vf) : (s.setVf k x).peerid = s.peerid := rfl
@[simp] theorem State.setVf_powercap (s : State) (k : Nat) (x : Vf) : (s.setVf k x).powercap = s.powercap := rfl
@[simp] theorem State.setVf_pstate (s : State) (k : Nat) (x : Vf) : (s.setVf k x).pstate = s.pstate := rfl
@[simp] theorem State.setVf_pfmq (s : State) (k : Nat) (x : Vf) : (s.setVf k x).pfmq = s.pfmq := rfl
@[simp] theorem State.setVf_peerroute (s : State) (k : Nat) (x : Vf) : (s.setVf k x).peerroute = s.peerroute := rfl
@[simp] theorem State.setVf_pfFid (s : State) (k : Nat) (x : Vf) : (s.setVf k x).pfFid = s.pfFid := rfl
@[simp] theorem State.setVf_mqBells (s : State) (k : Nat) (x : Vf) : (s.setVf k x).mqBells = s.mqBells := rfl
@[simp] theorem State.setVf_hostBlocks (s : State) (k : Nat) (x : Vf) : (s.setVf k x).hostBlocks = s.hostBlocks := rfl
@[simp] theorem State.setVf_debug (s : State) (k : Nat) (x : Vf) : (s.setVf k x).debug = s.debug := rfl
@[simp] theorem State.setVf_fatal (s : State) (k : Nat) (x : Vf) : (s.setVf k x).fatal = s.fatal := rfl
@[simp] theorem State.setVf_hot (s : State) (k : Nat) (x : Vf) : (s.setVf k x).hot = s.hot := rfl
@[simp] theorem State.setVf_idle (s : State) (k : Nat) (x : Vf) : (s.setVf k x).idle = s.idle := rfl
@[simp] theorem State.setVf_off (s : State) (k : Nat) (x : Vf) : (s.setVf k x).off = s.off := rfl
@[simp] theorem State.setVf_images (s : State) (k : Nat) (x : Vf) : (s.setVf k x).images = s.images := rfl
@[simp] theorem State.setVf_firmware (s : State) (k : Nat) (x : Vf) : (s.setVf k x).firmware = s.firmware := rfl
@[simp] theorem State.setVf_nonce (s : State) (k : Nat) (x : Vf) : (s.setVf k x).nonce = s.nonce := rfl
@[simp] theorem State.setVf_keys (s : State) (k : Nat) (x : Vf) : (s.setVf k x).keys = s.keys := rfl
@[simp] theorem State.setVf_exports (s : State) (k : Nat) (x : Vf) : (s.setVf k x).exports = s.exports := rfl
@[simp] theorem State.setVf_portsUp (s : State) (k : Nat) (x : Vf) : (s.setVf k x).portsUp = s.portsUp := rfl
@[simp] theorem State.setVf_evWait (s : State) (k : Nat) (x : Vf) : (s.setVf k x).evWait = s.evWait := rfl
@[simp] theorem State.setVf_msix (s : State) (k : Nat) (x : Vf) : (s.setVf k x).msix = s.msix := rfl
@[simp] theorem State.setVf_wakeReg (s : State) (k : Nat) (x : Vf) : (s.setVf k x).wakeReg = s.wakeReg := rfl
@[simp] theorem State.setVf_vacates (s : State) (k : Nat) (x : Vf) : (s.setVf k x).vacates = s.vacates := rfl
@[simp] theorem State.setVf_errCounts (s : State) (k : Nat) (x : Vf) : (s.setVf k x).errCounts = s.errCounts := rfl
@[simp] theorem State.setVf_errClock (s : State) (k : Nat) (x : Vf) : (s.setVf k x).errClock = s.errClock := rfl
@[simp] theorem State.setVf_hostReply (s : State) (k : Nat) (x : Vf) : (s.setVf k x).hostReply = s.hostReply := rfl
@[simp] theorem State.setVf_peerReply (s : State) (k : Nat) (x : Vf) : (s.setVf k x).peerReply = s.peerReply := rfl
@[simp] theorem State.setVf_migReply (s : State) (k : Nat) (x : Vf) : (s.setVf k x).migReply = s.migReply := rfl

-- State.setCore

@[simp] theorem State.setCore_agenda (s : State) (k : Nat) (x : Core) : (s.setCore k x).agenda = s.agenda := rfl
@[simp] theorem State.setCore_follow (s : State) (k : Nat) (x : Core) : (s.setCore k x).follow = s.follow := rfl
@[simp] theorem State.setCore_cur (s : State) (k : Nat) (x : Core) : (s.setCore k x).cur = s.cur := rfl
@[simp] theorem State.setCore_turn (s : State) (k : Nat) (x : Core) : (s.setCore k x).turn = s.turn := rfl
@[simp] theorem State.setCore_freeCount (s : State) (k : Nat) (x : Core) : (s.setCore k x).freeCount = s.freeCount := rfl
@[simp] theorem State.setCore_halt (s : State) (k : Nat) (x : Core) : (s.setCore k x).halt = s.halt := rfl
@[simp] theorem State.setCore_jam (s : State) (k : Nat) (x : Core) : (s.setCore k x).jam = s.jam := rfl
@[simp] theorem State.setCore_nextKey (s : State) (k : Nat) (x : Core) : (s.setCore k x).nextKey = s.nextKey := rfl
@[simp] theorem State.setCore_clock (s : State) (k : Nat) (x : Core) : (s.setCore k x).clock = s.clock := rfl
@[simp] theorem State.setCore_mem (s : State) (k : Nat) (x : Core) : (s.setCore k x).mem = s.mem := rfl
@[simp] theorem State.setCore_poison (s : State) (k : Nat) (x : Core) : (s.setCore k x).poison = s.poison := rfl
@[simp] theorem State.setCore_outbound (s : State) (k : Nat) (x : Core) : (s.setCore k x).outbound = s.outbound := rfl
@[simp] theorem State.setCore_tlb (s : State) (k : Nat) (x : Core) : (s.setCore k x).tlb = s.tlb := rfl
@[simp] theorem State.setCore_ntlb (s : State) (k : Nat) (x : Core) : (s.setCore k x).ntlb = s.ntlb := rfl
@[simp] theorem State.setCore_walks (s : State) (k : Nat) (x : Core) : (s.setCore k x).walks = s.walks := rfl
@[simp] theorem State.setCore_answers (s : State) (k : Nat) (x : Core) : (s.setCore k x).answers = s.answers := rfl
@[simp] theorem State.setCore_icache (s : State) (k : Nat) (x : Core) : (s.setCore k x).icache = s.icache := rfl
@[simp] theorem State.setCore_sealMap (s : State) (k : Nat) (x : Core) : (s.setCore k x).sealMap = s.sealMap := rfl
@[simp] theorem State.setCore_tierRecs (s : State) (k : Nat) (x : Core) : (s.setCore k x).tierRecs = s.tierRecs := rfl
@[simp] theorem State.setCore_shadow (s : State) (k : Nat) (x : Core) : (s.setCore k x).shadow = s.shadow := rfl
@[simp] theorem State.setCore_dropped (s : State) (k : Nat) (x : Core) : (s.setCore k x).dropped = s.dropped := rfl
@[simp] theorem State.setCore_cores (s : State) (k : Nat) (x : Core) : (s.setCore k x).cores = Store.set ⟨none, []⟩ s.cores k x := rfl
@[simp] theorem State.setCore_quads (s : State) (k : Nat) (x : Core) : (s.setCore k x).quads = s.quads := rfl
@[simp] theorem State.setCore_teams (s : State) (k : Nat) (x : Core) : (s.setCore k x).teams = s.teams := rfl
@[simp] theorem State.setCore_grids (s : State) (k : Nat) (x : Core) : (s.setCore k x).grids = s.grids := rfl
@[simp] theorem State.setCore_rrPos (s : State) (k : Nat) (x : Core) : (s.setCore k x).rrPos = s.rrPos := rfl
@[simp] theorem State.setCore_copies (s : State) (k : Nat) (x : Core) : (s.setCore k x).copies = s.copies := rfl
@[simp] theorem State.setCore_mops (s : State) (k : Nat) (x : Core) : (s.setCore k x).mops = s.mops := rfl
@[simp] theorem State.setCore_chans (s : State) (k : Nat) (x : Core) : (s.setCore k x).chans = s.chans := rfl
@[simp] theorem State.setCore_parks (s : State) (k : Nat) (x : Core) : (s.setCore k x).parks = s.parks := rfl
@[simp] theorem State.setCore_faults (s : State) (k : Nat) (x : Core) : (s.setCore k x).faults = s.faults := rfl
@[simp] theorem State.setCore_moves (s : State) (k : Nat) (x : Core) : (s.setCore k x).moves = s.moves := rfl
@[simp] theorem State.setCore_jobs (s : State) (k : Nat) (x : Core) : (s.setCore k x).jobs = s.jobs := rfl
@[simp] theorem State.setCore_resolveNo (s : State) (k : Nat) (x : Core) : (s.setCore k x).resolveNo = s.resolveNo := rfl
@[simp] theorem State.setCore_vfs (s : State) (k : Nat) (x : Core) : (s.setCore k x).vfs = s.vfs := rfl
@[simp] theorem State.setCore_vmtbase (s : State) (k : Nat) (x : Core) : (s.setCore k x).vmtbase = s.vmtbase := rfl
@[simp] theorem State.setCore_peerid (s : State) (k : Nat) (x : Core) : (s.setCore k x).peerid = s.peerid := rfl
@[simp] theorem State.setCore_powercap (s : State) (k : Nat) (x : Core) : (s.setCore k x).powercap = s.powercap := rfl
@[simp] theorem State.setCore_pstate (s : State) (k : Nat) (x : Core) : (s.setCore k x).pstate = s.pstate := rfl
@[simp] theorem State.setCore_pfmq (s : State) (k : Nat) (x : Core) : (s.setCore k x).pfmq = s.pfmq := rfl
@[simp] theorem State.setCore_peerroute (s : State) (k : Nat) (x : Core) : (s.setCore k x).peerroute = s.peerroute := rfl
@[simp] theorem State.setCore_pfFid (s : State) (k : Nat) (x : Core) : (s.setCore k x).pfFid = s.pfFid := rfl
@[simp] theorem State.setCore_mqBells (s : State) (k : Nat) (x : Core) : (s.setCore k x).mqBells = s.mqBells := rfl
@[simp] theorem State.setCore_hostBlocks (s : State) (k : Nat) (x : Core) : (s.setCore k x).hostBlocks = s.hostBlocks := rfl
@[simp] theorem State.setCore_debug (s : State) (k : Nat) (x : Core) : (s.setCore k x).debug = s.debug := rfl
@[simp] theorem State.setCore_fatal (s : State) (k : Nat) (x : Core) : (s.setCore k x).fatal = s.fatal := rfl
@[simp] theorem State.setCore_hot (s : State) (k : Nat) (x : Core) : (s.setCore k x).hot = s.hot := rfl
@[simp] theorem State.setCore_idle (s : State) (k : Nat) (x : Core) : (s.setCore k x).idle = s.idle := rfl
@[simp] theorem State.setCore_off (s : State) (k : Nat) (x : Core) : (s.setCore k x).off = s.off := rfl
@[simp] theorem State.setCore_images (s : State) (k : Nat) (x : Core) : (s.setCore k x).images = s.images := rfl
@[simp] theorem State.setCore_firmware (s : State) (k : Nat) (x : Core) : (s.setCore k x).firmware = s.firmware := rfl
@[simp] theorem State.setCore_nonce (s : State) (k : Nat) (x : Core) : (s.setCore k x).nonce = s.nonce := rfl
@[simp] theorem State.setCore_keys (s : State) (k : Nat) (x : Core) : (s.setCore k x).keys = s.keys := rfl
@[simp] theorem State.setCore_exports (s : State) (k : Nat) (x : Core) : (s.setCore k x).exports = s.exports := rfl
@[simp] theorem State.setCore_portsUp (s : State) (k : Nat) (x : Core) : (s.setCore k x).portsUp = s.portsUp := rfl
@[simp] theorem State.setCore_evWait (s : State) (k : Nat) (x : Core) : (s.setCore k x).evWait = s.evWait := rfl
@[simp] theorem State.setCore_msix (s : State) (k : Nat) (x : Core) : (s.setCore k x).msix = s.msix := rfl
@[simp] theorem State.setCore_wakeReg (s : State) (k : Nat) (x : Core) : (s.setCore k x).wakeReg = s.wakeReg := rfl
@[simp] theorem State.setCore_vacates (s : State) (k : Nat) (x : Core) : (s.setCore k x).vacates = s.vacates := rfl
@[simp] theorem State.setCore_errCounts (s : State) (k : Nat) (x : Core) : (s.setCore k x).errCounts = s.errCounts := rfl
@[simp] theorem State.setCore_errClock (s : State) (k : Nat) (x : Core) : (s.setCore k x).errClock = s.errClock := rfl
@[simp] theorem State.setCore_hostReply (s : State) (k : Nat) (x : Core) : (s.setCore k x).hostReply = s.hostReply := rfl
@[simp] theorem State.setCore_peerReply (s : State) (k : Nat) (x : Core) : (s.setCore k x).peerReply = s.peerReply := rfl
@[simp] theorem State.setCore_migReply (s : State) (k : Nat) (x : Core) : (s.setCore k x).migReply = s.migReply := rfl

-- State.setQuad

@[simp] theorem State.setQuad_agenda (s : State) (k : Nat) (x : Quad) : (s.setQuad k x).agenda = s.agenda := rfl
@[simp] theorem State.setQuad_follow (s : State) (k : Nat) (x : Quad) : (s.setQuad k x).follow = s.follow := rfl
@[simp] theorem State.setQuad_cur (s : State) (k : Nat) (x : Quad) : (s.setQuad k x).cur = s.cur := rfl
@[simp] theorem State.setQuad_turn (s : State) (k : Nat) (x : Quad) : (s.setQuad k x).turn = s.turn := rfl
@[simp] theorem State.setQuad_freeCount (s : State) (k : Nat) (x : Quad) : (s.setQuad k x).freeCount = s.freeCount := rfl
@[simp] theorem State.setQuad_halt (s : State) (k : Nat) (x : Quad) : (s.setQuad k x).halt = s.halt := rfl
@[simp] theorem State.setQuad_jam (s : State) (k : Nat) (x : Quad) : (s.setQuad k x).jam = s.jam := rfl
@[simp] theorem State.setQuad_nextKey (s : State) (k : Nat) (x : Quad) : (s.setQuad k x).nextKey = s.nextKey := rfl
@[simp] theorem State.setQuad_clock (s : State) (k : Nat) (x : Quad) : (s.setQuad k x).clock = s.clock := rfl
@[simp] theorem State.setQuad_mem (s : State) (k : Nat) (x : Quad) : (s.setQuad k x).mem = s.mem := rfl
@[simp] theorem State.setQuad_poison (s : State) (k : Nat) (x : Quad) : (s.setQuad k x).poison = s.poison := rfl
@[simp] theorem State.setQuad_outbound (s : State) (k : Nat) (x : Quad) : (s.setQuad k x).outbound = s.outbound := rfl
@[simp] theorem State.setQuad_tlb (s : State) (k : Nat) (x : Quad) : (s.setQuad k x).tlb = s.tlb := rfl
@[simp] theorem State.setQuad_ntlb (s : State) (k : Nat) (x : Quad) : (s.setQuad k x).ntlb = s.ntlb := rfl
@[simp] theorem State.setQuad_walks (s : State) (k : Nat) (x : Quad) : (s.setQuad k x).walks = s.walks := rfl
@[simp] theorem State.setQuad_answers (s : State) (k : Nat) (x : Quad) : (s.setQuad k x).answers = s.answers := rfl
@[simp] theorem State.setQuad_icache (s : State) (k : Nat) (x : Quad) : (s.setQuad k x).icache = s.icache := rfl
@[simp] theorem State.setQuad_sealMap (s : State) (k : Nat) (x : Quad) : (s.setQuad k x).sealMap = s.sealMap := rfl
@[simp] theorem State.setQuad_tierRecs (s : State) (k : Nat) (x : Quad) : (s.setQuad k x).tierRecs = s.tierRecs := rfl
@[simp] theorem State.setQuad_shadow (s : State) (k : Nat) (x : Quad) : (s.setQuad k x).shadow = s.shadow := rfl
@[simp] theorem State.setQuad_dropped (s : State) (k : Nat) (x : Quad) : (s.setQuad k x).dropped = s.dropped := rfl
@[simp] theorem State.setQuad_cores (s : State) (k : Nat) (x : Quad) : (s.setQuad k x).cores = s.cores := rfl
@[simp] theorem State.setQuad_quads (s : State) (k : Nat) (x : Quad) : (s.setQuad k x).quads = Store.set Quad.idle s.quads k x := rfl
@[simp] theorem State.setQuad_teams (s : State) (k : Nat) (x : Quad) : (s.setQuad k x).teams = s.teams := rfl
@[simp] theorem State.setQuad_grids (s : State) (k : Nat) (x : Quad) : (s.setQuad k x).grids = s.grids := rfl
@[simp] theorem State.setQuad_rrPos (s : State) (k : Nat) (x : Quad) : (s.setQuad k x).rrPos = s.rrPos := rfl
@[simp] theorem State.setQuad_copies (s : State) (k : Nat) (x : Quad) : (s.setQuad k x).copies = s.copies := rfl
@[simp] theorem State.setQuad_mops (s : State) (k : Nat) (x : Quad) : (s.setQuad k x).mops = s.mops := rfl
@[simp] theorem State.setQuad_chans (s : State) (k : Nat) (x : Quad) : (s.setQuad k x).chans = s.chans := rfl
@[simp] theorem State.setQuad_parks (s : State) (k : Nat) (x : Quad) : (s.setQuad k x).parks = s.parks := rfl
@[simp] theorem State.setQuad_faults (s : State) (k : Nat) (x : Quad) : (s.setQuad k x).faults = s.faults := rfl
@[simp] theorem State.setQuad_moves (s : State) (k : Nat) (x : Quad) : (s.setQuad k x).moves = s.moves := rfl
@[simp] theorem State.setQuad_jobs (s : State) (k : Nat) (x : Quad) : (s.setQuad k x).jobs = s.jobs := rfl
@[simp] theorem State.setQuad_resolveNo (s : State) (k : Nat) (x : Quad) : (s.setQuad k x).resolveNo = s.resolveNo := rfl
@[simp] theorem State.setQuad_vfs (s : State) (k : Nat) (x : Quad) : (s.setQuad k x).vfs = s.vfs := rfl
@[simp] theorem State.setQuad_vmtbase (s : State) (k : Nat) (x : Quad) : (s.setQuad k x).vmtbase = s.vmtbase := rfl
@[simp] theorem State.setQuad_peerid (s : State) (k : Nat) (x : Quad) : (s.setQuad k x).peerid = s.peerid := rfl
@[simp] theorem State.setQuad_powercap (s : State) (k : Nat) (x : Quad) : (s.setQuad k x).powercap = s.powercap := rfl
@[simp] theorem State.setQuad_pstate (s : State) (k : Nat) (x : Quad) : (s.setQuad k x).pstate = s.pstate := rfl
@[simp] theorem State.setQuad_pfmq (s : State) (k : Nat) (x : Quad) : (s.setQuad k x).pfmq = s.pfmq := rfl
@[simp] theorem State.setQuad_peerroute (s : State) (k : Nat) (x : Quad) : (s.setQuad k x).peerroute = s.peerroute := rfl
@[simp] theorem State.setQuad_pfFid (s : State) (k : Nat) (x : Quad) : (s.setQuad k x).pfFid = s.pfFid := rfl
@[simp] theorem State.setQuad_mqBells (s : State) (k : Nat) (x : Quad) : (s.setQuad k x).mqBells = s.mqBells := rfl
@[simp] theorem State.setQuad_hostBlocks (s : State) (k : Nat) (x : Quad) : (s.setQuad k x).hostBlocks = s.hostBlocks := rfl
@[simp] theorem State.setQuad_debug (s : State) (k : Nat) (x : Quad) : (s.setQuad k x).debug = s.debug := rfl
@[simp] theorem State.setQuad_fatal (s : State) (k : Nat) (x : Quad) : (s.setQuad k x).fatal = s.fatal := rfl
@[simp] theorem State.setQuad_hot (s : State) (k : Nat) (x : Quad) : (s.setQuad k x).hot = s.hot := rfl
@[simp] theorem State.setQuad_idle (s : State) (k : Nat) (x : Quad) : (s.setQuad k x).idle = s.idle := rfl
@[simp] theorem State.setQuad_off (s : State) (k : Nat) (x : Quad) : (s.setQuad k x).off = s.off := rfl
@[simp] theorem State.setQuad_images (s : State) (k : Nat) (x : Quad) : (s.setQuad k x).images = s.images := rfl
@[simp] theorem State.setQuad_firmware (s : State) (k : Nat) (x : Quad) : (s.setQuad k x).firmware = s.firmware := rfl
@[simp] theorem State.setQuad_nonce (s : State) (k : Nat) (x : Quad) : (s.setQuad k x).nonce = s.nonce := rfl
@[simp] theorem State.setQuad_keys (s : State) (k : Nat) (x : Quad) : (s.setQuad k x).keys = s.keys := rfl
@[simp] theorem State.setQuad_exports (s : State) (k : Nat) (x : Quad) : (s.setQuad k x).exports = s.exports := rfl
@[simp] theorem State.setQuad_portsUp (s : State) (k : Nat) (x : Quad) : (s.setQuad k x).portsUp = s.portsUp := rfl
@[simp] theorem State.setQuad_evWait (s : State) (k : Nat) (x : Quad) : (s.setQuad k x).evWait = s.evWait := rfl
@[simp] theorem State.setQuad_msix (s : State) (k : Nat) (x : Quad) : (s.setQuad k x).msix = s.msix := rfl
@[simp] theorem State.setQuad_wakeReg (s : State) (k : Nat) (x : Quad) : (s.setQuad k x).wakeReg = s.wakeReg := rfl
@[simp] theorem State.setQuad_vacates (s : State) (k : Nat) (x : Quad) : (s.setQuad k x).vacates = s.vacates := rfl
@[simp] theorem State.setQuad_errCounts (s : State) (k : Nat) (x : Quad) : (s.setQuad k x).errCounts = s.errCounts := rfl
@[simp] theorem State.setQuad_errClock (s : State) (k : Nat) (x : Quad) : (s.setQuad k x).errClock = s.errClock := rfl
@[simp] theorem State.setQuad_hostReply (s : State) (k : Nat) (x : Quad) : (s.setQuad k x).hostReply = s.hostReply := rfl
@[simp] theorem State.setQuad_peerReply (s : State) (k : Nat) (x : Quad) : (s.setQuad k x).peerReply = s.peerReply := rfl
@[simp] theorem State.setQuad_migReply (s : State) (k : Nat) (x : Quad) : (s.setQuad k x).migReply = s.migReply := rfl

-- State.setChan

@[simp] theorem State.setChan_agenda (s : State) (k : Nat) (x : Chan) : (s.setChan k x).agenda = s.agenda := rfl
@[simp] theorem State.setChan_follow (s : State) (k : Nat) (x : Chan) : (s.setChan k x).follow = s.follow := rfl
@[simp] theorem State.setChan_cur (s : State) (k : Nat) (x : Chan) : (s.setChan k x).cur = s.cur := rfl
@[simp] theorem State.setChan_turn (s : State) (k : Nat) (x : Chan) : (s.setChan k x).turn = s.turn := rfl
@[simp] theorem State.setChan_freeCount (s : State) (k : Nat) (x : Chan) : (s.setChan k x).freeCount = s.freeCount := rfl
@[simp] theorem State.setChan_halt (s : State) (k : Nat) (x : Chan) : (s.setChan k x).halt = s.halt := rfl
@[simp] theorem State.setChan_jam (s : State) (k : Nat) (x : Chan) : (s.setChan k x).jam = s.jam := rfl
@[simp] theorem State.setChan_nextKey (s : State) (k : Nat) (x : Chan) : (s.setChan k x).nextKey = s.nextKey := rfl
@[simp] theorem State.setChan_clock (s : State) (k : Nat) (x : Chan) : (s.setChan k x).clock = s.clock := rfl
@[simp] theorem State.setChan_mem (s : State) (k : Nat) (x : Chan) : (s.setChan k x).mem = s.mem := rfl
@[simp] theorem State.setChan_poison (s : State) (k : Nat) (x : Chan) : (s.setChan k x).poison = s.poison := rfl
@[simp] theorem State.setChan_outbound (s : State) (k : Nat) (x : Chan) : (s.setChan k x).outbound = s.outbound := rfl
@[simp] theorem State.setChan_tlb (s : State) (k : Nat) (x : Chan) : (s.setChan k x).tlb = s.tlb := rfl
@[simp] theorem State.setChan_ntlb (s : State) (k : Nat) (x : Chan) : (s.setChan k x).ntlb = s.ntlb := rfl
@[simp] theorem State.setChan_walks (s : State) (k : Nat) (x : Chan) : (s.setChan k x).walks = s.walks := rfl
@[simp] theorem State.setChan_answers (s : State) (k : Nat) (x : Chan) : (s.setChan k x).answers = s.answers := rfl
@[simp] theorem State.setChan_icache (s : State) (k : Nat) (x : Chan) : (s.setChan k x).icache = s.icache := rfl
@[simp] theorem State.setChan_sealMap (s : State) (k : Nat) (x : Chan) : (s.setChan k x).sealMap = s.sealMap := rfl
@[simp] theorem State.setChan_tierRecs (s : State) (k : Nat) (x : Chan) : (s.setChan k x).tierRecs = s.tierRecs := rfl
@[simp] theorem State.setChan_shadow (s : State) (k : Nat) (x : Chan) : (s.setChan k x).shadow = s.shadow := rfl
@[simp] theorem State.setChan_dropped (s : State) (k : Nat) (x : Chan) : (s.setChan k x).dropped = s.dropped := rfl
@[simp] theorem State.setChan_cores (s : State) (k : Nat) (x : Chan) : (s.setChan k x).cores = s.cores := rfl
@[simp] theorem State.setChan_quads (s : State) (k : Nat) (x : Chan) : (s.setChan k x).quads = s.quads := rfl
@[simp] theorem State.setChan_teams (s : State) (k : Nat) (x : Chan) : (s.setChan k x).teams = s.teams := rfl
@[simp] theorem State.setChan_grids (s : State) (k : Nat) (x : Chan) : (s.setChan k x).grids = s.grids := rfl
@[simp] theorem State.setChan_rrPos (s : State) (k : Nat) (x : Chan) : (s.setChan k x).rrPos = s.rrPos := rfl
@[simp] theorem State.setChan_copies (s : State) (k : Nat) (x : Chan) : (s.setChan k x).copies = s.copies := rfl
@[simp] theorem State.setChan_mops (s : State) (k : Nat) (x : Chan) : (s.setChan k x).mops = s.mops := rfl
@[simp] theorem State.setChan_chans (s : State) (k : Nat) (x : Chan) : (s.setChan k x).chans = Store.set ⟨.stopped, 0, [], 0, 0, 0, false⟩ s.chans k x := rfl
@[simp] theorem State.setChan_parks (s : State) (k : Nat) (x : Chan) : (s.setChan k x).parks = s.parks := rfl
@[simp] theorem State.setChan_faults (s : State) (k : Nat) (x : Chan) : (s.setChan k x).faults = s.faults := rfl
@[simp] theorem State.setChan_moves (s : State) (k : Nat) (x : Chan) : (s.setChan k x).moves = s.moves := rfl
@[simp] theorem State.setChan_jobs (s : State) (k : Nat) (x : Chan) : (s.setChan k x).jobs = s.jobs := rfl
@[simp] theorem State.setChan_resolveNo (s : State) (k : Nat) (x : Chan) : (s.setChan k x).resolveNo = s.resolveNo := rfl
@[simp] theorem State.setChan_vfs (s : State) (k : Nat) (x : Chan) : (s.setChan k x).vfs = s.vfs := rfl
@[simp] theorem State.setChan_vmtbase (s : State) (k : Nat) (x : Chan) : (s.setChan k x).vmtbase = s.vmtbase := rfl
@[simp] theorem State.setChan_peerid (s : State) (k : Nat) (x : Chan) : (s.setChan k x).peerid = s.peerid := rfl
@[simp] theorem State.setChan_powercap (s : State) (k : Nat) (x : Chan) : (s.setChan k x).powercap = s.powercap := rfl
@[simp] theorem State.setChan_pstate (s : State) (k : Nat) (x : Chan) : (s.setChan k x).pstate = s.pstate := rfl
@[simp] theorem State.setChan_pfmq (s : State) (k : Nat) (x : Chan) : (s.setChan k x).pfmq = s.pfmq := rfl
@[simp] theorem State.setChan_peerroute (s : State) (k : Nat) (x : Chan) : (s.setChan k x).peerroute = s.peerroute := rfl
@[simp] theorem State.setChan_pfFid (s : State) (k : Nat) (x : Chan) : (s.setChan k x).pfFid = s.pfFid := rfl
@[simp] theorem State.setChan_mqBells (s : State) (k : Nat) (x : Chan) : (s.setChan k x).mqBells = s.mqBells := rfl
@[simp] theorem State.setChan_hostBlocks (s : State) (k : Nat) (x : Chan) : (s.setChan k x).hostBlocks = s.hostBlocks := rfl
@[simp] theorem State.setChan_debug (s : State) (k : Nat) (x : Chan) : (s.setChan k x).debug = s.debug := rfl
@[simp] theorem State.setChan_fatal (s : State) (k : Nat) (x : Chan) : (s.setChan k x).fatal = s.fatal := rfl
@[simp] theorem State.setChan_hot (s : State) (k : Nat) (x : Chan) : (s.setChan k x).hot = s.hot := rfl
@[simp] theorem State.setChan_idle (s : State) (k : Nat) (x : Chan) : (s.setChan k x).idle = s.idle := rfl
@[simp] theorem State.setChan_off (s : State) (k : Nat) (x : Chan) : (s.setChan k x).off = s.off := rfl
@[simp] theorem State.setChan_images (s : State) (k : Nat) (x : Chan) : (s.setChan k x).images = s.images := rfl
@[simp] theorem State.setChan_firmware (s : State) (k : Nat) (x : Chan) : (s.setChan k x).firmware = s.firmware := rfl
@[simp] theorem State.setChan_nonce (s : State) (k : Nat) (x : Chan) : (s.setChan k x).nonce = s.nonce := rfl
@[simp] theorem State.setChan_keys (s : State) (k : Nat) (x : Chan) : (s.setChan k x).keys = s.keys := rfl
@[simp] theorem State.setChan_exports (s : State) (k : Nat) (x : Chan) : (s.setChan k x).exports = s.exports := rfl
@[simp] theorem State.setChan_portsUp (s : State) (k : Nat) (x : Chan) : (s.setChan k x).portsUp = s.portsUp := rfl
@[simp] theorem State.setChan_evWait (s : State) (k : Nat) (x : Chan) : (s.setChan k x).evWait = s.evWait := rfl
@[simp] theorem State.setChan_msix (s : State) (k : Nat) (x : Chan) : (s.setChan k x).msix = s.msix := rfl
@[simp] theorem State.setChan_wakeReg (s : State) (k : Nat) (x : Chan) : (s.setChan k x).wakeReg = s.wakeReg := rfl
@[simp] theorem State.setChan_vacates (s : State) (k : Nat) (x : Chan) : (s.setChan k x).vacates = s.vacates := rfl
@[simp] theorem State.setChan_errCounts (s : State) (k : Nat) (x : Chan) : (s.setChan k x).errCounts = s.errCounts := rfl
@[simp] theorem State.setChan_errClock (s : State) (k : Nat) (x : Chan) : (s.setChan k x).errClock = s.errClock := rfl
@[simp] theorem State.setChan_hostReply (s : State) (k : Nat) (x : Chan) : (s.setChan k x).hostReply = s.hostReply := rfl
@[simp] theorem State.setChan_peerReply (s : State) (k : Nat) (x : Chan) : (s.setChan k x).peerReply = s.peerReply := rfl
@[simp] theorem State.setChan_migReply (s : State) (k : Nat) (x : Chan) : (s.setChan k x).migReply = s.migReply := rfl

-- State.wr

@[simp] theorem State.wr_agenda (s : State) (a : Nat) (bs : List Byte) : (s.wr a bs).agenda = s.agenda := rfl
@[simp] theorem State.wr_follow (s : State) (a : Nat) (bs : List Byte) : (s.wr a bs).follow = s.follow := rfl
@[simp] theorem State.wr_cur (s : State) (a : Nat) (bs : List Byte) : (s.wr a bs).cur = s.cur := rfl
@[simp] theorem State.wr_turn (s : State) (a : Nat) (bs : List Byte) : (s.wr a bs).turn = s.turn := rfl
@[simp] theorem State.wr_freeCount (s : State) (a : Nat) (bs : List Byte) : (s.wr a bs).freeCount = s.freeCount := rfl
@[simp] theorem State.wr_halt (s : State) (a : Nat) (bs : List Byte) : (s.wr a bs).halt = s.halt := rfl
@[simp] theorem State.wr_jam (s : State) (a : Nat) (bs : List Byte) : (s.wr a bs).jam = s.jam := rfl
@[simp] theorem State.wr_nextKey (s : State) (a : Nat) (bs : List Byte) : (s.wr a bs).nextKey = s.nextKey := rfl
@[simp] theorem State.wr_clock (s : State) (a : Nat) (bs : List Byte) : (s.wr a bs).clock = s.clock := rfl
@[simp] theorem State.wr_mem (s : State) (a : Nat) (bs : List Byte) : (s.wr a bs).mem = Store.setN memDefault s.mem a bs := rfl
@[simp] theorem State.wr_poison (s : State) (a : Nat) (bs : List Byte) : (s.wr a bs).poison = s.poison.filter fun q => !(decide (a ≤ q * 32) && decide (q * 32 + 32 ≤ a + bs.length)) := rfl
@[simp] theorem State.wr_outbound (s : State) (a : Nat) (bs : List Byte) : (s.wr a bs).outbound = s.outbound := rfl
@[simp] theorem State.wr_tlb (s : State) (a : Nat) (bs : List Byte) : (s.wr a bs).tlb = s.tlb := rfl
@[simp] theorem State.wr_ntlb (s : State) (a : Nat) (bs : List Byte) : (s.wr a bs).ntlb = s.ntlb := rfl
@[simp] theorem State.wr_walks (s : State) (a : Nat) (bs : List Byte) : (s.wr a bs).walks = s.walks := rfl
@[simp] theorem State.wr_answers (s : State) (a : Nat) (bs : List Byte) : (s.wr a bs).answers = s.answers := rfl
@[simp] theorem State.wr_icache (s : State) (a : Nat) (bs : List Byte) : (s.wr a bs).icache = oldHalves s a bs ++ s.icache := rfl
@[simp] theorem State.wr_sealMap (s : State) (a : Nat) (bs : List Byte) : (s.wr a bs).sealMap = s.sealMap := rfl
@[simp] theorem State.wr_tierRecs (s : State) (a : Nat) (bs : List Byte) : (s.wr a bs).tierRecs = s.tierRecs := rfl
@[simp] theorem State.wr_shadow (s : State) (a : Nat) (bs : List Byte) : (s.wr a bs).shadow = s.shadow := rfl
@[simp] theorem State.wr_dropped (s : State) (a : Nat) (bs : List Byte) : (s.wr a bs).dropped = s.dropped := rfl
@[simp] theorem State.wr_cores (s : State) (a : Nat) (bs : List Byte) : (s.wr a bs).cores = s.cores.map fun e => (e.1, e.2.wrote a bs.length) := rfl
@[simp] theorem State.wr_quads (s : State) (a : Nat) (bs : List Byte) : (s.wr a bs).quads = s.quads := rfl
@[simp] theorem State.wr_teams (s : State) (a : Nat) (bs : List Byte) : (s.wr a bs).teams = s.teams := rfl
@[simp] theorem State.wr_grids (s : State) (a : Nat) (bs : List Byte) : (s.wr a bs).grids = s.grids := rfl
@[simp] theorem State.wr_rrPos (s : State) (a : Nat) (bs : List Byte) : (s.wr a bs).rrPos = s.rrPos := rfl
@[simp] theorem State.wr_copies (s : State) (a : Nat) (bs : List Byte) : (s.wr a bs).copies = s.copies := rfl
@[simp] theorem State.wr_mops (s : State) (a : Nat) (bs : List Byte) : (s.wr a bs).mops = s.mops := rfl
@[simp] theorem State.wr_chans (s : State) (a : Nat) (bs : List Byte) : (s.wr a bs).chans = s.chans := rfl
@[simp] theorem State.wr_parks (s : State) (a : Nat) (bs : List Byte) : (s.wr a bs).parks = s.parks := rfl
@[simp] theorem State.wr_faults (s : State) (a : Nat) (bs : List Byte) : (s.wr a bs).faults = s.faults := rfl
@[simp] theorem State.wr_moves (s : State) (a : Nat) (bs : List Byte) : (s.wr a bs).moves = s.moves := rfl
@[simp] theorem State.wr_jobs (s : State) (a : Nat) (bs : List Byte) : (s.wr a bs).jobs = s.jobs := rfl
@[simp] theorem State.wr_resolveNo (s : State) (a : Nat) (bs : List Byte) : (s.wr a bs).resolveNo = s.resolveNo := rfl
@[simp] theorem State.wr_vfs (s : State) (a : Nat) (bs : List Byte) : (s.wr a bs).vfs = s.vfs := rfl
@[simp] theorem State.wr_vmtbase (s : State) (a : Nat) (bs : List Byte) : (s.wr a bs).vmtbase = s.vmtbase := rfl
@[simp] theorem State.wr_peerid (s : State) (a : Nat) (bs : List Byte) : (s.wr a bs).peerid = s.peerid := rfl
@[simp] theorem State.wr_powercap (s : State) (a : Nat) (bs : List Byte) : (s.wr a bs).powercap = s.powercap := rfl
@[simp] theorem State.wr_pstate (s : State) (a : Nat) (bs : List Byte) : (s.wr a bs).pstate = s.pstate := rfl
@[simp] theorem State.wr_pfmq (s : State) (a : Nat) (bs : List Byte) : (s.wr a bs).pfmq = s.pfmq := rfl
@[simp] theorem State.wr_peerroute (s : State) (a : Nat) (bs : List Byte) : (s.wr a bs).peerroute = s.peerroute := rfl
@[simp] theorem State.wr_pfFid (s : State) (a : Nat) (bs : List Byte) : (s.wr a bs).pfFid = s.pfFid := rfl
@[simp] theorem State.wr_mqBells (s : State) (a : Nat) (bs : List Byte) : (s.wr a bs).mqBells = s.mqBells := rfl
@[simp] theorem State.wr_hostBlocks (s : State) (a : Nat) (bs : List Byte) : (s.wr a bs).hostBlocks = s.hostBlocks := rfl
@[simp] theorem State.wr_debug (s : State) (a : Nat) (bs : List Byte) : (s.wr a bs).debug = s.debug := rfl
@[simp] theorem State.wr_fatal (s : State) (a : Nat) (bs : List Byte) : (s.wr a bs).fatal = s.fatal := rfl
@[simp] theorem State.wr_hot (s : State) (a : Nat) (bs : List Byte) : (s.wr a bs).hot = s.hot := rfl
@[simp] theorem State.wr_idle (s : State) (a : Nat) (bs : List Byte) : (s.wr a bs).idle = s.idle := rfl
@[simp] theorem State.wr_off (s : State) (a : Nat) (bs : List Byte) : (s.wr a bs).off = s.off := rfl
@[simp] theorem State.wr_images (s : State) (a : Nat) (bs : List Byte) : (s.wr a bs).images = s.images := rfl
@[simp] theorem State.wr_firmware (s : State) (a : Nat) (bs : List Byte) : (s.wr a bs).firmware = s.firmware := rfl
@[simp] theorem State.wr_nonce (s : State) (a : Nat) (bs : List Byte) : (s.wr a bs).nonce = s.nonce := rfl
@[simp] theorem State.wr_keys (s : State) (a : Nat) (bs : List Byte) : (s.wr a bs).keys = s.keys := rfl
@[simp] theorem State.wr_exports (s : State) (a : Nat) (bs : List Byte) : (s.wr a bs).exports = s.exports := rfl
@[simp] theorem State.wr_portsUp (s : State) (a : Nat) (bs : List Byte) : (s.wr a bs).portsUp = s.portsUp := rfl
@[simp] theorem State.wr_evWait (s : State) (a : Nat) (bs : List Byte) : (s.wr a bs).evWait = s.evWait := rfl
@[simp] theorem State.wr_msix (s : State) (a : Nat) (bs : List Byte) : (s.wr a bs).msix = s.msix := rfl
@[simp] theorem State.wr_wakeReg (s : State) (a : Nat) (bs : List Byte) : (s.wr a bs).wakeReg = s.wakeReg := rfl
@[simp] theorem State.wr_vacates (s : State) (a : Nat) (bs : List Byte) : (s.wr a bs).vacates = s.vacates := rfl
@[simp] theorem State.wr_errCounts (s : State) (a : Nat) (bs : List Byte) : (s.wr a bs).errCounts = s.errCounts := rfl
@[simp] theorem State.wr_errClock (s : State) (a : Nat) (bs : List Byte) : (s.wr a bs).errClock = s.errClock := rfl
@[simp] theorem State.wr_hostReply (s : State) (a : Nat) (bs : List Byte) : (s.wr a bs).hostReply = s.hostReply := rfl
@[simp] theorem State.wr_peerReply (s : State) (a : Nat) (bs : List Byte) : (s.wr a bs).peerReply = s.peerReply := rfl
@[simp] theorem State.wr_migReply (s : State) (a : Nat) (bs : List Byte) : (s.wr a bs).migReply = s.migReply := rfl

-- Updates of a team or a thread inside the state

@[simp] theorem State.modTeam_agenda (s : State) (k : Nat) (g : Team → Team) : (s.modTeam k g).agenda = s.agenda := rfl
@[simp] theorem State.modTeam_follow (s : State) (k : Nat) (g : Team → Team) : (s.modTeam k g).follow = s.follow := rfl
@[simp] theorem State.modTeam_cur (s : State) (k : Nat) (g : Team → Team) : (s.modTeam k g).cur = s.cur := rfl
@[simp] theorem State.modTeam_turn (s : State) (k : Nat) (g : Team → Team) : (s.modTeam k g).turn = s.turn := rfl
@[simp] theorem State.modTeam_freeCount (s : State) (k : Nat) (g : Team → Team) : (s.modTeam k g).freeCount = s.freeCount := rfl
@[simp] theorem State.modTeam_halt (s : State) (k : Nat) (g : Team → Team) : (s.modTeam k g).halt = s.halt := rfl
@[simp] theorem State.modTeam_jam (s : State) (k : Nat) (g : Team → Team) : (s.modTeam k g).jam = s.jam := rfl
@[simp] theorem State.modTeam_nextKey (s : State) (k : Nat) (g : Team → Team) : (s.modTeam k g).nextKey = s.nextKey := rfl
@[simp] theorem State.modTeam_clock (s : State) (k : Nat) (g : Team → Team) : (s.modTeam k g).clock = s.clock := rfl
@[simp] theorem State.modTeam_mem (s : State) (k : Nat) (g : Team → Team) : (s.modTeam k g).mem = s.mem := rfl
@[simp] theorem State.modTeam_poison (s : State) (k : Nat) (g : Team → Team) : (s.modTeam k g).poison = s.poison := rfl
@[simp] theorem State.modTeam_outbound (s : State) (k : Nat) (g : Team → Team) : (s.modTeam k g).outbound = s.outbound := rfl
@[simp] theorem State.modTeam_tlb (s : State) (k : Nat) (g : Team → Team) : (s.modTeam k g).tlb = s.tlb := rfl
@[simp] theorem State.modTeam_ntlb (s : State) (k : Nat) (g : Team → Team) : (s.modTeam k g).ntlb = s.ntlb := rfl
@[simp] theorem State.modTeam_walks (s : State) (k : Nat) (g : Team → Team) : (s.modTeam k g).walks = s.walks := rfl
@[simp] theorem State.modTeam_answers (s : State) (k : Nat) (g : Team → Team) : (s.modTeam k g).answers = s.answers := rfl
@[simp] theorem State.modTeam_icache (s : State) (k : Nat) (g : Team → Team) : (s.modTeam k g).icache = s.icache := rfl
@[simp] theorem State.modTeam_sealMap (s : State) (k : Nat) (g : Team → Team) : (s.modTeam k g).sealMap = s.sealMap := rfl
@[simp] theorem State.modTeam_tierRecs (s : State) (k : Nat) (g : Team → Team) : (s.modTeam k g).tierRecs = s.tierRecs := rfl
@[simp] theorem State.modTeam_shadow (s : State) (k : Nat) (g : Team → Team) : (s.modTeam k g).shadow = s.shadow := rfl
@[simp] theorem State.modTeam_dropped (s : State) (k : Nat) (g : Team → Team) : (s.modTeam k g).dropped = s.dropped := rfl
@[simp] theorem State.modTeam_cores (s : State) (k : Nat) (g : Team → Team) : (s.modTeam k g).cores = s.cores := rfl
@[simp] theorem State.modTeam_quads (s : State) (k : Nat) (g : Team → Team) : (s.modTeam k g).quads = s.quads := rfl
@[simp] theorem State.modTeam_grids (s : State) (k : Nat) (g : Team → Team) : (s.modTeam k g).grids = s.grids := rfl
@[simp] theorem State.modTeam_rrPos (s : State) (k : Nat) (g : Team → Team) : (s.modTeam k g).rrPos = s.rrPos := rfl
@[simp] theorem State.modTeam_copies (s : State) (k : Nat) (g : Team → Team) : (s.modTeam k g).copies = s.copies := rfl
@[simp] theorem State.modTeam_mops (s : State) (k : Nat) (g : Team → Team) : (s.modTeam k g).mops = s.mops := rfl
@[simp] theorem State.modTeam_chans (s : State) (k : Nat) (g : Team → Team) : (s.modTeam k g).chans = s.chans := rfl
@[simp] theorem State.modTeam_parks (s : State) (k : Nat) (g : Team → Team) : (s.modTeam k g).parks = s.parks := rfl
@[simp] theorem State.modTeam_faults (s : State) (k : Nat) (g : Team → Team) : (s.modTeam k g).faults = s.faults := rfl
@[simp] theorem State.modTeam_moves (s : State) (k : Nat) (g : Team → Team) : (s.modTeam k g).moves = s.moves := rfl
@[simp] theorem State.modTeam_jobs (s : State) (k : Nat) (g : Team → Team) : (s.modTeam k g).jobs = s.jobs := rfl
@[simp] theorem State.modTeam_resolveNo (s : State) (k : Nat) (g : Team → Team) : (s.modTeam k g).resolveNo = s.resolveNo := rfl
@[simp] theorem State.modTeam_vfs (s : State) (k : Nat) (g : Team → Team) : (s.modTeam k g).vfs = s.vfs := rfl
@[simp] theorem State.modTeam_vmtbase (s : State) (k : Nat) (g : Team → Team) : (s.modTeam k g).vmtbase = s.vmtbase := rfl
@[simp] theorem State.modTeam_peerid (s : State) (k : Nat) (g : Team → Team) : (s.modTeam k g).peerid = s.peerid := rfl
@[simp] theorem State.modTeam_powercap (s : State) (k : Nat) (g : Team → Team) : (s.modTeam k g).powercap = s.powercap := rfl
@[simp] theorem State.modTeam_pstate (s : State) (k : Nat) (g : Team → Team) : (s.modTeam k g).pstate = s.pstate := rfl
@[simp] theorem State.modTeam_pfmq (s : State) (k : Nat) (g : Team → Team) : (s.modTeam k g).pfmq = s.pfmq := rfl
@[simp] theorem State.modTeam_peerroute (s : State) (k : Nat) (g : Team → Team) : (s.modTeam k g).peerroute = s.peerroute := rfl
@[simp] theorem State.modTeam_pfFid (s : State) (k : Nat) (g : Team → Team) : (s.modTeam k g).pfFid = s.pfFid := rfl
@[simp] theorem State.modTeam_mqBells (s : State) (k : Nat) (g : Team → Team) : (s.modTeam k g).mqBells = s.mqBells := rfl
@[simp] theorem State.modTeam_hostBlocks (s : State) (k : Nat) (g : Team → Team) : (s.modTeam k g).hostBlocks = s.hostBlocks := rfl
@[simp] theorem State.modTeam_debug (s : State) (k : Nat) (g : Team → Team) : (s.modTeam k g).debug = s.debug := rfl
@[simp] theorem State.modTeam_fatal (s : State) (k : Nat) (g : Team → Team) : (s.modTeam k g).fatal = s.fatal := rfl
@[simp] theorem State.modTeam_hot (s : State) (k : Nat) (g : Team → Team) : (s.modTeam k g).hot = s.hot := rfl
@[simp] theorem State.modTeam_idle (s : State) (k : Nat) (g : Team → Team) : (s.modTeam k g).idle = s.idle := rfl
@[simp] theorem State.modTeam_off (s : State) (k : Nat) (g : Team → Team) : (s.modTeam k g).off = s.off := rfl
@[simp] theorem State.modTeam_images (s : State) (k : Nat) (g : Team → Team) : (s.modTeam k g).images = s.images := rfl
@[simp] theorem State.modTeam_firmware (s : State) (k : Nat) (g : Team → Team) : (s.modTeam k g).firmware = s.firmware := rfl
@[simp] theorem State.modTeam_nonce (s : State) (k : Nat) (g : Team → Team) : (s.modTeam k g).nonce = s.nonce := rfl
@[simp] theorem State.modTeam_keys (s : State) (k : Nat) (g : Team → Team) : (s.modTeam k g).keys = s.keys := rfl
@[simp] theorem State.modTeam_exports (s : State) (k : Nat) (g : Team → Team) : (s.modTeam k g).exports = s.exports := rfl
@[simp] theorem State.modTeam_portsUp (s : State) (k : Nat) (g : Team → Team) : (s.modTeam k g).portsUp = s.portsUp := rfl
@[simp] theorem State.modTeam_evWait (s : State) (k : Nat) (g : Team → Team) : (s.modTeam k g).evWait = s.evWait := rfl
@[simp] theorem State.modTeam_msix (s : State) (k : Nat) (g : Team → Team) : (s.modTeam k g).msix = s.msix := rfl
@[simp] theorem State.modTeam_wakeReg (s : State) (k : Nat) (g : Team → Team) : (s.modTeam k g).wakeReg = s.wakeReg := rfl
@[simp] theorem State.modTeam_vacates (s : State) (k : Nat) (g : Team → Team) : (s.modTeam k g).vacates = s.vacates := rfl
@[simp] theorem State.modTeam_errCounts (s : State) (k : Nat) (g : Team → Team) : (s.modTeam k g).errCounts = s.errCounts := rfl
@[simp] theorem State.modTeam_errClock (s : State) (k : Nat) (g : Team → Team) : (s.modTeam k g).errClock = s.errClock := rfl
@[simp] theorem State.modTeam_hostReply (s : State) (k : Nat) (g : Team → Team) : (s.modTeam k g).hostReply = s.hostReply := rfl
@[simp] theorem State.modTeam_peerReply (s : State) (k : Nat) (g : Team → Team) : (s.modTeam k g).peerReply = s.peerReply := rfl
@[simp] theorem State.modTeam_migReply (s : State) (k : Nat) (g : Team → Team) : (s.modTeam k g).migReply = s.migReply := rfl
@[simp] theorem State.modThread_agenda (s : State) (k i : Nat) (g : Thread → Thread) : (s.modThread k i g).agenda = s.agenda := rfl
@[simp] theorem State.modThread_follow (s : State) (k i : Nat) (g : Thread → Thread) : (s.modThread k i g).follow = s.follow := rfl
@[simp] theorem State.modThread_cur (s : State) (k i : Nat) (g : Thread → Thread) : (s.modThread k i g).cur = s.cur := rfl
@[simp] theorem State.modThread_turn (s : State) (k i : Nat) (g : Thread → Thread) : (s.modThread k i g).turn = s.turn := rfl
@[simp] theorem State.modThread_freeCount (s : State) (k i : Nat) (g : Thread → Thread) : (s.modThread k i g).freeCount = s.freeCount := rfl
@[simp] theorem State.modThread_halt (s : State) (k i : Nat) (g : Thread → Thread) : (s.modThread k i g).halt = s.halt := rfl
@[simp] theorem State.modThread_jam (s : State) (k i : Nat) (g : Thread → Thread) : (s.modThread k i g).jam = s.jam := rfl
@[simp] theorem State.modThread_nextKey (s : State) (k i : Nat) (g : Thread → Thread) : (s.modThread k i g).nextKey = s.nextKey := rfl
@[simp] theorem State.modThread_clock (s : State) (k i : Nat) (g : Thread → Thread) : (s.modThread k i g).clock = s.clock := rfl
@[simp] theorem State.modThread_mem (s : State) (k i : Nat) (g : Thread → Thread) : (s.modThread k i g).mem = s.mem := rfl
@[simp] theorem State.modThread_poison (s : State) (k i : Nat) (g : Thread → Thread) : (s.modThread k i g).poison = s.poison := rfl
@[simp] theorem State.modThread_outbound (s : State) (k i : Nat) (g : Thread → Thread) : (s.modThread k i g).outbound = s.outbound := rfl
@[simp] theorem State.modThread_tlb (s : State) (k i : Nat) (g : Thread → Thread) : (s.modThread k i g).tlb = s.tlb := rfl
@[simp] theorem State.modThread_ntlb (s : State) (k i : Nat) (g : Thread → Thread) : (s.modThread k i g).ntlb = s.ntlb := rfl
@[simp] theorem State.modThread_walks (s : State) (k i : Nat) (g : Thread → Thread) : (s.modThread k i g).walks = s.walks := rfl
@[simp] theorem State.modThread_answers (s : State) (k i : Nat) (g : Thread → Thread) : (s.modThread k i g).answers = s.answers := rfl
@[simp] theorem State.modThread_icache (s : State) (k i : Nat) (g : Thread → Thread) : (s.modThread k i g).icache = s.icache := rfl
@[simp] theorem State.modThread_sealMap (s : State) (k i : Nat) (g : Thread → Thread) : (s.modThread k i g).sealMap = s.sealMap := rfl
@[simp] theorem State.modThread_tierRecs (s : State) (k i : Nat) (g : Thread → Thread) : (s.modThread k i g).tierRecs = s.tierRecs := rfl
@[simp] theorem State.modThread_shadow (s : State) (k i : Nat) (g : Thread → Thread) : (s.modThread k i g).shadow = s.shadow := rfl
@[simp] theorem State.modThread_dropped (s : State) (k i : Nat) (g : Thread → Thread) : (s.modThread k i g).dropped = s.dropped := rfl
@[simp] theorem State.modThread_cores (s : State) (k i : Nat) (g : Thread → Thread) : (s.modThread k i g).cores = s.cores := rfl
@[simp] theorem State.modThread_quads (s : State) (k i : Nat) (g : Thread → Thread) : (s.modThread k i g).quads = s.quads := rfl
@[simp] theorem State.modThread_grids (s : State) (k i : Nat) (g : Thread → Thread) : (s.modThread k i g).grids = s.grids := rfl
@[simp] theorem State.modThread_rrPos (s : State) (k i : Nat) (g : Thread → Thread) : (s.modThread k i g).rrPos = s.rrPos := rfl
@[simp] theorem State.modThread_copies (s : State) (k i : Nat) (g : Thread → Thread) : (s.modThread k i g).copies = s.copies := rfl
@[simp] theorem State.modThread_mops (s : State) (k i : Nat) (g : Thread → Thread) : (s.modThread k i g).mops = s.mops := rfl
@[simp] theorem State.modThread_chans (s : State) (k i : Nat) (g : Thread → Thread) : (s.modThread k i g).chans = s.chans := rfl
@[simp] theorem State.modThread_parks (s : State) (k i : Nat) (g : Thread → Thread) : (s.modThread k i g).parks = s.parks := rfl
@[simp] theorem State.modThread_faults (s : State) (k i : Nat) (g : Thread → Thread) : (s.modThread k i g).faults = s.faults := rfl
@[simp] theorem State.modThread_moves (s : State) (k i : Nat) (g : Thread → Thread) : (s.modThread k i g).moves = s.moves := rfl
@[simp] theorem State.modThread_jobs (s : State) (k i : Nat) (g : Thread → Thread) : (s.modThread k i g).jobs = s.jobs := rfl
@[simp] theorem State.modThread_resolveNo (s : State) (k i : Nat) (g : Thread → Thread) : (s.modThread k i g).resolveNo = s.resolveNo := rfl
@[simp] theorem State.modThread_vfs (s : State) (k i : Nat) (g : Thread → Thread) : (s.modThread k i g).vfs = s.vfs := rfl
@[simp] theorem State.modThread_vmtbase (s : State) (k i : Nat) (g : Thread → Thread) : (s.modThread k i g).vmtbase = s.vmtbase := rfl
@[simp] theorem State.modThread_peerid (s : State) (k i : Nat) (g : Thread → Thread) : (s.modThread k i g).peerid = s.peerid := rfl
@[simp] theorem State.modThread_powercap (s : State) (k i : Nat) (g : Thread → Thread) : (s.modThread k i g).powercap = s.powercap := rfl
@[simp] theorem State.modThread_pstate (s : State) (k i : Nat) (g : Thread → Thread) : (s.modThread k i g).pstate = s.pstate := rfl
@[simp] theorem State.modThread_pfmq (s : State) (k i : Nat) (g : Thread → Thread) : (s.modThread k i g).pfmq = s.pfmq := rfl
@[simp] theorem State.modThread_peerroute (s : State) (k i : Nat) (g : Thread → Thread) : (s.modThread k i g).peerroute = s.peerroute := rfl
@[simp] theorem State.modThread_pfFid (s : State) (k i : Nat) (g : Thread → Thread) : (s.modThread k i g).pfFid = s.pfFid := rfl
@[simp] theorem State.modThread_mqBells (s : State) (k i : Nat) (g : Thread → Thread) : (s.modThread k i g).mqBells = s.mqBells := rfl
@[simp] theorem State.modThread_hostBlocks (s : State) (k i : Nat) (g : Thread → Thread) : (s.modThread k i g).hostBlocks = s.hostBlocks := rfl
@[simp] theorem State.modThread_debug (s : State) (k i : Nat) (g : Thread → Thread) : (s.modThread k i g).debug = s.debug := rfl
@[simp] theorem State.modThread_fatal (s : State) (k i : Nat) (g : Thread → Thread) : (s.modThread k i g).fatal = s.fatal := rfl
@[simp] theorem State.modThread_hot (s : State) (k i : Nat) (g : Thread → Thread) : (s.modThread k i g).hot = s.hot := rfl
@[simp] theorem State.modThread_idle (s : State) (k i : Nat) (g : Thread → Thread) : (s.modThread k i g).idle = s.idle := rfl
@[simp] theorem State.modThread_off (s : State) (k i : Nat) (g : Thread → Thread) : (s.modThread k i g).off = s.off := rfl
@[simp] theorem State.modThread_images (s : State) (k i : Nat) (g : Thread → Thread) : (s.modThread k i g).images = s.images := rfl
@[simp] theorem State.modThread_firmware (s : State) (k i : Nat) (g : Thread → Thread) : (s.modThread k i g).firmware = s.firmware := rfl
@[simp] theorem State.modThread_nonce (s : State) (k i : Nat) (g : Thread → Thread) : (s.modThread k i g).nonce = s.nonce := rfl
@[simp] theorem State.modThread_keys (s : State) (k i : Nat) (g : Thread → Thread) : (s.modThread k i g).keys = s.keys := rfl
@[simp] theorem State.modThread_exports (s : State) (k i : Nat) (g : Thread → Thread) : (s.modThread k i g).exports = s.exports := rfl
@[simp] theorem State.modThread_portsUp (s : State) (k i : Nat) (g : Thread → Thread) : (s.modThread k i g).portsUp = s.portsUp := rfl
@[simp] theorem State.modThread_evWait (s : State) (k i : Nat) (g : Thread → Thread) : (s.modThread k i g).evWait = s.evWait := rfl
@[simp] theorem State.modThread_msix (s : State) (k i : Nat) (g : Thread → Thread) : (s.modThread k i g).msix = s.msix := rfl
@[simp] theorem State.modThread_wakeReg (s : State) (k i : Nat) (g : Thread → Thread) : (s.modThread k i g).wakeReg = s.wakeReg := rfl
@[simp] theorem State.modThread_vacates (s : State) (k i : Nat) (g : Thread → Thread) : (s.modThread k i g).vacates = s.vacates := rfl
@[simp] theorem State.modThread_errCounts (s : State) (k i : Nat) (g : Thread → Thread) : (s.modThread k i g).errCounts = s.errCounts := rfl
@[simp] theorem State.modThread_errClock (s : State) (k i : Nat) (g : Thread → Thread) : (s.modThread k i g).errClock = s.errClock := rfl
@[simp] theorem State.modThread_hostReply (s : State) (k i : Nat) (g : Thread → Thread) : (s.modThread k i g).hostReply = s.hostReply := rfl
@[simp] theorem State.modThread_peerReply (s : State) (k i : Nat) (g : Thread → Thread) : (s.modThread k i g).peerReply = s.peerReply := rfl
@[simp] theorem State.modThread_migReply (s : State) (k i : Nat) (g : Thread → Thread) : (s.modThread k i g).migReply = s.migReply := rfl

-- Team.setThread

@[simp] theorem Team.setThread_phase (t : Team) (i : Nat) (x : Thread) : (t.setThread i x).phase = t.phase := rfl
@[simp] theorem Team.setThread_grid (t : Team) (i : Nat) (x : Thread) : (t.setThread i x).grid = t.grid := rfl
@[simp] theorem Team.setThread_gridId (t : Team) (i : Nat) (x : Thread) : (t.setThread i x).gridId = t.gridId := rfl
@[simp] theorem Team.setThread_index (t : Team) (i : Nat) (x : Thread) : (t.setThread i x).index = t.index := rfl
@[simp] theorem Team.setThread_x (t : Team) (i : Nat) (x : Thread) : (t.setThread i x).x = t.x := rfl
@[simp] theorem Team.setThread_y (t : Team) (i : Nat) (x : Thread) : (t.setThread i x).y = t.y := rfl
@[simp] theorem Team.setThread_z (t : Team) (i : Nat) (x : Thread) : (t.setThread i x).z = t.z := rfl
@[simp] theorem Team.setThread_vf (t : Team) (i : Nat) (x : Thread) : (t.setThread i x).vf = t.vf := rfl
@[simp] theorem Team.setThread_vmid (t : Team) (i : Nat) (x : Thread) : (t.setThread i x).vmid = t.vmid := rfl
@[simp] theorem Team.setThread_asid (t : Team) (i : Nat) (x : Thread) : (t.setThread i x).asid = t.asid := rfl
@[simp] theorem Team.setThread_super (t : Team) (i : Nat) (x : Thread) : (t.setThread i x).super = t.super := rfl
@[simp] theorem Team.setThread_place (t : Team) (i : Nat) (x : Thread) : (t.setThread i x).place = t.place := rfl
@[simp] theorem Team.setThread_lastCore (t : Team) (i : Nat) (x : Thread) : (t.setThread i x).lastCore = t.lastCore := rfl
@[simp] theorem Team.setThread_desc (t : Team) (i : Nat) (x : Thread) : (t.setThread i x).desc = t.desc := rfl
@[simp] theorem Team.setThread_mode (t : Team) (i : Nat) (x : Thread) : (t.setThread i x).mode = t.mode := rfl
@[simp] theorem Team.setThread_kargs (t : Team) (i : Nat) (x : Thread) : (t.setThread i x).kargs = t.kargs := rfl
@[simp] theorem Team.setThread_handles (t : Team) (i : Nat) (x : Thread) : (t.setThread i x).handles = t.handles := rfl
@[simp] theorem Team.setThread_drains (t : Team) (i : Nat) (x : Thread) : (t.setThread i x).drains = t.drains := rfl
@[simp] theorem Team.setThread_pad (t : Team) (i : Nat) (x : Thread) : (t.setThread i x).pad = t.pad := rfl
@[simp] theorem Team.setThread_unfenced (t : Team) (i : Nat) (x : Thread) : (t.setThread i x).unfenced = t.unfenced := rfl
@[simp] theorem Team.setThread_tiles (t : Team) (i : Nat) (x : Thread) : (t.setThread i x).tiles = t.tiles := rfl
@[simp] theorem Team.setThread_account (t : Team) (i : Nat) (x : Thread) : (t.setThread i x).account = t.account := rfl
@[simp] theorem Team.setThread_claims (t : Team) (i : Nat) (x : Thread) : (t.setThread i x).claims = t.claims := rfl
@[simp] theorem Team.setThread_lanesets (t : Team) (i : Nat) (x : Thread) : (t.setThread i x).lanesets = t.lanesets := rfl
@[simp] theorem Team.setThread_w (t : Team) (i : Nat) (x : Thread) : (t.setThread i x).w = t.w := rfl
@[simp] theorem Team.setThread_snap (t : Team) (i : Nat) (x : Thread) : (t.setThread i x).snap = t.snap := rfl
@[simp] theorem Team.setThread_interval (t : Team) (i : Nat) (x : Thread) : (t.setThread i x).interval = t.interval := rfl
@[simp] theorem Team.setThread_bufFree (t : Team) (i : Nat) (x : Thread) : (t.setThread i x).bufFree = t.bufFree := rfl
@[simp] theorem Team.setThread_latches (t : Team) (i : Nat) (x : Thread) : (t.setThread i x).latches = t.latches := rfl
@[simp] theorem Team.setThread_unseen (t : Team) (i : Nat) (x : Thread) : (t.setThread i x).unseen = t.unseen := rfl
@[simp] theorem Team.setThread_landed (t : Team) (i : Nat) (x : Thread) : (t.setThread i x).landed = t.landed := rfl
@[simp] theorem Team.setThread_insts (t : Team) (i : Nat) (x : Thread) : (t.setThread i x).insts = t.insts := rfl
@[simp] theorem Team.setThread_tables (t : Team) (i : Nat) (x : Thread) : (t.setThread i x).tables = t.tables := rfl
@[simp] theorem Team.setThread_reasons (t : Team) (i : Nat) (x : Thread) : (t.setThread i x).reasons = t.reasons := rfl
@[simp] theorem Team.setThread_swapNo (t : Team) (i : Nat) (x : Thread) : (t.setThread i x).swapNo = t.swapNo := rfl
@[simp] theorem Team.setThread_frames (t : Team) (i : Nat) (x : Thread) : (t.setThread i x).frames = t.frames := rfl
@[simp] theorem Team.setThread_starved (t : Team) (i : Nat) (x : Thread) : (t.setThread i x).starved = t.starved := rfl
@[simp] theorem Team.setThread_lastIssue (t : Team) (i : Nat) (x : Thread) : (t.setThread i x).lastIssue = t.lastIssue := rfl
@[simp] theorem Team.setThread_admitted (t : Team) (i : Nat) (x : Thread) : (t.setThread i x).admitted = t.admitted := rfl
@[simp] theorem Team.setThread_threads (t : Team) (i : Nat) (x : Thread) : (t.setThread i x).threads = Store.set Thread.unused t.threads i x := rfl

-- Team.padWr

@[simp] theorem Team.padWr_phase (t : Team) (a : Nat) (bs : List Byte) : (t.padWr a bs).phase = t.phase := rfl
@[simp] theorem Team.padWr_grid (t : Team) (a : Nat) (bs : List Byte) : (t.padWr a bs).grid = t.grid := rfl
@[simp] theorem Team.padWr_gridId (t : Team) (a : Nat) (bs : List Byte) : (t.padWr a bs).gridId = t.gridId := rfl
@[simp] theorem Team.padWr_index (t : Team) (a : Nat) (bs : List Byte) : (t.padWr a bs).index = t.index := rfl
@[simp] theorem Team.padWr_x (t : Team) (a : Nat) (bs : List Byte) : (t.padWr a bs).x = t.x := rfl
@[simp] theorem Team.padWr_y (t : Team) (a : Nat) (bs : List Byte) : (t.padWr a bs).y = t.y := rfl
@[simp] theorem Team.padWr_z (t : Team) (a : Nat) (bs : List Byte) : (t.padWr a bs).z = t.z := rfl
@[simp] theorem Team.padWr_vf (t : Team) (a : Nat) (bs : List Byte) : (t.padWr a bs).vf = t.vf := rfl
@[simp] theorem Team.padWr_vmid (t : Team) (a : Nat) (bs : List Byte) : (t.padWr a bs).vmid = t.vmid := rfl
@[simp] theorem Team.padWr_asid (t : Team) (a : Nat) (bs : List Byte) : (t.padWr a bs).asid = t.asid := rfl
@[simp] theorem Team.padWr_super (t : Team) (a : Nat) (bs : List Byte) : (t.padWr a bs).super = t.super := rfl
@[simp] theorem Team.padWr_place (t : Team) (a : Nat) (bs : List Byte) : (t.padWr a bs).place = t.place := rfl
@[simp] theorem Team.padWr_lastCore (t : Team) (a : Nat) (bs : List Byte) : (t.padWr a bs).lastCore = t.lastCore := rfl
@[simp] theorem Team.padWr_desc (t : Team) (a : Nat) (bs : List Byte) : (t.padWr a bs).desc = t.desc := rfl
@[simp] theorem Team.padWr_mode (t : Team) (a : Nat) (bs : List Byte) : (t.padWr a bs).mode = t.mode := rfl
@[simp] theorem Team.padWr_kargs (t : Team) (a : Nat) (bs : List Byte) : (t.padWr a bs).kargs = t.kargs := rfl
@[simp] theorem Team.padWr_handles (t : Team) (a : Nat) (bs : List Byte) : (t.padWr a bs).handles = t.handles := rfl
@[simp] theorem Team.padWr_drains (t : Team) (a : Nat) (bs : List Byte) : (t.padWr a bs).drains = t.drains := rfl
@[simp] theorem Team.padWr_unfenced (t : Team) (a : Nat) (bs : List Byte) : (t.padWr a bs).unfenced = t.unfenced := rfl
@[simp] theorem Team.padWr_tiles (t : Team) (a : Nat) (bs : List Byte) : (t.padWr a bs).tiles = t.tiles := rfl
@[simp] theorem Team.padWr_account (t : Team) (a : Nat) (bs : List Byte) : (t.padWr a bs).account = t.account := rfl
@[simp] theorem Team.padWr_claims (t : Team) (a : Nat) (bs : List Byte) : (t.padWr a bs).claims = t.claims := rfl
@[simp] theorem Team.padWr_lanesets (t : Team) (a : Nat) (bs : List Byte) : (t.padWr a bs).lanesets = t.lanesets := rfl
@[simp] theorem Team.padWr_w (t : Team) (a : Nat) (bs : List Byte) : (t.padWr a bs).w = t.w := rfl
@[simp] theorem Team.padWr_snap (t : Team) (a : Nat) (bs : List Byte) : (t.padWr a bs).snap = t.snap := rfl
@[simp] theorem Team.padWr_interval (t : Team) (a : Nat) (bs : List Byte) : (t.padWr a bs).interval = t.interval := rfl
@[simp] theorem Team.padWr_bufFree (t : Team) (a : Nat) (bs : List Byte) : (t.padWr a bs).bufFree = t.bufFree := rfl
@[simp] theorem Team.padWr_latches (t : Team) (a : Nat) (bs : List Byte) : (t.padWr a bs).latches = t.latches := rfl
@[simp] theorem Team.padWr_unseen (t : Team) (a : Nat) (bs : List Byte) : (t.padWr a bs).unseen = t.unseen := rfl
@[simp] theorem Team.padWr_landed (t : Team) (a : Nat) (bs : List Byte) : (t.padWr a bs).landed = t.landed := rfl
@[simp] theorem Team.padWr_insts (t : Team) (a : Nat) (bs : List Byte) : (t.padWr a bs).insts = t.insts := rfl
@[simp] theorem Team.padWr_tables (t : Team) (a : Nat) (bs : List Byte) : (t.padWr a bs).tables = t.tables := rfl
@[simp] theorem Team.padWr_reasons (t : Team) (a : Nat) (bs : List Byte) : (t.padWr a bs).reasons = t.reasons := rfl
@[simp] theorem Team.padWr_swapNo (t : Team) (a : Nat) (bs : List Byte) : (t.padWr a bs).swapNo = t.swapNo := rfl
@[simp] theorem Team.padWr_frames (t : Team) (a : Nat) (bs : List Byte) : (t.padWr a bs).frames = t.frames := rfl
@[simp] theorem Team.padWr_starved (t : Team) (a : Nat) (bs : List Byte) : (t.padWr a bs).starved = t.starved := rfl
@[simp] theorem Team.padWr_lastIssue (t : Team) (a : Nat) (bs : List Byte) : (t.padWr a bs).lastIssue = t.lastIssue := rfl
@[simp] theorem Team.padWr_admitted (t : Team) (a : Nat) (bs : List Byte) : (t.padWr a bs).admitted = t.admitted := rfl
@[simp] theorem Team.padWr_pad (t : Team) (a : Nat) (bs : List Byte) : (t.padWr a bs).pad = Store.setN 0 t.pad a bs := rfl

-- Thread.setReg

@[simp] theorem Thread.setReg_life (t : Thread) (r : Nat) (v : BitVec 32) : (t.setReg r v).life = t.life := rfl
@[simp] theorem Thread.setReg_pc (t : Thread) (r : Nat) (v : BitVec 32) : (t.setReg r v).pc = t.pc := rfl
@[simp] theorem Thread.setReg_regs (t : Thread) (r : Nat) (v : BitVec 32) : (t.setReg r v).regs = t.regs.set (r % 128) v (Nat.mod_lt _ (by decide)) := rfl
@[simp] theorem Thread.setReg_preds (t : Thread) (r : Nat) (v : BitVec 32) : (t.setReg r v).preds = t.preds := rfl
@[simp] theorem Thread.setReg_lr (t : Thread) (r : Nat) (v : BitVec 32) : (t.setReg r v).lr = t.lr := rfl
@[simp] theorem Thread.setReg_tpc (t : Thread) (r : Nat) (v : BitVec 32) : (t.setReg r v).tpc = t.tpc := rfl
@[simp] theorem Thread.setReg_tfa (t : Thread) (r : Nat) (v : BitVec 32) : (t.setReg r v).tfa = t.tfa := rfl
@[simp] theorem Thread.setReg_tia (t : Thread) (r : Nat) (v : BitVec 32) : (t.setReg r v).tia = t.tia := rfl
@[simp] theorem Thread.setReg_tcause (t : Thread) (r : Nat) (v : BitVec 32) : (t.setReg r v).tcause = t.tcause := rfl
@[simp] theorem Thread.setReg_tinfo (t : Thread) (r : Nat) (v : BitVec 32) : (t.setReg r v).tinfo = t.tinfo := rfl
@[simp] theorem Thread.setReg_spanPass (t : Thread) (r : Nat) (v : BitVec 32) : (t.setReg r v).spanPass = t.spanPass := rfl
@[simp] theorem Thread.setReg_spanLeft (t : Thread) (r : Nat) (v : BitVec 32) : (t.setReg r v).spanLeft = t.spanLeft := rfl
@[simp] theorem Thread.setReg_savedPass (t : Thread) (r : Nat) (v : BitVec 32) : (t.setReg r v).savedPass = t.savedPass := rfl
@[simp] theorem Thread.setReg_savedLeft (t : Thread) (r : Nat) (v : BitVec 32) : (t.setReg r v).savedLeft = t.savedLeft := rfl
@[simp] theorem Thread.setReg_handler (t : Thread) (r : Nat) (v : BitVec 32) : (t.setReg r v).handler = t.handler := rfl
@[simp] theorem Thread.setReg_rcvs (t : Thread) (r : Nat) (v : BitVec 32) : (t.setReg r v).rcvs = t.rcvs := rfl
@[simp] theorem Thread.setReg_trail (t : Thread) (r : Nat) (v : BitVec 32) : (t.setReg r v).trail = t.trail := rfl
@[simp] theorem Thread.setReg_steps (t : Thread) (r : Nat) (v : BitVec 32) : (t.setReg r v).steps = t.steps := rfl
@[simp] theorem Thread.setReg_ld (t : Thread) (r : Nat) (v : BitVec 32) : (t.setReg r v).ld = t.ld := rfl
@[simp] theorem Thread.setReg_st (t : Thread) (r : Nat) (v : BitVec 32) : (t.setReg r v).st = t.st := rfl
@[simp] theorem Thread.setReg_cp (t : Thread) (r : Nat) (v : BitVec 32) : (t.setReg r v).cp = t.cp := rfl
@[simp] theorem Thread.setReg_tl (t : Thread) (r : Nat) (v : BitVec 32) : (t.setReg r v).tl = t.tl := rfl
@[simp] theorem Thread.setReg_failures (t : Thread) (r : Nat) (v : BitVec 32) : (t.setReg r v).failures = t.failures := rfl
@[simp] theorem Thread.setReg_lastRebal (t : Thread) (r : Nat) (v : BitVec 32) : (t.setReg r v).lastRebal = t.lastRebal := rfl
@[simp] theorem Thread.setReg_half (t : Thread) (r : Nat) (v : BitVec 32) : (t.setReg r v).half = t.half := rfl
@[simp] theorem Thread.setReg_command (t : Thread) (r : Nat) (v : BitVec 32) : (t.setReg r v).command = t.command := rfl
@[simp] theorem Thread.setReg_node (t : Thread) (r : Nat) (v : BitVec 32) : (t.setReg r v).node = t.node := rfl
@[simp] theorem Thread.setReg_resume (t : Thread) (r : Nat) (v : BitVec 32) : (t.setReg r v).resume = t.resume := rfl
@[simp] theorem Thread.setReg_wait (t : Thread) (r : Nat) (v : BitVec 32) : (t.setReg r v).wait = t.wait := rfl
@[simp] theorem Thread.setReg_next (t : Thread) (r : Nat) (v : BitVec 32) : (t.setReg r v).next = t.next := rfl
@[simp] theorem Thread.setReg_since (t : Thread) (r : Nat) (v : BitVec 32) : (t.setReg r v).since = t.since := rfl
@[simp] theorem Thread.setReg_passes (t : Thread) (r : Nat) (v : BitVec 32) : (t.setReg r v).passes = t.passes := rfl

-- Thread.setPair

@[simp] theorem Thread.setPair_life (t : Thread) (r : Nat) (v : BitVec 64) : (t.setPair r v).life = t.life := rfl
@[simp] theorem Thread.setPair_pc (t : Thread) (r : Nat) (v : BitVec 64) : (t.setPair r v).pc = t.pc := rfl
@[simp] theorem Thread.setPair_preds (t : Thread) (r : Nat) (v : BitVec 64) : (t.setPair r v).preds = t.preds := rfl
@[simp] theorem Thread.setPair_lr (t : Thread) (r : Nat) (v : BitVec 64) : (t.setPair r v).lr = t.lr := rfl
@[simp] theorem Thread.setPair_tpc (t : Thread) (r : Nat) (v : BitVec 64) : (t.setPair r v).tpc = t.tpc := rfl
@[simp] theorem Thread.setPair_tfa (t : Thread) (r : Nat) (v : BitVec 64) : (t.setPair r v).tfa = t.tfa := rfl
@[simp] theorem Thread.setPair_tia (t : Thread) (r : Nat) (v : BitVec 64) : (t.setPair r v).tia = t.tia := rfl
@[simp] theorem Thread.setPair_tcause (t : Thread) (r : Nat) (v : BitVec 64) : (t.setPair r v).tcause = t.tcause := rfl
@[simp] theorem Thread.setPair_tinfo (t : Thread) (r : Nat) (v : BitVec 64) : (t.setPair r v).tinfo = t.tinfo := rfl
@[simp] theorem Thread.setPair_spanPass (t : Thread) (r : Nat) (v : BitVec 64) : (t.setPair r v).spanPass = t.spanPass := rfl
@[simp] theorem Thread.setPair_spanLeft (t : Thread) (r : Nat) (v : BitVec 64) : (t.setPair r v).spanLeft = t.spanLeft := rfl
@[simp] theorem Thread.setPair_savedPass (t : Thread) (r : Nat) (v : BitVec 64) : (t.setPair r v).savedPass = t.savedPass := rfl
@[simp] theorem Thread.setPair_savedLeft (t : Thread) (r : Nat) (v : BitVec 64) : (t.setPair r v).savedLeft = t.savedLeft := rfl
@[simp] theorem Thread.setPair_handler (t : Thread) (r : Nat) (v : BitVec 64) : (t.setPair r v).handler = t.handler := rfl
@[simp] theorem Thread.setPair_rcvs (t : Thread) (r : Nat) (v : BitVec 64) : (t.setPair r v).rcvs = t.rcvs := rfl
@[simp] theorem Thread.setPair_trail (t : Thread) (r : Nat) (v : BitVec 64) : (t.setPair r v).trail = t.trail := rfl
@[simp] theorem Thread.setPair_steps (t : Thread) (r : Nat) (v : BitVec 64) : (t.setPair r v).steps = t.steps := rfl
@[simp] theorem Thread.setPair_ld (t : Thread) (r : Nat) (v : BitVec 64) : (t.setPair r v).ld = t.ld := rfl
@[simp] theorem Thread.setPair_st (t : Thread) (r : Nat) (v : BitVec 64) : (t.setPair r v).st = t.st := rfl
@[simp] theorem Thread.setPair_cp (t : Thread) (r : Nat) (v : BitVec 64) : (t.setPair r v).cp = t.cp := rfl
@[simp] theorem Thread.setPair_tl (t : Thread) (r : Nat) (v : BitVec 64) : (t.setPair r v).tl = t.tl := rfl
@[simp] theorem Thread.setPair_failures (t : Thread) (r : Nat) (v : BitVec 64) : (t.setPair r v).failures = t.failures := rfl
@[simp] theorem Thread.setPair_lastRebal (t : Thread) (r : Nat) (v : BitVec 64) : (t.setPair r v).lastRebal = t.lastRebal := rfl
@[simp] theorem Thread.setPair_half (t : Thread) (r : Nat) (v : BitVec 64) : (t.setPair r v).half = t.half := rfl
@[simp] theorem Thread.setPair_command (t : Thread) (r : Nat) (v : BitVec 64) : (t.setPair r v).command = t.command := rfl
@[simp] theorem Thread.setPair_node (t : Thread) (r : Nat) (v : BitVec 64) : (t.setPair r v).node = t.node := rfl
@[simp] theorem Thread.setPair_resume (t : Thread) (r : Nat) (v : BitVec 64) : (t.setPair r v).resume = t.resume := rfl
@[simp] theorem Thread.setPair_wait (t : Thread) (r : Nat) (v : BitVec 64) : (t.setPair r v).wait = t.wait := rfl
@[simp] theorem Thread.setPair_next (t : Thread) (r : Nat) (v : BitVec 64) : (t.setPair r v).next = t.next := rfl
@[simp] theorem Thread.setPair_since (t : Thread) (r : Nat) (v : BitVec 64) : (t.setPair r v).since = t.since := rfl
@[simp] theorem Thread.setPair_passes (t : Thread) (r : Nat) (v : BitVec 64) : (t.setPair r v).passes = t.passes := rfl

-- Thread.done

@[simp] theorem Thread.done_life (t : Thread) (n : BitVec 64) : (t.done n).life = t.life := rfl
@[simp] theorem Thread.done_pc (t : Thread) (n : BitVec 64) : (t.done n).pc = n := rfl
@[simp] theorem Thread.done_regs (t : Thread) (n : BitVec 64) : (t.done n).regs = t.regs := rfl
@[simp] theorem Thread.done_preds (t : Thread) (n : BitVec 64) : (t.done n).preds = t.preds := rfl
@[simp] theorem Thread.done_lr (t : Thread) (n : BitVec 64) : (t.done n).lr = t.lr := rfl
@[simp] theorem Thread.done_tpc (t : Thread) (n : BitVec 64) : (t.done n).tpc = t.tpc := rfl
@[simp] theorem Thread.done_tfa (t : Thread) (n : BitVec 64) : (t.done n).tfa = t.tfa := rfl
@[simp] theorem Thread.done_tia (t : Thread) (n : BitVec 64) : (t.done n).tia = t.tia := rfl
@[simp] theorem Thread.done_tcause (t : Thread) (n : BitVec 64) : (t.done n).tcause = t.tcause := rfl
@[simp] theorem Thread.done_tinfo (t : Thread) (n : BitVec 64) : (t.done n).tinfo = t.tinfo := rfl
@[simp] theorem Thread.done_spanPass (t : Thread) (n : BitVec 64) : (t.done n).spanPass = t.spanPass := rfl
@[simp] theorem Thread.done_spanLeft (t : Thread) (n : BitVec 64) : (t.done n).spanLeft = t.spanLeft - 1 := rfl
@[simp] theorem Thread.done_savedPass (t : Thread) (n : BitVec 64) : (t.done n).savedPass = t.savedPass := rfl
@[simp] theorem Thread.done_savedLeft (t : Thread) (n : BitVec 64) : (t.done n).savedLeft = t.savedLeft := rfl
@[simp] theorem Thread.done_handler (t : Thread) (n : BitVec 64) : (t.done n).handler = t.handler := rfl
@[simp] theorem Thread.done_rcvs (t : Thread) (n : BitVec 64) : (t.done n).rcvs = t.rcvs := rfl
@[simp] theorem Thread.done_trail (t : Thread) (n : BitVec 64) : (t.done n).trail = t.trail := rfl
@[simp] theorem Thread.done_steps (t : Thread) (n : BitVec 64) : (t.done n).steps = t.steps := rfl
@[simp] theorem Thread.done_ld (t : Thread) (n : BitVec 64) : (t.done n).ld = t.ld := rfl
@[simp] theorem Thread.done_st (t : Thread) (n : BitVec 64) : (t.done n).st = t.st := rfl
@[simp] theorem Thread.done_cp (t : Thread) (n : BitVec 64) : (t.done n).cp = t.cp := rfl
@[simp] theorem Thread.done_tl (t : Thread) (n : BitVec 64) : (t.done n).tl = t.tl := rfl
@[simp] theorem Thread.done_failures (t : Thread) (n : BitVec 64) : (t.done n).failures = t.failures := rfl
@[simp] theorem Thread.done_lastRebal (t : Thread) (n : BitVec 64) : (t.done n).lastRebal = t.lastRebal := rfl
@[simp] theorem Thread.done_half (t : Thread) (n : BitVec 64) : (t.done n).half = none := rfl
@[simp] theorem Thread.done_command (t : Thread) (n : BitVec 64) : (t.done n).command = none := rfl
@[simp] theorem Thread.done_node (t : Thread) (n : BitVec 64) : (t.done n).node = t.node := rfl
@[simp] theorem Thread.done_resume (t : Thread) (n : BitVec 64) : (t.done n).resume = none := rfl
@[simp] theorem Thread.done_wait (t : Thread) (n : BitVec 64) : (t.done n).wait = .ready := rfl
@[simp] theorem Thread.done_next (t : Thread) (n : BitVec 64) : (t.done n).next = t.next := rfl
@[simp] theorem Thread.done_since (t : Thread) (n : BitVec 64) : (t.done n).since = t.since := rfl
@[simp] theorem Thread.done_passes (t : Thread) (n : BitVec 64) : (t.done n).passes = t.passes := rfl

-- Thread.jump

@[simp] theorem Thread.jump_life (t : Thread) (n : BitVec 64) : (t.jump n).life = t.life := rfl
@[simp] theorem Thread.jump_pc (t : Thread) (n : BitVec 64) : (t.jump n).pc = n &&& ~~~ (1 : BitVec 64) := rfl
@[simp] theorem Thread.jump_regs (t : Thread) (n : BitVec 64) : (t.jump n).regs = t.regs := rfl
@[simp] theorem Thread.jump_preds (t : Thread) (n : BitVec 64) : (t.jump n).preds = t.preds := rfl
@[simp] theorem Thread.jump_lr (t : Thread) (n : BitVec 64) : (t.jump n).lr = t.lr := rfl
@[simp] theorem Thread.jump_tpc (t : Thread) (n : BitVec 64) : (t.jump n).tpc = t.tpc := rfl
@[simp] theorem Thread.jump_tfa (t : Thread) (n : BitVec 64) : (t.jump n).tfa = t.tfa := rfl
@[simp] theorem Thread.jump_tia (t : Thread) (n : BitVec 64) : (t.jump n).tia = t.tia := rfl
@[simp] theorem Thread.jump_tcause (t : Thread) (n : BitVec 64) : (t.jump n).tcause = t.tcause := rfl
@[simp] theorem Thread.jump_tinfo (t : Thread) (n : BitVec 64) : (t.jump n).tinfo = t.tinfo := rfl
@[simp] theorem Thread.jump_spanPass (t : Thread) (n : BitVec 64) : (t.jump n).spanPass = t.spanPass := rfl
@[simp] theorem Thread.jump_spanLeft (t : Thread) (n : BitVec 64) : (t.jump n).spanLeft = 0 := rfl
@[simp] theorem Thread.jump_savedPass (t : Thread) (n : BitVec 64) : (t.jump n).savedPass = t.savedPass := rfl
@[simp] theorem Thread.jump_savedLeft (t : Thread) (n : BitVec 64) : (t.jump n).savedLeft = t.savedLeft := rfl
@[simp] theorem Thread.jump_handler (t : Thread) (n : BitVec 64) : (t.jump n).handler = t.handler := rfl
@[simp] theorem Thread.jump_rcvs (t : Thread) (n : BitVec 64) : (t.jump n).rcvs = t.rcvs := rfl
@[simp] theorem Thread.jump_trail (t : Thread) (n : BitVec 64) : (t.jump n).trail = t.trail := rfl
@[simp] theorem Thread.jump_steps (t : Thread) (n : BitVec 64) : (t.jump n).steps = t.steps := rfl
@[simp] theorem Thread.jump_ld (t : Thread) (n : BitVec 64) : (t.jump n).ld = t.ld := rfl
@[simp] theorem Thread.jump_st (t : Thread) (n : BitVec 64) : (t.jump n).st = t.st := rfl
@[simp] theorem Thread.jump_cp (t : Thread) (n : BitVec 64) : (t.jump n).cp = t.cp := rfl
@[simp] theorem Thread.jump_tl (t : Thread) (n : BitVec 64) : (t.jump n).tl = t.tl := rfl
@[simp] theorem Thread.jump_failures (t : Thread) (n : BitVec 64) : (t.jump n).failures = t.failures := rfl
@[simp] theorem Thread.jump_lastRebal (t : Thread) (n : BitVec 64) : (t.jump n).lastRebal = t.lastRebal := rfl
@[simp] theorem Thread.jump_half (t : Thread) (n : BitVec 64) : (t.jump n).half = none := rfl
@[simp] theorem Thread.jump_command (t : Thread) (n : BitVec 64) : (t.jump n).command = none := rfl
@[simp] theorem Thread.jump_node (t : Thread) (n : BitVec 64) : (t.jump n).node = t.node := rfl
@[simp] theorem Thread.jump_resume (t : Thread) (n : BitVec 64) : (t.jump n).resume = none := rfl
@[simp] theorem Thread.jump_wait (t : Thread) (n : BitVec 64) : (t.jump n).wait = .ready := rfl
@[simp] theorem Thread.jump_next (t : Thread) (n : BitVec 64) : (t.jump n).next = t.next := rfl
@[simp] theorem Thread.jump_since (t : Thread) (n : BitVec 64) : (t.jump n).since = t.since := rfl
@[simp] theorem Thread.jump_passes (t : Thread) (n : BitVec 64) : (t.jump n).passes = t.passes := rfl

-- Thread.enter

@[simp] theorem Thread.enter_life (t : Thread) (h c i f a p : Nat) : (t.enter h c i f a p).life = t.life := rfl
@[simp] theorem Thread.enter_pc (t : Thread) (h c i f a p : Nat) : (t.enter h c i f a p).pc = BitVec.ofNat 64 h := rfl
@[simp] theorem Thread.enter_regs (t : Thread) (h c i f a p : Nat) : (t.enter h c i f a p).regs = t.regs := rfl
@[simp] theorem Thread.enter_preds (t : Thread) (h c i f a p : Nat) : (t.enter h c i f a p).preds = t.preds := rfl
@[simp] theorem Thread.enter_lr (t : Thread) (h c i f a p : Nat) : (t.enter h c i f a p).lr = t.lr := rfl
@[simp] theorem Thread.enter_tpc (t : Thread) (h c i f a p : Nat) : (t.enter h c i f a p).tpc = BitVec.ofNat 64 p := rfl
@[simp] theorem Thread.enter_tfa (t : Thread) (h c i f a p : Nat) : (t.enter h c i f a p).tfa = BitVec.ofNat 64 f := rfl
@[simp] theorem Thread.enter_tia (t : Thread) (h c i f a p : Nat) : (t.enter h c i f a p).tia = BitVec.ofNat 64 a := rfl
@[simp] theorem Thread.enter_tcause (t : Thread) (h c i f a p : Nat) : (t.enter h c i f a p).tcause = BitVec.ofNat 32 c := rfl
@[simp] theorem Thread.enter_tinfo (t : Thread) (h c i f a p : Nat) : (t.enter h c i f a p).tinfo = BitVec.ofNat 32 i := rfl
@[simp] theorem Thread.enter_spanPass (t : Thread) (h c i f a p : Nat) : (t.enter h c i f a p).spanPass = false := rfl
@[simp] theorem Thread.enter_spanLeft (t : Thread) (h c i f a p : Nat) : (t.enter h c i f a p).spanLeft = 0 := rfl
@[simp] theorem Thread.enter_savedPass (t : Thread) (h c i f a p : Nat) : (t.enter h c i f a p).savedPass = t.spanPass := rfl
@[simp] theorem Thread.enter_savedLeft (t : Thread) (h c i f a p : Nat) : (t.enter h c i f a p).savedLeft = t.spanLeft := rfl
@[simp] theorem Thread.enter_handler (t : Thread) (h c i f a p : Nat) : (t.enter h c i f a p).handler = true := rfl
@[simp] theorem Thread.enter_rcvs (t : Thread) (h c i f a p : Nat) : (t.enter h c i f a p).rcvs = t.rcvs := rfl
@[simp] theorem Thread.enter_trail (t : Thread) (h c i f a p : Nat) : (t.enter h c i f a p).trail = t.trail := rfl
@[simp] theorem Thread.enter_steps (t : Thread) (h c i f a p : Nat) : (t.enter h c i f a p).steps = t.steps := rfl
@[simp] theorem Thread.enter_ld (t : Thread) (h c i f a p : Nat) : (t.enter h c i f a p).ld = t.ld := rfl
@[simp] theorem Thread.enter_st (t : Thread) (h c i f a p : Nat) : (t.enter h c i f a p).st = t.st := rfl
@[simp] theorem Thread.enter_cp (t : Thread) (h c i f a p : Nat) : (t.enter h c i f a p).cp = t.cp := rfl
@[simp] theorem Thread.enter_tl (t : Thread) (h c i f a p : Nat) : (t.enter h c i f a p).tl = t.tl := rfl
@[simp] theorem Thread.enter_failures (t : Thread) (h c i f a p : Nat) : (t.enter h c i f a p).failures = t.failures := rfl
@[simp] theorem Thread.enter_lastRebal (t : Thread) (h c i f a p : Nat) : (t.enter h c i f a p).lastRebal = t.lastRebal := rfl
@[simp] theorem Thread.enter_half (t : Thread) (h c i f a p : Nat) : (t.enter h c i f a p).half = none := rfl
@[simp] theorem Thread.enter_command (t : Thread) (h c i f a p : Nat) : (t.enter h c i f a p).command = none := rfl
@[simp] theorem Thread.enter_node (t : Thread) (h c i f a p : Nat) : (t.enter h c i f a p).node = t.node := rfl
@[simp] theorem Thread.enter_resume (t : Thread) (h c i f a p : Nat) : (t.enter h c i f a p).resume = none := rfl
@[simp] theorem Thread.enter_wait (t : Thread) (h c i f a p : Nat) : (t.enter h c i f a p).wait = .ready := rfl
@[simp] theorem Thread.enter_next (t : Thread) (h c i f a p : Nat) : (t.enter h c i f a p).next = t.next := rfl
@[simp] theorem Thread.enter_since (t : Thread) (h c i f a p : Nat) : (t.enter h c i f a p).since = t.since := rfl
@[simp] theorem Thread.enter_passes (t : Thread) (h c i f a p : Nat) : (t.enter h c i f a p).passes = t.passes := rfl

-- Thread.return

@[simp] theorem Thread.return_life (t : Thread) : (t.return).life = t.life := rfl
@[simp] theorem Thread.return_pc (t : Thread) : (t.return).pc = t.tpc &&& ~~~ (1 : BitVec 64) := rfl
@[simp] theorem Thread.return_regs (t : Thread) : (t.return).regs = t.regs := rfl
@[simp] theorem Thread.return_preds (t : Thread) : (t.return).preds = t.preds := rfl
@[simp] theorem Thread.return_lr (t : Thread) : (t.return).lr = t.lr := rfl
@[simp] theorem Thread.return_tpc (t : Thread) : (t.return).tpc = t.tpc := rfl
@[simp] theorem Thread.return_tfa (t : Thread) : (t.return).tfa = t.tfa := rfl
@[simp] theorem Thread.return_tia (t : Thread) : (t.return).tia = t.tia := rfl
@[simp] theorem Thread.return_tcause (t : Thread) : (t.return).tcause = t.tcause := rfl
@[simp] theorem Thread.return_tinfo (t : Thread) : (t.return).tinfo = t.tinfo := rfl
@[simp] theorem Thread.return_spanPass (t : Thread) : (t.return).spanPass = t.savedPass := rfl
@[simp] theorem Thread.return_spanLeft (t : Thread) : (t.return).spanLeft = t.savedLeft := rfl
@[simp] theorem Thread.return_savedPass (t : Thread) : (t.return).savedPass = t.savedPass := rfl
@[simp] theorem Thread.return_savedLeft (t : Thread) : (t.return).savedLeft = t.savedLeft := rfl
@[simp] theorem Thread.return_handler (t : Thread) : (t.return).handler = false := rfl
@[simp] theorem Thread.return_rcvs (t : Thread) : (t.return).rcvs = t.rcvs := rfl
@[simp] theorem Thread.return_trail (t : Thread) : (t.return).trail = t.trail := rfl
@[simp] theorem Thread.return_steps (t : Thread) : (t.return).steps = t.steps := rfl
@[simp] theorem Thread.return_ld (t : Thread) : (t.return).ld = t.ld := rfl
@[simp] theorem Thread.return_st (t : Thread) : (t.return).st = t.st := rfl
@[simp] theorem Thread.return_cp (t : Thread) : (t.return).cp = t.cp := rfl
@[simp] theorem Thread.return_tl (t : Thread) : (t.return).tl = t.tl := rfl
@[simp] theorem Thread.return_failures (t : Thread) : (t.return).failures = t.failures := rfl
@[simp] theorem Thread.return_lastRebal (t : Thread) : (t.return).lastRebal = t.lastRebal := rfl
@[simp] theorem Thread.return_half (t : Thread) : (t.return).half = t.half := rfl
@[simp] theorem Thread.return_command (t : Thread) : (t.return).command = t.command := rfl
@[simp] theorem Thread.return_node (t : Thread) : (t.return).node = t.node := rfl
@[simp] theorem Thread.return_resume (t : Thread) : (t.return).resume = t.resume := rfl
@[simp] theorem Thread.return_wait (t : Thread) : (t.return).wait = .ready := rfl
@[simp] theorem Thread.return_next (t : Thread) : (t.return).next = t.next := rfl
@[simp] theorem Thread.return_since (t : Thread) : (t.return).since = t.since := rfl
@[simp] theorem Thread.return_passes (t : Thread) : (t.return).passes = t.passes := rfl

-- Thread.setPred

@[simp] theorem Thread.setPred_life (t : Thread) (p : Nat) (b : Bool) : (t.setPred p b).life = t.life := by unfold Thread.setPred; split <;> rfl
@[simp] theorem Thread.setPred_pc (t : Thread) (p : Nat) (b : Bool) : (t.setPred p b).pc = t.pc := by unfold Thread.setPred; split <;> rfl
@[simp] theorem Thread.setPred_regs (t : Thread) (p : Nat) (b : Bool) : (t.setPred p b).regs = t.regs := by unfold Thread.setPred; split <;> rfl
@[simp] theorem Thread.setPred_lr (t : Thread) (p : Nat) (b : Bool) : (t.setPred p b).lr = t.lr := by unfold Thread.setPred; split <;> rfl
@[simp] theorem Thread.setPred_tpc (t : Thread) (p : Nat) (b : Bool) : (t.setPred p b).tpc = t.tpc := by unfold Thread.setPred; split <;> rfl
@[simp] theorem Thread.setPred_tfa (t : Thread) (p : Nat) (b : Bool) : (t.setPred p b).tfa = t.tfa := by unfold Thread.setPred; split <;> rfl
@[simp] theorem Thread.setPred_tia (t : Thread) (p : Nat) (b : Bool) : (t.setPred p b).tia = t.tia := by unfold Thread.setPred; split <;> rfl
@[simp] theorem Thread.setPred_tcause (t : Thread) (p : Nat) (b : Bool) : (t.setPred p b).tcause = t.tcause := by unfold Thread.setPred; split <;> rfl
@[simp] theorem Thread.setPred_tinfo (t : Thread) (p : Nat) (b : Bool) : (t.setPred p b).tinfo = t.tinfo := by unfold Thread.setPred; split <;> rfl
@[simp] theorem Thread.setPred_spanPass (t : Thread) (p : Nat) (b : Bool) : (t.setPred p b).spanPass = t.spanPass := by unfold Thread.setPred; split <;> rfl
@[simp] theorem Thread.setPred_spanLeft (t : Thread) (p : Nat) (b : Bool) : (t.setPred p b).spanLeft = t.spanLeft := by unfold Thread.setPred; split <;> rfl
@[simp] theorem Thread.setPred_savedPass (t : Thread) (p : Nat) (b : Bool) : (t.setPred p b).savedPass = t.savedPass := by unfold Thread.setPred; split <;> rfl
@[simp] theorem Thread.setPred_savedLeft (t : Thread) (p : Nat) (b : Bool) : (t.setPred p b).savedLeft = t.savedLeft := by unfold Thread.setPred; split <;> rfl
@[simp] theorem Thread.setPred_handler (t : Thread) (p : Nat) (b : Bool) : (t.setPred p b).handler = t.handler := by unfold Thread.setPred; split <;> rfl
@[simp] theorem Thread.setPred_rcvs (t : Thread) (p : Nat) (b : Bool) : (t.setPred p b).rcvs = t.rcvs := by unfold Thread.setPred; split <;> rfl
@[simp] theorem Thread.setPred_trail (t : Thread) (p : Nat) (b : Bool) : (t.setPred p b).trail = t.trail := by unfold Thread.setPred; split <;> rfl
@[simp] theorem Thread.setPred_steps (t : Thread) (p : Nat) (b : Bool) : (t.setPred p b).steps = t.steps := by unfold Thread.setPred; split <;> rfl
@[simp] theorem Thread.setPred_ld (t : Thread) (p : Nat) (b : Bool) : (t.setPred p b).ld = t.ld := by unfold Thread.setPred; split <;> rfl
@[simp] theorem Thread.setPred_st (t : Thread) (p : Nat) (b : Bool) : (t.setPred p b).st = t.st := by unfold Thread.setPred; split <;> rfl
@[simp] theorem Thread.setPred_cp (t : Thread) (p : Nat) (b : Bool) : (t.setPred p b).cp = t.cp := by unfold Thread.setPred; split <;> rfl
@[simp] theorem Thread.setPred_tl (t : Thread) (p : Nat) (b : Bool) : (t.setPred p b).tl = t.tl := by unfold Thread.setPred; split <;> rfl
@[simp] theorem Thread.setPred_failures (t : Thread) (p : Nat) (b : Bool) : (t.setPred p b).failures = t.failures := by unfold Thread.setPred; split <;> rfl
@[simp] theorem Thread.setPred_lastRebal (t : Thread) (p : Nat) (b : Bool) : (t.setPred p b).lastRebal = t.lastRebal := by unfold Thread.setPred; split <;> rfl
@[simp] theorem Thread.setPred_half (t : Thread) (p : Nat) (b : Bool) : (t.setPred p b).half = t.half := by unfold Thread.setPred; split <;> rfl
@[simp] theorem Thread.setPred_command (t : Thread) (p : Nat) (b : Bool) : (t.setPred p b).command = t.command := by unfold Thread.setPred; split <;> rfl
@[simp] theorem Thread.setPred_node (t : Thread) (p : Nat) (b : Bool) : (t.setPred p b).node = t.node := by unfold Thread.setPred; split <;> rfl
@[simp] theorem Thread.setPred_resume (t : Thread) (p : Nat) (b : Bool) : (t.setPred p b).resume = t.resume := by unfold Thread.setPred; split <;> rfl
@[simp] theorem Thread.setPred_wait (t : Thread) (p : Nat) (b : Bool) : (t.setPred p b).wait = t.wait := by unfold Thread.setPred; split <;> rfl
@[simp] theorem Thread.setPred_next (t : Thread) (p : Nat) (b : Bool) : (t.setPred p b).next = t.next := by unfold Thread.setPred; split <;> rfl
@[simp] theorem Thread.setPred_since (t : Thread) (p : Nat) (b : Bool) : (t.setPred p b).since = t.since := by unfold Thread.setPred; split <;> rfl
@[simp] theorem Thread.setPred_passes (t : Thread) (p : Nat) (b : Bool) : (t.setPred p b).passes = t.passes := by unfold Thread.setPred; split <;> rfl

-- Reading a team or a thread after an update

@[simp] theorem State.team_setTeam (s : State) (k j : Nat) (x : Team) : (s.setTeam k x).team j = if j = k then x else s.team j :=
  Store.get_set Team.absent s.teams k j x
@[simp] theorem State.team_modTeam (s : State) (k j : Nat) (f : Team → Team) :
    (s.modTeam k f).team j = if j = k then f (s.team k) else s.team j := State.team_setTeam s k j _
@[simp] theorem Team.thread_setThread (t : Team) (i j : Nat) (x : Thread) :
    (t.setThread i x).thread j = if j = i then x else t.thread j := Store.get_set Thread.unused t.threads i j x
theorem State.team_modThread (s : State) (k i j : Nat) (f : Thread → Thread) :
    (s.modThread k i f).team j = if j = k then (s.team k).setThread i (f (s.thread k i)) else s.team j := State.team_setTeam s k j _
theorem State.thread_modThread (s : State) (k i l j : Nat) (f : Thread → Thread) :
    (s.modThread k i f).thread l j = if l = k ∧ j = i then f (s.thread k i) else s.thread l j := by
  unfold State.thread
  rw [State.team_modThread]
  by_cases hl : l = k
  · subst hl; simp [State.thread]
  · simp [hl]
@[simp] theorem State.vf_setVf (s : State) (k j : Nat) (x : Vf) : (s.setVf k x).vf j = if j = k then x else s.vf j :=
  Store.get_set Vf.unset s.vfs k j x
@[simp] theorem State.quad_setQuad (s : State) (k j : Nat) (x : Quad) : (s.setQuad k x).quad j = if j = k then x else s.quad j :=
  Store.get_set Quad.idle s.quads k j x
@[simp] theorem State.core_setCore (s : State) (k j : Nat) (x : Core) : (s.setCore k x).core j = if j = k then x else s.core j := by
  simp only [State.core, State.setCore, Store.get_set]
@[simp] theorem State.chan_setChan (s : State) (k j : Nat) (x : Chan) : (s.setChan k x).chan j = if j = k then x else s.chan j := by
  simp only [State.chan, State.setChan, Store.get_set]

/-- A register read after one is written, by number below 128. -/
theorem Thread.reg_setReg (t : Thread) (r q : Nat) (v : BitVec 32) :
    (t.setReg r v).reg q = if q % 128 = r % 128 then v else t.reg q := by
  unfold Thread.reg Thread.setReg
  simp only [Vector.getElem_set]
  by_cases h : r % 128 = q % 128
  · simp [h]
  · simp [h, Ne.symm h]
@[simp] theorem Thread.reg_setReg_same (t : Thread) (r : Nat) (v : BitVec 32) : (t.setReg r v).reg r = v := by
  simp [Thread.reg_setReg]
@[simp] theorem Thread.reg_done (t : Thread) (n : BitVec 64) (q : Nat) : (t.done n).reg q = t.reg q := rfl
@[simp] theorem Thread.pred_setReg (t : Thread) (r p : Nat) (v : BitVec 32) : (t.setReg r v).pred p = t.pred p := rfl
/-- p0 reads 1 (R33). -/
@[simp] theorem Thread.pred_zero (t : Thread) : t.pred 0 = true := rfl
/-- A write to p0 is ignored (R33). -/
@[simp] theorem Thread.setPred_zero (t : Thread) (b : Bool) : t.setPred 0 b = t := rfl

end Sys2Proof.Machine
end

