-- ==== Sys2Proof/Laws/Lanes.lean ====
section
/-! SUPPORT. What an issue group's instruction can do when each of its threads changes only itself (R160): the one lemma that
stands for every lane instruction. -/

namespace Sys2Proof.Machine

theorem Agree.refl (s : State) : Agree s s := ⟨rfl, rfl, fun _ _ => rfl⟩
theorem Agree.cur {s t : State} (h : Agree s t) : t.cur = s.cur := by rw [h.state]
theorem Agree.halt {s t : State} (h : Agree s t) : t.halt = s.halt := by rw [h.state]
theorem Agree.tids {s t : State} (h : Agree s t) : t.tids = s.tids := by simp [State.tids, h.cur]
theorem Agree.phase {s t : State} (h : Agree s t) : t.here.phase = s.here.phase := by rw [h.team]
theorem Agree.mode {s t : State} (h : Agree s t) : t.here.mode = s.here.mode := by rw [h.team]
theorem Agree.countOf {s t : State} (h : Agree s t) (i : Nat) : t.here.countOf i = s.here.countOf i := by rw [h.team]; rfl

theorem lanesOf_nodup (m : BitVec 32) : (lanesOf m).Nodup := List.Pairwise.filter _ List.nodup_range
theorem State.tids_nodup (s : State) : s.tids.Nodup := by
  unfold State.tids
  exact List.Pairwise.map _ (fun a b h => by intro h'; omega) (lanesOf_nodup s.cur.mask)

/-- A thread of the team changes: the rest agrees. -/
theorem Agree.modThread {s t : State} (h : Agree s t) (i : Nat) (f : Thread → Thread) : Agree s (t.modThread s.cur.team i f) where
  state := by
    have := h.state
    cases s; cases t; simp_all [State.modThread, State.setThread, State.modTeam, State.setTeam]
  team := by
    have ht := h.team
    have hc := h.cur
    simp only [State.here, State.modThread_cur, hc, State.team_modThread, if_true] at ht ⊢
    rw [ht]; rfl
  others k hk := by rw [State.team_modThread, if_neg hk, h.others k hk]

/-- One thread's turn: what its guards, its registers and its body make of it. -/
theorem guarded_reads {s s' : State} (r : Ready s) (a : Agree s s') (regs : List Nat) (body : Nat → State → State) (tid : Nat)
    (g : Thread → Thread) (hs : s'.thread s.cur.team tid = s.thread s.cur.team tid)
    (hreg : passes s.cur (s.thread s.cur.team tid) = true → ∀ q ∈ regs, q < s.here.countOf tid)
    (hb : passes s.cur (s.thread s.cur.team tid) = true → Agree s (body tid s') ∧
      ∀ x, (body tid s').thread s.cur.team x = if x = tid then g (s.thread s.cur.team tid) else s'.thread s.cur.team x) :
    Agree s (guarded regs body tid s') ∧ ∀ x, (guarded regs body tid s').thread s.cur.team x =
      if x = tid then actThread s.cur g (s.thread s.cur.team tid) else s'.thread s.cur.team x := by
  have hcur := a.cur
  have hth : s'.here.thread tid = s.thread s.cur.team tid := by rw [← hs]; simp [State.here, State.thread, hcur]
  have hph : s'.here.phase ≠ .ended := by rw [a.phase]; exact r.team
  unfold guarded
  simp only [hth, hph, if_false, hcur, r.guard, Bool.false_and, Bool.false_eq_true]
  by_cases hp : passes s.cur (s.thread s.cur.team tid) = true
  · have hm : (regs.any fun q => decide (s'.here.countOf tid ≤ q)) = false := by
      rw [List.any_eq_false]
      intro q hq
      have := hreg hp q hq
      rw [a.countOf]; simp; omega
    simp only [hp, hm, Bool.not_true, Bool.false_eq_true, if_false, actThread, if_true]
    exact hb hp
  · simp only [Bool.not_eq_true] at hp
    simp only [hp, Bool.not_false, if_true, actThread, Bool.false_eq_true, if_false]
    refine ⟨a.modThread tid _, fun x => ?_⟩
    rw [State.thread_modThread, hs]
    simp

/-- The group's threads, ascending, where each body changes its own thread only: the whole effect. -/
theorem eachLane_reads {s : State} (r : Ready s) (regs : List Nat) (body : Nat → State → State) (g : Nat → Thread → Thread)
    (hreg : Has s regs)
    (hb : ∀ s' tid, Agree s s' → tid ∈ s.tids → s'.thread s.cur.team tid = s.thread s.cur.team tid →
      passes s.cur (s.thread s.cur.team tid) = true → Agree s (body tid s') ∧
        ∀ x, (body tid s').thread s.cur.team x = if x = tid then g tid (s.thread s.cur.team tid) else s'.thread s.cur.team x) :
    Moves s (eachLane regs body s) fun tid => actThread s.cur (g tid) := by
  have go : ∀ (l : List Nat) (s' : State), l.Nodup → (∀ x ∈ l, x ∈ s.tids) → Agree s s' →
      (∀ x ∈ l, s'.thread s.cur.team x = s.thread s.cur.team x) →
      Agree s (l.foldl (fun s tid => guarded regs body tid s) s') ∧
      (∀ x, (l.foldl (fun s tid => guarded regs body tid s) s').thread s.cur.team x =
        if x ∈ l then actThread s.cur (g x) (s.thread s.cur.team x) else s'.thread s.cur.team x) := by
    intro l
    induction l with
    | nil => intro s' _ _ a _; exact ⟨a, fun x => by simp⟩
    | cons y l ih =>
      intro s' nd hin a hs
      rw [List.nodup_cons] at nd
      have hy := hs y (by simp)
      obtain ⟨a', e⟩ := guarded_reads r a regs body y (g y) hy (hreg y (hin y (by simp))) (hb s' y a (hin y (by simp)) hy)
      have hs' : ∀ x ∈ l, (guarded regs body y s').thread s.cur.team x = s.thread s.cur.team x := by
        intro x hx
        have hne : x ≠ y := fun h => nd.1 (h ▸ hx)
        rw [e x, if_neg hne]
        exact hs x (List.mem_cons_of_mem _ hx)
      obtain ⟨h1, h2⟩ := ih _ nd.2 (fun x hx => hin x (List.mem_cons_of_mem _ hx)) a' hs'
      refine ⟨h1, fun x => ?_⟩
      simp only [List.foldl_cons]
      rw [h2 x]
      by_cases hx : x ∈ l
      · simp [hx]
      · by_cases hxy : x = y
        · subst hxy; simp [hx, e]
        · simp [hx, hxy, e]
  obtain ⟨h1, h2⟩ := go s.tids s s.tids_nodup (fun _ h => h) (Agree.refl s) (fun _ _ => rfl)
  exact ⟨h1, fun tid h => by rw [eachLane, h2, if_pos h], fun tid h => by rw [eachLane, h2, if_neg h]⟩

/-- The same where each body is one change of its thread. -/
theorem eachLane_acts {s : State} (r : Ready s) (regs : List Nat) (body : Nat → State → State) (g : Nat → Thread → Thread)
    (hreg : Has s regs)
    (hb : ∀ s' tid, Agree s s' → tid ∈ s.tids → s'.thread s.cur.team tid = s.thread s.cur.team tid →
      passes s.cur (s.thread s.cur.team tid) = true → body tid s' = s'.modThread s.cur.team tid (g tid)) :
    Moves s (eachLane regs body s) fun tid => actThread s.cur (g tid) := by
  refine eachLane_reads r regs body g hreg fun s' tid a ht hs hp => ?_
  rw [hb s' tid a ht hs hp]
  refine ⟨a.modThread tid _, fun x => ?_⟩
  rw [State.thread_modThread, hs]
  simp

/-- The same where each body lets its thread go on to the next instruction. -/
theorem eachLane_moves {s : State} (r : Ready s) (regs : List Nat) (body : Nat → State → State) (g : Nat → Thread → Thread)
    (hreg : Has s regs)
    (hb : ∀ s' tid, Agree s s' → tid ∈ s.tids → s'.thread s.cur.team tid = s.thread s.cur.team tid →
      passes s.cur (s.thread s.cur.team tid) = true → body tid s' = s'.modThread s.cur.team tid fun t => (g tid t).done s.cur.next) :
    Moves s (eachLane regs body s) fun tid => stepThread s.cur (g tid) := by
  have h := eachLane_acts r regs body (fun tid t => (g tid t).done s.cur.next) hreg hb
  refine ⟨h.agree, fun tid ht => ?_, h.rest⟩
  rw [h.group tid ht]
  by_cases hp : passes s.cur (s.thread s.cur.team tid) = true <;> simp [actThread, stepThread, hp]

theorem finish_next {s : State} (h : s.halt = none) : finish s = .next s := by simp [finish, h]

/-- A change of the group's own threads leaves no fault pending. -/
theorem Moves.finish {s t : State} {g : Nat → Thread → Thread} (m : Moves s t g) (r : Ready s) : finish t = .next t := by
  apply finish_next
  rw [m.agree.state]
  exact r.halt

/-- A lane instruction completes, and this is all it does (R160). -/
theorem laneOp_moves {s : State} (r : Ready s) (regs : List Nat) (f : BitVec 32 → Thread → Thread) (hreg : Has s regs) :
    ∃ t, laneOp regs f s = .next t ∧ Moves s t fun _ => stepThread s.cur (f s.here.mode) := by
  have m : Moves s _ fun _ => stepThread s.cur (f s.here.mode) :=
    eachLane_moves r regs (fun tid s' => completeWith s' tid (f s'.here.mode)) (fun _ => f s.here.mode) hreg
      fun s' tid a _ _ _ => by simp only [completeWith, a.cur, a.mode]
  exact ⟨_, m.finish r, m⟩

end Sys2Proof.Machine
end

