-- ==== Sys2Proof/Laws/Memory.lean ====
section
/-! SUPPORT. Every operation that writes memory keeps its canonical form, and reset memory has it; what one write does to each byte. -/

namespace Sys2Proof.Machine

/-- The memory is in its canonical form. -/
def State.canonical (s : State) : Prop := Memory.wf s.mem = true

theorem canonical_reset : State.reset.canonical := rfl

/-- Anything that leaves memory as it is keeps its form. -/
theorem State.canonical_of_mem {s t : State} (h : t.mem = s.mem) (w : s.canonical) : t.canonical := by
  unfold State.canonical at *; rw [h]; exact w

@[simp] theorem touch_mem (s : State) (pa n : Nat) : (touch s pa n).mem = s.mem := by unfold touch; split <;> rfl

/-- The one write to memory that there is. -/
theorem canonical_wr {s : State} (pa : Nat) (bs : List Byte) (w : s.canonical) : (s.wr pa bs).canonical :=
  Store.wf_setN memDefault bs s.mem pa w
theorem canonical_touch {s : State} (pa n : Nat) (w : s.canonical) : (touch s pa n).canonical := State.canonical_of_mem (touch_mem s pa n) w
theorem canonical_put {s : State} (pa : Nat) (bs : List Byte) (w : s.canonical) : (s.put pa bs).canonical := canonical_wr pa bs (canonical_touch pa _ w)
theorem canonical_offer {s : State} (pa : Nat) (bs : List Byte) (w : s.canonical) : (s.offer pa bs).canonical := by
  unfold State.offer; split
  · exact w
  · exact canonical_put pa bs w
theorem canonical_devWrite {s : State} (team pa : Nat) (link : Bool) (bs : List Byte) (w : s.canonical) : (devWrite s team pa link bs).canonical := by
  unfold devWrite; split
  · exact w
  · exact canonical_put pa bs w

theorem canonical_foldl {α : Type} (f : State → α → State) (hf : ∀ s a, s.canonical → (f s a).canonical) (l : List α) :
    ∀ s, s.canonical → (l.foldl f s).canonical := by
  induction l with
  | nil => exact fun s w => w
  | cons a l ih => exact fun s w => ih _ (hf s a w)

theorem canonical_outPut {s : State} (o : OutWrite) (w : s.canonical) : (outPut s o).canonical := by
  unfold outPut; split
  · exact w
  · exact canonical_put o.pa o.bytes w
theorem canonical_flushOut {s : State} (p : OutWrite → Bool) (w : s.canonical) : (flushOut s p).canonical :=
  canonical_foldl _ (fun _ o w => canonical_outPut o w) _ _ w
theorem canonical_settleOut {s : State} (link : Bool) (pa n : Nat) (w : s.canonical) : (settleOut s link pa n).canonical := canonical_flushOut _ w
theorem canonical_sysPut {s : State} (link : Bool) (pa : Nat) (bs : List Byte) (w : s.canonical) : (s.sysPut link pa bs).canonical :=
  canonical_offer pa bs (canonical_settleOut link pa bs.length w)
theorem canonical_orPte {s : State} (addr m : Nat) (w : s.canonical) : (orPte s addr m).canonical := by
  unfold orPte; split
  · exact w
  · exact canonical_wr addr _ w

/-- Rings at physical addresses (R130), event records (R329), race records (R267). -/
theorem canonical_pushRing {s : State} (link : Bool) (hdr : Nat) (bs : List Byte) (w : s.canonical) : (pushRing s link hdr bs).2.canonical := by
  have h := canonical_touch hdr 64 (canonical_settleOut link hdr 64 w)
  unfold pushRing
  revert h
  generalize touch (settleOut s link hdr 64) hdr 64 = u
  intro h
  dsimp only
  by_cases c : (!(ringAt u hdr).formed || (ringAt u hdr).full) = true
  · rw [if_pos c]; exact h
  · rw [if_neg c]; exact canonical_sysPut _ _ _ (canonical_sysPut _ _ _ h)
theorem canonical_popRing {s : State} (link : Bool) (hdr : Nat) (w : s.canonical) : (popRing s link hdr).2.canonical := by
  have h := canonical_touch hdr 64 (canonical_settleOut link hdr 64 w)
  unfold popRing
  revert h
  generalize touch (settleOut s link hdr 64) hdr 64 = u
  intro h
  dsimp only
  by_cases c : (!(ringAt u hdr).formed || (ringAt u hdr).empty) = true
  · rw [if_pos c]; exact h
  · have h8 := canonical_touch ((ringAt u hdr).entry (ringAt u hdr).rp) 8 (canonical_settleOut link ((ringAt u hdr).entry (ringAt u hdr).rp) 8 h)
    rw [if_neg c]; split
    · exact h8
    · exact canonical_sysPut _ _ _ h8
theorem coreRead_mem (s : State) (pa n : Nat) : (coreRead s pa n).mem = s.mem := by unfold coreRead; split <;> rfl
theorem canonical_coreRead {s : State} (pa n : Nat) (w : s.canonical) : (coreRead s pa n).canonical := State.canonical_of_mem (coreRead_mem s pa n) w
theorem canonical_ownRing {s : State} (vmid off : Nat) (w : s.canonical) : (ownRing s vmid off).2.canonical := by
  unfold ownRing; dsimp only
  exact canonical_coreRead (vmidRing s vmid off) 64 (canonical_coreRead (s.vmtbase.toNat + 64 * vmid) 64 w)
theorem canonical_giveFrame {s : State} (vmid pa : Nat) (w : s.canonical) : (giveFrame s vmid pa).canonical := canonical_pushRing _ _ _ (canonical_ownRing _ _ w)
theorem canonical_giveTier {s : State} (vmid pa : Nat) (w : s.canonical) : (giveTier s vmid pa).canonical := canonical_pushRing _ _ _ (canonical_ownRing _ _ w)
theorem canonical_takeFrame {s : State} (vmid : Nat) (w : s.canonical) : (takeFrame s vmid).2.canonical := canonical_popRing _ _ (canonical_ownRing _ _ w)
theorem canonical_popTier {s : State} (vmid : Nat) (w : s.canonical) : (popTier s vmid).2.canonical := canonical_popRing _ _ (canonical_ownRing _ _ w)
theorem canonical_tryEvent {s : State} (fn : Nat) (bs : List Byte) (w : s.canonical) : (tryEvent s fn bs).2.canonical := by
  have h := canonical_pushRing (linkOf s fn) (ownRing s (vmidOf s fn) 40).1 bs (canonical_ownRing (vmidOf s fn) 40 w)
  unfold tryEvent
  generalize pushRing (ownRing s (vmidOf s fn) 40).2 (linkOf s fn) (ownRing s (vmidOf s fn) 40).1 bs = r at h ⊢
  obtain ⟨_ | _, t⟩ := r <;> exact h
theorem canonical_postEvent {s : State} (fn record : Nat) (w : s.canonical) : (postEvent s fn record).canonical := by
  have h := canonical_tryEvent fn (leBytes 64 record) w
  unfold postEvent
  dsimp only
  split
  · split <;> exact State.canonical_of_mem rfl w
  · split <;> (rename_i e; rw [e] at h; exact State.canonical_of_mem rfl h)
theorem canonical_post {s : State} (fn type code a0 a1 a2 : Nat) (w : s.canonical) : (post s fn type code a0 a1 a2).canonical := canonical_postEvent fn _ w
theorem canonical_raceRecord {s : State} (vmid asid addr agrid ateam kind : Nat) (e : Shadow) (w : s.canonical) :
    (raceRecord s vmid asid addr agrid ateam kind e).canonical := by
  unfold raceRecord
  dsimp only
  generalize leBytes 64 _ = bs
  have h := canonical_pushRing (vmidLink s vmid) (asRec s vmid asid 8) bs w
  split <;> (rename_i e; rw [e] at h; exact h)
theorem canonical_raceCheck {s : State} (team pa va n kind : Nat) (w : s.canonical) : (raceCheck s team pa va n kind).canonical := by
  unfold raceCheck
  dsimp only
  split
  · exact w
  · refine canonical_foldl _ (fun s q w => ?_) _ _ w
    split
    · exact w
    · exact canonical_raceRecord _ _ _ _ _ _ _ w
theorem canonical_raceOutside {s : State} (pa n : Nat) (w : s.canonical) : (raceOutside s pa n).canonical := by
  refine canonical_foldl _ (fun s q w => ?_) _ _ w
  split
  · exact w
  · simp only
    split
    · exact w
    · exact canonical_raceRecord _ _ _ _ _ _ _ w

/-- The code image of `withFetchWord`. -/
theorem canonical_placeCode {s : State} (code : List Byte) (w : s.canonical) : (placeCode s code).canonical := by
  have keep (m : Store Byte) (a : Nat) (bs : List Byte) (h : Store.wf memDefault m = true) : Store.wf memDefault (Store.setN memDefault m a bs) = true :=
    Store.wf_setN memDefault bs m a h
  unfold placeCode State.canonical Memory.wf codeImage
  exact keep _ _ _ (keep _ _ _ (keep _ _ _ (keep _ _ _ (keep _ _ _ (keep _ _ _ (keep _ _ _ (keep _ _ _ w)))))))

/-- A write puts its bytes where it says and changes no other byte of memory. -/
theorem get_wr (s : State) (pa : Nat) (bs : List Byte) (x : Nat) : Store.get memDefault (s.wr pa bs).mem x =
    if pa ≤ x ∧ x < pa + bs.length then bs.getD (x - pa) memDefault else Store.get memDefault s.mem x := by
  simpa [State.wr] using Store.get_setN memDefault bs s.mem pa x

end Sys2Proof.Machine
end

