-- ==== Sys2Proof/Laws/PerInstr.lean ====
section
/-! SUPPORT. The per-instruction family RoundTrip: the bytes of a well-formed instruction decode to it (spec/02). -/

set_option linter.unusedSimpArgs false
set_option Elab.async false

namespace Sys2Proof.Laws.RoundTrip

open Machine (bits)

/-- The bytes that encode a well-formed instruction decode to it, whatever stands after them. -/
def Statement (i : Instr) : Prop := i.wellFormed = true → ∀ rest : List Byte, decode (i.bytes ++ rest) = .ok (i, rest)

/-- A machine event has no word. -/
theorem noWord {i : Instr} (h : i.hasWord = false) : Statement i := by
  intro hw
  simp [Instr.wellFormed, h] at hw

theorem regD_wordR (m f : Nat) (d a b : BitVec 7) (hm : m < 64) : regD (wordR m f d a b) = d := by
  simp [regD, wordR_d m f d a b hm]
theorem regA_wordR (m f : Nat) (d a b : BitVec 7) (hm : m < 64) : regA (wordR m f d a b) = a := by
  simp [regA, wordR_a m f d a b hm]
theorem regB_wordR (m f : Nat) (d a b : BitVec 7) (hm : m < 64) : regB (wordR m f d a b) = b := by
  simp [regB, wordR_b m f d a b hm]

theorem ill : Statement (.ill) := by
  intro hw
  exact absurd hw (by decide)
theorem pfx (p : BitVec 5) (n : BitVec 1) (c : BitVec 7) (x : BitVec 12) : Statement (.pfx p n c x) := by
  intro _ rest
  refine round32 (i := .pfx p n c x) (x := wordP p n c x) rfl rfl (wordP_lt p n c x) (wordP_bit0 p n c x) ?_ rest
  simp [decode32, zeroed, wordP_major p n c x, wordP_p p n c x, wordP_n p n c x, wordP_c p n c x, wordP_x p n c x, regD, regA, regB]
theorem grd (p : BitVec 5) (g : BitVec 1) (s : BitVec 4) : Statement (.grd p g s) := by
  intro _ rest
  refine round16 (i := .grd p g s) (x := wordG p g s) rfl rfl (wordG_lt p g s) (wordG_bit0 p g s) ?_ rest
  have h : wordG p g s ≠ 0 := by simp only [wordG]; omega
  simp [decode16, h, wordG_op, wordG_p, wordG_g, wordG_s]
theorem add (d : BitVec 7) (a : BitVec 7) (b : BitVec 7) : Statement (.add d a b) := by
  intro _ rest
  refine round32 (i := .add d a b) (x := wordR 0x01 0 d a b) rfl rfl (wordR_lt 0x01 0 d a b (by decide) (by decide)) (wordR_bit0 0x01 0 d a b) ?_ rest
  simp [decode32, zeroed, wordR_m 0x01 0 d a b (by decide), decInta, wordR_f 0x01 0 d a b (by decide) (by decide), regD_wordR 0x01 0 d a b (by decide), regA_wordR 0x01 0 d a b (by decide), regB_wordR 0x01 0 d a b (by decide), wordR_d 0x01 0 d a b (by decide), wordR_a 0x01 0 d a b (by decide), wordR_b 0x01 0 d a b (by decide)]
theorem sub (d : BitVec 7) (a : BitVec 7) (b : BitVec 7) : Statement (.sub d a b) := by
  intro _ rest
  refine round32 (i := .sub d a b) (x := wordR 0x01 1 d a b) rfl rfl (wordR_lt 0x01 1 d a b (by decide) (by decide)) (wordR_bit0 0x01 1 d a b) ?_ rest
  simp [decode32, zeroed, wordR_m 0x01 1 d a b (by decide), decInta, wordR_f 0x01 1 d a b (by decide) (by decide), regD_wordR 0x01 1 d a b (by decide), regA_wordR 0x01 1 d a b (by decide), regB_wordR 0x01 1 d a b (by decide), wordR_d 0x01 1 d a b (by decide), wordR_a 0x01 1 d a b (by decide), wordR_b 0x01 1 d a b (by decide)]
theorem mul (d : BitVec 7) (a : BitVec 7) (b : BitVec 7) : Statement (.mul d a b) := by
  intro _ rest
  refine round32 (i := .mul d a b) (x := wordR 0x01 2 d a b) rfl rfl (wordR_lt 0x01 2 d a b (by decide) (by decide)) (wordR_bit0 0x01 2 d a b) ?_ rest
  simp [decode32, zeroed, wordR_m 0x01 2 d a b (by decide), decInta, wordR_f 0x01 2 d a b (by decide) (by decide), regD_wordR 0x01 2 d a b (by decide), regA_wordR 0x01 2 d a b (by decide), regB_wordR 0x01 2 d a b (by decide), wordR_d 0x01 2 d a b (by decide), wordR_a 0x01 2 d a b (by decide), wordR_b 0x01 2 d a b (by decide)]
theorem mulhS32 (d : BitVec 7) (a : BitVec 7) (b : BitVec 7) : Statement (.mulhS32 d a b) := by
  intro _ rest
  refine round32 (i := .mulhS32 d a b) (x := wordR 0x01 3 d a b) rfl rfl (wordR_lt 0x01 3 d a b (by decide) (by decide)) (wordR_bit0 0x01 3 d a b) ?_ rest
  simp [decode32, zeroed, wordR_m 0x01 3 d a b (by decide), decInta, wordR_f 0x01 3 d a b (by decide) (by decide), regD_wordR 0x01 3 d a b (by decide), regA_wordR 0x01 3 d a b (by decide), regB_wordR 0x01 3 d a b (by decide), wordR_d 0x01 3 d a b (by decide), wordR_a 0x01 3 d a b (by decide), wordR_b 0x01 3 d a b (by decide)]
theorem mulhN32 (d : BitVec 7) (a : BitVec 7) (b : BitVec 7) : Statement (.mulhN32 d a b) := by
  intro _ rest
  refine round32 (i := .mulhN32 d a b) (x := wordR 0x01 4 d a b) rfl rfl (wordR_lt 0x01 4 d a b (by decide) (by decide)) (wordR_bit0 0x01 4 d a b) ?_ rest
  simp [decode32, zeroed, wordR_m 0x01 4 d a b (by decide), decInta, wordR_f 0x01 4 d a b (by decide) (by decide), regD_wordR 0x01 4 d a b (by decide), regA_wordR 0x01 4 d a b (by decide), regB_wordR 0x01 4 d a b (by decide), wordR_d 0x01 4 d a b (by decide), wordR_a 0x01 4 d a b (by decide), wordR_b 0x01 4 d a b (by decide)]
theorem minS32 (d : BitVec 7) (a : BitVec 7) (b : BitVec 7) : Statement (.minS32 d a b) := by
  intro _ rest
  refine round32 (i := .minS32 d a b) (x := wordR 0x01 5 d a b) rfl rfl (wordR_lt 0x01 5 d a b (by decide) (by decide)) (wordR_bit0 0x01 5 d a b) ?_ rest
  simp [decode32, zeroed, wordR_m 0x01 5 d a b (by decide), decInta, wordR_f 0x01 5 d a b (by decide) (by decide), regD_wordR 0x01 5 d a b (by decide), regA_wordR 0x01 5 d a b (by decide), regB_wordR 0x01 5 d a b (by decide), wordR_d 0x01 5 d a b (by decide), wordR_a 0x01 5 d a b (by decide), wordR_b 0x01 5 d a b (by decide)]
theorem minN32 (d : BitVec 7) (a : BitVec 7) (b : BitVec 7) : Statement (.minN32 d a b) := by
  intro _ rest
  refine round32 (i := .minN32 d a b) (x := wordR 0x01 6 d a b) rfl rfl (wordR_lt 0x01 6 d a b (by decide) (by decide)) (wordR_bit0 0x01 6 d a b) ?_ rest
  simp [decode32, zeroed, wordR_m 0x01 6 d a b (by decide), decInta, wordR_f 0x01 6 d a b (by decide) (by decide), regD_wordR 0x01 6 d a b (by decide), regA_wordR 0x01 6 d a b (by decide), regB_wordR 0x01 6 d a b (by decide), wordR_d 0x01 6 d a b (by decide), wordR_a 0x01 6 d a b (by decide), wordR_b 0x01 6 d a b (by decide)]
theorem maxS32 (d : BitVec 7) (a : BitVec 7) (b : BitVec 7) : Statement (.maxS32 d a b) := by
  intro _ rest
  refine round32 (i := .maxS32 d a b) (x := wordR 0x01 7 d a b) rfl rfl (wordR_lt 0x01 7 d a b (by decide) (by decide)) (wordR_bit0 0x01 7 d a b) ?_ rest
  simp [decode32, zeroed, wordR_m 0x01 7 d a b (by decide), decInta, wordR_f 0x01 7 d a b (by decide) (by decide), regD_wordR 0x01 7 d a b (by decide), regA_wordR 0x01 7 d a b (by decide), regB_wordR 0x01 7 d a b (by decide), wordR_d 0x01 7 d a b (by decide), wordR_a 0x01 7 d a b (by decide), wordR_b 0x01 7 d a b (by decide)]
theorem maxN32 (d : BitVec 7) (a : BitVec 7) (b : BitVec 7) : Statement (.maxN32 d a b) := by
  intro _ rest
  refine round32 (i := .maxN32 d a b) (x := wordR 0x01 8 d a b) rfl rfl (wordR_lt 0x01 8 d a b (by decide) (by decide)) (wordR_bit0 0x01 8 d a b) ?_ rest
  simp [decode32, zeroed, wordR_m 0x01 8 d a b (by decide), decInta, wordR_f 0x01 8 d a b (by decide) (by decide), regD_wordR 0x01 8 d a b (by decide), regA_wordR 0x01 8 d a b (by decide), regB_wordR 0x01 8 d a b (by decide), wordR_d 0x01 8 d a b (by decide), wordR_a 0x01 8 d a b (by decide), wordR_b 0x01 8 d a b (by decide)]
theorem andB (d : BitVec 7) (a : BitVec 7) (b : BitVec 7) : Statement (.andB d a b) := by
  intro _ rest
  refine round32 (i := .andB d a b) (x := wordR 0x01 9 d a b) rfl rfl (wordR_lt 0x01 9 d a b (by decide) (by decide)) (wordR_bit0 0x01 9 d a b) ?_ rest
  simp [decode32, zeroed, wordR_m 0x01 9 d a b (by decide), decInta, wordR_f 0x01 9 d a b (by decide) (by decide), regD_wordR 0x01 9 d a b (by decide), regA_wordR 0x01 9 d a b (by decide), regB_wordR 0x01 9 d a b (by decide), wordR_d 0x01 9 d a b (by decide), wordR_a 0x01 9 d a b (by decide), wordR_b 0x01 9 d a b (by decide)]
theorem orB (d : BitVec 7) (a : BitVec 7) (b : BitVec 7) : Statement (.orB d a b) := by
  intro _ rest
  refine round32 (i := .orB d a b) (x := wordR 0x01 10 d a b) rfl rfl (wordR_lt 0x01 10 d a b (by decide) (by decide)) (wordR_bit0 0x01 10 d a b) ?_ rest
  simp [decode32, zeroed, wordR_m 0x01 10 d a b (by decide), decInta, wordR_f 0x01 10 d a b (by decide) (by decide), regD_wordR 0x01 10 d a b (by decide), regA_wordR 0x01 10 d a b (by decide), regB_wordR 0x01 10 d a b (by decide), wordR_d 0x01 10 d a b (by decide), wordR_a 0x01 10 d a b (by decide), wordR_b 0x01 10 d a b (by decide)]
theorem xorB (d : BitVec 7) (a : BitVec 7) (b : BitVec 7) : Statement (.xorB d a b) := by
  intro _ rest
  refine round32 (i := .xorB d a b) (x := wordR 0x01 11 d a b) rfl rfl (wordR_lt 0x01 11 d a b (by decide) (by decide)) (wordR_bit0 0x01 11 d a b) ?_ rest
  simp [decode32, zeroed, wordR_m 0x01 11 d a b (by decide), decInta, wordR_f 0x01 11 d a b (by decide) (by decide), regD_wordR 0x01 11 d a b (by decide), regA_wordR 0x01 11 d a b (by decide), regB_wordR 0x01 11 d a b (by decide), wordR_d 0x01 11 d a b (by decide), wordR_a 0x01 11 d a b (by decide), wordR_b 0x01 11 d a b (by decide)]
theorem shl (d : BitVec 7) (a : BitVec 7) (b : BitVec 7) : Statement (.shl d a b) := by
  intro _ rest
  refine round32 (i := .shl d a b) (x := wordR 0x01 12 d a b) rfl rfl (wordR_lt 0x01 12 d a b (by decide) (by decide)) (wordR_bit0 0x01 12 d a b) ?_ rest
  simp [decode32, zeroed, wordR_m 0x01 12 d a b (by decide), decInta, wordR_f 0x01 12 d a b (by decide) (by decide), regD_wordR 0x01 12 d a b (by decide), regA_wordR 0x01 12 d a b (by decide), regB_wordR 0x01 12 d a b (by decide), wordR_d 0x01 12 d a b (by decide), wordR_a 0x01 12 d a b (by decide), wordR_b 0x01 12 d a b (by decide)]
theorem shr (d : BitVec 7) (a : BitVec 7) (b : BitVec 7) : Statement (.shr d a b) := by
  intro _ rest
  refine round32 (i := .shr d a b) (x := wordR 0x01 13 d a b) rfl rfl (wordR_lt 0x01 13 d a b (by decide) (by decide)) (wordR_bit0 0x01 13 d a b) ?_ rest
  simp [decode32, zeroed, wordR_m 0x01 13 d a b (by decide), decInta, wordR_f 0x01 13 d a b (by decide) (by decide), regD_wordR 0x01 13 d a b (by decide), regA_wordR 0x01 13 d a b (by decide), regB_wordR 0x01 13 d a b (by decide), wordR_d 0x01 13 d a b (by decide), wordR_a 0x01 13 d a b (by decide), wordR_b 0x01 13 d a b (by decide)]
theorem sar (d : BitVec 7) (a : BitVec 7) (b : BitVec 7) : Statement (.sar d a b) := by
  intro _ rest
  refine round32 (i := .sar d a b) (x := wordR 0x01 14 d a b) rfl rfl (wordR_lt 0x01 14 d a b (by decide) (by decide)) (wordR_bit0 0x01 14 d a b) ?_ rest
  simp [decode32, zeroed, wordR_m 0x01 14 d a b (by decide), decInta, wordR_f 0x01 14 d a b (by decide) (by decide), regD_wordR 0x01 14 d a b (by decide), regA_wordR 0x01 14 d a b (by decide), regB_wordR 0x01 14 d a b (by decide), wordR_d 0x01 14 d a b (by decide), wordR_a 0x01 14 d a b (by decide), wordR_b 0x01 14 d a b (by decide)]
theorem andn (d : BitVec 7) (a : BitVec 7) (b : BitVec 7) : Statement (.andn d a b) := by
  intro _ rest
  refine round32 (i := .andn d a b) (x := wordR 0x01 15 d a b) rfl rfl (wordR_lt 0x01 15 d a b (by decide) (by decide)) (wordR_bit0 0x01 15 d a b) ?_ rest
  simp [decode32, zeroed, wordR_m 0x01 15 d a b (by decide), decInta, wordR_f 0x01 15 d a b (by decide) (by decide), regD_wordR 0x01 15 d a b (by decide), regA_wordR 0x01 15 d a b (by decide), regB_wordR 0x01 15 d a b (by decide), wordR_d 0x01 15 d a b (by decide), wordR_a 0x01 15 d a b (by decide), wordR_b 0x01 15 d a b (by decide)]
theorem mad (d : BitVec 7) (a : BitVec 7) (b : BitVec 7) : Statement (.mad d a b) := by
  intro _ rest
  refine round32 (i := .mad d a b) (x := wordR 0x02 0 d a b) rfl rfl (wordR_lt 0x02 0 d a b (by decide) (by decide)) (wordR_bit0 0x02 0 d a b) ?_ rest
  simp [decode32, zeroed, wordR_m 0x02 0 d a b (by decide), decIntb, wordR_f 0x02 0 d a b (by decide) (by decide), regD_wordR 0x02 0 d a b (by decide), regA_wordR 0x02 0 d a b (by decide), regB_wordR 0x02 0 d a b (by decide), wordR_d 0x02 0 d a b (by decide), wordR_a 0x02 0 d a b (by decide), wordR_b 0x02 0 d a b (by decide)]
theorem madwS32 (d : BitVec 7) (a : BitVec 7) (b : BitVec 7) : Statement (.madwS32 d a b) := by
  intro _ rest
  refine round32 (i := .madwS32 d a b) (x := wordR 0x02 1 d a b) rfl rfl (wordR_lt 0x02 1 d a b (by decide) (by decide)) (wordR_bit0 0x02 1 d a b) ?_ rest
  simp [decode32, zeroed, wordR_m 0x02 1 d a b (by decide), decIntb, wordR_f 0x02 1 d a b (by decide) (by decide), regD_wordR 0x02 1 d a b (by decide), regA_wordR 0x02 1 d a b (by decide), regB_wordR 0x02 1 d a b (by decide), wordR_d 0x02 1 d a b (by decide), wordR_a 0x02 1 d a b (by decide), wordR_b 0x02 1 d a b (by decide)]
theorem madwN32 (d : BitVec 7) (a : BitVec 7) (b : BitVec 7) : Statement (.madwN32 d a b) := by
  intro _ rest
  refine round32 (i := .madwN32 d a b) (x := wordR 0x02 2 d a b) rfl rfl (wordR_lt 0x02 2 d a b (by decide) (by decide)) (wordR_bit0 0x02 2 d a b) ?_ rest
  simp [decode32, zeroed, wordR_m 0x02 2 d a b (by decide), decIntb, wordR_f 0x02 2 d a b (by decide) (by decide), regD_wordR 0x02 2 d a b (by decide), regA_wordR 0x02 2 d a b (by decide), regB_wordR 0x02 2 d a b (by decide), wordR_d 0x02 2 d a b (by decide), wordR_a 0x02 2 d a b (by decide), wordR_b 0x02 2 d a b (by decide)]
theorem addB64 (d : BitVec 7) (a : BitVec 7) (b : BitVec 7) : Statement (.addB64 d a b) := by
  intro _ rest
  refine round32 (i := .addB64 d a b) (x := wordR 0x02 3 d a b) rfl rfl (wordR_lt 0x02 3 d a b (by decide) (by decide)) (wordR_bit0 0x02 3 d a b) ?_ rest
  simp [decode32, zeroed, wordR_m 0x02 3 d a b (by decide), decIntb, wordR_f 0x02 3 d a b (by decide) (by decide), regD_wordR 0x02 3 d a b (by decide), regA_wordR 0x02 3 d a b (by decide), regB_wordR 0x02 3 d a b (by decide), wordR_d 0x02 3 d a b (by decide), wordR_a 0x02 3 d a b (by decide), wordR_b 0x02 3 d a b (by decide)]
theorem subB64 (d : BitVec 7) (a : BitVec 7) (b : BitVec 7) : Statement (.subB64 d a b) := by
  intro _ rest
  refine round32 (i := .subB64 d a b) (x := wordR 0x02 4 d a b) rfl rfl (wordR_lt 0x02 4 d a b (by decide) (by decide)) (wordR_bit0 0x02 4 d a b) ?_ rest
  simp [decode32, zeroed, wordR_m 0x02 4 d a b (by decide), decIntb, wordR_f 0x02 4 d a b (by decide) (by decide), regD_wordR 0x02 4 d a b (by decide), regA_wordR 0x02 4 d a b (by decide), regB_wordR 0x02 4 d a b (by decide), wordR_d 0x02 4 d a b (by decide), wordR_a 0x02 4 d a b (by decide), wordR_b 0x02 4 d a b (by decide)]
theorem lea0 (d : BitVec 7) (a : BitVec 7) (b : BitVec 7) : Statement (.lea0 d a b) := by
  intro _ rest
  refine round32 (i := .lea0 d a b) (x := wordR 0x02 5 d a b) rfl rfl (wordR_lt 0x02 5 d a b (by decide) (by decide)) (wordR_bit0 0x02 5 d a b) ?_ rest
  simp [decode32, zeroed, wordR_m 0x02 5 d a b (by decide), decIntb, wordR_f 0x02 5 d a b (by decide) (by decide), regD_wordR 0x02 5 d a b (by decide), regA_wordR 0x02 5 d a b (by decide), regB_wordR 0x02 5 d a b (by decide), wordR_d 0x02 5 d a b (by decide), wordR_a 0x02 5 d a b (by decide), wordR_b 0x02 5 d a b (by decide)]
theorem lea1 (d : BitVec 7) (a : BitVec 7) (b : BitVec 7) : Statement (.lea1 d a b) := by
  intro _ rest
  refine round32 (i := .lea1 d a b) (x := wordR 0x02 6 d a b) rfl rfl (wordR_lt 0x02 6 d a b (by decide) (by decide)) (wordR_bit0 0x02 6 d a b) ?_ rest
  simp [decode32, zeroed, wordR_m 0x02 6 d a b (by decide), decIntb, wordR_f 0x02 6 d a b (by decide) (by decide), regD_wordR 0x02 6 d a b (by decide), regA_wordR 0x02 6 d a b (by decide), regB_wordR 0x02 6 d a b (by decide), wordR_d 0x02 6 d a b (by decide), wordR_a 0x02 6 d a b (by decide), wordR_b 0x02 6 d a b (by decide)]
theorem lea2 (d : BitVec 7) (a : BitVec 7) (b : BitVec 7) : Statement (.lea2 d a b) := by
  intro _ rest
  refine round32 (i := .lea2 d a b) (x := wordR 0x02 7 d a b) rfl rfl (wordR_lt 0x02 7 d a b (by decide) (by decide)) (wordR_bit0 0x02 7 d a b) ?_ rest
  simp [decode32, zeroed, wordR_m 0x02 7 d a b (by decide), decIntb, wordR_f 0x02 7 d a b (by decide) (by decide), regD_wordR 0x02 7 d a b (by decide), regA_wordR 0x02 7 d a b (by decide), regB_wordR 0x02 7 d a b (by decide), wordR_d 0x02 7 d a b (by decide), wordR_a 0x02 7 d a b (by decide), wordR_b 0x02 7 d a b (by decide)]
theorem lea3 (d : BitVec 7) (a : BitVec 7) (b : BitVec 7) : Statement (.lea3 d a b) := by
  intro _ rest
  refine round32 (i := .lea3 d a b) (x := wordR 0x02 8 d a b) rfl rfl (wordR_lt 0x02 8 d a b (by decide) (by decide)) (wordR_bit0 0x02 8 d a b) ?_ rest
  simp [decode32, zeroed, wordR_m 0x02 8 d a b (by decide), decIntb, wordR_f 0x02 8 d a b (by decide) (by decide), regD_wordR 0x02 8 d a b (by decide), regA_wordR 0x02 8 d a b (by decide), regB_wordR 0x02 8 d a b (by decide), wordR_d 0x02 8 d a b (by decide), wordR_a 0x02 8 d a b (by decide), wordR_b 0x02 8 d a b (by decide)]
theorem divS32 (d : BitVec 7) (a : BitVec 7) (b : BitVec 7) : Statement (.divS32 d a b) := by
  intro _ rest
  refine round32 (i := .divS32 d a b) (x := wordR 0x02 9 d a b) rfl rfl (wordR_lt 0x02 9 d a b (by decide) (by decide)) (wordR_bit0 0x02 9 d a b) ?_ rest
  simp [decode32, zeroed, wordR_m 0x02 9 d a b (by decide), decIntb, wordR_f 0x02 9 d a b (by decide) (by decide), regD_wordR 0x02 9 d a b (by decide), regA_wordR 0x02 9 d a b (by decide), regB_wordR 0x02 9 d a b (by decide), wordR_d 0x02 9 d a b (by decide), wordR_a 0x02 9 d a b (by decide), wordR_b 0x02 9 d a b (by decide)]
theorem divN32 (d : BitVec 7) (a : BitVec 7) (b : BitVec 7) : Statement (.divN32 d a b) := by
  intro _ rest
  refine round32 (i := .divN32 d a b) (x := wordR 0x02 10 d a b) rfl rfl (wordR_lt 0x02 10 d a b (by decide) (by decide)) (wordR_bit0 0x02 10 d a b) ?_ rest
  simp [decode32, zeroed, wordR_m 0x02 10 d a b (by decide), decIntb, wordR_f 0x02 10 d a b (by decide) (by decide), regD_wordR 0x02 10 d a b (by decide), regA_wordR 0x02 10 d a b (by decide), regB_wordR 0x02 10 d a b (by decide), wordR_d 0x02 10 d a b (by decide), wordR_a 0x02 10 d a b (by decide), wordR_b 0x02 10 d a b (by decide)]
theorem remS32 (d : BitVec 7) (a : BitVec 7) (b : BitVec 7) : Statement (.remS32 d a b) := by
  intro _ rest
  refine round32 (i := .remS32 d a b) (x := wordR 0x02 11 d a b) rfl rfl (wordR_lt 0x02 11 d a b (by decide) (by decide)) (wordR_bit0 0x02 11 d a b) ?_ rest
  simp [decode32, zeroed, wordR_m 0x02 11 d a b (by decide), decIntb, wordR_f 0x02 11 d a b (by decide) (by decide), regD_wordR 0x02 11 d a b (by decide), regA_wordR 0x02 11 d a b (by decide), regB_wordR 0x02 11 d a b (by decide), wordR_d 0x02 11 d a b (by decide), wordR_a 0x02 11 d a b (by decide), wordR_b 0x02 11 d a b (by decide)]
theorem remN32 (d : BitVec 7) (a : BitVec 7) (b : BitVec 7) : Statement (.remN32 d a b) := by
  intro _ rest
  refine round32 (i := .remN32 d a b) (x := wordR 0x02 12 d a b) rfl rfl (wordR_lt 0x02 12 d a b (by decide) (by decide)) (wordR_bit0 0x02 12 d a b) ?_ rest
  simp [decode32, zeroed, wordR_m 0x02 12 d a b (by decide), decIntb, wordR_f 0x02 12 d a b (by decide) (by decide), regD_wordR 0x02 12 d a b (by decide), regA_wordR 0x02 12 d a b (by decide), regB_wordR 0x02 12 d a b (by decide), wordR_d 0x02 12 d a b (by decide), wordR_a 0x02 12 d a b (by decide), wordR_b 0x02 12 d a b (by decide)]
theorem absdS32 (d : BitVec 7) (a : BitVec 7) (b : BitVec 7) : Statement (.absdS32 d a b) := by
  intro _ rest
  refine round32 (i := .absdS32 d a b) (x := wordR 0x02 13 d a b) rfl rfl (wordR_lt 0x02 13 d a b (by decide) (by decide)) (wordR_bit0 0x02 13 d a b) ?_ rest
  simp [decode32, zeroed, wordR_m 0x02 13 d a b (by decide), decIntb, wordR_f 0x02 13 d a b (by decide) (by decide), regD_wordR 0x02 13 d a b (by decide), regA_wordR 0x02 13 d a b (by decide), regB_wordR 0x02 13 d a b (by decide), wordR_d 0x02 13 d a b (by decide), wordR_a 0x02 13 d a b (by decide), wordR_b 0x02 13 d a b (by decide)]
theorem prmt (d : BitVec 7) (a : BitVec 7) (b : BitVec 7) : Statement (.prmt d a b) := by
  intro _ rest
  refine round32 (i := .prmt d a b) (x := wordR 0x02 14 d a b) rfl rfl (wordR_lt 0x02 14 d a b (by decide) (by decide)) (wordR_bit0 0x02 14 d a b) ?_ rest
  simp [decode32, zeroed, wordR_m 0x02 14 d a b (by decide), decIntb, wordR_f 0x02 14 d a b (by decide) (by decide), regD_wordR 0x02 14 d a b (by decide), regA_wordR 0x02 14 d a b (by decide), regB_wordR 0x02 14 d a b (by decide), wordR_d 0x02 14 d a b (by decide), wordR_a 0x02 14 d a b (by decide), wordR_b 0x02 14 d a b (by decide)]
theorem rot (d : BitVec 7) (a : BitVec 7) (b : BitVec 7) : Statement (.rot d a b) := by
  intro _ rest
  refine round32 (i := .rot d a b) (x := wordR 0x02 15 d a b) rfl rfl (wordR_lt 0x02 15 d a b (by decide) (by decide)) (wordR_bit0 0x02 15 d a b) ?_ rest
  simp [decode32, zeroed, wordR_m 0x02 15 d a b (by decide), decIntb, wordR_f 0x02 15 d a b (by decide) (by decide), regD_wordR 0x02 15 d a b (by decide), regA_wordR 0x02 15 d a b (by decide), regB_wordR 0x02 15 d a b (by decide), wordR_d 0x02 15 d a b (by decide), wordR_a 0x02 15 d a b (by decide), wordR_b 0x02 15 d a b (by decide)]
theorem addi (d : BitVec 7) (a : BitVec 7) (i : BitVec 11) : Statement (.addi d a i) := by
  intro _ rest
  refine round32 (i := .addi d a i) (x := wordI 0x03 d a i) rfl rfl (wordI_lt 0x03 d a i (by decide)) (wordI_bit0 0x03 d a i) ?_ rest
  simp [decode32, zeroed, wordI_m 0x03 d a i (by decide), wordI_d 0x03 d a i (by decide), wordI_a 0x03 d a i (by decide), wordI_i 0x03 d a i (by decide), regD, regA, regB]
theorem andi (d : BitVec 7) (a : BitVec 7) (i : BitVec 11) : Statement (.andi d a i) := by
  intro _ rest
  refine round32 (i := .andi d a i) (x := wordI 0x04 d a i) rfl rfl (wordI_lt 0x04 d a i (by decide)) (wordI_bit0 0x04 d a i) ?_ rest
  simp [decode32, zeroed, wordI_m 0x04 d a i (by decide), wordI_d 0x04 d a i (by decide), wordI_a 0x04 d a i (by decide), wordI_i 0x04 d a i (by decide), regD, regA, regB]
theorem ori (d : BitVec 7) (a : BitVec 7) (i : BitVec 11) : Statement (.ori d a i) := by
  intro _ rest
  refine round32 (i := .ori d a i) (x := wordI 0x05 d a i) rfl rfl (wordI_lt 0x05 d a i (by decide)) (wordI_bit0 0x05 d a i) ?_ rest
  simp [decode32, zeroed, wordI_m 0x05 d a i (by decide), wordI_d 0x05 d a i (by decide), wordI_a 0x05 d a i (by decide), wordI_i 0x05 d a i (by decide), regD, regA, regB]
theorem xori (d : BitVec 7) (a : BitVec 7) (i : BitVec 11) : Statement (.xori d a i) := by
  intro _ rest
  refine round32 (i := .xori d a i) (x := wordI 0x06 d a i) rfl rfl (wordI_lt 0x06 d a i (by decide)) (wordI_bit0 0x06 d a i) ?_ rest
  simp [decode32, zeroed, wordI_m 0x06 d a i (by decide), wordI_d 0x06 d a i (by decide), wordI_a 0x06 d a i (by decide), wordI_i 0x06 d a i (by decide), regD, regA, regB]
theorem shli (d : BitVec 7) (a : BitVec 7) (s : BitVec 5) : Statement (.shli d a s) := by
  intro _ rest
  refine round32 (i := .shli d a s) (x := wordK 0 d a s) rfl rfl (wordK_lt 0 d a s (by decide)) (wordK_bit0 0 d a s) ?_ rest
  simp [decode32, zeroed, wordK_major 0 d a s, wordK_d 0 d a s, wordK_a 0 d a s, wordK_s 0 d a s, wordK_k 0 d a s (by decide), wordK_rest 0 d a s (by decide), decShfi, regD, regA, regB]
theorem shri (d : BitVec 7) (a : BitVec 7) (s : BitVec 5) : Statement (.shri d a s) := by
  intro _ rest
  refine round32 (i := .shri d a s) (x := wordK 1 d a s) rfl rfl (wordK_lt 1 d a s (by decide)) (wordK_bit0 1 d a s) ?_ rest
  simp [decode32, zeroed, wordK_major 1 d a s, wordK_d 1 d a s, wordK_a 1 d a s, wordK_s 1 d a s, wordK_k 1 d a s (by decide), wordK_rest 1 d a s (by decide), decShfi, regD, regA, regB]
theorem sari (d : BitVec 7) (a : BitVec 7) (s : BitVec 5) : Statement (.sari d a s) := by
  intro _ rest
  refine round32 (i := .sari d a s) (x := wordK 2 d a s) rfl rfl (wordK_lt 2 d a s (by decide)) (wordK_bit0 2 d a s) ?_ rest
  simp [decode32, zeroed, wordK_major 2 d a s, wordK_d 2 d a s, wordK_a 2 d a s, wordK_s 2 d a s, wordK_k 2 d a s (by decide), wordK_rest 2 d a s (by decide), decShfi, regD, regA, regB]
theorem roti (d : BitVec 7) (a : BitVec 7) (s : BitVec 5) : Statement (.roti d a s) := by
  intro _ rest
  refine round32 (i := .roti d a s) (x := wordK 3 d a s) rfl rfl (wordK_lt 3 d a s (by decide)) (wordK_bit0 3 d a s) ?_ rest
  simp [decode32, zeroed, wordK_major 3 d a s, wordK_d 3 d a s, wordK_a 3 d a s, wordK_s 3 d a s, wordK_k 3 d a s (by decide), wordK_rest 3 d a s (by decide), decShfi, regD, regA, regB]
theorem movi (d : BitVec 7) (i : BitVec 18) : Statement (.movi d i) := by
  intro _ rest
  refine round32 (i := .movi d i) (x := wordU 0x08 d i) rfl rfl (wordU_lt 0x08 d i (by decide)) (wordU_bit0 0x08 d i) ?_ rest
  simp [decode32, zeroed, wordU_m 0x08 d i (by decide), wordU_d 0x08 d i (by decide), wordU_i 0x08 d i (by decide), regD, regA, regB]
theorem movhi (d : BitVec 7) (i : BitVec 18) : Statement (.movhi d i) := by
  intro _ rest
  refine round32 (i := .movhi d i) (x := wordU 0x09 d i) rfl rfl (wordU_lt 0x09 d i (by decide)) (wordU_bit0 0x09 d i) ?_ rest
  simp [decode32, zeroed, wordU_m 0x09 d i (by decide), wordU_d 0x09 d i (by decide), wordU_i 0x09 d i (by decide), regD, regA, regB]
theorem mov (d : BitVec 7) (a : BitVec 7) : Statement (.mov d a) := by
  intro _ rest
  refine round32 (i := .mov d a) (x := wordR 0x0a 0 d a 0#7) rfl rfl (wordR_lt 0x0a 0 d a 0#7 (by decide) (by decide)) (wordR_bit0 0x0a 0 d a 0#7) ?_ rest
  simp [decode32, zeroed, wordR_m 0x0a 0 d a 0#7 (by decide), decBits, wordR_f 0x0a 0 d a 0#7 (by decide) (by decide), regD_wordR 0x0a 0 d a 0#7 (by decide), regA_wordR 0x0a 0 d a 0#7 (by decide), regB_wordR 0x0a 0 d a 0#7 (by decide), wordR_d 0x0a 0 d a 0#7 (by decide), wordR_a 0x0a 0 d a 0#7 (by decide), wordR_b 0x0a 0 d a 0#7 (by decide)]
theorem popc (d : BitVec 7) (a : BitVec 7) : Statement (.popc d a) := by
  intro _ rest
  refine round32 (i := .popc d a) (x := wordR 0x0a 1 d a 0#7) rfl rfl (wordR_lt 0x0a 1 d a 0#7 (by decide) (by decide)) (wordR_bit0 0x0a 1 d a 0#7) ?_ rest
  simp [decode32, zeroed, wordR_m 0x0a 1 d a 0#7 (by decide), decBits, wordR_f 0x0a 1 d a 0#7 (by decide) (by decide), regD_wordR 0x0a 1 d a 0#7 (by decide), regA_wordR 0x0a 1 d a 0#7 (by decide), regB_wordR 0x0a 1 d a 0#7 (by decide), wordR_d 0x0a 1 d a 0#7 (by decide), wordR_a 0x0a 1 d a 0#7 (by decide), wordR_b 0x0a 1 d a 0#7 (by decide)]
theorem clz (d : BitVec 7) (a : BitVec 7) : Statement (.clz d a) := by
  intro _ rest
  refine round32 (i := .clz d a) (x := wordR 0x0a 2 d a 0#7) rfl rfl (wordR_lt 0x0a 2 d a 0#7 (by decide) (by decide)) (wordR_bit0 0x0a 2 d a 0#7) ?_ rest
  simp [decode32, zeroed, wordR_m 0x0a 2 d a 0#7 (by decide), decBits, wordR_f 0x0a 2 d a 0#7 (by decide) (by decide), regD_wordR 0x0a 2 d a 0#7 (by decide), regA_wordR 0x0a 2 d a 0#7 (by decide), regB_wordR 0x0a 2 d a 0#7 (by decide), wordR_d 0x0a 2 d a 0#7 (by decide), wordR_a 0x0a 2 d a 0#7 (by decide), wordR_b 0x0a 2 d a 0#7 (by decide)]
theorem brev (d : BitVec 7) (a : BitVec 7) : Statement (.brev d a) := by
  intro _ rest
  refine round32 (i := .brev d a) (x := wordR 0x0a 3 d a 0#7) rfl rfl (wordR_lt 0x0a 3 d a 0#7 (by decide) (by decide)) (wordR_bit0 0x0a 3 d a 0#7) ?_ rest
  simp [decode32, zeroed, wordR_m 0x0a 3 d a 0#7 (by decide), decBits, wordR_f 0x0a 3 d a 0#7 (by decide) (by decide), regD_wordR 0x0a 3 d a 0#7 (by decide), regA_wordR 0x0a 3 d a 0#7 (by decide), regB_wordR 0x0a 3 d a 0#7 (by decide), wordR_d 0x0a 3 d a 0#7 (by decide), wordR_a 0x0a 3 d a 0#7 (by decide), wordR_b 0x0a 3 d a 0#7 (by decide)]
theorem ffs (d : BitVec 7) (a : BitVec 7) : Statement (.ffs d a) := by
  intro _ rest
  refine round32 (i := .ffs d a) (x := wordR 0x0a 4 d a 0#7) rfl rfl (wordR_lt 0x0a 4 d a 0#7 (by decide) (by decide)) (wordR_bit0 0x0a 4 d a 0#7) ?_ rest
  simp [decode32, zeroed, wordR_m 0x0a 4 d a 0#7 (by decide), decBits, wordR_f 0x0a 4 d a 0#7 (by decide) (by decide), regD_wordR 0x0a 4 d a 0#7 (by decide), regA_wordR 0x0a 4 d a 0#7 (by decide), regB_wordR 0x0a 4 d a 0#7 (by decide), wordR_d 0x0a 4 d a 0#7 (by decide), wordR_a 0x0a 4 d a 0#7 (by decide), wordR_b 0x0a 4 d a 0#7 (by decide)]
theorem sext8 (d : BitVec 7) (a : BitVec 7) : Statement (.sext8 d a) := by
  intro _ rest
  refine round32 (i := .sext8 d a) (x := wordR 0x0a 5 d a 0#7) rfl rfl (wordR_lt 0x0a 5 d a 0#7 (by decide) (by decide)) (wordR_bit0 0x0a 5 d a 0#7) ?_ rest
  simp [decode32, zeroed, wordR_m 0x0a 5 d a 0#7 (by decide), decBits, wordR_f 0x0a 5 d a 0#7 (by decide) (by decide), regD_wordR 0x0a 5 d a 0#7 (by decide), regA_wordR 0x0a 5 d a 0#7 (by decide), regB_wordR 0x0a 5 d a 0#7 (by decide), wordR_d 0x0a 5 d a 0#7 (by decide), wordR_a 0x0a 5 d a 0#7 (by decide), wordR_b 0x0a 5 d a 0#7 (by decide)]
theorem sext16 (d : BitVec 7) (a : BitVec 7) : Statement (.sext16 d a) := by
  intro _ rest
  refine round32 (i := .sext16 d a) (x := wordR 0x0a 6 d a 0#7) rfl rfl (wordR_lt 0x0a 6 d a 0#7 (by decide) (by decide)) (wordR_bit0 0x0a 6 d a 0#7) ?_ rest
  simp [decode32, zeroed, wordR_m 0x0a 6 d a 0#7 (by decide), decBits, wordR_f 0x0a 6 d a 0#7 (by decide) (by decide), regD_wordR 0x0a 6 d a 0#7 (by decide), regA_wordR 0x0a 6 d a 0#7 (by decide), regB_wordR 0x0a 6 d a 0#7 (by decide), wordR_d 0x0a 6 d a 0#7 (by decide), wordR_a 0x0a 6 d a 0#7 (by decide), wordR_b 0x0a 6 d a 0#7 (by decide)]
theorem zext8 (d : BitVec 7) (a : BitVec 7) : Statement (.zext8 d a) := by
  intro _ rest
  refine round32 (i := .zext8 d a) (x := wordR 0x0a 7 d a 0#7) rfl rfl (wordR_lt 0x0a 7 d a 0#7 (by decide) (by decide)) (wordR_bit0 0x0a 7 d a 0#7) ?_ rest
  simp [decode32, zeroed, wordR_m 0x0a 7 d a 0#7 (by decide), decBits, wordR_f 0x0a 7 d a 0#7 (by decide) (by decide), regD_wordR 0x0a 7 d a 0#7 (by decide), regA_wordR 0x0a 7 d a 0#7 (by decide), regB_wordR 0x0a 7 d a 0#7 (by decide), wordR_d 0x0a 7 d a 0#7 (by decide), wordR_a 0x0a 7 d a 0#7 (by decide), wordR_b 0x0a 7 d a 0#7 (by decide)]
theorem zext16 (d : BitVec 7) (a : BitVec 7) : Statement (.zext16 d a) := by
  intro _ rest
  refine round32 (i := .zext16 d a) (x := wordR 0x0a 8 d a 0#7) rfl rfl (wordR_lt 0x0a 8 d a 0#7 (by decide) (by decide)) (wordR_bit0 0x0a 8 d a 0#7) ?_ rest
  simp [decode32, zeroed, wordR_m 0x0a 8 d a 0#7 (by decide), decBits, wordR_f 0x0a 8 d a 0#7 (by decide) (by decide), regD_wordR 0x0a 8 d a 0#7 (by decide), regA_wordR 0x0a 8 d a 0#7 (by decide), regB_wordR 0x0a 8 d a 0#7 (by decide), wordR_d 0x0a 8 d a 0#7 (by decide), wordR_a 0x0a 8 d a 0#7 (by decide), wordR_b 0x0a 8 d a 0#7 (by decide)]
theorem bfeS32 (d : BitVec 7) (a : BitVec 7) (b : BitVec 7) : Statement (.bfeS32 d a b) := by
  intro _ rest
  refine round32 (i := .bfeS32 d a b) (x := wordR 0x0a 9 d a b) rfl rfl (wordR_lt 0x0a 9 d a b (by decide) (by decide)) (wordR_bit0 0x0a 9 d a b) ?_ rest
  simp [decode32, zeroed, wordR_m 0x0a 9 d a b (by decide), decBits, wordR_f 0x0a 9 d a b (by decide) (by decide), regD_wordR 0x0a 9 d a b (by decide), regA_wordR 0x0a 9 d a b (by decide), regB_wordR 0x0a 9 d a b (by decide), wordR_d 0x0a 9 d a b (by decide), wordR_a 0x0a 9 d a b (by decide), wordR_b 0x0a 9 d a b (by decide)]
theorem bfeN32 (d : BitVec 7) (a : BitVec 7) (b : BitVec 7) : Statement (.bfeN32 d a b) := by
  intro _ rest
  refine round32 (i := .bfeN32 d a b) (x := wordR 0x0a 10 d a b) rfl rfl (wordR_lt 0x0a 10 d a b (by decide) (by decide)) (wordR_bit0 0x0a 10 d a b) ?_ rest
  simp [decode32, zeroed, wordR_m 0x0a 10 d a b (by decide), decBits, wordR_f 0x0a 10 d a b (by decide) (by decide), regD_wordR 0x0a 10 d a b (by decide), regA_wordR 0x0a 10 d a b (by decide), regB_wordR 0x0a 10 d a b (by decide), wordR_d 0x0a 10 d a b (by decide), wordR_a 0x0a 10 d a b (by decide), wordR_b 0x0a 10 d a b (by decide)]
theorem bfi (d : BitVec 7) (a : BitVec 7) (b : BitVec 7) : Statement (.bfi d a b) := by
  intro _ rest
  refine round32 (i := .bfi d a b) (x := wordR 0x0a 11 d a b) rfl rfl (wordR_lt 0x0a 11 d a b (by decide) (by decide)) (wordR_bit0 0x0a 11 d a b) ?_ rest
  simp [decode32, zeroed, wordR_m 0x0a 11 d a b (by decide), decBits, wordR_f 0x0a 11 d a b (by decide) (by decide), regD_wordR 0x0a 11 d a b (by decide), regA_wordR 0x0a 11 d a b (by decide), regB_wordR 0x0a 11 d a b (by decide), wordR_d 0x0a 11 d a b (by decide), wordR_a 0x0a 11 d a b (by decide), wordR_b 0x0a 11 d a b (by decide)]
theorem movB64 (d : BitVec 7) (a : BitVec 7) : Statement (.movB64 d a) := by
  intro _ rest
  refine round32 (i := .movB64 d a) (x := wordR 0x0a 12 d a 0#7) rfl rfl (wordR_lt 0x0a 12 d a 0#7 (by decide) (by decide)) (wordR_bit0 0x0a 12 d a 0#7) ?_ rest
  simp [decode32, zeroed, wordR_m 0x0a 12 d a 0#7 (by decide), decBits, wordR_f 0x0a 12 d a 0#7 (by decide) (by decide), regD_wordR 0x0a 12 d a 0#7 (by decide), regA_wordR 0x0a 12 d a 0#7 (by decide), regB_wordR 0x0a 12 d a 0#7 (by decide), wordR_d 0x0a 12 d a 0#7 (by decide), wordR_a 0x0a 12 d a 0#7 (by decide), wordR_b 0x0a 12 d a 0#7 (by decide)]
theorem notB (d : BitVec 7) (a : BitVec 7) : Statement (.notB d a) := by
  intro _ rest
  refine round32 (i := .notB d a) (x := wordR 0x0a 13 d a 0#7) rfl rfl (wordR_lt 0x0a 13 d a 0#7 (by decide) (by decide)) (wordR_bit0 0x0a 13 d a 0#7) ?_ rest
  simp [decode32, zeroed, wordR_m 0x0a 13 d a 0#7 (by decide), decBits, wordR_f 0x0a 13 d a 0#7 (by decide) (by decide), regD_wordR 0x0a 13 d a 0#7 (by decide), regA_wordR 0x0a 13 d a 0#7 (by decide), regB_wordR 0x0a 13 d a 0#7 (by decide), wordR_d 0x0a 13 d a 0#7 (by decide), wordR_a 0x0a 13 d a 0#7 (by decide), wordR_b 0x0a 13 d a 0#7 (by decide)]
theorem cmp (p : BitVec 5) (g : BitVec 2) (a : BitVec 7) (b : BitVec 7) (c : BitVec 4) : Statement (.cmp p g a b c) := by
  intro _ rest
  refine round32 (i := .cmp p g a b c) (x := wordC 0x0b p g a b c) rfl rfl (wordC_lt 0x0b p g a b c (by decide)) (wordC_bit0 0x0b p g a b c) ?_ rest
  simp [decode32, zeroed, wordC_m 0x0b p g a b c (by decide), wordC_p 0x0b p g a b c (by decide), wordC_g 0x0b p g a b c (by decide), wordC_a 0x0b p g a b c (by decide), wordC_b 0x0b p g a b c (by decide), wordC_c 0x0b p g a b c (by decide), regD, regA, regB]
theorem cmpi (p : BitVec 5) (g : BitVec 2) (a : BitVec 7) (c : BitVec 4) (i : BitVec 7) : Statement (.cmpi p g a c i) := by
  intro _ rest
  refine round32 (i := .cmpi p g a c i) (x := wordCI p g a c i) rfl rfl (wordCI_lt p g a c i) (wordCI_bit0 p g a c i) ?_ rest
  simp [decode32, zeroed, wordCI_major p g a c i, wordCI_p p g a c i, wordCI_g p g a c i, wordCI_a p g a c i, wordCI_c p g a c i, wordCI_i p g a c i, regD, regA, regB]
theorem pand (d : BitVec 7) (a : BitVec 7) (b : BitVec 7) : Statement (.pand d a b) := by
  intro _ rest
  refine round32 (i := .pand d a b) (x := wordR 0x0d 0 d a b) rfl rfl (wordR_lt 0x0d 0 d a b (by decide) (by decide)) (wordR_bit0 0x0d 0 d a b) ?_ rest
  simp [decode32, zeroed, wordR_m 0x0d 0 d a b (by decide), decPred, wordR_f 0x0d 0 d a b (by decide) (by decide), regD_wordR 0x0d 0 d a b (by decide), regA_wordR 0x0d 0 d a b (by decide), regB_wordR 0x0d 0 d a b (by decide), wordR_d 0x0d 0 d a b (by decide), wordR_a 0x0d 0 d a b (by decide), wordR_b 0x0d 0 d a b (by decide)]
theorem por (d : BitVec 7) (a : BitVec 7) (b : BitVec 7) : Statement (.por d a b) := by
  intro _ rest
  refine round32 (i := .por d a b) (x := wordR 0x0d 1 d a b) rfl rfl (wordR_lt 0x0d 1 d a b (by decide) (by decide)) (wordR_bit0 0x0d 1 d a b) ?_ rest
  simp [decode32, zeroed, wordR_m 0x0d 1 d a b (by decide), decPred, wordR_f 0x0d 1 d a b (by decide) (by decide), regD_wordR 0x0d 1 d a b (by decide), regA_wordR 0x0d 1 d a b (by decide), regB_wordR 0x0d 1 d a b (by decide), wordR_d 0x0d 1 d a b (by decide), wordR_a 0x0d 1 d a b (by decide), wordR_b 0x0d 1 d a b (by decide)]
theorem pxor (d : BitVec 7) (a : BitVec 7) (b : BitVec 7) : Statement (.pxor d a b) := by
  intro _ rest
  refine round32 (i := .pxor d a b) (x := wordR 0x0d 2 d a b) rfl rfl (wordR_lt 0x0d 2 d a b (by decide) (by decide)) (wordR_bit0 0x0d 2 d a b) ?_ rest
  simp [decode32, zeroed, wordR_m 0x0d 2 d a b (by decide), decPred, wordR_f 0x0d 2 d a b (by decide) (by decide), regD_wordR 0x0d 2 d a b (by decide), regA_wordR 0x0d 2 d a b (by decide), regB_wordR 0x0d 2 d a b (by decide), wordR_d 0x0d 2 d a b (by decide), wordR_a 0x0d 2 d a b (by decide), wordR_b 0x0d 2 d a b (by decide)]
theorem pandn (d : BitVec 7) (a : BitVec 7) (b : BitVec 7) : Statement (.pandn d a b) := by
  intro _ rest
  refine round32 (i := .pandn d a b) (x := wordR 0x0d 3 d a b) rfl rfl (wordR_lt 0x0d 3 d a b (by decide) (by decide)) (wordR_bit0 0x0d 3 d a b) ?_ rest
  simp [decode32, zeroed, wordR_m 0x0d 3 d a b (by decide), decPred, wordR_f 0x0d 3 d a b (by decide) (by decide), regD_wordR 0x0d 3 d a b (by decide), regA_wordR 0x0d 3 d a b (by decide), regB_wordR 0x0d 3 d a b (by decide), wordR_d 0x0d 3 d a b (by decide), wordR_a 0x0d 3 d a b (by decide), wordR_b 0x0d 3 d a b (by decide)]
theorem pnot (d : BitVec 7) (a : BitVec 7) : Statement (.pnot d a) := by
  intro _ rest
  refine round32 (i := .pnot d a) (x := wordR 0x0d 4 d a 0#7) rfl rfl (wordR_lt 0x0d 4 d a 0#7 (by decide) (by decide)) (wordR_bit0 0x0d 4 d a 0#7) ?_ rest
  simp [decode32, zeroed, wordR_m 0x0d 4 d a 0#7 (by decide), decPred, wordR_f 0x0d 4 d a 0#7 (by decide) (by decide), regD_wordR 0x0d 4 d a 0#7 (by decide), regA_wordR 0x0d 4 d a 0#7 (by decide), regB_wordR 0x0d 4 d a 0#7 (by decide), wordR_d 0x0d 4 d a 0#7 (by decide), wordR_a 0x0d 4 d a 0#7 (by decide), wordR_b 0x0d 4 d a 0#7 (by decide)]
theorem ptov (d : BitVec 7) : Statement (.ptov d) := by
  intro _ rest
  refine round32 (i := .ptov d) (x := wordR 0x0d 5 d 0#7 0#7) rfl rfl (wordR_lt 0x0d 5 d 0#7 0#7 (by decide) (by decide)) (wordR_bit0 0x0d 5 d 0#7 0#7) ?_ rest
  simp [decode32, zeroed, wordR_m 0x0d 5 d 0#7 0#7 (by decide), decPred, wordR_f 0x0d 5 d 0#7 0#7 (by decide) (by decide), regD_wordR 0x0d 5 d 0#7 0#7 (by decide), regA_wordR 0x0d 5 d 0#7 0#7 (by decide), regB_wordR 0x0d 5 d 0#7 0#7 (by decide), wordR_d 0x0d 5 d 0#7 0#7 (by decide), wordR_a 0x0d 5 d 0#7 0#7 (by decide), wordR_b 0x0d 5 d 0#7 0#7 (by decide)]
theorem vtop (a : BitVec 7) (b : BitVec 7) : Statement (.vtop a b) := by
  intro _ rest
  refine round32 (i := .vtop a b) (x := wordR 0x0d 6 0#7 a b) rfl rfl (wordR_lt 0x0d 6 0#7 a b (by decide) (by decide)) (wordR_bit0 0x0d 6 0#7 a b) ?_ rest
  simp [decode32, zeroed, wordR_m 0x0d 6 0#7 a b (by decide), decPred, wordR_f 0x0d 6 0#7 a b (by decide) (by decide), regD_wordR 0x0d 6 0#7 a b (by decide), regA_wordR 0x0d 6 0#7 a b (by decide), regB_wordR 0x0d 6 0#7 a b (by decide), wordR_d 0x0d 6 0#7 a b (by decide), wordR_a 0x0d 6 0#7 a b (by decide), wordR_b 0x0d 6 0#7 a b (by decide)]
theorem sel (d : BitVec 7) (a : BitVec 7) (b : BitVec 7) (q : BitVec 4) : Statement (.sel d a b q) := by
  intro _ rest
  refine round32 (i := .sel d a b q) (x := wordR 0x0e q.toNat d a b) rfl rfl (wordR_lt 0x0e q.toNat d a b (by decide) q.isLt) (wordR_bit0 0x0e q.toNat d a b) ?_ rest
  simp [decode32, zeroed, wordR_m 0x0e q.toNat d a b (by decide), wordR_f 0x0e q.toNat d a b (by decide) q.isLt, regD_wordR 0x0e q.toNat d a b (by decide), regA_wordR 0x0e q.toNat d a b (by decide), regB_wordR 0x0e q.toNat d a b (by decide), wordR_d 0x0e q.toNat d a b (by decide), wordR_a 0x0e q.toNat d a b (by decide), wordR_b 0x0e q.toNat d a b (by decide)]
theorem voteAny (d : BitVec 7) (a : BitVec 7) : Statement (.voteAny d a) := by
  intro _ rest
  refine round32 (i := .voteAny d a) (x := wordR 0x0f 0 d a 0#7) rfl rfl (wordR_lt 0x0f 0 d a 0#7 (by decide) (by decide)) (wordR_bit0 0x0f 0 d a 0#7) ?_ rest
  simp [decode32, zeroed, wordR_m 0x0f 0 d a 0#7 (by decide), decVote, wordR_f 0x0f 0 d a 0#7 (by decide) (by decide), regD_wordR 0x0f 0 d a 0#7 (by decide), regA_wordR 0x0f 0 d a 0#7 (by decide), regB_wordR 0x0f 0 d a 0#7 (by decide), wordR_d 0x0f 0 d a 0#7 (by decide), wordR_a 0x0f 0 d a 0#7 (by decide), wordR_b 0x0f 0 d a 0#7 (by decide)]
theorem voteAll (d : BitVec 7) (a : BitVec 7) : Statement (.voteAll d a) := by
  intro _ rest
  refine round32 (i := .voteAll d a) (x := wordR 0x0f 1 d a 0#7) rfl rfl (wordR_lt 0x0f 1 d a 0#7 (by decide) (by decide)) (wordR_bit0 0x0f 1 d a 0#7) ?_ rest
  simp [decode32, zeroed, wordR_m 0x0f 1 d a 0#7 (by decide), decVote, wordR_f 0x0f 1 d a 0#7 (by decide) (by decide), regD_wordR 0x0f 1 d a 0#7 (by decide), regA_wordR 0x0f 1 d a 0#7 (by decide), regB_wordR 0x0f 1 d a 0#7 (by decide), wordR_d 0x0f 1 d a 0#7 (by decide), wordR_a 0x0f 1 d a 0#7 (by decide), wordR_b 0x0f 1 d a 0#7 (by decide)]
theorem voteBallot (d : BitVec 7) (a : BitVec 7) : Statement (.voteBallot d a) := by
  intro _ rest
  refine round32 (i := .voteBallot d a) (x := wordR 0x0f 2 d a 0#7) rfl rfl (wordR_lt 0x0f 2 d a 0#7 (by decide) (by decide)) (wordR_bit0 0x0f 2 d a 0#7) ?_ rest
  simp [decode32, zeroed, wordR_m 0x0f 2 d a 0#7 (by decide), decVote, wordR_f 0x0f 2 d a 0#7 (by decide) (by decide), regD_wordR 0x0f 2 d a 0#7 (by decide), regA_wordR 0x0f 2 d a 0#7 (by decide), regB_wordR 0x0f 2 d a 0#7 (by decide), wordR_d 0x0f 2 d a 0#7 (by decide), wordR_a 0x0f 2 d a 0#7 (by decide), wordR_b 0x0f 2 d a 0#7 (by decide)]
theorem voteMatch (d : BitVec 7) (a : BitVec 7) : Statement (.voteMatch d a) := by
  intro _ rest
  refine round32 (i := .voteMatch d a) (x := wordR 0x0f 3 d a 0#7) rfl rfl (wordR_lt 0x0f 3 d a 0#7 (by decide) (by decide)) (wordR_bit0 0x0f 3 d a 0#7) ?_ rest
  simp [decode32, zeroed, wordR_m 0x0f 3 d a 0#7 (by decide), decVote, wordR_f 0x0f 3 d a 0#7 (by decide) (by decide), regD_wordR 0x0f 3 d a 0#7 (by decide), regA_wordR 0x0f 3 d a 0#7 (by decide), regB_wordR 0x0f 3 d a 0#7 (by decide), wordR_d 0x0f 3 d a 0#7 (by decide), wordR_a 0x0f 3 d a 0#7 (by decide), wordR_b 0x0f 3 d a 0#7 (by decide)]
theorem voteActive (d : BitVec 7) : Statement (.voteActive d) := by
  intro _ rest
  refine round32 (i := .voteActive d) (x := wordR 0x0f 4 d 0#7 0#7) rfl rfl (wordR_lt 0x0f 4 d 0#7 0#7 (by decide) (by decide)) (wordR_bit0 0x0f 4 d 0#7 0#7) ?_ rest
  simp [decode32, zeroed, wordR_m 0x0f 4 d 0#7 0#7 (by decide), decVote, wordR_f 0x0f 4 d 0#7 0#7 (by decide) (by decide), regD_wordR 0x0f 4 d 0#7 0#7 (by decide), regA_wordR 0x0f 4 d 0#7 0#7 (by decide), regB_wordR 0x0f 4 d 0#7 0#7 (by decide), wordR_d 0x0f 4 d 0#7 0#7 (by decide), wordR_a 0x0f 4 d 0#7 0#7 (by decide), wordR_b 0x0f 4 d 0#7 0#7 (by decide)]
theorem votePopn (d : BitVec 7) (a : BitVec 7) : Statement (.votePopn d a) := by
  intro _ rest
  refine round32 (i := .votePopn d a) (x := wordR 0x0f 5 d a 0#7) rfl rfl (wordR_lt 0x0f 5 d a 0#7 (by decide) (by decide)) (wordR_bit0 0x0f 5 d a 0#7) ?_ rest
  simp [decode32, zeroed, wordR_m 0x0f 5 d a 0#7 (by decide), decVote, wordR_f 0x0f 5 d a 0#7 (by decide) (by decide), regD_wordR 0x0f 5 d a 0#7 (by decide), regA_wordR 0x0f 5 d a 0#7 (by decide), regB_wordR 0x0f 5 d a 0#7 (by decide), wordR_d 0x0f 5 d a 0#7 (by decide), wordR_a 0x0f 5 d a 0#7 (by decide), wordR_b 0x0f 5 d a 0#7 (by decide)]
theorem shflIdx (d : BitVec 7) (a : BitVec 7) (b : BitVec 7) : Statement (.shflIdx d a b) := by
  intro _ rest
  refine round32 (i := .shflIdx d a b) (x := wordR 0x10 0 d a b) rfl rfl (wordR_lt 0x10 0 d a b (by decide) (by decide)) (wordR_bit0 0x10 0 d a b) ?_ rest
  simp [decode32, zeroed, wordR_m 0x10 0 d a b (by decide), decShfl, wordR_f 0x10 0 d a b (by decide) (by decide), regD_wordR 0x10 0 d a b (by decide), regA_wordR 0x10 0 d a b (by decide), regB_wordR 0x10 0 d a b (by decide), wordR_d 0x10 0 d a b (by decide), wordR_a 0x10 0 d a b (by decide), wordR_b 0x10 0 d a b (by decide)]
theorem shflUp (d : BitVec 7) (a : BitVec 7) (b : BitVec 7) : Statement (.shflUp d a b) := by
  intro _ rest
  refine round32 (i := .shflUp d a b) (x := wordR 0x10 1 d a b) rfl rfl (wordR_lt 0x10 1 d a b (by decide) (by decide)) (wordR_bit0 0x10 1 d a b) ?_ rest
  simp [decode32, zeroed, wordR_m 0x10 1 d a b (by decide), decShfl, wordR_f 0x10 1 d a b (by decide) (by decide), regD_wordR 0x10 1 d a b (by decide), regA_wordR 0x10 1 d a b (by decide), regB_wordR 0x10 1 d a b (by decide), wordR_d 0x10 1 d a b (by decide), wordR_a 0x10 1 d a b (by decide), wordR_b 0x10 1 d a b (by decide)]
theorem shflDown (d : BitVec 7) (a : BitVec 7) (b : BitVec 7) : Statement (.shflDown d a b) := by
  intro _ rest
  refine round32 (i := .shflDown d a b) (x := wordR 0x10 2 d a b) rfl rfl (wordR_lt 0x10 2 d a b (by decide) (by decide)) (wordR_bit0 0x10 2 d a b) ?_ rest
  simp [decode32, zeroed, wordR_m 0x10 2 d a b (by decide), decShfl, wordR_f 0x10 2 d a b (by decide) (by decide), regD_wordR 0x10 2 d a b (by decide), regA_wordR 0x10 2 d a b (by decide), regB_wordR 0x10 2 d a b (by decide), wordR_d 0x10 2 d a b (by decide), wordR_a 0x10 2 d a b (by decide), wordR_b 0x10 2 d a b (by decide)]
theorem shflXor (d : BitVec 7) (a : BitVec 7) (b : BitVec 7) : Statement (.shflXor d a b) := by
  intro _ rest
  refine round32 (i := .shflXor d a b) (x := wordR 0x10 3 d a b) rfl rfl (wordR_lt 0x10 3 d a b (by decide) (by decide)) (wordR_bit0 0x10 3 d a b) ?_ rest
  simp [decode32, zeroed, wordR_m 0x10 3 d a b (by decide), decShfl, wordR_f 0x10 3 d a b (by decide) (by decide), regD_wordR 0x10 3 d a b (by decide), regA_wordR 0x10 3 d a b (by decide), regB_wordR 0x10 3 d a b (by decide), wordR_d 0x10 3 d a b (by decide), wordR_a 0x10 3 d a b (by decide), wordR_b 0x10 3 d a b (by decide)]
theorem shflRdx (d : BitVec 7) (a : BitVec 7) (f : BitVec 4) : Statement (.shflRdx d a f) := by
  intro hw rest
  refine round32 (i := .shflRdx d a f) (x := wordR 0x10 f.toNat d a 0#7) rfl rfl (wordR_lt 0x10 f.toNat d a 0#7 (by decide) f.isLt) (wordR_bit0 0x10 f.toNat d a 0#7) ?_ rest
  have hlt := f.isLt
  have h15 : f.toNat ≠ 15 := by
    intro hc
    simp [Instr.wellFormed, Instr.hasWord, Machine.staticFault, Machine.ownFaults, Machine.lowest, hc] at hw
  have h4 : 4 ≤ f.toNat := by
    rcases Nat.lt_or_ge f.toNat 4 with hc | hc
    · simp [Instr.wellFormed, Instr.hasWord, Machine.staticFault, Machine.ownFaults, Machine.lowest, hc, h15] at hw
    · exact hc
  simp only [decode32, wordR_m 0x10 f.toNat d a 0#7 (by decide), decShfl, wordR_f 0x10 f.toNat d a 0#7 (by decide) f.isLt, regD_wordR 0x10 f.toNat d a 0#7 (by decide), regA_wordR 0x10 f.toNat d a 0#7 (by decide), regB_wordR 0x10 f.toNat d a 0#7 (by decide), wordR_d 0x10 f.toNat d a 0#7 (by decide), wordR_a 0x10 f.toNat d a 0#7 (by decide), wordR_b 0x10 f.toNat d a 0#7 (by decide)]
  split <;> first | omega | simp [zeroed]
theorem fadd (d : BitVec 7) (a : BitVec 7) (b : BitVec 7) : Statement (.fadd d a b) := by
  intro _ rest
  refine round32 (i := .fadd d a b) (x := wordR 0x11 0 d a b) rfl rfl (wordR_lt 0x11 0 d a b (by decide) (by decide)) (wordR_bit0 0x11 0 d a b) ?_ rest
  simp [decode32, zeroed, wordR_m 0x11 0 d a b (by decide), decFpa, wordR_f 0x11 0 d a b (by decide) (by decide), regD_wordR 0x11 0 d a b (by decide), regA_wordR 0x11 0 d a b (by decide), regB_wordR 0x11 0 d a b (by decide), wordR_d 0x11 0 d a b (by decide), wordR_a 0x11 0 d a b (by decide), wordR_b 0x11 0 d a b (by decide)]
theorem fsub (d : BitVec 7) (a : BitVec 7) (b : BitVec 7) : Statement (.fsub d a b) := by
  intro _ rest
  refine round32 (i := .fsub d a b) (x := wordR 0x11 1 d a b) rfl rfl (wordR_lt 0x11 1 d a b (by decide) (by decide)) (wordR_bit0 0x11 1 d a b) ?_ rest
  simp [decode32, zeroed, wordR_m 0x11 1 d a b (by decide), decFpa, wordR_f 0x11 1 d a b (by decide) (by decide), regD_wordR 0x11 1 d a b (by decide), regA_wordR 0x11 1 d a b (by decide), regB_wordR 0x11 1 d a b (by decide), wordR_d 0x11 1 d a b (by decide), wordR_a 0x11 1 d a b (by decide), wordR_b 0x11 1 d a b (by decide)]
theorem fmul (d : BitVec 7) (a : BitVec 7) (b : BitVec 7) : Statement (.fmul d a b) := by
  intro _ rest
  refine round32 (i := .fmul d a b) (x := wordR 0x11 2 d a b) rfl rfl (wordR_lt 0x11 2 d a b (by decide) (by decide)) (wordR_bit0 0x11 2 d a b) ?_ rest
  simp [decode32, zeroed, wordR_m 0x11 2 d a b (by decide), decFpa, wordR_f 0x11 2 d a b (by decide) (by decide), regD_wordR 0x11 2 d a b (by decide), regA_wordR 0x11 2 d a b (by decide), regB_wordR 0x11 2 d a b (by decide), wordR_d 0x11 2 d a b (by decide), wordR_a 0x11 2 d a b (by decide), wordR_b 0x11 2 d a b (by decide)]
theorem ffma (d : BitVec 7) (a : BitVec 7) (b : BitVec 7) : Statement (.ffma d a b) := by
  intro _ rest
  refine round32 (i := .ffma d a b) (x := wordR 0x11 3 d a b) rfl rfl (wordR_lt 0x11 3 d a b (by decide) (by decide)) (wordR_bit0 0x11 3 d a b) ?_ rest
  simp [decode32, zeroed, wordR_m 0x11 3 d a b (by decide), decFpa, wordR_f 0x11 3 d a b (by decide) (by decide), regD_wordR 0x11 3 d a b (by decide), regA_wordR 0x11 3 d a b (by decide), regB_wordR 0x11 3 d a b (by decide), wordR_d 0x11 3 d a b (by decide), wordR_a 0x11 3 d a b (by decide), wordR_b 0x11 3 d a b (by decide)]
theorem fmin (d : BitVec 7) (a : BitVec 7) (b : BitVec 7) : Statement (.fmin d a b) := by
  intro _ rest
  refine round32 (i := .fmin d a b) (x := wordR 0x11 4 d a b) rfl rfl (wordR_lt 0x11 4 d a b (by decide) (by decide)) (wordR_bit0 0x11 4 d a b) ?_ rest
  simp [decode32, zeroed, wordR_m 0x11 4 d a b (by decide), decFpa, wordR_f 0x11 4 d a b (by decide) (by decide), regD_wordR 0x11 4 d a b (by decide), regA_wordR 0x11 4 d a b (by decide), regB_wordR 0x11 4 d a b (by decide), wordR_d 0x11 4 d a b (by decide), wordR_a 0x11 4 d a b (by decide), wordR_b 0x11 4 d a b (by decide)]
theorem fmax (d : BitVec 7) (a : BitVec 7) (b : BitVec 7) : Statement (.fmax d a b) := by
  intro _ rest
  refine round32 (i := .fmax d a b) (x := wordR 0x11 5 d a b) rfl rfl (wordR_lt 0x11 5 d a b (by decide) (by decide)) (wordR_bit0 0x11 5 d a b) ?_ rest
  simp [decode32, zeroed, wordR_m 0x11 5 d a b (by decide), decFpa, wordR_f 0x11 5 d a b (by decide) (by decide), regD_wordR 0x11 5 d a b (by decide), regA_wordR 0x11 5 d a b (by decide), regB_wordR 0x11 5 d a b (by decide), wordR_d 0x11 5 d a b (by decide), wordR_a 0x11 5 d a b (by decide), wordR_b 0x11 5 d a b (by decide)]
theorem fminn (d : BitVec 7) (a : BitVec 7) (b : BitVec 7) : Statement (.fminn d a b) := by
  intro _ rest
  refine round32 (i := .fminn d a b) (x := wordR 0x11 6 d a b) rfl rfl (wordR_lt 0x11 6 d a b (by decide) (by decide)) (wordR_bit0 0x11 6 d a b) ?_ rest
  simp [decode32, zeroed, wordR_m 0x11 6 d a b (by decide), decFpa, wordR_f 0x11 6 d a b (by decide) (by decide), regD_wordR 0x11 6 d a b (by decide), regA_wordR 0x11 6 d a b (by decide), regB_wordR 0x11 6 d a b (by decide), wordR_d 0x11 6 d a b (by decide), wordR_a 0x11 6 d a b (by decide), wordR_b 0x11 6 d a b (by decide)]
theorem fmaxn (d : BitVec 7) (a : BitVec 7) (b : BitVec 7) : Statement (.fmaxn d a b) := by
  intro _ rest
  refine round32 (i := .fmaxn d a b) (x := wordR 0x11 7 d a b) rfl rfl (wordR_lt 0x11 7 d a b (by decide) (by decide)) (wordR_bit0 0x11 7 d a b) ?_ rest
  simp [decode32, zeroed, wordR_m 0x11 7 d a b (by decide), decFpa, wordR_f 0x11 7 d a b (by decide) (by decide), regD_wordR 0x11 7 d a b (by decide), regA_wordR 0x11 7 d a b (by decide), regB_wordR 0x11 7 d a b (by decide), wordR_d 0x11 7 d a b (by decide), wordR_a 0x11 7 d a b (by decide), wordR_b 0x11 7 d a b (by decide)]
theorem fcopys (d : BitVec 7) (a : BitVec 7) (b : BitVec 7) : Statement (.fcopys d a b) := by
  intro _ rest
  refine round32 (i := .fcopys d a b) (x := wordR 0x11 8 d a b) rfl rfl (wordR_lt 0x11 8 d a b (by decide) (by decide)) (wordR_bit0 0x11 8 d a b) ?_ rest
  simp [decode32, zeroed, wordR_m 0x11 8 d a b (by decide), decFpa, wordR_f 0x11 8 d a b (by decide) (by decide), regD_wordR 0x11 8 d a b (by decide), regA_wordR 0x11 8 d a b (by decide), regB_wordR 0x11 8 d a b (by decide), wordR_d 0x11 8 d a b (by decide), wordR_a 0x11 8 d a b (by decide), wordR_b 0x11 8 d a b (by decide)]
theorem fnma (d : BitVec 7) (a : BitVec 7) (b : BitVec 7) : Statement (.fnma d a b) := by
  intro _ rest
  refine round32 (i := .fnma d a b) (x := wordR 0x11 9 d a b) rfl rfl (wordR_lt 0x11 9 d a b (by decide) (by decide)) (wordR_bit0 0x11 9 d a b) ?_ rest
  simp [decode32, zeroed, wordR_m 0x11 9 d a b (by decide), decFpa, wordR_f 0x11 9 d a b (by decide) (by decide), regD_wordR 0x11 9 d a b (by decide), regA_wordR 0x11 9 d a b (by decide), regB_wordR 0x11 9 d a b (by decide), wordR_d 0x11 9 d a b (by decide), wordR_a 0x11 9 d a b (by decide), wordR_b 0x11 9 d a b (by decide)]
theorem fldx (d : BitVec 7) (a : BitVec 7) (b : BitVec 7) : Statement (.fldx d a b) := by
  intro _ rest
  refine round32 (i := .fldx d a b) (x := wordR 0x11 10 d a b) rfl rfl (wordR_lt 0x11 10 d a b (by decide) (by decide)) (wordR_bit0 0x11 10 d a b) ?_ rest
  simp [decode32, zeroed, wordR_m 0x11 10 d a b (by decide), decFpa, wordR_f 0x11 10 d a b (by decide) (by decide), regD_wordR 0x11 10 d a b (by decide), regA_wordR 0x11 10 d a b (by decide), regB_wordR 0x11 10 d a b (by decide), wordR_d 0x11 10 d a b (by decide), wordR_a 0x11 10 d a b (by decide), wordR_b 0x11 10 d a b (by decide)]
theorem hadd2 (d : BitVec 7) (a : BitVec 7) (b : BitVec 7) : Statement (.hadd2 d a b) := by
  intro _ rest
  refine round32 (i := .hadd2 d a b) (x := wordR 0x12 0 d a b) rfl rfl (wordR_lt 0x12 0 d a b (by decide) (by decide)) (wordR_bit0 0x12 0 d a b) ?_ rest
  simp [decode32, zeroed, wordR_m 0x12 0 d a b (by decide), decFph, wordR_f 0x12 0 d a b (by decide) (by decide), regD_wordR 0x12 0 d a b (by decide), regA_wordR 0x12 0 d a b (by decide), regB_wordR 0x12 0 d a b (by decide), wordR_d 0x12 0 d a b (by decide), wordR_a 0x12 0 d a b (by decide), wordR_b 0x12 0 d a b (by decide)]
theorem hmul2 (d : BitVec 7) (a : BitVec 7) (b : BitVec 7) : Statement (.hmul2 d a b) := by
  intro _ rest
  refine round32 (i := .hmul2 d a b) (x := wordR 0x12 1 d a b) rfl rfl (wordR_lt 0x12 1 d a b (by decide) (by decide)) (wordR_bit0 0x12 1 d a b) ?_ rest
  simp [decode32, zeroed, wordR_m 0x12 1 d a b (by decide), decFph, wordR_f 0x12 1 d a b (by decide) (by decide), regD_wordR 0x12 1 d a b (by decide), regA_wordR 0x12 1 d a b (by decide), regB_wordR 0x12 1 d a b (by decide), wordR_d 0x12 1 d a b (by decide), wordR_a 0x12 1 d a b (by decide), wordR_b 0x12 1 d a b (by decide)]
theorem hfma2 (d : BitVec 7) (a : BitVec 7) (b : BitVec 7) : Statement (.hfma2 d a b) := by
  intro _ rest
  refine round32 (i := .hfma2 d a b) (x := wordR 0x12 2 d a b) rfl rfl (wordR_lt 0x12 2 d a b (by decide) (by decide)) (wordR_bit0 0x12 2 d a b) ?_ rest
  simp [decode32, zeroed, wordR_m 0x12 2 d a b (by decide), decFph, wordR_f 0x12 2 d a b (by decide) (by decide), regD_wordR 0x12 2 d a b (by decide), regA_wordR 0x12 2 d a b (by decide), regB_wordR 0x12 2 d a b (by decide), wordR_d 0x12 2 d a b (by decide), wordR_a 0x12 2 d a b (by decide), wordR_b 0x12 2 d a b (by decide)]
theorem hmin2 (d : BitVec 7) (a : BitVec 7) (b : BitVec 7) : Statement (.hmin2 d a b) := by
  intro _ rest
  refine round32 (i := .hmin2 d a b) (x := wordR 0x12 3 d a b) rfl rfl (wordR_lt 0x12 3 d a b (by decide) (by decide)) (wordR_bit0 0x12 3 d a b) ?_ rest
  simp [decode32, zeroed, wordR_m 0x12 3 d a b (by decide), decFph, wordR_f 0x12 3 d a b (by decide) (by decide), regD_wordR 0x12 3 d a b (by decide), regA_wordR 0x12 3 d a b (by decide), regB_wordR 0x12 3 d a b (by decide), wordR_d 0x12 3 d a b (by decide), wordR_a 0x12 3 d a b (by decide), wordR_b 0x12 3 d a b (by decide)]
theorem hmax2 (d : BitVec 7) (a : BitVec 7) (b : BitVec 7) : Statement (.hmax2 d a b) := by
  intro _ rest
  refine round32 (i := .hmax2 d a b) (x := wordR 0x12 4 d a b) rfl rfl (wordR_lt 0x12 4 d a b (by decide) (by decide)) (wordR_bit0 0x12 4 d a b) ?_ rest
  simp [decode32, zeroed, wordR_m 0x12 4 d a b (by decide), decFph, wordR_f 0x12 4 d a b (by decide) (by decide), regD_wordR 0x12 4 d a b (by decide), regA_wordR 0x12 4 d a b (by decide), regB_wordR 0x12 4 d a b (by decide), wordR_d 0x12 4 d a b (by decide), wordR_a 0x12 4 d a b (by decide), wordR_b 0x12 4 d a b (by decide)]
theorem hpk (d : BitVec 7) (a : BitVec 7) (b : BitVec 7) : Statement (.hpk d a b) := by
  intro _ rest
  refine round32 (i := .hpk d a b) (x := wordR 0x12 5 d a b) rfl rfl (wordR_lt 0x12 5 d a b (by decide) (by decide)) (wordR_bit0 0x12 5 d a b) ?_ rest
  simp [decode32, zeroed, wordR_m 0x12 5 d a b (by decide), decFph, wordR_f 0x12 5 d a b (by decide) (by decide), regD_wordR 0x12 5 d a b (by decide), regA_wordR 0x12 5 d a b (by decide), regB_wordR 0x12 5 d a b (by decide), wordR_d 0x12 5 d a b (by decide), wordR_a 0x12 5 d a b (by decide), wordR_b 0x12 5 d a b (by decide)]
theorem bpk (d : BitVec 7) (a : BitVec 7) (b : BitVec 7) : Statement (.bpk d a b) := by
  intro _ rest
  refine round32 (i := .bpk d a b) (x := wordR 0x12 6 d a b) rfl rfl (wordR_lt 0x12 6 d a b (by decide) (by decide)) (wordR_bit0 0x12 6 d a b) ?_ rest
  simp [decode32, zeroed, wordR_m 0x12 6 d a b (by decide), decFph, wordR_f 0x12 6 d a b (by decide) (by decide), regD_wordR 0x12 6 d a b (by decide), regA_wordR 0x12 6 d a b (by decide), regB_wordR 0x12 6 d a b (by decide), wordR_d 0x12 6 d a b (by decide), wordR_a 0x12 6 d a b (by decide), wordR_b 0x12 6 d a b (by decide)]
theorem badd2 (d : BitVec 7) (a : BitVec 7) (b : BitVec 7) : Statement (.badd2 d a b) := by
  intro _ rest
  refine round32 (i := .badd2 d a b) (x := wordR 0x12 8 d a b) rfl rfl (wordR_lt 0x12 8 d a b (by decide) (by decide)) (wordR_bit0 0x12 8 d a b) ?_ rest
  simp [decode32, zeroed, wordR_m 0x12 8 d a b (by decide), decFph, wordR_f 0x12 8 d a b (by decide) (by decide), regD_wordR 0x12 8 d a b (by decide), regA_wordR 0x12 8 d a b (by decide), regB_wordR 0x12 8 d a b (by decide), wordR_d 0x12 8 d a b (by decide), wordR_a 0x12 8 d a b (by decide), wordR_b 0x12 8 d a b (by decide)]
theorem bmul2 (d : BitVec 7) (a : BitVec 7) (b : BitVec 7) : Statement (.bmul2 d a b) := by
  intro _ rest
  refine round32 (i := .bmul2 d a b) (x := wordR 0x12 9 d a b) rfl rfl (wordR_lt 0x12 9 d a b (by decide) (by decide)) (wordR_bit0 0x12 9 d a b) ?_ rest
  simp [decode32, zeroed, wordR_m 0x12 9 d a b (by decide), decFph, wordR_f 0x12 9 d a b (by decide) (by decide), regD_wordR 0x12 9 d a b (by decide), regA_wordR 0x12 9 d a b (by decide), regB_wordR 0x12 9 d a b (by decide), wordR_d 0x12 9 d a b (by decide), wordR_a 0x12 9 d a b (by decide), wordR_b 0x12 9 d a b (by decide)]
theorem bfma2 (d : BitVec 7) (a : BitVec 7) (b : BitVec 7) : Statement (.bfma2 d a b) := by
  intro _ rest
  refine round32 (i := .bfma2 d a b) (x := wordR 0x12 10 d a b) rfl rfl (wordR_lt 0x12 10 d a b (by decide) (by decide)) (wordR_bit0 0x12 10 d a b) ?_ rest
  simp [decode32, zeroed, wordR_m 0x12 10 d a b (by decide), decFph, wordR_f 0x12 10 d a b (by decide) (by decide), regD_wordR 0x12 10 d a b (by decide), regA_wordR 0x12 10 d a b (by decide), regB_wordR 0x12 10 d a b (by decide), wordR_d 0x12 10 d a b (by decide), wordR_a 0x12 10 d a b (by decide), wordR_b 0x12 10 d a b (by decide)]
theorem bmin2 (d : BitVec 7) (a : BitVec 7) (b : BitVec 7) : Statement (.bmin2 d a b) := by
  intro _ rest
  refine round32 (i := .bmin2 d a b) (x := wordR 0x12 11 d a b) rfl rfl (wordR_lt 0x12 11 d a b (by decide) (by decide)) (wordR_bit0 0x12 11 d a b) ?_ rest
  simp [decode32, zeroed, wordR_m 0x12 11 d a b (by decide), decFph, wordR_f 0x12 11 d a b (by decide) (by decide), regD_wordR 0x12 11 d a b (by decide), regA_wordR 0x12 11 d a b (by decide), regB_wordR 0x12 11 d a b (by decide), wordR_d 0x12 11 d a b (by decide), wordR_a 0x12 11 d a b (by decide), wordR_b 0x12 11 d a b (by decide)]
theorem bmax2 (d : BitVec 7) (a : BitVec 7) (b : BitVec 7) : Statement (.bmax2 d a b) := by
  intro _ rest
  refine round32 (i := .bmax2 d a b) (x := wordR 0x12 12 d a b) rfl rfl (wordR_lt 0x12 12 d a b (by decide) (by decide)) (wordR_bit0 0x12 12 d a b) ?_ rest
  simp [decode32, zeroed, wordR_m 0x12 12 d a b (by decide), decFph, wordR_f 0x12 12 d a b (by decide) (by decide), regD_wordR 0x12 12 d a b (by decide), regA_wordR 0x12 12 d a b (by decide), regB_wordR 0x12 12 d a b (by decide), wordR_d 0x12 12 d a b (by decide), wordR_a 0x12 12 d a b (by decide), wordR_b 0x12 12 d a b (by decide)]
theorem htof (d : BitVec 7) (a : BitVec 7) (s : BitVec 7) : Statement (.htof d a s) := by
  intro _ rest
  refine round32 (i := .htof d a s) (x := wordR 0x12 13 d a s) rfl rfl (wordR_lt 0x12 13 d a s (by decide) (by decide)) (wordR_bit0 0x12 13 d a s) ?_ rest
  simp [decode32, zeroed, wordR_m 0x12 13 d a s (by decide), decFph, wordR_f 0x12 13 d a s (by decide) (by decide), regD_wordR 0x12 13 d a s (by decide), regA_wordR 0x12 13 d a s (by decide), regB_wordR 0x12 13 d a s (by decide), wordR_d 0x12 13 d a s (by decide), wordR_a 0x12 13 d a s (by decide), wordR_b 0x12 13 d a s (by decide)]
theorem btof (d : BitVec 7) (a : BitVec 7) (s : BitVec 7) : Statement (.btof d a s) := by
  intro _ rest
  refine round32 (i := .btof d a s) (x := wordR 0x12 14 d a s) rfl rfl (wordR_lt 0x12 14 d a s (by decide) (by decide)) (wordR_bit0 0x12 14 d a s) ?_ rest
  simp [decode32, zeroed, wordR_m 0x12 14 d a s (by decide), decFph, wordR_f 0x12 14 d a s (by decide) (by decide), regD_wordR 0x12 14 d a s (by decide), regA_wordR 0x12 14 d a s (by decide), regB_wordR 0x12 14 d a s (by decide), wordR_d 0x12 14 d a s (by decide), wordR_a 0x12 14 d a s (by decide), wordR_b 0x12 14 d a s (by decide)]
theorem dadd (d : BitVec 7) (a : BitVec 7) (b : BitVec 7) : Statement (.dadd d a b) := by
  intro _ rest
  refine round32 (i := .dadd d a b) (x := wordR 0x13 0 d a b) rfl rfl (wordR_lt 0x13 0 d a b (by decide) (by decide)) (wordR_bit0 0x13 0 d a b) ?_ rest
  simp [decode32, zeroed, wordR_m 0x13 0 d a b (by decide), decFpd, wordR_f 0x13 0 d a b (by decide) (by decide), regD_wordR 0x13 0 d a b (by decide), regA_wordR 0x13 0 d a b (by decide), regB_wordR 0x13 0 d a b (by decide), wordR_d 0x13 0 d a b (by decide), wordR_a 0x13 0 d a b (by decide), wordR_b 0x13 0 d a b (by decide)]
theorem dsub (d : BitVec 7) (a : BitVec 7) (b : BitVec 7) : Statement (.dsub d a b) := by
  intro _ rest
  refine round32 (i := .dsub d a b) (x := wordR 0x13 1 d a b) rfl rfl (wordR_lt 0x13 1 d a b (by decide) (by decide)) (wordR_bit0 0x13 1 d a b) ?_ rest
  simp [decode32, zeroed, wordR_m 0x13 1 d a b (by decide), decFpd, wordR_f 0x13 1 d a b (by decide) (by decide), regD_wordR 0x13 1 d a b (by decide), regA_wordR 0x13 1 d a b (by decide), regB_wordR 0x13 1 d a b (by decide), wordR_d 0x13 1 d a b (by decide), wordR_a 0x13 1 d a b (by decide), wordR_b 0x13 1 d a b (by decide)]
theorem dmul (d : BitVec 7) (a : BitVec 7) (b : BitVec 7) : Statement (.dmul d a b) := by
  intro _ rest
  refine round32 (i := .dmul d a b) (x := wordR 0x13 2 d a b) rfl rfl (wordR_lt 0x13 2 d a b (by decide) (by decide)) (wordR_bit0 0x13 2 d a b) ?_ rest
  simp [decode32, zeroed, wordR_m 0x13 2 d a b (by decide), decFpd, wordR_f 0x13 2 d a b (by decide) (by decide), regD_wordR 0x13 2 d a b (by decide), regA_wordR 0x13 2 d a b (by decide), regB_wordR 0x13 2 d a b (by decide), wordR_d 0x13 2 d a b (by decide), wordR_a 0x13 2 d a b (by decide), wordR_b 0x13 2 d a b (by decide)]
theorem dfma (d : BitVec 7) (a : BitVec 7) (b : BitVec 7) : Statement (.dfma d a b) := by
  intro _ rest
  refine round32 (i := .dfma d a b) (x := wordR 0x13 3 d a b) rfl rfl (wordR_lt 0x13 3 d a b (by decide) (by decide)) (wordR_bit0 0x13 3 d a b) ?_ rest
  simp [decode32, zeroed, wordR_m 0x13 3 d a b (by decide), decFpd, wordR_f 0x13 3 d a b (by decide) (by decide), regD_wordR 0x13 3 d a b (by decide), regA_wordR 0x13 3 d a b (by decide), regB_wordR 0x13 3 d a b (by decide), wordR_d 0x13 3 d a b (by decide), wordR_a 0x13 3 d a b (by decide), wordR_b 0x13 3 d a b (by decide)]
theorem dmin (d : BitVec 7) (a : BitVec 7) (b : BitVec 7) : Statement (.dmin d a b) := by
  intro _ rest
  refine round32 (i := .dmin d a b) (x := wordR 0x13 4 d a b) rfl rfl (wordR_lt 0x13 4 d a b (by decide) (by decide)) (wordR_bit0 0x13 4 d a b) ?_ rest
  simp [decode32, zeroed, wordR_m 0x13 4 d a b (by decide), decFpd, wordR_f 0x13 4 d a b (by decide) (by decide), regD_wordR 0x13 4 d a b (by decide), regA_wordR 0x13 4 d a b (by decide), regB_wordR 0x13 4 d a b (by decide), wordR_d 0x13 4 d a b (by decide), wordR_a 0x13 4 d a b (by decide), wordR_b 0x13 4 d a b (by decide)]
theorem dmax (d : BitVec 7) (a : BitVec 7) (b : BitVec 7) : Statement (.dmax d a b) := by
  intro _ rest
  refine round32 (i := .dmax d a b) (x := wordR 0x13 5 d a b) rfl rfl (wordR_lt 0x13 5 d a b (by decide) (by decide)) (wordR_bit0 0x13 5 d a b) ?_ rest
  simp [decode32, zeroed, wordR_m 0x13 5 d a b (by decide), decFpd, wordR_f 0x13 5 d a b (by decide) (by decide), regD_wordR 0x13 5 d a b (by decide), regA_wordR 0x13 5 d a b (by decide), regB_wordR 0x13 5 d a b (by decide), wordR_d 0x13 5 d a b (by decide), wordR_a 0x13 5 d a b (by decide), wordR_b 0x13 5 d a b (by decide)]
theorem fcmp (p : BitVec 5) (g : BitVec 2) (a : BitVec 7) (b : BitVec 7) (c : BitVec 4) : Statement (.fcmp p g a b c) := by
  intro _ rest
  refine round32 (i := .fcmp p g a b c) (x := wordC 0x14 p g a b c) rfl rfl (wordC_lt 0x14 p g a b c (by decide)) (wordC_bit0 0x14 p g a b c) ?_ rest
  simp [decode32, zeroed, wordC_m 0x14 p g a b c (by decide), wordC_p 0x14 p g a b c (by decide), wordC_g 0x14 p g a b c (by decide), wordC_a 0x14 p g a b c (by decide), wordC_b 0x14 p g a b c (by decide), wordC_c 0x14 p g a b c (by decide), regD, regA, regB]
theorem ex2 (d : BitVec 7) (a : BitVec 7) : Statement (.ex2 d a) := by
  intro _ rest
  refine round32 (i := .ex2 d a) (x := wordR 0x15 0 d a 0#7) rfl rfl (wordR_lt 0x15 0 d a 0#7 (by decide) (by decide)) (wordR_bit0 0x15 0 d a 0#7) ?_ rest
  simp [decode32, zeroed, wordR_m 0x15 0 d a 0#7 (by decide), decFspec, wordR_f 0x15 0 d a 0#7 (by decide) (by decide), regD_wordR 0x15 0 d a 0#7 (by decide), regA_wordR 0x15 0 d a 0#7 (by decide), regB_wordR 0x15 0 d a 0#7 (by decide), wordR_d 0x15 0 d a 0#7 (by decide), wordR_a 0x15 0 d a 0#7 (by decide), wordR_b 0x15 0 d a 0#7 (by decide)]
theorem lg2 (d : BitVec 7) (a : BitVec 7) : Statement (.lg2 d a) := by
  intro _ rest
  refine round32 (i := .lg2 d a) (x := wordR 0x15 1 d a 0#7) rfl rfl (wordR_lt 0x15 1 d a 0#7 (by decide) (by decide)) (wordR_bit0 0x15 1 d a 0#7) ?_ rest
  simp [decode32, zeroed, wordR_m 0x15 1 d a 0#7 (by decide), decFspec, wordR_f 0x15 1 d a 0#7 (by decide) (by decide), regD_wordR 0x15 1 d a 0#7 (by decide), regA_wordR 0x15 1 d a 0#7 (by decide), regB_wordR 0x15 1 d a 0#7 (by decide), wordR_d 0x15 1 d a 0#7 (by decide), wordR_a 0x15 1 d a 0#7 (by decide), wordR_b 0x15 1 d a 0#7 (by decide)]
theorem rcp (d : BitVec 7) (a : BitVec 7) : Statement (.rcp d a) := by
  intro _ rest
  refine round32 (i := .rcp d a) (x := wordR 0x15 2 d a 0#7) rfl rfl (wordR_lt 0x15 2 d a 0#7 (by decide) (by decide)) (wordR_bit0 0x15 2 d a 0#7) ?_ rest
  simp [decode32, zeroed, wordR_m 0x15 2 d a 0#7 (by decide), decFspec, wordR_f 0x15 2 d a 0#7 (by decide) (by decide), regD_wordR 0x15 2 d a 0#7 (by decide), regA_wordR 0x15 2 d a 0#7 (by decide), regB_wordR 0x15 2 d a 0#7 (by decide), wordR_d 0x15 2 d a 0#7 (by decide), wordR_a 0x15 2 d a 0#7 (by decide), wordR_b 0x15 2 d a 0#7 (by decide)]
theorem rsq (d : BitVec 7) (a : BitVec 7) : Statement (.rsq d a) := by
  intro _ rest
  refine round32 (i := .rsq d a) (x := wordR 0x15 3 d a 0#7) rfl rfl (wordR_lt 0x15 3 d a 0#7 (by decide) (by decide)) (wordR_bit0 0x15 3 d a 0#7) ?_ rest
  simp [decode32, zeroed, wordR_m 0x15 3 d a 0#7 (by decide), decFspec, wordR_f 0x15 3 d a 0#7 (by decide) (by decide), regD_wordR 0x15 3 d a 0#7 (by decide), regA_wordR 0x15 3 d a 0#7 (by decide), regB_wordR 0x15 3 d a 0#7 (by decide), wordR_d 0x15 3 d a 0#7 (by decide), wordR_a 0x15 3 d a 0#7 (by decide), wordR_b 0x15 3 d a 0#7 (by decide)]
theorem sqrt (d : BitVec 7) (a : BitVec 7) : Statement (.sqrt d a) := by
  intro _ rest
  refine round32 (i := .sqrt d a) (x := wordR 0x15 4 d a 0#7) rfl rfl (wordR_lt 0x15 4 d a 0#7 (by decide) (by decide)) (wordR_bit0 0x15 4 d a 0#7) ?_ rest
  simp [decode32, zeroed, wordR_m 0x15 4 d a 0#7 (by decide), decFspec, wordR_f 0x15 4 d a 0#7 (by decide) (by decide), regD_wordR 0x15 4 d a 0#7 (by decide), regA_wordR 0x15 4 d a 0#7 (by decide), regB_wordR 0x15 4 d a 0#7 (by decide), wordR_d 0x15 4 d a 0#7 (by decide), wordR_a 0x15 4 d a 0#7 (by decide), wordR_b 0x15 4 d a 0#7 (by decide)]
theorem sin (d : BitVec 7) (a : BitVec 7) : Statement (.sin d a) := by
  intro _ rest
  refine round32 (i := .sin d a) (x := wordR 0x15 5 d a 0#7) rfl rfl (wordR_lt 0x15 5 d a 0#7 (by decide) (by decide)) (wordR_bit0 0x15 5 d a 0#7) ?_ rest
  simp [decode32, zeroed, wordR_m 0x15 5 d a 0#7 (by decide), decFspec, wordR_f 0x15 5 d a 0#7 (by decide) (by decide), regD_wordR 0x15 5 d a 0#7 (by decide), regA_wordR 0x15 5 d a 0#7 (by decide), regB_wordR 0x15 5 d a 0#7 (by decide), wordR_d 0x15 5 d a 0#7 (by decide), wordR_a 0x15 5 d a 0#7 (by decide), wordR_b 0x15 5 d a 0#7 (by decide)]
theorem cos (d : BitVec 7) (a : BitVec 7) : Statement (.cos d a) := by
  intro _ rest
  refine round32 (i := .cos d a) (x := wordR 0x15 6 d a 0#7) rfl rfl (wordR_lt 0x15 6 d a 0#7 (by decide) (by decide)) (wordR_bit0 0x15 6 d a 0#7) ?_ rest
  simp [decode32, zeroed, wordR_m 0x15 6 d a 0#7 (by decide), decFspec, wordR_f 0x15 6 d a 0#7 (by decide) (by decide), regD_wordR 0x15 6 d a 0#7 (by decide), regA_wordR 0x15 6 d a 0#7 (by decide), regB_wordR 0x15 6 d a 0#7 (by decide), wordR_d 0x15 6 d a 0#7 (by decide), wordR_a 0x15 6 d a 0#7 (by decide), wordR_b 0x15 6 d a 0#7 (by decide)]
theorem tanh (d : BitVec 7) (a : BitVec 7) : Statement (.tanh d a) := by
  intro _ rest
  refine round32 (i := .tanh d a) (x := wordR 0x15 7 d a 0#7) rfl rfl (wordR_lt 0x15 7 d a 0#7 (by decide) (by decide)) (wordR_bit0 0x15 7 d a 0#7) ?_ rest
  simp [decode32, zeroed, wordR_m 0x15 7 d a 0#7 (by decide), decFspec, wordR_f 0x15 7 d a 0#7 (by decide) (by decide), regD_wordR 0x15 7 d a 0#7 (by decide), regA_wordR 0x15 7 d a 0#7 (by decide), regB_wordR 0x15 7 d a 0#7 (by decide), wordR_d 0x15 7 d a 0#7 (by decide), wordR_a 0x15 7 d a 0#7 (by decide), wordR_b 0x15 7 d a 0#7 (by decide)]
theorem rndn (d : BitVec 7) (a : BitVec 7) : Statement (.rndn d a) := by
  intro _ rest
  refine round32 (i := .rndn d a) (x := wordR 0x15 8 d a 0#7) rfl rfl (wordR_lt 0x15 8 d a 0#7 (by decide) (by decide)) (wordR_bit0 0x15 8 d a 0#7) ?_ rest
  simp [decode32, zeroed, wordR_m 0x15 8 d a 0#7 (by decide), decFspec, wordR_f 0x15 8 d a 0#7 (by decide) (by decide), regD_wordR 0x15 8 d a 0#7 (by decide), regA_wordR 0x15 8 d a 0#7 (by decide), regB_wordR 0x15 8 d a 0#7 (by decide), wordR_d 0x15 8 d a 0#7 (by decide), wordR_a 0x15 8 d a 0#7 (by decide), wordR_b 0x15 8 d a 0#7 (by decide)]
theorem rndz (d : BitVec 7) (a : BitVec 7) : Statement (.rndz d a) := by
  intro _ rest
  refine round32 (i := .rndz d a) (x := wordR 0x15 9 d a 0#7) rfl rfl (wordR_lt 0x15 9 d a 0#7 (by decide) (by decide)) (wordR_bit0 0x15 9 d a 0#7) ?_ rest
  simp [decode32, zeroed, wordR_m 0x15 9 d a 0#7 (by decide), decFspec, wordR_f 0x15 9 d a 0#7 (by decide) (by decide), regD_wordR 0x15 9 d a 0#7 (by decide), regA_wordR 0x15 9 d a 0#7 (by decide), regB_wordR 0x15 9 d a 0#7 (by decide), wordR_d 0x15 9 d a 0#7 (by decide), wordR_a 0x15 9 d a 0#7 (by decide), wordR_b 0x15 9 d a 0#7 (by decide)]
theorem rndd (d : BitVec 7) (a : BitVec 7) : Statement (.rndd d a) := by
  intro _ rest
  refine round32 (i := .rndd d a) (x := wordR 0x15 10 d a 0#7) rfl rfl (wordR_lt 0x15 10 d a 0#7 (by decide) (by decide)) (wordR_bit0 0x15 10 d a 0#7) ?_ rest
  simp [decode32, zeroed, wordR_m 0x15 10 d a 0#7 (by decide), decFspec, wordR_f 0x15 10 d a 0#7 (by decide) (by decide), regD_wordR 0x15 10 d a 0#7 (by decide), regA_wordR 0x15 10 d a 0#7 (by decide), regB_wordR 0x15 10 d a 0#7 (by decide), wordR_d 0x15 10 d a 0#7 (by decide), wordR_a 0x15 10 d a 0#7 (by decide), wordR_b 0x15 10 d a 0#7 (by decide)]
theorem rndu (d : BitVec 7) (a : BitVec 7) : Statement (.rndu d a) := by
  intro _ rest
  refine round32 (i := .rndu d a) (x := wordR 0x15 11 d a 0#7) rfl rfl (wordR_lt 0x15 11 d a 0#7 (by decide) (by decide)) (wordR_bit0 0x15 11 d a 0#7) ?_ rest
  simp [decode32, zeroed, wordR_m 0x15 11 d a 0#7 (by decide), decFspec, wordR_f 0x15 11 d a 0#7 (by decide) (by decide), regD_wordR 0x15 11 d a 0#7 (by decide), regA_wordR 0x15 11 d a 0#7 (by decide), regB_wordR 0x15 11 d a 0#7 (by decide), wordR_d 0x15 11 d a 0#7 (by decide), wordR_a 0x15 11 d a 0#7 (by decide), wordR_b 0x15 11 d a 0#7 (by decide)]
theorem fclass (d : BitVec 7) (a : BitVec 7) : Statement (.fclass d a) := by
  intro _ rest
  refine round32 (i := .fclass d a) (x := wordR 0x15 12 d a 0#7) rfl rfl (wordR_lt 0x15 12 d a 0#7 (by decide) (by decide)) (wordR_bit0 0x15 12 d a 0#7) ?_ rest
  simp [decode32, zeroed, wordR_m 0x15 12 d a 0#7 (by decide), decFspec, wordR_f 0x15 12 d a 0#7 (by decide) (by decide), regD_wordR 0x15 12 d a 0#7 (by decide), regA_wordR 0x15 12 d a 0#7 (by decide), regB_wordR 0x15 12 d a 0#7 (by decide), wordR_d 0x15 12 d a 0#7 (by decide), wordR_a 0x15 12 d a 0#7 (by decide), wordR_b 0x15 12 d a 0#7 (by decide)]
theorem sig (d : BitVec 7) (a : BitVec 7) : Statement (.sig d a) := by
  intro _ rest
  refine round32 (i := .sig d a) (x := wordR 0x15 13 d a 0#7) rfl rfl (wordR_lt 0x15 13 d a 0#7 (by decide) (by decide)) (wordR_bit0 0x15 13 d a 0#7) ?_ rest
  simp [decode32, zeroed, wordR_m 0x15 13 d a 0#7 (by decide), decFspec, wordR_f 0x15 13 d a 0#7 (by decide) (by decide), regD_wordR 0x15 13 d a 0#7 (by decide), regA_wordR 0x15 13 d a 0#7 (by decide), regB_wordR 0x15 13 d a 0#7 (by decide), wordR_d 0x15 13 d a 0#7 (by decide), wordR_a 0x15 13 d a 0#7 (by decide), wordR_b 0x15 13 d a 0#7 (by decide)]
theorem fcvt (d : BitVec 7) (a : BitVec 7) (w : BitVec 5) (r : BitVec 5) (t : BitVec 1) : Statement (.fcvt d a w r t) := by
  intro _ rest
  refine round32 (i := .fcvt d a w r t) (x := wordF d a w r t) rfl rfl (wordF_lt d a w r t) (wordF_bit0 d a w r t) ?_ rest
  simp [decode32, zeroed, wordF_major d a w r t, wordF_d d a w r t, wordF_a d a w r t, wordF_w d a w r t, wordF_r d a w r t, wordF_t d a w r t, regD, regA, regB]
theorem ld (d : BitVec 7) (a : BitVec 7) (z : BitVec 3) (o : BitVec 8) : Statement (.ld d a z o) := by
  intro _ rest
  refine round32 (i := .ld d a z o) (x := wordM 0x18 d a z o) rfl rfl (wordM_lt 0x18 d a z o (by decide)) (wordM_bit0 0x18 d a z o) ?_ rest
  simp [decode32, zeroed, wordM_m 0x18 d a z o (by decide), wordM_d 0x18 d a z o (by decide), wordM_a 0x18 d a z o (by decide), wordM_z 0x18 d a z o (by decide), wordM_o 0x18 d a z o (by decide), regD, regA, regB]
theorem st (d : BitVec 7) (a : BitVec 7) (z : BitVec 3) (o : BitVec 8) : Statement (.st d a z o) := by
  intro _ rest
  refine round32 (i := .st d a z o) (x := wordM 0x19 d a z o) rfl rfl (wordM_lt 0x19 d a z o (by decide)) (wordM_bit0 0x19 d a z o) ?_ rest
  simp [decode32, zeroed, wordM_m 0x19 d a z o (by decide), wordM_d 0x19 d a z o (by decide), wordM_a 0x19 d a z o (by decide), wordM_z 0x19 d a z o (by decide), wordM_o 0x19 d a z o (by decide), regD, regA, regB]
theorem ldp (d : BitVec 7) (a : BitVec 7) (z : BitVec 3) (o : BitVec 8) : Statement (.ldp d a z o) := by
  intro _ rest
  refine round32 (i := .ldp d a z o) (x := wordM 0x1a d a z o) rfl rfl (wordM_lt 0x1a d a z o (by decide)) (wordM_bit0 0x1a d a z o) ?_ rest
  simp [decode32, zeroed, wordM_m 0x1a d a z o (by decide), wordM_d 0x1a d a z o (by decide), wordM_a 0x1a d a z o (by decide), wordM_z 0x1a d a z o (by decide), wordM_o 0x1a d a z o (by decide), regD, regA, regB]
theorem stp (d : BitVec 7) (a : BitVec 7) (z : BitVec 3) (o : BitVec 8) : Statement (.stp d a z o) := by
  intro _ rest
  refine round32 (i := .stp d a z o) (x := wordM 0x1b d a z o) rfl rfl (wordM_lt 0x1b d a z o (by decide)) (wordM_bit0 0x1b d a z o) ?_ rest
  simp [decode32, zeroed, wordM_m 0x1b d a z o (by decide), wordM_d 0x1b d a z o (by decide), wordM_a 0x1b d a z o (by decide), wordM_z 0x1b d a z o (by decide), wordM_o 0x1b d a z o (by decide), regD, regA, regB]
theorem ldq (d : BitVec 7) (a : BitVec 7) (z : BitVec 1) (s : BitVec 2) (o : BitVec 8) : Statement (.ldq d a z s o) := by
  intro _ rest
  refine round32 (i := .ldq d a z s o) (x := wordQ 0x1c d a z s o) rfl rfl (wordQ_lt 0x1c d a z s o (by decide)) (wordQ_bit0 0x1c d a z s o) ?_ rest
  simp [decode32, zeroed, wordQ_m 0x1c d a z s o (by decide), wordQ_d 0x1c d a z s o (by decide), wordQ_a 0x1c d a z s o (by decide), wordQ_z 0x1c d a z s o (by decide), wordQ_s 0x1c d a z s o (by decide), wordQ_o 0x1c d a z s o (by decide), regD, regA, regB]
theorem stl (d : BitVec 7) (a : BitVec 7) (z : BitVec 1) (s : BitVec 2) (o : BitVec 8) : Statement (.stl d a z s o) := by
  intro _ rest
  refine round32 (i := .stl d a z s o) (x := wordQ 0x1d d a z s o) rfl rfl (wordQ_lt 0x1d d a z s o (by decide)) (wordQ_bit0 0x1d d a z s o) ?_ rest
  simp [decode32, zeroed, wordQ_m 0x1d d a z s o (by decide), wordQ_d 0x1d d a z s o (by decide), wordQ_a 0x1d d a z s o (by decide), wordQ_z 0x1d d a z s o (by decide), wordQ_s 0x1d d a z s o (by decide), wordQ_o 0x1d d a z s o (by decide), regD, regA, regB]
theorem atom (d : BitVec 7) (a : BitVec 7) (b : BitVec 7) (f : BitVec 4) : Statement (.atom d a b f) := by
  intro _ rest
  refine round32 (i := .atom d a b f) (x := wordR 0x1e f.toNat d a b) rfl rfl (wordR_lt 0x1e f.toNat d a b (by decide) f.isLt) (wordR_bit0 0x1e f.toNat d a b) ?_ rest
  simp [decode32, zeroed, wordR_m 0x1e f.toNat d a b (by decide), wordR_f 0x1e f.toNat d a b (by decide) f.isLt, regD_wordR 0x1e f.toNat d a b (by decide), regA_wordR 0x1e f.toNat d a b (by decide), regB_wordR 0x1e f.toNat d a b (by decide), wordR_d 0x1e f.toNat d a b (by decide), wordR_a 0x1e f.toNat d a b (by decide), wordR_b 0x1e f.toNat d a b (by decide)]
theorem atomp (d : BitVec 7) (a : BitVec 7) (b : BitVec 7) (f : BitVec 4) : Statement (.atomp d a b f) := by
  intro _ rest
  refine round32 (i := .atomp d a b f) (x := wordR 0x1f f.toNat d a b) rfl rfl (wordR_lt 0x1f f.toNat d a b (by decide) f.isLt) (wordR_bit0 0x1f f.toNat d a b) ?_ rest
  simp [decode32, zeroed, wordR_m 0x1f f.toNat d a b (by decide), wordR_f 0x1f f.toNat d a b (by decide) f.isLt, regD_wordR 0x1f f.toNat d a b (by decide), regA_wordR 0x1f f.toNat d a b (by decide), regB_wordR 0x1f f.toNat d a b (by decide), wordR_d 0x1f f.toNat d a b (by decide), wordR_a 0x1f f.toNat d a b (by decide), wordR_b 0x1f f.toNat d a b (by decide)]
theorem phaseTeam : Statement (.phaseTeam) := by
  intro _ rest
  refine round32 (i := .phaseTeam) (x := wordR 0x20 0 0#7 0#7 0#7) rfl rfl (wordR_lt 0x20 0 0#7 0#7 0#7 (by decide) (by decide)) (wordR_bit0 0x20 0 0#7 0#7 0#7) ?_ rest
  simp [decode32, zeroed, wordR_m 0x20 0 0#7 0#7 0#7 (by decide), decMemc, wordR_f 0x20 0 0#7 0#7 0#7 (by decide) (by decide), regD_wordR 0x20 0 0#7 0#7 0#7 (by decide), regA_wordR 0x20 0 0#7 0#7 0#7 (by decide), regB_wordR 0x20 0 0#7 0#7 0#7 (by decide), wordR_d 0x20 0 0#7 0#7 0#7 (by decide), wordR_a 0x20 0 0#7 0#7 0#7 (by decide), wordR_b 0x20 0 0#7 0#7 0#7 (by decide)]
theorem phaseDev : Statement (.phaseDev) := by
  intro _ rest
  refine round32 (i := .phaseDev) (x := wordR 0x20 1 0#7 0#7 0#7) rfl rfl (wordR_lt 0x20 1 0#7 0#7 0#7 (by decide) (by decide)) (wordR_bit0 0x20 1 0#7 0#7 0#7) ?_ rest
  simp [decode32, zeroed, wordR_m 0x20 1 0#7 0#7 0#7 (by decide), decMemc, wordR_f 0x20 1 0#7 0#7 0#7 (by decide) (by decide), regD_wordR 0x20 1 0#7 0#7 0#7 (by decide), regA_wordR 0x20 1 0#7 0#7 0#7 (by decide), regB_wordR 0x20 1 0#7 0#7 0#7 (by decide), wordR_d 0x20 1 0#7 0#7 0#7 (by decide), wordR_a 0x20 1 0#7 0#7 0#7 (by decide), wordR_b 0x20 1 0#7 0#7 0#7 (by decide)]
theorem phaseSys : Statement (.phaseSys) := by
  intro _ rest
  refine round32 (i := .phaseSys) (x := wordR 0x20 2 0#7 0#7 0#7) rfl rfl (wordR_lt 0x20 2 0#7 0#7 0#7 (by decide) (by decide)) (wordR_bit0 0x20 2 0#7 0#7 0#7) ?_ rest
  simp [decode32, zeroed, wordR_m 0x20 2 0#7 0#7 0#7 (by decide), decMemc, wordR_f 0x20 2 0#7 0#7 0#7 (by decide) (by decide), regD_wordR 0x20 2 0#7 0#7 0#7 (by decide), regA_wordR 0x20 2 0#7 0#7 0#7 (by decide), regB_wordR 0x20 2 0#7 0#7 0#7 (by decide), wordR_d 0x20 2 0#7 0#7 0#7 (by decide), wordR_a 0x20 2 0#7 0#7 0#7 (by decide), wordR_b 0x20 2 0#7 0#7 0#7 (by decide)]
theorem fenceOp : Statement (.fenceOp) := by
  intro _ rest
  refine round32 (i := .fenceOp) (x := wordR 0x20 3 0#7 0#7 0#7) rfl rfl (wordR_lt 0x20 3 0#7 0#7 0#7 (by decide) (by decide)) (wordR_bit0 0x20 3 0#7 0#7 0#7) ?_ rest
  simp [decode32, zeroed, wordR_m 0x20 3 0#7 0#7 0#7 (by decide), decMemc, wordR_f 0x20 3 0#7 0#7 0#7 (by decide) (by decide), regD_wordR 0x20 3 0#7 0#7 0#7 (by decide), regA_wordR 0x20 3 0#7 0#7 0#7 (by decide), regB_wordR 0x20 3 0#7 0#7 0#7 (by decide), wordR_d 0x20 3 0#7 0#7 0#7 (by decide), wordR_a 0x20 3 0#7 0#7 0#7 (by decide), wordR_b 0x20 3 0#7 0#7 0#7 (by decide)]
theorem fenceEng : Statement (.fenceEng) := by
  intro _ rest
  refine round32 (i := .fenceEng) (x := wordR 0x20 4 0#7 0#7 0#7) rfl rfl (wordR_lt 0x20 4 0#7 0#7 0#7 (by decide) (by decide)) (wordR_bit0 0x20 4 0#7 0#7 0#7) ?_ rest
  simp [decode32, zeroed, wordR_m 0x20 4 0#7 0#7 0#7 (by decide), decMemc, wordR_f 0x20 4 0#7 0#7 0#7 (by decide) (by decide), regD_wordR 0x20 4 0#7 0#7 0#7 (by decide), regA_wordR 0x20 4 0#7 0#7 0#7 (by decide), regB_wordR 0x20 4 0#7 0#7 0#7 (by decide), wordR_d 0x20 4 0#7 0#7 0#7 (by decide), wordR_a 0x20 4 0#7 0#7 0#7 (by decide), wordR_b 0x20 4 0#7 0#7 0#7 (by decide)]
theorem pref (a : BitVec 7) : Statement (.pref a) := by
  intro _ rest
  refine round32 (i := .pref a) (x := wordR 0x20 5 0#7 a 0#7) rfl rfl (wordR_lt 0x20 5 0#7 a 0#7 (by decide) (by decide)) (wordR_bit0 0x20 5 0#7 a 0#7) ?_ rest
  simp [decode32, zeroed, wordR_m 0x20 5 0#7 a 0#7 (by decide), decMemc, wordR_f 0x20 5 0#7 a 0#7 (by decide) (by decide), regD_wordR 0x20 5 0#7 a 0#7 (by decide), regA_wordR 0x20 5 0#7 a 0#7 (by decide), regB_wordR 0x20 5 0#7 a 0#7 (by decide), wordR_d 0x20 5 0#7 a 0#7 (by decide), wordR_a 0x20 5 0#7 a 0#7 (by decide), wordR_b 0x20 5 0#7 a 0#7 (by decide)]
theorem waita (a : BitVec 7) (b : BitVec 7) : Statement (.waita a b) := by
  intro _ rest
  refine round32 (i := .waita a b) (x := wordR 0x20 6 0#7 a b) rfl rfl (wordR_lt 0x20 6 0#7 a b (by decide) (by decide)) (wordR_bit0 0x20 6 0#7 a b) ?_ rest
  simp [decode32, zeroed, wordR_m 0x20 6 0#7 a b (by decide), decMemc, wordR_f 0x20 6 0#7 a b (by decide) (by decide), regD_wordR 0x20 6 0#7 a b (by decide), regA_wordR 0x20 6 0#7 a b (by decide), regB_wordR 0x20 6 0#7 a b (by decide), wordR_d 0x20 6 0#7 a b (by decide), wordR_a 0x20 6 0#7 a b (by decide), wordR_b 0x20 6 0#7 a b (by decide)]
theorem clk (d : BitVec 7) : Statement (.clk d) := by
  intro _ rest
  refine round32 (i := .clk d) (x := wordR 0x20 8 d 0#7 0#7) rfl rfl (wordR_lt 0x20 8 d 0#7 0#7 (by decide) (by decide)) (wordR_bit0 0x20 8 d 0#7 0#7) ?_ rest
  simp [decode32, zeroed, wordR_m 0x20 8 d 0#7 0#7 (by decide), decMemc, wordR_f 0x20 8 d 0#7 0#7 (by decide) (by decide), regD_wordR 0x20 8 d 0#7 0#7 (by decide), regA_wordR 0x20 8 d 0#7 0#7 (by decide), regB_wordR 0x20 8 d 0#7 0#7 (by decide), wordR_d 0x20 8 d 0#7 0#7 (by decide), wordR_a 0x20 8 d 0#7 0#7 (by decide), wordR_b 0x20 8 d 0#7 0#7 (by decide)]
theorem waitc (l : BitVec 4) (s : BitVec 4) (c : BitVec 4) (t : BitVec 4) : Statement (.waitc l s c t) := by
  intro _ rest
  refine round32 (i := .waitc l s c t) (x := wordW l s c t) rfl rfl (wordW_lt l s c t) (wordW_bit0 l s c t) ?_ rest
  simp [decode32, zeroed, wordW_major l s c t, wordW_l l s c t, wordW_s l s c t, wordW_c l s c t, wordW_t l s c t, wordW_rest l s c t, regD, regA, regB]
theorem accrd (d : BitVec 7) (a : BitVec 7) (b : BitVec 7) : Statement (.accrd d a b) := by
  intro _ rest
  refine round32 (i := .accrd d a b) (x := wordR 0x22 0 d a b) rfl rfl (wordR_lt 0x22 0 d a b (by decide) (by decide)) (wordR_bit0 0x22 0 d a b) ?_ rest
  simp [decode32, zeroed, wordR_m 0x22 0 d a b (by decide), decAccx, wordR_f 0x22 0 d a b (by decide) (by decide), regD_wordR 0x22 0 d a b (by decide), regA_wordR 0x22 0 d a b (by decide), regB_wordR 0x22 0 d a b (by decide), wordR_d 0x22 0 d a b (by decide), wordR_a 0x22 0 d a b (by decide), wordR_b 0x22 0 d a b (by decide)]
theorem accwr (d : BitVec 7) (a : BitVec 7) (b : BitVec 7) : Statement (.accwr d a b) := by
  intro _ rest
  refine round32 (i := .accwr d a b) (x := wordR 0x22 1 d a b) rfl rfl (wordR_lt 0x22 1 d a b (by decide) (by decide)) (wordR_bit0 0x22 1 d a b) ?_ rest
  simp [decode32, zeroed, wordR_m 0x22 1 d a b (by decide), decAccx, wordR_f 0x22 1 d a b (by decide) (by decide), regD_wordR 0x22 1 d a b (by decide), regA_wordR 0x22 1 d a b (by decide), regB_wordR 0x22 1 d a b (by decide), wordR_d 0x22 1 d a b (by decide), wordR_a 0x22 1 d a b (by decide), wordR_b 0x22 1 d a b (by decide)]
theorem mzero (b : BitVec 7) : Statement (.mzero b) := by
  intro _ rest
  refine round32 (i := .mzero b) (x := wordR 0x22 2 0#7 0#7 b) rfl rfl (wordR_lt 0x22 2 0#7 0#7 b (by decide) (by decide)) (wordR_bit0 0x22 2 0#7 0#7 b) ?_ rest
  simp [decode32, zeroed, wordR_m 0x22 2 0#7 0#7 b (by decide), decAccx, wordR_f 0x22 2 0#7 0#7 b (by decide) (by decide), regD_wordR 0x22 2 0#7 0#7 b (by decide), regA_wordR 0x22 2 0#7 0#7 b (by decide), regB_wordR 0x22 2 0#7 0#7 b (by decide), wordR_d 0x22 2 0#7 0#7 b (by decide), wordR_a 0x22 2 0#7 0#7 b (by decide), wordR_b 0x22 2 0#7 0#7 b (by decide)]
theorem tload (d : BitVec 7) (a : BitVec 7) (b : BitVec 7) : Statement (.tload d a b) := by
  intro _ rest
  refine round32 (i := .tload d a b) (x := wordR 0x23 0 d a b) rfl rfl (wordR_lt 0x23 0 d a b (by decide) (by decide)) (wordR_bit0 0x23 0 d a b) ?_ rest
  simp [decode32, zeroed, wordR_m 0x23 0 d a b (by decide), decTcp, wordR_f 0x23 0 d a b (by decide) (by decide), regD_wordR 0x23 0 d a b (by decide), regA_wordR 0x23 0 d a b (by decide), regB_wordR 0x23 0 d a b (by decide), wordR_d 0x23 0 d a b (by decide), wordR_a 0x23 0 d a b (by decide), wordR_b 0x23 0 d a b (by decide)]
theorem tstore (d : BitVec 7) (a : BitVec 7) (b : BitVec 7) : Statement (.tstore d a b) := by
  intro _ rest
  refine round32 (i := .tstore d a b) (x := wordR 0x23 1 d a b) rfl rfl (wordR_lt 0x23 1 d a b (by decide) (by decide)) (wordR_bit0 0x23 1 d a b) ?_ rest
  simp [decode32, zeroed, wordR_m 0x23 1 d a b (by decide), decTcp, wordR_f 0x23 1 d a b (by decide) (by decide), regD_wordR 0x23 1 d a b (by decide), regA_wordR 0x23 1 d a b (by decide), regB_wordR 0x23 1 d a b (by decide), wordR_d 0x23 1 d a b (by decide), wordR_a 0x23 1 d a b (by decide), wordR_b 0x23 1 d a b (by decide)]
theorem tgath (d : BitVec 7) (a : BitVec 7) (b : BitVec 7) : Statement (.tgath d a b) := by
  intro _ rest
  refine round32 (i := .tgath d a b) (x := wordR 0x23 2 d a b) rfl rfl (wordR_lt 0x23 2 d a b (by decide) (by decide)) (wordR_bit0 0x23 2 d a b) ?_ rest
  simp [decode32, zeroed, wordR_m 0x23 2 d a b (by decide), decTcp, wordR_f 0x23 2 d a b (by decide) (by decide), regD_wordR 0x23 2 d a b (by decide), regA_wordR 0x23 2 d a b (by decide), regB_wordR 0x23 2 d a b (by decide), wordR_d 0x23 2 d a b (by decide), wordR_a 0x23 2 d a b (by decide), wordR_b 0x23 2 d a b (by decide)]
theorem tscat (d : BitVec 7) (a : BitVec 7) (b : BitVec 7) : Statement (.tscat d a b) := by
  intro _ rest
  refine round32 (i := .tscat d a b) (x := wordR 0x23 3 d a b) rfl rfl (wordR_lt 0x23 3 d a b (by decide) (by decide)) (wordR_bit0 0x23 3 d a b) ?_ rest
  simp [decode32, zeroed, wordR_m 0x23 3 d a b (by decide), decTcp, wordR_f 0x23 3 d a b (by decide) (by decide), regD_wordR 0x23 3 d a b (by decide), regA_wordR 0x23 3 d a b (by decide), regB_wordR 0x23 3 d a b (by decide), wordR_d 0x23 3 d a b (by decide), wordR_a 0x23 3 d a b (by decide), wordR_b 0x23 3 d a b (by decide)]
theorem tscata (d : BitVec 7) (a : BitVec 7) (b : BitVec 7) : Statement (.tscata d a b) := by
  intro _ rest
  refine round32 (i := .tscata d a b) (x := wordR 0x23 4 d a b) rfl rfl (wordR_lt 0x23 4 d a b (by decide) (by decide)) (wordR_bit0 0x23 4 d a b) ?_ rest
  simp [decode32, zeroed, wordR_m 0x23 4 d a b (by decide), decTcp, wordR_f 0x23 4 d a b (by decide) (by decide), regD_wordR 0x23 4 d a b (by decide), regA_wordR 0x23 4 d a b (by decide), regB_wordR 0x23 4 d a b (by decide), wordR_d 0x23 4 d a b (by decide), wordR_a 0x23 4 d a b (by decide), wordR_b 0x23 4 d a b (by decide)]
theorem tmcast (d : BitVec 7) (a : BitVec 7) (b : BitVec 7) : Statement (.tmcast d a b) := by
  intro _ rest
  refine round32 (i := .tmcast d a b) (x := wordR 0x23 5 d a b) rfl rfl (wordR_lt 0x23 5 d a b (by decide) (by decide)) (wordR_bit0 0x23 5 d a b) ?_ rest
  simp [decode32, zeroed, wordR_m 0x23 5 d a b (by decide), decTcp, wordR_f 0x23 5 d a b (by decide) (by decide), regD_wordR 0x23 5 d a b (by decide), regA_wordR 0x23 5 d a b (by decide), regB_wordR 0x23 5 d a b (by decide), wordR_d 0x23 5 d a b (by decide), wordR_a 0x23 5 d a b (by decide), wordR_b 0x23 5 d a b (by decide)]
theorem tpref (a : BitVec 7) (b : BitVec 7) : Statement (.tpref a b) := by
  intro _ rest
  refine round32 (i := .tpref a b) (x := wordR 0x23 6 0#7 a b) rfl rfl (wordR_lt 0x23 6 0#7 a b (by decide) (by decide)) (wordR_bit0 0x23 6 0#7 a b) ?_ rest
  simp [decode32, zeroed, wordR_m 0x23 6 0#7 a b (by decide), decTcp, wordR_f 0x23 6 0#7 a b (by decide) (by decide), regD_wordR 0x23 6 0#7 a b (by decide), regA_wordR 0x23 6 0#7 a b (by decide), regB_wordR 0x23 6 0#7 a b (by decide), wordR_d 0x23 6 0#7 a b (by decide), wordR_a 0x23 6 0#7 a b (by decide), wordR_b 0x23 6 0#7 a b (by decide)]
theorem binit (a : BitVec 7) (b : BitVec 7) : Statement (.binit a b) := by
  intro _ rest
  refine round32 (i := .binit a b) (x := wordR 0x24 0 0#7 a b) rfl rfl (wordR_lt 0x24 0 0#7 a b (by decide) (by decide)) (wordR_bit0 0x24 0 0#7 a b) ?_ rest
  simp [decode32, zeroed, wordR_m 0x24 0 0#7 a b (by decide), decBar, wordR_f 0x24 0 0#7 a b (by decide) (by decide), regD_wordR 0x24 0 0#7 a b (by decide), regA_wordR 0x24 0 0#7 a b (by decide), regB_wordR 0x24 0 0#7 a b (by decide), wordR_d 0x24 0 0#7 a b (by decide), wordR_a 0x24 0 0#7 a b (by decide), wordR_b 0x24 0 0#7 a b (by decide)]
theorem barr (d : BitVec 7) (a : BitVec 7) (b : BitVec 7) : Statement (.barr d a b) := by
  intro _ rest
  refine round32 (i := .barr d a b) (x := wordR 0x24 1 d a b) rfl rfl (wordR_lt 0x24 1 d a b (by decide) (by decide)) (wordR_bit0 0x24 1 d a b) ?_ rest
  simp [decode32, zeroed, wordR_m 0x24 1 d a b (by decide), decBar, wordR_f 0x24 1 d a b (by decide) (by decide), regD_wordR 0x24 1 d a b (by decide), regA_wordR 0x24 1 d a b (by decide), regB_wordR 0x24 1 d a b (by decide), wordR_d 0x24 1 d a b (by decide), wordR_a 0x24 1 d a b (by decide), wordR_b 0x24 1 d a b (by decide)]
theorem bwait (a : BitVec 7) (b : BitVec 7) : Statement (.bwait a b) := by
  intro _ rest
  refine round32 (i := .bwait a b) (x := wordR 0x24 2 0#7 a b) rfl rfl (wordR_lt 0x24 2 0#7 a b (by decide) (by decide)) (wordR_bit0 0x24 2 0#7 a b) ?_ rest
  simp [decode32, zeroed, wordR_m 0x24 2 0#7 a b (by decide), decBar, wordR_f 0x24 2 0#7 a b (by decide) (by decide), regD_wordR 0x24 2 0#7 a b (by decide), regA_wordR 0x24 2 0#7 a b (by decide), regB_wordR 0x24 2 0#7 a b (by decide), wordR_d 0x24 2 0#7 a b (by decide), wordR_a 0x24 2 0#7 a b (by decide), wordR_b 0x24 2 0#7 a b (by decide)]
theorem btest (d : BitVec 7) (a : BitVec 7) (b : BitVec 7) : Statement (.btest d a b) := by
  intro _ rest
  refine round32 (i := .btest d a b) (x := wordR 0x24 3 d a b) rfl rfl (wordR_lt 0x24 3 d a b (by decide) (by decide)) (wordR_bit0 0x24 3 d a b) ?_ rest
  simp [decode32, zeroed, wordR_m 0x24 3 d a b (by decide), decBar, wordR_f 0x24 3 d a b (by decide) (by decide), regD_wordR 0x24 3 d a b (by decide), regA_wordR 0x24 3 d a b (by decide), regB_wordR 0x24 3 d a b (by decide), wordR_d 0x24 3 d a b (by decide), wordR_a 0x24 3 d a b (by decide), wordR_b 0x24 3 d a b (by decide)]
theorem tbar : Statement (.tbar) := by
  intro _ rest
  refine round32 (i := .tbar) (x := wordR 0x24 4 0#7 0#7 0#7) rfl rfl (wordR_lt 0x24 4 0#7 0#7 0#7 (by decide) (by decide)) (wordR_bit0 0x24 4 0#7 0#7 0#7) ?_ rest
  simp [decode32, zeroed, wordR_m 0x24 4 0#7 0#7 0#7 (by decide), decBar, wordR_f 0x24 4 0#7 0#7 0#7 (by decide) (by decide), regD_wordR 0x24 4 0#7 0#7 0#7 (by decide), regA_wordR 0x24 4 0#7 0#7 0#7 (by decide), regB_wordR 0x24 4 0#7 0#7 0#7 (by decide), wordR_d 0x24 4 0#7 0#7 0#7 (by decide), wordR_a 0x24 4 0#7 0#7 0#7 (by decide), wordR_b 0x24 4 0#7 0#7 0#7 (by decide)]
theorem pfree (a : BitVec 7) : Statement (.pfree a) := by
  intro _ rest
  refine round32 (i := .pfree a) (x := wordR 0x24 5 0#7 a 0#7) rfl rfl (wordR_lt 0x24 5 0#7 a 0#7 (by decide) (by decide)) (wordR_bit0 0x24 5 0#7 a 0#7) ?_ rest
  simp [decode32, zeroed, wordR_m 0x24 5 0#7 a 0#7 (by decide), decBar, wordR_f 0x24 5 0#7 a 0#7 (by decide) (by decide), regD_wordR 0x24 5 0#7 a 0#7 (by decide), regA_wordR 0x24 5 0#7 a 0#7 (by decide), regB_wordR 0x24 5 0#7 a 0#7 (by decide), wordR_d 0x24 5 0#7 a 0#7 (by decide), wordR_a 0x24 5 0#7 a 0#7 (by decide), wordR_b 0x24 5 0#7 a 0#7 (by decide)]
theorem rawait (d : BitVec 7) (a : BitVec 7) : Statement (.rawait d a) := by
  intro _ rest
  refine round32 (i := .rawait d a) (x := wordR 0x25 0 d a 0#7) rfl rfl (wordR_lt 0x25 0 d a 0#7 (by decide) (by decide)) (wordR_bit0 0x25 0 d a 0#7) ?_ rest
  simp [decode32, zeroed, wordR_m 0x25 0 d a 0#7 (by decide), decRing, wordR_f 0x25 0 d a 0#7 (by decide) (by decide), regD_wordR 0x25 0 d a 0#7 (by decide), regA_wordR 0x25 0 d a 0#7 (by decide), regB_wordR 0x25 0 d a 0#7 (by decide), wordR_d 0x25 0 d a 0#7 (by decide), wordR_a 0x25 0 d a 0#7 (by decide), wordR_b 0x25 0 d a 0#7 (by decide)]
theorem rrel (a : BitVec 7) : Statement (.rrel a) := by
  intro _ rest
  refine round32 (i := .rrel a) (x := wordR 0x25 1 0#7 a 0#7) rfl rfl (wordR_lt 0x25 1 0#7 a 0#7 (by decide) (by decide)) (wordR_bit0 0x25 1 0#7 a 0#7) ?_ rest
  simp [decode32, zeroed, wordR_m 0x25 1 0#7 a 0#7 (by decide), decRing, wordR_f 0x25 1 0#7 a 0#7 (by decide) (by decide), regD_wordR 0x25 1 0#7 a 0#7 (by decide), regA_wordR 0x25 1 0#7 a 0#7 (by decide), regB_wordR 0x25 1 0#7 a 0#7 (by decide), wordR_d 0x25 1 0#7 a 0#7 (by decide), wordR_a 0x25 1 0#7 a 0#7 (by decide), wordR_b 0x25 1 0#7 a 0#7 (by decide)]
theorem rpush (d : BitVec 7) (a : BitVec 7) (b : BitVec 7) : Statement (.rpush d a b) := by
  intro _ rest
  refine round32 (i := .rpush d a b) (x := wordR 0x25 2 d a b) rfl rfl (wordR_lt 0x25 2 d a b (by decide) (by decide)) (wordR_bit0 0x25 2 d a b) ?_ rest
  simp [decode32, zeroed, wordR_m 0x25 2 d a b (by decide), decRing, wordR_f 0x25 2 d a b (by decide) (by decide), regD_wordR 0x25 2 d a b (by decide), regA_wordR 0x25 2 d a b (by decide), regB_wordR 0x25 2 d a b (by decide), wordR_d 0x25 2 d a b (by decide), wordR_a 0x25 2 d a b (by decide), wordR_b 0x25 2 d a b (by decide)]
theorem chain (d : BitVec 7) (a : BitVec 7) (b : BitVec 7) : Statement (.chain d a b) := by
  intro _ rest
  refine round32 (i := .chain d a b) (x := wordR 0x25 3 d a b) rfl rfl (wordR_lt 0x25 3 d a b (by decide) (by decide)) (wordR_bit0 0x25 3 d a b) ?_ rest
  simp [decode32, zeroed, wordR_m 0x25 3 d a b (by decide), decRing, wordR_f 0x25 3 d a b (by decide) (by decide), regD_wordR 0x25 3 d a b (by decide), regA_wordR 0x25 3 d a b (by decide), regB_wordR 0x25 3 d a b (by decide), wordR_d 0x25 3 d a b (by decide), wordR_a 0x25 3 d a b (by decide), wordR_b 0x25 3 d a b (by decide)]
theorem qlaunch (d : BitVec 7) (a : BitVec 7) (b : BitVec 7) : Statement (.qlaunch d a b) := by
  intro _ rest
  refine round32 (i := .qlaunch d a b) (x := wordR 0x25 4 d a b) rfl rfl (wordR_lt 0x25 4 d a b (by decide) (by decide)) (wordR_bit0 0x25 4 d a b) ?_ rest
  simp [decode32, zeroed, wordR_m 0x25 4 d a b (by decide), decRing, wordR_f 0x25 4 d a b (by decide) (by decide), regD_wordR 0x25 4 d a b (by decide), regA_wordR 0x25 4 d a b (by decide), regB_wordR 0x25 4 d a b (by decide), wordR_d 0x25 4 d a b (by decide), wordR_a 0x25 4 d a b (by decide), wordR_b 0x25 4 d a b (by decide)]
theorem fork (d : BitVec 7) (a : BitVec 7) (b : BitVec 7) : Statement (.fork d a b) := by
  intro _ rest
  refine round32 (i := .fork d a b) (x := wordR 0x25 5 d a b) rfl rfl (wordR_lt 0x25 5 d a b (by decide) (by decide)) (wordR_bit0 0x25 5 d a b) ?_ rest
  simp [decode32, zeroed, wordR_m 0x25 5 d a b (by decide), decRing, wordR_f 0x25 5 d a b (by decide) (by decide), regD_wordR 0x25 5 d a b (by decide), regA_wordR 0x25 5 d a b (by decide), regB_wordR 0x25 5 d a b (by decide), wordR_d 0x25 5 d a b (by decide), wordR_a 0x25 5 d a b (by decide), wordR_b 0x25 5 d a b (by decide)]
theorem mma (c : BitVec 5) (a : BitVec 6) (b : BitVec 6) (p : BitVec 5) : Statement (.mma c a b p) := by
  intro _ rest
  refine round32 (i := .mma c a b p) (x := wordT 0 c a b p) rfl rfl (wordT_lt 0 c a b p (by decide)) (wordT_bit0 0 c a b p) ?_ rest
  simp [decode32, zeroed, wordT_major 0 c a b p, wordT_c 0 c a b p, wordT_a 0 c a b p, wordT_b 0 c a b p, wordT_p 0 c a b p, wordT_f 0 c a b p (by decide), decMma, regD, regA, regB]
theorem mmaz (c : BitVec 5) (a : BitVec 6) (b : BitVec 6) (p : BitVec 5) : Statement (.mmaz c a b p) := by
  intro _ rest
  refine round32 (i := .mmaz c a b p) (x := wordT 1 c a b p) rfl rfl (wordT_lt 1 c a b p (by decide)) (wordT_bit0 1 c a b p) ?_ rest
  simp [decode32, zeroed, wordT_major 1 c a b p, wordT_c 1 c a b p, wordT_a 1 c a b p, wordT_b 1 c a b p, wordT_p 1 c a b p, wordT_f 1 c a b p (by decide), decMma, regD, regA, regB]
theorem mmas (c : BitVec 5) (a : BitVec 6) (b : BitVec 6) (p : BitVec 5) : Statement (.mmas c a b p) := by
  intro _ rest
  refine round32 (i := .mmas c a b p) (x := wordT 2 c a b p) rfl rfl (wordT_lt 2 c a b p (by decide)) (wordT_bit0 2 c a b p) ?_ rest
  simp [decode32, zeroed, wordT_major 2 c a b p, wordT_c 2 c a b p, wordT_a 2 c a b p, wordT_b 2 c a b p, wordT_p 2 c a b p, wordT_f 2 c a b p (by decide), decMma, regD, regA, regB]
theorem mmasz (c : BitVec 5) (a : BitVec 6) (b : BitVec 6) (p : BitVec 5) : Statement (.mmasz c a b p) := by
  intro _ rest
  refine round32 (i := .mmasz c a b p) (x := wordT 3 c a b p) rfl rfl (wordT_lt 3 c a b p (by decide)) (wordT_bit0 3 c a b p) ?_ rest
  simp [decode32, zeroed, wordT_major 3 c a b p, wordT_c 3 c a b p, wordT_a 3 c a b p, wordT_b 3 c a b p, wordT_p 3 c a b p, wordT_f 3 c a b p (by decide), decMma, regD, regA, regB]
theorem mmac (c : BitVec 5) (a : BitVec 6) (b : BitVec 6) (p : BitVec 5) : Statement (.mmac c a b p) := by
  intro _ rest
  refine round32 (i := .mmac c a b p) (x := wordT 4 c a b p) rfl rfl (wordT_lt 4 c a b p (by decide)) (wordT_bit0 4 c a b p) ?_ rest
  simp [decode32, zeroed, wordT_major 4 c a b p, wordT_c 4 c a b p, wordT_a 4 c a b p, wordT_b 4 c a b p, wordT_p 4 c a b p, wordT_f 4 c a b p (by decide), decMma, regD, regA, regB]
theorem mmacz (c : BitVec 5) (a : BitVec 6) (b : BitVec 6) (p : BitVec 5) : Statement (.mmacz c a b p) := by
  intro _ rest
  refine round32 (i := .mmacz c a b p) (x := wordT 5 c a b p) rfl rfl (wordT_lt 5 c a b p (by decide)) (wordT_bit0 5 c a b p) ?_ rest
  simp [decode32, zeroed, wordT_major 5 c a b p, wordT_c 5 c a b p, wordT_a 5 c a b p, wordT_b 5 c a b p, wordT_p 5 c a b p, wordT_f 5 c a b p (by decide), decMma, regD, regA, regB]
theorem gang (a : BitVec 7) : Statement (.gang a) := by
  intro _ rest
  refine round32 (i := .gang a) (x := wordR 0x27 0 0#7 a 0#7) rfl rfl (wordR_lt 0x27 0 0#7 a 0#7 (by decide) (by decide)) (wordR_bit0 0x27 0 0#7 a 0#7) ?_ rest
  simp [decode32, zeroed, wordR_m 0x27 0 0#7 a 0#7 (by decide), decMctl, wordR_f 0x27 0 0#7 a 0#7 (by decide) (by decide), regD_wordR 0x27 0 0#7 a 0#7 (by decide), regA_wordR 0x27 0 0#7 a 0#7 (by decide), regB_wordR 0x27 0 0#7 a 0#7 (by decide), wordR_d 0x27 0 0#7 a 0#7 (by decide), wordR_a 0x27 0 0#7 a 0#7 (by decide), wordR_b 0x27 0 0#7 a 0#7 (by decide)]
theorem dpload (d : BitVec 7) (a : BitVec 7) : Statement (.dpload d a) := by
  intro _ rest
  refine round32 (i := .dpload d a) (x := wordR 0x27 1 d a 0#7) rfl rfl (wordR_lt 0x27 1 d a 0#7 (by decide) (by decide)) (wordR_bit0 0x27 1 d a 0#7) ?_ rest
  simp [decode32, zeroed, wordR_m 0x27 1 d a 0#7 (by decide), decMctl, wordR_f 0x27 1 d a 0#7 (by decide) (by decide), regD_wordR 0x27 1 d a 0#7 (by decide), regA_wordR 0x27 1 d a 0#7 (by decide), regB_wordR 0x27 1 d a 0#7 (by decide), wordR_d 0x27 1 d a 0#7 (by decide), wordR_a 0x27 1 d a 0#7 (by decide), wordR_b 0x27 1 d a 0#7 (by decide)]
theorem thset (d : BitVec 7) (a : BitVec 7) : Statement (.thset d a) := by
  intro _ rest
  refine round32 (i := .thset d a) (x := wordR 0x27 2 d a 0#7) rfl rfl (wordR_lt 0x27 2 d a 0#7 (by decide) (by decide)) (wordR_bit0 0x27 2 d a 0#7) ?_ rest
  simp [decode32, zeroed, wordR_m 0x27 2 d a 0#7 (by decide), decMctl, wordR_f 0x27 2 d a 0#7 (by decide) (by decide), regD_wordR 0x27 2 d a 0#7 (by decide), regA_wordR 0x27 2 d a 0#7 (by decide), regB_wordR 0x27 2 d a 0#7 (by decide), wordR_d 0x27 2 d a 0#7 (by decide), wordR_a 0x27 2 d a 0#7 (by decide), wordR_b 0x27 2 d a 0#7 (by decide)]
theorem thcur (d : BitVec 7) (a : BitVec 7) (b : BitVec 7) : Statement (.thcur d a b) := by
  intro _ rest
  refine round32 (i := .thcur d a b) (x := wordR 0x27 3 d a b) rfl rfl (wordR_lt 0x27 3 d a b (by decide) (by decide)) (wordR_bit0 0x27 3 d a b) ?_ rest
  simp [decode32, zeroed, wordR_m 0x27 3 d a b (by decide), decMctl, wordR_f 0x27 3 d a b (by decide) (by decide), regD_wordR 0x27 3 d a b (by decide), regA_wordR 0x27 3 d a b (by decide), regB_wordR 0x27 3 d a b (by decide), wordR_d 0x27 3 d a b (by decide), wordR_a 0x27 3 d a b (by decide), wordR_b 0x27 3 d a b (by decide)]
theorem thget (d : BitVec 7) (a : BitVec 7) : Statement (.thget d a) := by
  intro _ rest
  refine round32 (i := .thget d a) (x := wordR 0x27 4 d a 0#7) rfl rfl (wordR_lt 0x27 4 d a 0#7 (by decide) (by decide)) (wordR_bit0 0x27 4 d a 0#7) ?_ rest
  simp [decode32, zeroed, wordR_m 0x27 4 d a 0#7 (by decide), decMctl, wordR_f 0x27 4 d a 0#7 (by decide) (by decide), regD_wordR 0x27 4 d a 0#7 (by decide), regA_wordR 0x27 4 d a 0#7 (by decide), regB_wordR 0x27 4 d a 0#7 (by decide), wordR_d 0x27 4 d a 0#7 (by decide), wordR_a 0x27 4 d a 0#7 (by decide), wordR_b 0x27 4 d a 0#7 (by decide)]
theorem mhad (d : BitVec 7) (a : BitVec 7) (b : BitVec 7) : Statement (.mhad d a b) := by
  intro _ rest
  refine round32 (i := .mhad d a b) (x := wordR 0x27 5 d a b) rfl rfl (wordR_lt 0x27 5 d a b (by decide) (by decide)) (wordR_bit0 0x27 5 d a b) ?_ rest
  simp [decode32, zeroed, wordR_m 0x27 5 d a b (by decide), decMctl, wordR_f 0x27 5 d a b (by decide) (by decide), regD_wordR 0x27 5 d a b (by decide), regA_wordR 0x27 5 d a b (by decide), regB_wordR 0x27 5 d a b (by decide), wordR_d 0x27 5 d a b (by decide), wordR_a 0x27 5 d a b (by decide), wordR_b 0x27 5 d a b (by decide)]
theorem mdrain (d : BitVec 7) (b : BitVec 7) : Statement (.mdrain d b) := by
  intro _ rest
  refine round32 (i := .mdrain d b) (x := wordR 0x27 6 d 0#7 b) rfl rfl (wordR_lt 0x27 6 d 0#7 b (by decide) (by decide)) (wordR_bit0 0x27 6 d 0#7 b) ?_ rest
  simp [decode32, zeroed, wordR_m 0x27 6 d 0#7 b (by decide), decMctl, wordR_f 0x27 6 d 0#7 b (by decide) (by decide), regD_wordR 0x27 6 d 0#7 b (by decide), regA_wordR 0x27 6 d 0#7 b (by decide), regB_wordR 0x27 6 d 0#7 b (by decide), wordR_d 0x27 6 d 0#7 b (by decide), wordR_a 0x27 6 d 0#7 b (by decide), wordR_b 0x27 6 d 0#7 b (by decide)]
theorem mode (a : BitVec 7) (b : BitVec 7) : Statement (.mode a b) := by
  intro _ rest
  refine round32 (i := .mode a b) (x := wordR 0x27 7 0#7 a b) rfl rfl (wordR_lt 0x27 7 0#7 a b (by decide) (by decide)) (wordR_bit0 0x27 7 0#7 a b) ?_ rest
  simp [decode32, zeroed, wordR_m 0x27 7 0#7 a b (by decide), decMctl, wordR_f 0x27 7 0#7 a b (by decide) (by decide), regD_wordR 0x27 7 0#7 a b (by decide), regA_wordR 0x27 7 0#7 a b (by decide), regB_wordR 0x27 7 0#7 a b (by decide), wordR_d 0x27 7 0#7 a b (by decide), wordR_a 0x27 7 0#7 a b (by decide), wordR_b 0x27 7 0#7 a b (by decide)]
theorem scupd (d : BitVec 7) (a : BitVec 7) : Statement (.scupd d a) := by
  intro _ rest
  refine round32 (i := .scupd d a) (x := wordR 0x27 8 d a 0#7) rfl rfl (wordR_lt 0x27 8 d a 0#7 (by decide) (by decide)) (wordR_bit0 0x27 8 d a 0#7) ?_ rest
  simp [decode32, zeroed, wordR_m 0x27 8 d a 0#7 (by decide), decMctl, wordR_f 0x27 8 d a 0#7 (by decide) (by decide), regD_wordR 0x27 8 d a 0#7 (by decide), regA_wordR 0x27 8 d a 0#7 (by decide), regB_wordR 0x27 8 d a 0#7 (by decide), wordR_d 0x27 8 d a 0#7 (by decide), wordR_a 0x27 8 d a 0#7 (by decide), wordR_b 0x27 8 d a 0#7 (by decide)]
theorem tres (d : BitVec 7) (a : BitVec 7) (b : BitVec 7) : Statement (.tres d a b) := by
  intro _ rest
  refine round32 (i := .tres d a b) (x := wordR 0x27 9 d a b) rfl rfl (wordR_lt 0x27 9 d a b (by decide) (by decide)) (wordR_bit0 0x27 9 d a b) ?_ rest
  simp [decode32, zeroed, wordR_m 0x27 9 d a b (by decide), decMctl, wordR_f 0x27 9 d a b (by decide) (by decide), regD_wordR 0x27 9 d a b (by decide), regA_wordR 0x27 9 d a b (by decide), regB_wordR 0x27 9 d a b (by decide), wordR_d 0x27 9 d a b (by decide), wordR_a 0x27 9 d a b (by decide), wordR_b 0x27 9 d a b (by decide)]
theorem tunres (d : BitVec 7) : Statement (.tunres d) := by
  intro _ rest
  refine round32 (i := .tunres d) (x := wordR 0x27 10 d 0#7 0#7) rfl rfl (wordR_lt 0x27 10 d 0#7 0#7 (by decide) (by decide)) (wordR_bit0 0x27 10 d 0#7 0#7) ?_ rest
  simp [decode32, zeroed, wordR_m 0x27 10 d 0#7 0#7 (by decide), decMctl, wordR_f 0x27 10 d 0#7 0#7 (by decide) (by decide), regD_wordR 0x27 10 d 0#7 0#7 (by decide), regA_wordR 0x27 10 d 0#7 0#7 (by decide), regB_wordR 0x27 10 d 0#7 0#7 (by decide), wordR_d 0x27 10 d 0#7 0#7 (by decide), wordR_a 0x27 10 d 0#7 0#7 (by decide), wordR_b 0x27 10 d 0#7 0#7 (by decide)]
theorem fold (d : BitVec 7) (a : BitVec 7) (b : BitVec 7) (f : BitVec 4) : Statement (.fold d a b f) := by
  intro _ rest
  refine round32 (i := .fold d a b f) (x := wordR 0x28 f.toNat d a b) rfl rfl (wordR_lt 0x28 f.toNat d a b (by decide) f.isLt) (wordR_bit0 0x28 f.toNat d a b) ?_ rest
  simp [decode32, zeroed, wordR_m 0x28 f.toNat d a b (by decide), wordR_f 0x28 f.toNat d a b (by decide) f.isLt, regD_wordR 0x28 f.toNat d a b (by decide), regA_wordR 0x28 f.toNat d a b (by decide), regB_wordR 0x28 f.toNat d a b (by decide), wordR_d 0x28 f.toNat d a b (by decide), wordR_a 0x28 f.toNat d a b (by decide), wordR_b 0x28 f.toNat d a b (by decide)]
theorem join (d : BitVec 7) (a : BitVec 7) (b : BitVec 7) : Statement (.join d a b) := by
  intro _ rest
  refine round32 (i := .join d a b) (x := wordR 0x29 0 d a b) rfl rfl (wordR_lt 0x29 0 d a b (by decide) (by decide)) (wordR_bit0 0x29 0 d a b) ?_ rest
  simp [decode32, zeroed, wordR_m 0x29 0 d a b (by decide), decRel, wordR_f 0x29 0 d a b (by decide) (by decide), regD_wordR 0x29 0 d a b (by decide), regA_wordR 0x29 0 d a b (by decide), regB_wordR 0x29 0 d a b (by decide), wordR_d 0x29 0 d a b (by decide), wordR_a 0x29 0 d a b (by decide), wordR_b 0x29 0 d a b (by decide)]
theorem rank (d : BitVec 7) (a : BitVec 7) (b : BitVec 7) : Statement (.rank d a b) := by
  intro _ rest
  refine round32 (i := .rank d a b) (x := wordR 0x29 1 d a b) rfl rfl (wordR_lt 0x29 1 d a b (by decide) (by decide)) (wordR_bit0 0x29 1 d a b) ?_ rest
  simp [decode32, zeroed, wordR_m 0x29 1 d a b (by decide), decRel, wordR_f 0x29 1 d a b (by decide) (by decide), regD_wordR 0x29 1 d a b (by decide), regA_wordR 0x29 1 d a b (by decide), regB_wordR 0x29 1 d a b (by decide), wordR_d 0x29 1 d a b (by decide), wordR_a 0x29 1 d a b (by decide), wordR_b 0x29 1 d a b (by decide)]
theorem rebal (d : BitVec 7) (a : BitVec 7) (b : BitVec 7) : Statement (.rebal d a b) := by
  intro _ rest
  refine round32 (i := .rebal d a b) (x := wordR 0x29 2 d a b) rfl rfl (wordR_lt 0x29 2 d a b (by decide) (by decide)) (wordR_bit0 0x29 2 d a b) ?_ rest
  simp [decode32, zeroed, wordR_m 0x29 2 d a b (by decide), decRel, wordR_f 0x29 2 d a b (by decide) (by decide), regD_wordR 0x29 2 d a b (by decide), regA_wordR 0x29 2 d a b (by decide), regB_wordR 0x29 2 d a b (by decide), wordR_d 0x29 2 d a b (by decide), wordR_a 0x29 2 d a b (by decide), wordR_b 0x29 2 d a b (by decide)]
theorem rbtot (d : BitVec 7) (a : BitVec 7) : Statement (.rbtot d a) := by
  intro _ rest
  refine round32 (i := .rbtot d a) (x := wordR 0x29 3 d a 0#7) rfl rfl (wordR_lt 0x29 3 d a 0#7 (by decide) (by decide)) (wordR_bit0 0x29 3 d a 0#7) ?_ rest
  simp [decode32, zeroed, wordR_m 0x29 3 d a 0#7 (by decide), decRel, wordR_f 0x29 3 d a 0#7 (by decide) (by decide), regD_wordR 0x29 3 d a 0#7 (by decide), regA_wordR 0x29 3 d a 0#7 (by decide), regB_wordR 0x29 3 d a 0#7 (by decide), wordR_d 0x29 3 d a 0#7 (by decide), wordR_a 0x29 3 d a 0#7 (by decide), wordR_b 0x29 3 d a 0#7 (by decide)]
theorem rgive (k : BitVec 7) : Statement (.rgive k) := by
  intro _ rest
  refine round32 (i := .rgive k) (x := wordR 0x2a 0 0#7 0#7 k) rfl rfl (wordR_lt 0x2a 0 0#7 0#7 k (by decide) (by decide)) (wordR_bit0 0x2a 0 0#7 0#7 k) ?_ rest
  simp [decode32, zeroed, wordR_m 0x2a 0 0#7 0#7 k (by decide), decRegs, wordR_f 0x2a 0 0#7 0#7 k (by decide) (by decide), regD_wordR 0x2a 0 0#7 0#7 k (by decide), regA_wordR 0x2a 0 0#7 0#7 k (by decide), regB_wordR 0x2a 0 0#7 0#7 k (by decide), wordR_d 0x2a 0 0#7 0#7 k (by decide), wordR_a 0x2a 0 0#7 0#7 k (by decide), wordR_b 0x2a 0 0#7 0#7 k (by decide)]
theorem rtake (k : BitVec 7) : Statement (.rtake k) := by
  intro _ rest
  refine round32 (i := .rtake k) (x := wordR 0x2a 1 0#7 0#7 k) rfl rfl (wordR_lt 0x2a 1 0#7 0#7 k (by decide) (by decide)) (wordR_bit0 0x2a 1 0#7 0#7 k) ?_ rest
  simp [decode32, zeroed, wordR_m 0x2a 1 0#7 0#7 k (by decide), decRegs, wordR_f 0x2a 1 0#7 0#7 k (by decide) (by decide), regD_wordR 0x2a 1 0#7 0#7 k (by decide), regA_wordR 0x2a 1 0#7 0#7 k (by decide), regB_wordR 0x2a 1 0#7 0#7 k (by decide), wordR_d 0x2a 1 0#7 0#7 k (by decide), wordR_a 0x2a 1 0#7 0#7 k (by decide), wordR_b 0x2a 1 0#7 0#7 k (by decide)]
theorem rqry (d : BitVec 7) : Statement (.rqry d) := by
  intro _ rest
  refine round32 (i := .rqry d) (x := wordR 0x2a 2 d 0#7 0#7) rfl rfl (wordR_lt 0x2a 2 d 0#7 0#7 (by decide) (by decide)) (wordR_bit0 0x2a 2 d 0#7 0#7) ?_ rest
  simp [decode32, zeroed, wordR_m 0x2a 2 d 0#7 0#7 (by decide), decRegs, wordR_f 0x2a 2 d 0#7 0#7 (by decide) (by decide), regD_wordR 0x2a 2 d 0#7 0#7 (by decide), regA_wordR 0x2a 2 d 0#7 0#7 (by decide), regB_wordR 0x2a 2 d 0#7 0#7 (by decide), wordR_d 0x2a 2 d 0#7 0#7 (by decide), wordR_a 0x2a 2 d 0#7 0#7 (by decide), wordR_b 0x2a 2 d 0#7 0#7 (by decide)]
theorem walk (d : BitVec 7) (a : BitVec 7) (h : BitVec 4) : Statement (.walk d a h) := by
  intro _ rest
  refine round32 (i := .walk d a h) (x := wordR 0x2b h.toNat d a 0#7) rfl rfl (wordR_lt 0x2b h.toNat d a 0#7 (by decide) h.isLt) (wordR_bit0 0x2b h.toNat d a 0#7) ?_ rest
  simp [decode32, zeroed, wordR_m 0x2b h.toNat d a 0#7 (by decide), wordR_f 0x2b h.toNat d a 0#7 (by decide) h.isLt, regD_wordR 0x2b h.toNat d a 0#7 (by decide), regA_wordR 0x2b h.toNat d a 0#7 (by decide), regB_wordR 0x2b h.toNat d a 0#7 (by decide), wordR_d 0x2b h.toNat d a 0#7 (by decide), wordR_a 0x2b h.toNat d a 0#7 (by decide), wordR_b 0x2b h.toNat d a 0#7 (by decide)]
theorem trclr : Statement (.trclr) := by
  intro _ rest
  refine round32 (i := .trclr) (x := wordR 0x2c 0 0#7 0#7 0#7) rfl rfl (wordR_lt 0x2c 0 0#7 0#7 0#7 (by decide) (by decide)) (wordR_bit0 0x2c 0 0#7 0#7 0#7) ?_ rest
  simp [decode32, zeroed, wordR_m 0x2c 0 0#7 0#7 0#7 (by decide), decTrail, wordR_f 0x2c 0 0#7 0#7 0#7 (by decide) (by decide), regD_wordR 0x2c 0 0#7 0#7 0#7 (by decide), regA_wordR 0x2c 0 0#7 0#7 0#7 (by decide), regB_wordR 0x2c 0 0#7 0#7 0#7 (by decide), wordR_d 0x2c 0 0#7 0#7 0#7 (by decide), wordR_a 0x2c 0 0#7 0#7 0#7 (by decide), wordR_b 0x2c 0 0#7 0#7 0#7 (by decide)]
theorem pdig (d : BitVec 7) (a : BitVec 7) (b : BitVec 7) : Statement (.pdig d a b) := by
  intro _ rest
  refine round32 (i := .pdig d a b) (x := wordR 0x2c 1 d a b) rfl rfl (wordR_lt 0x2c 1 d a b (by decide) (by decide)) (wordR_bit0 0x2c 1 d a b) ?_ rest
  simp [decode32, zeroed, wordR_m 0x2c 1 d a b (by decide), decTrail, wordR_f 0x2c 1 d a b (by decide) (by decide), regD_wordR 0x2c 1 d a b (by decide), regA_wordR 0x2c 1 d a b (by decide), regB_wordR 0x2c 1 d a b (by decide), wordR_d 0x2c 1 d a b (by decide), wordR_a 0x2c 1 d a b (by decide), wordR_b 0x2c 1 d a b (by decide)]
theorem bra (p : BitVec 5) (n : BitVec 1) (o : BitVec 19) : Statement (.bra p n o) := by
  intro _ rest
  refine round32 (i := .bra p n o) (x := wordB 0x2d p n o) rfl rfl (wordB_lt 0x2d p n o (by decide)) (wordB_bit0 0x2d p n o) ?_ rest
  simp [decode32, zeroed, wordB_m 0x2d p n o (by decide), wordB_p 0x2d p n o (by decide), wordB_n 0x2d p n o (by decide), wordB_o 0x2d p n o (by decide), regD, regA, regB]
theorem call (p : BitVec 5) (n : BitVec 1) (o : BitVec 19) : Statement (.call p n o) := by
  intro _ rest
  refine round32 (i := .call p n o) (x := wordB 0x2e p n o) rfl rfl (wordB_lt 0x2e p n o (by decide)) (wordB_bit0 0x2e p n o) ?_ rest
  simp [decode32, zeroed, wordB_m 0x2e p n o (by decide), wordB_p 0x2e p n o (by decide), wordB_n 0x2e p n o (by decide), wordB_o 0x2e p n o (by decide), regD, regA, regB]
theorem brx (a : BitVec 7) : Statement (.brx a) := by
  intro _ rest
  refine round32 (i := .brx a) (x := wordR 0x2f 0 0#7 a 0#7) rfl rfl (wordR_lt 0x2f 0 0#7 a 0#7 (by decide) (by decide)) (wordR_bit0 0x2f 0 0#7 a 0#7) ?_ rest
  simp [decode32, zeroed, wordR_m 0x2f 0 0#7 a 0#7 (by decide), decFlow, wordR_f 0x2f 0 0#7 a 0#7 (by decide) (by decide), regD_wordR 0x2f 0 0#7 a 0#7 (by decide), regA_wordR 0x2f 0 0#7 a 0#7 (by decide), regB_wordR 0x2f 0 0#7 a 0#7 (by decide), wordR_d 0x2f 0 0#7 a 0#7 (by decide), wordR_a 0x2f 0 0#7 a 0#7 (by decide), wordR_b 0x2f 0 0#7 a 0#7 (by decide)]
theorem callx (a : BitVec 7) : Statement (.callx a) := by
  intro _ rest
  refine round32 (i := .callx a) (x := wordR 0x2f 1 0#7 a 0#7) rfl rfl (wordR_lt 0x2f 1 0#7 a 0#7 (by decide) (by decide)) (wordR_bit0 0x2f 1 0#7 a 0#7) ?_ rest
  simp [decode32, zeroed, wordR_m 0x2f 1 0#7 a 0#7 (by decide), decFlow, wordR_f 0x2f 1 0#7 a 0#7 (by decide) (by decide), regD_wordR 0x2f 1 0#7 a 0#7 (by decide), regA_wordR 0x2f 1 0#7 a 0#7 (by decide), regB_wordR 0x2f 1 0#7 a 0#7 (by decide), wordR_d 0x2f 1 0#7 a 0#7 (by decide), wordR_a 0x2f 1 0#7 a 0#7 (by decide), wordR_b 0x2f 1 0#7 a 0#7 (by decide)]
theorem ret : Statement (.ret) := by
  intro _ rest
  refine round32 (i := .ret) (x := wordR 0x2f 2 0#7 0#7 0#7) rfl rfl (wordR_lt 0x2f 2 0#7 0#7 0#7 (by decide) (by decide)) (wordR_bit0 0x2f 2 0#7 0#7 0#7) ?_ rest
  simp [decode32, zeroed, wordR_m 0x2f 2 0#7 0#7 0#7 (by decide), decFlow, wordR_f 0x2f 2 0#7 0#7 0#7 (by decide) (by decide), regD_wordR 0x2f 2 0#7 0#7 0#7 (by decide), regA_wordR 0x2f 2 0#7 0#7 0#7 (by decide), regB_wordR 0x2f 2 0#7 0#7 0#7 (by decide), wordR_d 0x2f 2 0#7 0#7 0#7 (by decide), wordR_a 0x2f 2 0#7 0#7 0#7 (by decide), wordR_b 0x2f 2 0#7 0#7 0#7 (by decide)]
theorem exit : Statement (.exit) := by
  intro _ rest
  refine round32 (i := .exit) (x := wordR 0x2f 3 0#7 0#7 0#7) rfl rfl (wordR_lt 0x2f 3 0#7 0#7 0#7 (by decide) (by decide)) (wordR_bit0 0x2f 3 0#7 0#7 0#7) ?_ rest
  simp [decode32, zeroed, wordR_m 0x2f 3 0#7 0#7 0#7 (by decide), decFlow, wordR_f 0x2f 3 0#7 0#7 0#7 (by decide) (by decide), regD_wordR 0x2f 3 0#7 0#7 0#7 (by decide), regA_wordR 0x2f 3 0#7 0#7 0#7 (by decide), regB_wordR 0x2f 3 0#7 0#7 0#7 (by decide), wordR_d 0x2f 3 0#7 0#7 0#7 (by decide), wordR_a 0x2f 3 0#7 0#7 0#7 (by decide), wordR_b 0x2f 3 0#7 0#7 0#7 (by decide)]
theorem yield : Statement (.yield) := by
  intro _ rest
  refine round32 (i := .yield) (x := wordR 0x2f 4 0#7 0#7 0#7) rfl rfl (wordR_lt 0x2f 4 0#7 0#7 0#7 (by decide) (by decide)) (wordR_bit0 0x2f 4 0#7 0#7 0#7) ?_ rest
  simp [decode32, zeroed, wordR_m 0x2f 4 0#7 0#7 0#7 (by decide), decFlow, wordR_f 0x2f 4 0#7 0#7 0#7 (by decide) (by decide), regD_wordR 0x2f 4 0#7 0#7 0#7 (by decide), regA_wordR 0x2f 4 0#7 0#7 0#7 (by decide), regB_wordR 0x2f 4 0#7 0#7 0#7 (by decide), wordR_d 0x2f 4 0#7 0#7 0#7 (by decide), wordR_a 0x2f 4 0#7 0#7 0#7 (by decide), wordR_b 0x2f 4 0#7 0#7 0#7 (by decide)]
theorem rcvset (d : BitVec 7) : Statement (.rcvset d) := by
  intro _ rest
  refine round32 (i := .rcvset d) (x := wordR 0x2f 5 d 0#7 0#7) rfl rfl (wordR_lt 0x2f 5 d 0#7 0#7 (by decide) (by decide)) (wordR_bit0 0x2f 5 d 0#7 0#7) ?_ rest
  simp [decode32, zeroed, wordR_m 0x2f 5 d 0#7 0#7 (by decide), decFlow, wordR_f 0x2f 5 d 0#7 0#7 (by decide) (by decide), regD_wordR 0x2f 5 d 0#7 0#7 (by decide), regA_wordR 0x2f 5 d 0#7 0#7 (by decide), regB_wordR 0x2f 5 d 0#7 0#7 (by decide), wordR_d 0x2f 5 d 0#7 0#7 (by decide), wordR_a 0x2f 5 d 0#7 0#7 (by decide), wordR_b 0x2f 5 d 0#7 0#7 (by decide)]
theorem rcvwait (d : BitVec 7) : Statement (.rcvwait d) := by
  intro _ rest
  refine round32 (i := .rcvwait d) (x := wordR 0x2f 6 d 0#7 0#7) rfl rfl (wordR_lt 0x2f 6 d 0#7 0#7 (by decide) (by decide)) (wordR_bit0 0x2f 6 d 0#7 0#7) ?_ rest
  simp [decode32, zeroed, wordR_m 0x2f 6 d 0#7 0#7 (by decide), decFlow, wordR_f 0x2f 6 d 0#7 0#7 (by decide) (by decide), regD_wordR 0x2f 6 d 0#7 0#7 (by decide), regA_wordR 0x2f 6 d 0#7 0#7 (by decide), regB_wordR 0x2f 6 d 0#7 0#7 (by decide), wordR_d 0x2f 6 d 0#7 0#7 (by decide), wordR_a 0x2f 6 d 0#7 0#7 (by decide), wordR_b 0x2f 6 d 0#7 0#7 (by decide)]
theorem pass : Statement (.pass) := by
  intro _ rest
  refine round32 (i := .pass) (x := wordR 0x2f 7 0#7 0#7 0#7) rfl rfl (wordR_lt 0x2f 7 0#7 0#7 0#7 (by decide) (by decide)) (wordR_bit0 0x2f 7 0#7 0#7 0#7) ?_ rest
  simp [decode32, zeroed, wordR_m 0x2f 7 0#7 0#7 0#7 (by decide), decFlow, wordR_f 0x2f 7 0#7 0#7 0#7 (by decide) (by decide), regD_wordR 0x2f 7 0#7 0#7 0#7 (by decide), regA_wordR 0x2f 7 0#7 0#7 0#7 (by decide), regB_wordR 0x2f 7 0#7 0#7 0#7 (by decide), wordR_d 0x2f 7 0#7 0#7 0#7 (by decide), wordR_a 0x2f 7 0#7 0#7 0#7 (by decide), wordR_b 0x2f 7 0#7 0#7 0#7 (by decide)]
theorem brk : Statement (.brk) := by
  intro _ rest
  refine round32 (i := .brk) (x := wordR 0x2f 8 0#7 0#7 0#7) rfl rfl (wordR_lt 0x2f 8 0#7 0#7 0#7 (by decide) (by decide)) (wordR_bit0 0x2f 8 0#7 0#7 0#7) ?_ rest
  simp [decode32, zeroed, wordR_m 0x2f 8 0#7 0#7 0#7 (by decide), decFlow, wordR_f 0x2f 8 0#7 0#7 0#7 (by decide) (by decide), regD_wordR 0x2f 8 0#7 0#7 0#7 (by decide), regA_wordR 0x2f 8 0#7 0#7 0#7 (by decide), regB_wordR 0x2f 8 0#7 0#7 0#7 (by decide), wordR_d 0x2f 8 0#7 0#7 0#7 (by decide), wordR_a 0x2f 8 0#7 0#7 0#7 (by decide), wordR_b 0x2f 8 0#7 0#7 0#7 (by decide)]
theorem trap (n : BitVec 7) : Statement (.trap n) := by
  intro _ rest
  refine round32 (i := .trap n) (x := wordR 0x2f 9 0#7 0#7 n) rfl rfl (wordR_lt 0x2f 9 0#7 0#7 n (by decide) (by decide)) (wordR_bit0 0x2f 9 0#7 0#7 n) ?_ rest
  simp [decode32, zeroed, wordR_m 0x2f 9 0#7 0#7 n (by decide), decFlow, wordR_f 0x2f 9 0#7 0#7 n (by decide) (by decide), regD_wordR 0x2f 9 0#7 0#7 n (by decide), regA_wordR 0x2f 9 0#7 0#7 n (by decide), regB_wordR 0x2f 9 0#7 0#7 n (by decide), wordR_d 0x2f 9 0#7 0#7 n (by decide), wordR_a 0x2f 9 0#7 0#7 n (by decide), wordR_b 0x2f 9 0#7 0#7 n (by decide)]
theorem rtt : Statement (.rtt) := by
  intro _ rest
  refine round32 (i := .rtt) (x := wordR 0x2f 10 0#7 0#7 0#7) rfl rfl (wordR_lt 0x2f 10 0#7 0#7 0#7 (by decide) (by decide)) (wordR_bit0 0x2f 10 0#7 0#7 0#7) ?_ rest
  simp [decode32, zeroed, wordR_m 0x2f 10 0#7 0#7 0#7 (by decide), decFlow, wordR_f 0x2f 10 0#7 0#7 0#7 (by decide) (by decide), regD_wordR 0x2f 10 0#7 0#7 0#7 (by decide), regA_wordR 0x2f 10 0#7 0#7 0#7 (by decide), regB_wordR 0x2f 10 0#7 0#7 0#7 (by decide), wordR_d 0x2f 10 0#7 0#7 0#7 (by decide), wordR_a 0x2f 10 0#7 0#7 0#7 (by decide), wordR_b 0x2f 10 0#7 0#7 0#7 (by decide)]
theorem softi (d : BitVec 7) (a : BitVec 7) (b : BitVec 7) : Statement (.softi d a b) := by
  intro _ rest
  refine round32 (i := .softi d a b) (x := wordR 0x2f 11 d a b) rfl rfl (wordR_lt 0x2f 11 d a b (by decide) (by decide)) (wordR_bit0 0x2f 11 d a b) ?_ rest
  simp [decode32, zeroed, wordR_m 0x2f 11 d a b (by decide), decFlow, wordR_f 0x2f 11 d a b (by decide) (by decide), regD_wordR 0x2f 11 d a b (by decide), regA_wordR 0x2f 11 d a b (by decide), regB_wordR 0x2f 11 d a b (by decide), wordR_d 0x2f 11 d a b (by decide), wordR_a 0x2f 11 d a b (by decide), wordR_b 0x2f 11 d a b (by decide)]
theorem sleepc (a : BitVec 7) : Statement (.sleepc a) := by
  intro _ rest
  refine round32 (i := .sleepc a) (x := wordR 0x2f 12 0#7 a 0#7) rfl rfl (wordR_lt 0x2f 12 0#7 a 0#7 (by decide) (by decide)) (wordR_bit0 0x2f 12 0#7 a 0#7) ?_ rest
  simp [decode32, zeroed, wordR_m 0x2f 12 0#7 a 0#7 (by decide), decFlow, wordR_f 0x2f 12 0#7 a 0#7 (by decide) (by decide), regD_wordR 0x2f 12 0#7 a 0#7 (by decide), regA_wordR 0x2f 12 0#7 a 0#7 (by decide), regB_wordR 0x2f 12 0#7 a 0#7 (by decide), wordR_d 0x2f 12 0#7 a 0#7 (by decide), wordR_a 0x2f 12 0#7 a 0#7 (by decide), wordR_b 0x2f 12 0#7 a 0#7 (by decide)]
theorem nop32 : Statement (.nop32) := by
  intro _ rest
  refine round32 (i := .nop32) (x := wordR 0x2f 13 0#7 0#7 0#7) rfl rfl (wordR_lt 0x2f 13 0#7 0#7 0#7 (by decide) (by decide)) (wordR_bit0 0x2f 13 0#7 0#7 0#7) ?_ rest
  simp [decode32, zeroed, wordR_m 0x2f 13 0#7 0#7 0#7 (by decide), decFlow, wordR_f 0x2f 13 0#7 0#7 0#7 (by decide) (by decide), regD_wordR 0x2f 13 0#7 0#7 0#7 (by decide), regA_wordR 0x2f 13 0#7 0#7 0#7 (by decide), regB_wordR 0x2f 13 0#7 0#7 0#7 (by decide), wordR_d 0x2f 13 0#7 0#7 0#7 (by decide), wordR_a 0x2f 13 0#7 0#7 0#7 (by decide), wordR_b 0x2f 13 0#7 0#7 0#7 (by decide)]
theorem sysr (d : BitVec 7) (n : BitVec 11) : Statement (.sysr d n) := by
  intro _ rest
  refine round32 (i := .sysr d n) (x := wordI 0x30 d 0#7 n) rfl rfl (wordI_lt 0x30 d 0#7 n (by decide)) (wordI_bit0 0x30 d 0#7 n) ?_ rest
  simp [decode32, zeroed, wordI_m 0x30 d 0#7 n (by decide), wordI_d 0x30 d 0#7 n (by decide), wordI_a 0x30 d 0#7 n (by decide), wordI_i 0x30 d 0#7 n (by decide), regD, regA, regB]
theorem sysw (a : BitVec 7) (n : BitVec 11) : Statement (.sysw a n) := by
  intro _ rest
  refine round32 (i := .sysw a n) (x := wordI 0x31 0#7 a n) rfl rfl (wordI_lt 0x31 0#7 a n (by decide)) (wordI_bit0 0x31 0#7 a n) ?_ rest
  simp [decode32, zeroed, wordI_m 0x31 0#7 a n (by decide), wordI_d 0x31 0#7 a n (by decide), wordI_a 0x31 0#7 a n (by decide), wordI_i 0x31 0#7 a n (by decide), regD, regA, regB]
theorem tlbiVa (a : BitVec 7) (b : BitVec 7) : Statement (.tlbiVa a b) := by
  intro _ rest
  refine round32 (i := .tlbiVa a b) (x := wordR 0x32 0 0#7 a b) rfl rfl (wordR_lt 0x32 0 0#7 a b (by decide) (by decide)) (wordR_bit0 0x32 0 0#7 a b) ?_ rest
  simp [decode32, zeroed, wordR_m 0x32 0 0#7 a b (by decide), decTlbi, wordR_f 0x32 0 0#7 a b (by decide) (by decide), regD_wordR 0x32 0 0#7 a b (by decide), regA_wordR 0x32 0 0#7 a b (by decide), regB_wordR 0x32 0 0#7 a b (by decide), wordR_d 0x32 0 0#7 a b (by decide), wordR_a 0x32 0 0#7 a b (by decide), wordR_b 0x32 0 0#7 a b (by decide)]
theorem tlbiAsid (b : BitVec 7) : Statement (.tlbiAsid b) := by
  intro _ rest
  refine round32 (i := .tlbiAsid b) (x := wordR 0x32 1 0#7 0#7 b) rfl rfl (wordR_lt 0x32 1 0#7 0#7 b (by decide) (by decide)) (wordR_bit0 0x32 1 0#7 0#7 b) ?_ rest
  simp [decode32, zeroed, wordR_m 0x32 1 0#7 0#7 b (by decide), decTlbi, wordR_f 0x32 1 0#7 0#7 b (by decide) (by decide), regD_wordR 0x32 1 0#7 0#7 b (by decide), regA_wordR 0x32 1 0#7 0#7 b (by decide), regB_wordR 0x32 1 0#7 0#7 b (by decide), wordR_d 0x32 1 0#7 0#7 b (by decide), wordR_a 0x32 1 0#7 0#7 b (by decide), wordR_b 0x32 1 0#7 0#7 b (by decide)]
theorem tlbiAll (b : BitVec 7) : Statement (.tlbiAll b) := by
  intro _ rest
  refine round32 (i := .tlbiAll b) (x := wordR 0x32 2 0#7 0#7 b) rfl rfl (wordR_lt 0x32 2 0#7 0#7 b (by decide) (by decide)) (wordR_bit0 0x32 2 0#7 0#7 b) ?_ rest
  simp [decode32, zeroed, wordR_m 0x32 2 0#7 0#7 b (by decide), decTlbi, wordR_f 0x32 2 0#7 0#7 b (by decide) (by decide), regD_wordR 0x32 2 0#7 0#7 b (by decide), regA_wordR 0x32 2 0#7 0#7 b (by decide), regB_wordR 0x32 2 0#7 0#7 b (by decide), wordR_d 0x32 2 0#7 0#7 b (by decide), wordR_a 0x32 2 0#7 0#7 b (by decide), wordR_b 0x32 2 0#7 0#7 b (by decide)]
theorem movC (d : BitVec 5) (s : BitVec 5) : Statement (.movC d s) := by
  intro hw rest
  refine round16 (i := .movC d s) (x := wordH 0 d s) rfl rfl (wordH_lt 0 d s (by decide)) (wordH_bit0 0 d s) ?_ rest
  have h : wordH 0 d s ≠ 0 := by
    intro h
    have hd : d = 0 := BitVec.eq_of_toNat_eq (by simp only [wordH] at h; simp; omega)
    have hs : s = 0 := BitVec.eq_of_toNat_eq (by simp only [wordH] at h; simp; omega)
    subst hd; subst hs
    exact absurd hw (by decide)
  simp [decode16, h, wordH_op 0 d s (by decide), wordH_d 0 d s (by decide), wordH_v 0 d s (by decide)]
theorem moviC (d : BitVec 5) (i : BitVec 5) : Statement (.moviC d i) := by
  intro _ rest
  refine round16 (i := .moviC d i) (x := wordH 1 d i) rfl rfl (wordH_lt 1 d i (by decide)) (wordH_bit0 1 d i) ?_ rest
  have h : wordH 1 d i ≠ 0 := by simp only [wordH]; omega
  simp [decode16, h, wordH_op 1 d i (by decide), wordH_d 1 d i (by decide), wordH_v 1 d i (by decide)]
theorem addC (d : BitVec 5) (s : BitVec 5) : Statement (.addC d s) := by
  intro _ rest
  refine round16 (i := .addC d s) (x := wordH 2 d s) rfl rfl (wordH_lt 2 d s (by decide)) (wordH_bit0 2 d s) ?_ rest
  have h : wordH 2 d s ≠ 0 := by simp only [wordH]; omega
  simp [decode16, h, wordH_op 2 d s (by decide), wordH_d 2 d s (by decide), wordH_v 2 d s (by decide)]
theorem addiC (d : BitVec 5) (i : BitVec 5) : Statement (.addiC d i) := by
  intro _ rest
  refine round16 (i := .addiC d i) (x := wordH 3 d i) rfl rfl (wordH_lt 3 d i (by decide)) (wordH_bit0 3 d i) ?_ rest
  have h : wordH 3 d i ≠ 0 := by simp only [wordH]; omega
  simp [decode16, h, wordH_op 3 d i (by decide), wordH_d 3 d i (by decide), wordH_v 3 d i (by decide)]
theorem subC (d : BitVec 5) (s : BitVec 5) : Statement (.subC d s) := by
  intro _ rest
  refine round16 (i := .subC d s) (x := wordH 4 d s) rfl rfl (wordH_lt 4 d s (by decide)) (wordH_bit0 4 d s) ?_ rest
  have h : wordH 4 d s ≠ 0 := by simp only [wordH]; omega
  simp [decode16, h, wordH_op 4 d s (by decide), wordH_d 4 d s (by decide), wordH_v 4 d s (by decide)]
theorem andC (d : BitVec 5) (s : BitVec 5) : Statement (.andC d s) := by
  intro _ rest
  refine round16 (i := .andC d s) (x := wordH 5 d s) rfl rfl (wordH_lt 5 d s (by decide)) (wordH_bit0 5 d s) ?_ rest
  have h : wordH 5 d s ≠ 0 := by simp only [wordH]; omega
  simp [decode16, h, wordH_op 5 d s (by decide), wordH_d 5 d s (by decide), wordH_v 5 d s (by decide)]
theorem orC (d : BitVec 5) (s : BitVec 5) : Statement (.orC d s) := by
  intro _ rest
  refine round16 (i := .orC d s) (x := wordH 6 d s) rfl rfl (wordH_lt 6 d s (by decide)) (wordH_bit0 6 d s) ?_ rest
  have h : wordH 6 d s ≠ 0 := by simp only [wordH]; omega
  simp [decode16, h, wordH_op 6 d s (by decide), wordH_d 6 d s (by decide), wordH_v 6 d s (by decide)]
theorem xorC (d : BitVec 5) (s : BitVec 5) : Statement (.xorC d s) := by
  intro _ rest
  refine round16 (i := .xorC d s) (x := wordH 7 d s) rfl rfl (wordH_lt 7 d s (by decide)) (wordH_bit0 7 d s) ?_ rest
  have h : wordH 7 d s ≠ 0 := by simp only [wordH]; omega
  simp [decode16, h, wordH_op 7 d s (by decide), wordH_d 7 d s (by decide), wordH_v 7 d s (by decide)]
theorem shliC (d : BitVec 5) (n : BitVec 5) : Statement (.shliC d n) := by
  intro _ rest
  refine round16 (i := .shliC d n) (x := wordH 8 d n) rfl rfl (wordH_lt 8 d n (by decide)) (wordH_bit0 8 d n) ?_ rest
  have h : wordH 8 d n ≠ 0 := by simp only [wordH]; omega
  simp [decode16, h, wordH_op 8 d n (by decide), wordH_d 8 d n (by decide), wordH_v 8 d n (by decide)]
theorem shriC (d : BitVec 5) (n : BitVec 5) : Statement (.shriC d n) := by
  intro _ rest
  refine round16 (i := .shriC d n) (x := wordH 9 d n) rfl rfl (wordH_lt 9 d n (by decide)) (wordH_bit0 9 d n) ?_ rest
  have h : wordH 9 d n ≠ 0 := by simp only [wordH]; omega
  simp [decode16, h, wordH_op 9 d n (by decide), wordH_d 9 d n (by decide), wordH_v 9 d n (by decide)]
theorem sariC (d : BitVec 5) (n : BitVec 5) : Statement (.sariC d n) := by
  intro _ rest
  refine round16 (i := .sariC d n) (x := wordH 10 d n) rfl rfl (wordH_lt 10 d n (by decide)) (wordH_bit0 10 d n) ?_ rest
  have h : wordH 10 d n ≠ 0 := by simp only [wordH]; omega
  simp [decode16, h, wordH_op 10 d n (by decide), wordH_d 10 d n (by decide), wordH_v 10 d n (by decide)]
theorem faddC (d : BitVec 5) (s : BitVec 5) : Statement (.faddC d s) := by
  intro _ rest
  refine round16 (i := .faddC d s) (x := wordH 11 d s) rfl rfl (wordH_lt 11 d s (by decide)) (wordH_bit0 11 d s) ?_ rest
  have h : wordH 11 d s ≠ 0 := by simp only [wordH]; omega
  simp [decode16, h, wordH_op 11 d s (by decide), wordH_d 11 d s (by decide), wordH_v 11 d s (by decide)]
theorem fmulC (d : BitVec 5) (s : BitVec 5) : Statement (.fmulC d s) := by
  intro _ rest
  refine round16 (i := .fmulC d s) (x := wordH 12 d s) rfl rfl (wordH_lt 12 d s (by decide)) (wordH_bit0 12 d s) ?_ rest
  have h : wordH 12 d s ≠ 0 := by simp only [wordH]; omega
  simp [decode16, h, wordH_op 12 d s (by decide), wordH_d 12 d s (by decide), wordH_v 12 d s (by decide)]
theorem fmaxC (d : BitVec 5) (s : BitVec 5) : Statement (.fmaxC d s) := by
  intro _ rest
  refine round16 (i := .fmaxC d s) (x := wordH 13 d s) rfl rfl (wordH_lt 13 d s (by decide)) (wordH_bit0 13 d s) ?_ rest
  have h : wordH 13 d s ≠ 0 := by simp only [wordH]; omega
  simp [decode16, h, wordH_op 13 d s (by decide), wordH_d 13 d s (by decide), wordH_v 13 d s (by decide)]
theorem minS32C (d : BitVec 5) (s : BitVec 5) : Statement (.minS32C d s) := by
  intro _ rest
  refine round16 (i := .minS32C d s) (x := wordH 14 d s) rfl rfl (wordH_lt 14 d s (by decide)) (wordH_bit0 14 d s) ?_ rest
  have h : wordH 14 d s ≠ 0 := by simp only [wordH]; omega
  simp [decode16, h, wordH_op 14 d s (by decide), wordH_d 14 d s (by decide), wordH_v 14 d s (by decide)]
theorem maxS32C (d : BitVec 5) (s : BitVec 5) : Statement (.maxS32C d s) := by
  intro _ rest
  refine round16 (i := .maxS32C d s) (x := wordH 15 d s) rfl rfl (wordH_lt 15 d s (by decide)) (wordH_bit0 15 d s) ?_ rest
  have h : wordH 15 d s ≠ 0 := by simp only [wordH]; omega
  simp [decode16, h, wordH_op 15 d s (by decide), wordH_d 15 d s (by decide), wordH_v 15 d s (by decide)]
theorem braS (o : BitVec 10) : Statement (.braS o) := by
  intro _ rest
  have hlt := o.isLt
  refine round16 (i := .braS o) (x := 2 * 17 + 2 ^ 6 * o.toNat) rfl rfl (by omega) (by omega) ?_ rest
  have h1 : bits (2 * 17 + 2 ^ 6 * o.toNat) 5 1 = 17 := by simp only [bits]; omega
  have h2 : bits (2 * 17 + 2 ^ 6 * o.toNat) 15 6 = o.toNat := by simp only [bits]; omega
  have h : 2 * 17 + 2 ^ 6 * o.toNat ≠ 0 := by omega
  simp only [decode16, if_neg h, h1, h2, BitVec.ofNat_toNat, BitVec.setWidth_eq]
theorem nopC : Statement (.nopC) := by
  intro _ rest
  exact round16 (i := .nopC) (x := wordH 18 0 0) rfl rfl (by decide) (by decide) rfl rest
theorem yieldC : Statement (.yieldC) := by
  intro _ rest
  exact round16 (i := .yieldC) (x := wordH 18 1 0) rfl rfl (by decide) (by decide) rfl rest
theorem exitC : Statement (.exitC) := by
  intro _ rest
  exact round16 (i := .exitC) (x := wordH 18 2 0) rfl rfl (by decide) (by decide) rfl rest
theorem retC : Statement (.retC) := by
  intro _ rest
  exact round16 (i := .retC) (x := wordH 18 3 0) rfl rfl (by decide) (by decide) rfl rest
theorem translationWalk (w : Nat) : Statement (.translationWalk w) := noWord rfl
theorem snapshotPrefetch (team : Nat) (va : BitVec 64) : Statement (.snapshotPrefetch team va) := noWord rfl
theorem snapshotEmpty (team : Nat) (va : BitVec 64) : Statement (.snapshotEmpty team va) := noWord rfl
theorem writeBufferDrain (team : Nat) (n : Nat) : Statement (.writeBufferDrain team n) := noWord rfl
theorem outboundPerform (n : Nat) : Statement (.outboundPerform n) := noWord rfl
theorem copyPiece (c : Nat) : Statement (.copyPiece c) := noWord rfl
theorem copyComplete (c : Nat) : Statement (.copyComplete c) := noWord rfl
theorem tmcastBufferClaim (c : Nat) : Statement (.tmcastBufferClaim c) := noWord rfl
theorem tileFetch (o : Nat) : Statement (.tileFetch o) := noWord rfl
theorem matrixLeaveGrant (o : Nat) : Statement (.matrixLeaveGrant o) := noWord rfl
theorem arrayAccumulate (o : Nat) : Statement (.arrayAccumulate o) := noWord rfl
theorem drainRowCommit (o : Nat) : Statement (.drainRowCommit o) := noWord rfl
theorem chainRecordRead (ch : Nat) : Statement (.chainRecordRead ch) := noWord rfl
theorem chainChunk (ch : Nat) : Statement (.chainChunk ch) := noWord rfl
theorem chainRecordComplete (ch : Nat) : Statement (.chainRecordComplete ch) := noWord rfl
theorem promotion (f : Nat) : Statement (.promotion f) := noWord rfl
theorem migrationRequest (r : MigRequest) : Statement (.migrationRequest r) := noWord rfl
theorem migrationComplete (m : Nat) (r : MigReply) : Statement (.migrationComplete m r) := noWord rfl
theorem peerRequest (r : PeerReq) : Statement (.peerRequest r) := noWord rfl
theorem faultReplay (p : Nat) : Statement (.faultReplay p) := noWord rfl
theorem parkAgeTrigger (team : Nat) : Statement (.parkAgeTrigger team) := noWord rfl
theorem parkShareTrigger (team : Nat) : Statement (.parkShareTrigger team) := noWord rfl
theorem swapComplete (team : Nat) : Statement (.swapComplete team) := noWord rfl
theorem readmit (team : Nat) : Statement (.readmit team) := noWord rfl
theorem placeTeam : Statement (.placeTeam) := noWord rfl
theorem packetNop (vf ring : Nat) : Statement (.packetNop vf ring) := noWord rfl
theorem packetBarrier (vf ring : Nat) : Statement (.packetBarrier vf ring) := noWord rfl
theorem packetLaunch (vf ring : Nat) : Statement (.packetLaunch vf ring) := noWord rfl
theorem gridEnd (g : Nat) : Statement (.gridEnd g) := noWord rfl
theorem stall (team : Nat) : Statement (.stall team) := noWord rfl
theorem lanesetExchange (q : Nat) : Statement (.lanesetExchange q) := noWord rfl
theorem passHoldEnd (q : Nat) : Statement (.passHoldEnd q) := noWord rfl
theorem sleepcWake (team tid : Nat) : Statement (.sleepcWake team tid) := noWord rfl
theorem auditBlockClose (vf : Nat) : Statement (.auditBlockClose vf) := noWord rfl
theorem eventRecordWrite (fn : Nat) : Statement (.eventRecordWrite fn) := noWord rfl
theorem resolveCmd (fn : Nat) : Statement (.resolveCmd fn) := noWord rfl
theorem rejectCmd (fn : Nat) : Statement (.rejectCmd fn) := noWord rfl
theorem demoteCmd (fn : Nat) : Statement (.demoteCmd fn) := noWord rfl
theorem sealCmd (fn : Nat) : Statement (.sealCmd fn) := noWord rfl
theorem freeCmd (fn : Nat) : Statement (.freeCmd fn) := noWord rfl
theorem vacateCmd (fn : Nat) : Statement (.vacateCmd fn) := noWord rfl
theorem releaseCmd (fn : Nat) : Statement (.releaseCmd fn) := noWord rfl
theorem audittakeCmd (fn : Nat) : Statement (.audittakeCmd fn) := noWord rfl
theorem auditflushCmd (fn : Nat) : Statement (.auditflushCmd fn) := noWord rfl
theorem attestCmd (fn : Nat) : Statement (.attestCmd fn) := noWord rfl
theorem loadkeyCmd (fn : Nat) : Statement (.loadkeyCmd fn) := noWord rfl
theorem exportCmd (fn : Nat) : Statement (.exportCmd fn) := noWord rfl
theorem dbgnonceCmd (fn : Nat) : Statement (.dbgnonceCmd fn) := noWord rfl
theorem debugCmd (fn : Nat) : Statement (.debugCmd fn) := noWord rfl
theorem mqUnknownOp (fn : Nat) : Statement (.mqUnknownOp fn) := noWord rfl
theorem vfReset (vf : Nat) : Statement (.vfReset vf) := noWord rfl
theorem functionLevelReset (vf : Nat) : Statement (.functionLevelReset vf) := noWord rfl
theorem vfcfgWrite (vf : Nat) (v : BitVec 128) : Statement (.vfcfgWrite vf v) := noWord rfl
theorem ringtabWrite (vf : Nat) (v : BitVec 64) : Statement (.ringtabWrite vf v) := noWord rfl
theorem pstateWrite (v : BitVec 32) : Statement (.pstateWrite v) := noWord rfl
theorem powercapWrite (v : BitVec 32) : Statement (.powercapWrite v) := noWord rfl
theorem registerWrite (fn : Nat) (off : Nat) (v : BitVec 64) : Statement (.registerWrite fn off v) := noWord rfl
theorem deviceReset (images : List FwImage) : Statement (.deviceReset images) := noWord rfl
theorem thermalHigh : Statement (.thermalHigh) := noWord rfl
theorem thermalLow : Statement (.thermalLow) := noWord rfl
theorem idleEntry : Statement (.idleEntry) := noWord rfl
theorem idleWake : Statement (.idleWake) := noWord rfl
theorem peerPortFail (port : Nat) : Statement (.peerPortFail port) := noWord rfl
theorem memoryErrorDetect (e : MemError) : Statement (.memoryErrorDetect e) := noWord rfl
theorem correctedErrorReport (unit k : Nat) : Statement (.correctedErrorReport unit k) := noWord rfl
theorem hostAccess (r : HostReq) : Statement (.hostAccess r) := noWord rfl
theorem wakeRegisterAction : Statement (.wakeRegisterAction) := noWord rfl
theorem pfReset : Statement (.pfReset) := noWord rfl

end Sys2Proof.Laws.RoundTrip
end

