-- ==== Sys2Proof/Laws/Solo.lean ====
section
/-! SUPPORT. What an instruction does for one thread that executes alone, and what the shared operations do to the rest of the
package. -/

namespace Sys2Proof.Machine

theorem guarded_solo {s : State} {tid : Nat} {regs : List Nat} (h : Solo s tid regs) (body : Nat → State → State) :
    guarded regs body tid s = body tid s := by
  have hp := h.guard
  have hm : (regs.any fun q => decide (s.here.countOf tid ≤ q)) = false := by
    rw [List.any_eq_false]
    intro q hq
    have := h.regs q hq
    simp; omega
  have he : s.here.thread tid = s.thread s.cur.team tid := rfl
  simp [guarded, h.ready.team, h.ready.guard, he, hp, hm]

theorem eachLane_solo {s : State} {tid : Nat} {regs : List Nat} (h : Solo s tid regs) (body : Nat → State → State) :
    eachLane regs body s = body tid s := by
  simp [eachLane, h.group, guarded_solo h]

theorem lanes_solo {s : State} {tid : Nat} {regs : List Nat} (h : Solo s tid regs) (body : Nat → State → State) :
    lanes regs body s = finish (body tid s) := by rw [lanes, eachLane_solo h]

end Sys2Proof.Machine
end

