-- ==== Sys2Proof/Laws/Tier.lean ====
section
/-! SUPPORT. A tier page whose tags are its own is decrypted to a page of the same length; taking a frame leaves keys and tier records. -/

namespace Sys2Proof.Machine

theorem length_xorBytes (a b : List Byte) : (xorBytes a b).length = min a.length b.length := List.length_zipWith

theorem length_shiftRows (b : List Byte) : (shiftRows b).length = 16 := by simp [shiftRows]

theorem length_mixColumn (c : List Byte) (h : c.length = 4) : (mixColumn c).length = 4 := by
  obtain ⟨a, b, c, d, rfl⟩ : ∃ w x y z, c = [w, x, y, z] := by
    match c, h with
    | [w, x, y, z], _ => exact ⟨w, x, y, z, rfl⟩
  rfl

theorem length_mixColumns (b : List Byte) (h : b.length = 16) : (mixColumns b).length = 16 := by
  have hc (c : Nat) (hc : c < 4) : (mixColumn ((b.drop (4 * c)).take 4)).length = 4 := length_mixColumn _ (by simp [h]; omega)
  simp only [mixColumns, List.length_flatMap, List.range_succ, List.range_zero, List.nil_append, List.map_append, List.map_cons, List.map_nil, List.sum_append, List.sum_cons, List.sum_nil]
  rw [hc 0 (by decide), hc 1 (by decide), hc 2 (by decide), hc 3 (by decide)]
  rfl

theorem length_aesRounds (ks : List (List Byte)) : ∀ b : List Byte, b.length = 16 → (∀ k ∈ ks, k.length = 16) → (aesRounds b ks).length = 16 := by
  induction ks with
  | nil => intro b hb _; exact hb
  | cons k ks ih =>
    intro b hb hk
    cases ks with
    | nil => simp [aesRounds, length_xorBytes, length_shiftRows, hk k (by simp)]
    | cons k' ks =>
      rw [aesRounds]
      · exact ih _ (by rw [length_xorBytes, length_mixColumns _ (length_shiftRows _), hk k (by simp)]; rfl) fun q hq => hk q (by simp [hq])
      · simp

/-- A block under round keys of 16 bytes has 16 bytes. -/
theorem length_aesBlock (ks : List (List Byte)) (b : List Byte) (h : b.length = 16) (hk : ∀ k ∈ ks, k.length = 16) (hn : ks ≠ []) : (aesBlock ks b).length = 16 := by
  obtain ⟨k, ks, rfl⟩ := List.exists_cons_of_ne_nil hn
  exact length_aesRounds ks _ (by simp [length_xorBytes, h, hk k (by simp)]) fun q hq => hk q (by simp [hq])

theorem length_gctr (ks : List (List Byte)) (iv : List Byte) (hi : iv.length = 12) (hk : ∀ k ∈ ks, k.length = 16) (hn : ks ≠ []) :
    ∀ (n c : Nat) (m : List Byte), m.length = 16 * n → (gctr ks iv n c m).length = 16 * n := by
  intro n
  induction n with
  | zero => intro c m _; rfl
  | succ n ih =>
    intro c m hm
    have hb : (aesBlock ks (iv ++ beBytes 4 c)).length = 16 := length_aesBlock ks _ (by simp [hi, beBytes, leBytes]) hk hn
    rw [gctr, List.length_append, ih _ _ (by simp [hm]; omega), length_xorBytes, hb, List.length_take, hm]
    omega

/-- The tags of a page's blocks (R90). -/
def pageTags (key : List Byte) (version frame vf : Nat) (page : List Byte) : List (List Byte) :=
  (List.range 16).map fun i => gcmTag (roundKeys key) (tierIv version frame vf i) ((page.drop (4096 * i)).take 4096)

/-- R91: a page with its own tags is decrypted. -/
theorem decryptPage_own (key : List Byte) (version frame vf : Nat) (page : List Byte) (hk : ∀ k ∈ roundKeys key, k.length = 16) (hp : page.length = 65536) :
    ∃ out, decryptPage key version frame vf (pageTags key version frame vf page) page = some out ∧ out.length = 65536 := by
  have hn : roundKeys key ≠ [] := by unfold roundKeys; rw [List.range_succ]; simp
  have key_ (n : Nat) (hn16 : n ≤ 16) : ∃ out, (List.range n).foldl (fun (acc : Option (List Byte)) i =>
      match acc, gcmDecrypt key (tierIv version frame vf i) ((page.drop (4096 * i)).take 4096) (((pageTags key version frame vf page)[i]?).getD (List.replicate 16 0)) with
      | some a, some b => some (a ++ b)
      | _, _ => none) (some []) = some out ∧ out.length = 4096 * n := by
    induction n with
    | zero => exact ⟨[], rfl, rfl⟩
    | succ n ih =>
      obtain ⟨out, ho, hl⟩ := ih (by omega)
      have ht : ((pageTags key version frame vf page)[n]?).getD (List.replicate 16 0) =
          gcmTag (roundKeys key) (tierIv version frame vf n) ((page.drop (4096 * n)).take 4096) := by
        rw [pageTags, List.getElem?_map, List.getElem?_range (by omega)]; rfl
      have hlen : ((page.drop (4096 * n)).take 4096).length = 4096 := by simp [hp]; omega
      refine ⟨out ++ gctr (roundKeys key) (tierIv version frame vf n) 256 2 ((page.drop (4096 * n)).take 4096), ?_, ?_⟩
      · rw [List.range_succ, List.foldl_append, ho]
        simp only [List.foldl_cons, List.foldl_nil, ht, gcmDecrypt, if_pos, hlen]
      · rw [List.length_append, hl, length_gctr _ _ (by simp [tierIv, beBytes, leBytes]) hk hn _ _ _ (by rw [hlen])]
        omega
  obtain ⟨out, h, hl⟩ := key_ 16 (by omega)
  exact ⟨out, h, hl⟩

/-- R91: where the first block's tag is empty, the page is not decrypted. -/
theorem decryptPage_none (key : List Byte) (version frame vf : Nat) (tags : List (List Byte)) (page : List Byte) (hk : ∀ k ∈ roundKeys key, k.length = 16) (ht : tags[0]? = some []) :
    decryptPage key version frame vf tags page = none := by
  have hn : roundKeys key ≠ [] := by unfold roundKeys; rw [List.range_succ]; simp
  have hg (iv c : List Byte) (h : iv.length = 12) : gcmDecrypt key iv c [] = none := by
    have hl : (gcmTag (roundKeys key) iv c).length = 16 := by
      rw [gcmTag, length_xorBytes, length_aesBlock _ _ (by simp [h, beBytes, leBytes]) hk hn]; simp [beBytes, leBytes]
    rw [gcmDecrypt, if_neg]
    intro he
    simp [he] at hl
  have hi (n : Nat) : (tierIv version frame vf n).length = 12 := by simp [tierIv, beBytes, leBytes]
  have stays (g : Nat → Option (List Byte)) (l : List Nat) : l.foldl (fun (acc : Option (List Byte)) i => match acc, g i with | some a, some b => some (a ++ b) | _, _ => none) none = none := by
    induction l with
    | nil => rfl
    | cons i l ih => exact ih
  have first (g : Nat → Option (List Byte)) (h : g 0 = none) (n : Nat) :
      (List.range (n + 1)).foldl (fun (acc : Option (List Byte)) i => match acc, g i with | some a, some b => some (a ++ b) | _, _ => none) (some []) = none := by
    rw [List.range_succ_eq_map, List.foldl_cons, h]
    exact stays g _
  refine first (fun i => gcmDecrypt key (tierIv version frame vf i) ((page.drop (4096 * i)).take 4096) ((tags[i]?).getD (List.replicate 16 0))) ?_ 15
  simp only [ht, Option.getD_some]
  exact hg _ _ (hi 0)

/-- Memory with nothing listed from an address on reads there as unlisted. -/
theorem getN_beyond {α : Type} (d : α) (m : Store α) (n : Nat) : ∀ a, (∀ e ∈ m, e.1 < a) → Store.getN d m a n = List.replicate n d := by
  have one (m : Store α) : ∀ a, (∀ e ∈ m, e.1 < a) → Store.get d m a = d := by
    induction m with
    | nil => intro a _; rfl
    | cons e m ih =>
      intro a h
      have h1 := h e (by simp)
      obtain ⟨k, v⟩ := e
      rw [Store.get, if_neg (by simp at h1; omega)]
      exact ih a fun q hq => h q (by simp [hq])
  induction n with
  | zero => intro a _; rfl
  | succ n ih =>
    intro a h
    rw [Store.getN, one m a h, ih (a + 1) fun e he => by have := h e he; omega]
    rfl

/-- Keys and tier records are left alone. -/
def SameKeys (s t : State) : Prop := t.tierRecs = s.tierRecs ∧ t.keys = s.keys
theorem SameKeys.trans {s t u : State} (a : SameKeys s t) (b : SameKeys t u) : SameKeys s u := ⟨b.1.trans a.1, b.2.trans a.2⟩
theorem touch_kept (s : State) (pa n : Nat) : SameKeys s (touch s pa n) := by unfold touch; split <;> exact ⟨rfl, rfl⟩
theorem outPut_kept (s : State) (o : OutWrite) : SameKeys s (outPut s o) := by
  unfold outPut; split
  · exact ⟨rfl, rfl⟩
  · exact touch_kept s _ _
theorem offer_kept (s : State) (pa : Nat) (bs : List Byte) : SameKeys s (s.offer pa bs) := by
  unfold State.offer; split
  · exact ⟨rfl, rfl⟩
  · exact touch_kept s _ _
theorem settleOut_kept (s : State) (link : Bool) (pa n : Nat) : SameKeys s (settleOut s link pa n) := by
  unfold settleOut flushOut
  have go (l : List OutWrite) : ∀ u : State, SameKeys u (l.foldl outPut u) := by
    induction l with
    | nil => exact fun u => ⟨rfl, rfl⟩
    | cons o l ih => exact fun u => (outPut_kept u o).trans (ih _)
  exact go _ _
theorem sysPut_kept (s : State) (link : Bool) (pa : Nat) (bs : List Byte) : SameKeys s (s.sysPut link pa bs) :=
  (settleOut_kept s link pa bs.length).trans (offer_kept _ pa bs)
/-- Popping a ring leaves keys and tier records. -/
theorem popRing_kept (s : State) (link : Bool) (hdr : Nat) : SameKeys s (popRing s link hdr).2 := by
  have a := (settleOut_kept s link hdr 64).trans (touch_kept _ hdr 64)
  unfold popRing
  revert a
  generalize touch (settleOut s link hdr 64) hdr 64 = u
  intro a
  dsimp only
  by_cases c : (!(ringAt u hdr).formed || (ringAt u hdr).empty) = true
  · rw [if_pos c]; exact a
  · rw [if_neg c]
    have b := (settleOut_kept u link ((ringAt u hdr).entry (ringAt u hdr).rp) 8).trans (touch_kept _ ((ringAt u hdr).entry (ringAt u hdr).rp) 8)
    split
    · exact a.trans b
    · exact (a.trans b).trans (sysPut_kept _ _ _ _)
theorem coreRead_kept (s : State) (pa n : Nat) : SameKeys s (coreRead s pa n) := by unfold coreRead; split <;> exact ⟨rfl, rfl⟩
theorem ownRing_kept (s : State) (vmid off : Nat) : SameKeys s (ownRing s vmid off).2 := by
  have a := coreRead_kept s (s.vmtbase.toNat + 64 * vmid) 64
  have b := coreRead_kept (coreRead s (s.vmtbase.toNat + 64 * vmid) 64) (vmidRing s vmid off) 64
  unfold ownRing; dsimp only
  exact a.trans b
/-- Taking a frame leaves keys and tier records. -/
theorem takeFrame_kept (s : State) (vmid : Nat) : SameKeys s (takeFrame s vmid).2 :=
  (ownRing_kept s vmid 24).trans (popRing_kept _ _ _)

end Sys2Proof.Machine
end

