-- ==== Sys2Proof/Laws/Translate.lean ====
section
/-! SUPPORT. What a translation does: nothing to an address that is not canonical, nothing but an answer where the TLB holds it, and to
memory nothing at all; the walk and the access write no more than a bit of a page-table entry. -/

namespace Sys2Proof.Machine

/-- R71: no translation is attempted. -/
theorem translate_nonCanonical (s : State) (w : Who) (k : Acc) {va : Nat} (n : Nat) (h : 2 ^ 52 ≤ va) : translate s w k va n = (.prot (xinfo 1 k 0), s) := by
  unfold translate; exact if_pos h

/-- A current TLB entry that allows the access, with no outdated one beside it and no peer to ask, answers it and changes nothing. -/
theorem translate_hit {s : State} {w : Who} {k : Acc} {va n pa : Nat} {sl : Bool} {d : Option Nat} {e : TlbEntry} (hva : va < 2 ^ 52)
    (ha : answerFor s w va = none) (ho : tlbOld s w va = []) (he : tlbNew s w va = some e) (hs : staleDirty s k e = false)
    (hc : checks s w k va n e.leaf.toNat e.leafAddr (e.frame va) = .ok pa sl d) (hp : inPeer pa = false) : translate s w k va n = (.ok pa sl d, s) := by
  unfold translate; rw [if_neg (Nat.not_le.mpr hva)]; simp [ha, ho, pickOld, he, throughEntry, hs, finishXlat, hc, hp]

/-- A request that misses waits for a walk of its page, and changes nothing else. -/
theorem translate_miss {s : State} {w : Who} {k : Acc} {va n : Nat} (hva : va < 2 ^ 52) (ha : answerFor s w va = none) (ho : tlbOld s w va = [])
    (he : tlbNew s w va = none) : translate s w k va n = (.walking (joinWalk s w va).1, (joinWalk s w va).2) := by
  unfold translate; rw [if_neg (Nat.not_le.mpr hva)]; simp [ha, ho, pickOld, he]

theorem ntlbFill_mem (s : State) (fs : List NtlbEntry) : (ntlbFill s fs).mem = s.mem := by
  induction fs with
  | nil => rfl
  | cons f fs ih => exact ih
theorem tlbFill_mem (s : State) (e : TlbEntry) : (tlbFill s e).mem = s.mem := by unfold tlbFill; dsimp only; split <;> rfl

theorem freeBit_mem (s : State) : (freeBit s).2.mem = s.mem := rfl
theorem pickNested_mem (slice vmid : Nat) : ∀ (l : List NtlbEntry) (s : State), (pickNested slice vmid l s).2.mem = s.mem := by
  intro l
  induction l with
  | nil => intro s; rfl
  | cons e l ih =>
    intro s
    simp only [pickNested]
    split
    · exact ih _
    · exact ih _

theorem canonical_walkFill {s : State} (vmid asid va : Nat) (w : s.canonical) : (walkFill s vmid asid va).2.canonical := by
  have h := canonical_touch (s := s) (s.vmtbase.toNat + 64 * vmid) 64 w
  unfold walkFill
  dsimp only
  split
  · exact State.canonical_of_mem rfl h
  have hp := State.canonical_of_mem (pickNested_mem (bits va 15 8) vmid (touch s (s.vmtbase.toNat + 64 * vmid) 64).ntlb _) h
  revert hp
  generalize pickNested (bits va 15 8) vmid (touch s (s.vmtbase.toNat + 64 * vmid) 64).ntlb (touch s (s.vmtbase.toNat + 64 * vmid) 64) = r
  obtain ⟨used, u⟩ := r
  intro hp
  dsimp only at hp ⊢
  split
  · rename_i pte addr pa big wide fills _
    have hn : (ntlbFill (touch u addr 8) fills).canonical := State.canonical_of_mem (ntlbFill_mem _ _) (canonical_touch addr 8 hp)
    split
    · by_cases hb : bit pte 9
      · simpa [hb] using State.canonical_of_mem (tlbFill_mem _ _) hn
      · simpa [hb] using State.canonical_of_mem (tlbFill_mem _ _) (canonical_orPte addr 0x200 hn)
    · exact hn
  · exact hp

theorem finishXlat_mem (s : State) (u : Who) (k : Acc) (va n pte addr pa : Nat) : (finishXlat s u k va n pte addr pa).2.mem = s.mem := by
  unfold finishXlat
  cases checks s u k va n pte addr pa with
  | ok pa' sl d =>
    dsimp only
    split
    · unfold freeBit; cases Config.freeBit s.freeCount <;> rfl
    · rfl
  | _ => rfl
theorem walkedXlat_mem (s : State) (u : Who) (k : Acc) (va n : Nat) (r : Walked) : (walkedXlat s u k va n r).2.mem = s.mem := by
  cases r with
  | leaf => exact finishXlat_mem _ _ _ _ _ _ _ _
  | _ => rfl
theorem joinWalk_mem (s : State) (u : Who) (va : Nat) : (joinWalk s u va).2.mem = s.mem := by unfold joinWalk; split <;> rfl

theorem throughEntry_mem (s : State) (u : Who) (k : Acc) (va n : Nat) (e : TlbEntry) : (throughEntry s u k va n e).2.mem = s.mem := by
  unfold throughEntry; split
  · exact joinWalk_mem _ _ _
  · exact finishXlat_mem _ _ _ _ _ _ _ _
theorem pickOld_mem : ∀ (l : List TlbEntry) (s : State), (pickOld l s).2.mem = s.mem
  | [], _ => rfl
  | _ :: l, s => by
    unfold pickOld freeBit
    cases Config.freeBit s.freeCount
    · exact pickOld_mem l _
    · rfl

/-- A translation writes nothing to memory. -/
theorem translate_mem (s : State) (u : Who) (k : Acc) (va n : Nat) : (translate s u k va n).2.mem = s.mem := by
  unfold translate
  split
  · rfl
  split
  · dsimp only
    split
    · exact joinWalk_mem _ _ _
    · exact walkedXlat_mem _ _ _ _ _ _
  · have h := pickOld_mem (tlbOld s u va) s
    revert h
    generalize pickOld (tlbOld s u va) s = r
    obtain ⟨o, v⟩ := r
    intro h
    cases o with
    | some e => exact (throughEntry_mem _ _ _ _ _ _).trans h
    | none =>
      dsimp only at h ⊢
      split
      · exact (throughEntry_mem _ _ _ _ _ _).trans h
      · exact (joinWalk_mem _ _ _).trans h

/-- A translation keeps the canonical form of memory, and so does the access after it, which sets at most a dirty bit. -/
theorem canonical_translate {s : State} (u : Who) (k : Acc) (va n : Nat) (w : s.canonical) : (translate s u k va n).2.canonical :=
  State.canonical_of_mem (translate_mem s u k va n) w
theorem canonical_setDirty {s : State} (d : Option Nat) (w : s.canonical) : (setDirty s d).canonical := by
  cases d with
  | none => exact w
  | some a => exact State.canonical_of_mem (s := orPte s a 0x400) rfl (canonical_orPte a 0x400 w)

end Sys2Proof.Machine
end

