-- ==== Sys2Proof/Laws/Traps.lean ====
section
/-! SUPPORT. What taking a trap does, and the member set and masks of votes. -/

namespace Sys2Proof.Machine

open Sys2Proof.Rules

/-- Threads may be described by any functions that agree. -/
theorem Moves.congr {s t : State} {f g : Nat → Thread → Thread} (h : Moves s t f) (e : ∀ tid u, f tid u = g tid u) : Moves s t g := by
  have : f = g := by funext a b; exact e a b
  rwa [← this]
theorem agree_refl_thread (s : State) (tid : Nat) (f : Thread → Thread) : Agree s (s.modThread s.cur.team tid f) := (Agree.refl s).modThread tid f

/-- Taking a trap in a team with a handler, in a thread outside it: the frame is written, the thread enters the handler, and nothing else
in the package changes (R311). -/
theorem takeTrap_enters {s s' : State} (a : Agree s s') (r : Ready s) (hd : s.here.desc.handler ≠ 0) (tid : Nat) (u : Thread)
   (hu : s'.thread s.cur.team tid = u) (hh : u.handler = false) (cause info tfa tia tpc : Nat) :
   Agree s (takeTrap s' s.cur.team tid cause info tfa tia tpc) ∧ ∀ x, (takeTrap s' s.cur.team tid cause info tfa tia tpc).thread s.cur.team x =
     if x = tid then u.enter s.here.desc.handler cause info tfa tia tpc else s'.thread s.cur.team x := by
  have hph : (s'.team s.cur.team).phase ≠ .ended := by have := a.phase; simp only [State.here, a.cur] at this; rw [this]; exact r.team
  have hde : (s'.team s.cur.team).desc = s.here.desc := by have := congrArg Team.desc a.team; simpa [State.here, a.cur] using this
  have e : takeTrap s' s.cur.team tid cause info tfa tia tpc = s'.modThread s.cur.team tid fun _ => u.enter s.here.desc.handler cause info tfa tia tpc := by
    have hu' : (s'.team s.cur.team).thread tid = u := hu
    simp [takeTrap, hph, hu', hh, hde, hd, State.modThread]
  rw [e]
  refine ⟨a.modThread tid _, fun x => ?_⟩
  rw [State.thread_modThread]; simp

/-- A trap at the instruction itself (R310, R311). -/
theorem trapHere_enters {s s' : State} (a : Agree s s') (r : Ready s) (hd : s.here.desc.handler ≠ 0) (tid : Nat)
   (hu : s'.thread s.cur.team tid = s.thread s.cur.team tid) (hh : (s.thread s.cur.team tid).handler = false) (cause info tfa : Nat) :
   Agree s (trapHere s' tid cause info tfa) ∧ ∀ x, (trapHere s' tid cause info tfa).thread s.cur.team x =
     if x = tid then trapAt s cause info (BitVec.ofNat 64 tfa) (s.thread s.cur.team tid) else s'.thread s.cur.team x := by
  have := takeTrap_enters a r hd tid _ hu hh cause info tfa s.cur.pc.toNat s.cur.pc.toNat
  simpa [trapHere, a.cur, trapAt, trapped, Thread.enter] using this

/-- The member set (R161), by thread number. -/
theorem member_tids (s : State) : members s = (((List.range 32).filter (member s)).map fun l => 32 * s.cur.laneset + l) := by
  unfold members State.tids lanesOf member
  simp only [List.filter_map, List.filter_filter]
  congr 1
  apply List.filter_congr
  intro x _
  simp [State.thread, State.here, Bool.and_comm]

theorem foldl_mask (l : List Nat) (m : Word) (i : Nat) (hi : i < 32) : (∀ x ∈ l, x < 32) →
   (l.foldl (fun m i => m ||| BitVec.twoPow 32 i) m).getLsbD i = (m.getLsbD i || l.contains i) := by
  induction l generalizing m with
  | nil => simp
  | cons x l ih =>
    intro hl
    simp only [List.foldl_cons]
    rw [ih _ (fun y hy => hl y (List.mem_cons_of_mem _ hy))]
    by_cases hx : i = x
    · subst hx; simp [hi]
    · have : ¬ x = i := fun h => hx h.symm
      simp [BitVec.getLsbD_twoPow, hx, this]

theorem fromBits_get (f : Nat → Bool) : ∀ (n i : Nat), (fromBits f n).getLsbD i = (decide (i < n) && f i) := by
  intro n
  induction n with
  | zero => intro i; simp [fromBits]
  | succ n ih =>
    intro i
    simp only [fromBits, BitVec.getLsbD_cons]
    split
    · subst_vars; simp
    · rw [ih]; congr 1; simp; omega

/-- The mask that the votes compute is the rules' mask (R171). -/
theorem voteMask_eq (s : State) (p : Thread → Bool) : voteMask s p = mask s p := by
  unfold voteMask mask
  apply BitVec.eq_of_getLsbD_eq
  intro i hi
  rw [fromBits_get, member_tids]
  have : ((List.map (fun l => 32 * s.cur.laneset + l) ((List.range 32).filter (member s))).filter fun i => p (s.here.thread i)).foldl (fun m i => m ||| BitVec.twoPow 32 (i % 32)) (0 : Word)
     = (((List.range 32).filter (member s)).filter fun l => p (lane s l)).foldl (fun m i => m ||| BitVec.twoPow 32 i) 0 := by
    rw [List.filter_map, List.foldl_map]
    have hl : ∀ l : List Nat, (∀ x ∈ l, x < 32) → ∀ m : Word, l.foldl (fun x y => x ||| BitVec.twoPow 32 ((32 * s.cur.laneset + y) % 32)) m = l.foldl (fun m i => m ||| BitVec.twoPow 32 i) m := by
      intro l
      induction l with
      | nil => simp
      | cons x l ih => intro h m; simp only [List.foldl_cons]; rw [ih (fun y hy => h y (List.mem_cons_of_mem _ hy))]; have := h x (by simp); congr 3; omega
    apply hl
    intro x hx
    have := (List.mem_filter.1 hx).1
    have := (List.mem_filter.1 this).1
    simpa using this
  rw [this, foldl_mask _ _ _ hi]
  · simp [hi, List.mem_filter, Bool.and_comm]
  · intro x hx
    have := (List.mem_filter.1 hx).1
    have := (List.mem_filter.1 this).1
    simpa using this

end Sys2Proof.Machine
end

