-- ==== Sys2Proof/Tests/Slice0.lean ====
section
/-! SUPPORT. The model's own tests: ill-formed terms refused, words decoded, one step on a small state with the result the spec works
out, and for every statement with hypotheses a state and operands that meet them. -/

open Sys2Proof Sys2Proof.Machine Sys2Proof.Rules

namespace Sys2Proof.Tests

set_option linter.unusedSimpArgs false
set_option Elab.async false

-- Well-formedness: a term that breaks each check is refused, with the sub-code of R25

/-- Register pairs that are odd, and groups of four that are not a multiple of four (0x07). -/
def misgrouped : List Instr :=
  [.madwS32 1 0 0, .madwN32 1 0 0, .addB64 1 2 4, .addB64 2 1 4, .subB64 2 4 1, .dadd 1 2 4, .dsub 2 1 4, .dmul 2 4 1, .dmin 1 2 4, .dmax 2 1 4, .dfma 2 4 1,
   .lea0 1 2 0, .lea1 2 1 0, .lea2 1 0 0, .lea3 0 1 0, .movB64 1 0, .movB64 0 1, .cmp 1 0 1 2 10, .cmp 1 0 2 1 15, .fcmp 1 0 1 2 8, .fcmp 1 0 2 1 15,
   .fcvt 1 0 0 1 0, .fcvt 0 1 1 0 0]
def misgroupedAccesses : List Instr :=
  [.ld 0 1 0 0, .ld 1 0 5 0, .ld 2 0 6 0, .ldp 1 0 5 0, .ldp 2 0 6 0, .st 0 1 0 0, .st 1 0 3 0, .st 2 0 4 0, .stp 1 0 3 0, .stp 2 0 4 0,
   .ldq 0 1 0 0 0, .ldq 1 0 1 0 0, .stl 0 1 0 0 0, .stl 1 0 1 0 0, .atom 0 1 0 0, .atom 1 0 0 13, .atom 0 0 1 14, .atom 2 0 0 15, .pref 1, .clk 1]
def misgroupedOthers : List Instr :=
  [.rrel 1, .gang 1, .brx 1, .callx 1, .rebal 1 0 0, .rbtot 1 0, .walk 1 0 0, .tload 0 1 0, .tstore 0 2 0, .tgath 0 3 0, .tscat 0 1 0, .tscata 0 2 0,
   .tmcast 0 3 0, .tpref 1 0, .rawait 1 0, .rawait 0 1, .rpush 0 1 0, .chain 0 1 0, .qlaunch 0 1 0, .fork 0 1 0, .tres 0 1 0, .softi 0 1 0, .tlbiVa 1 0,
   .pdig 1 0 0, .pdig 0 1 0, .sysr 1 0x10, .sysw 1 0x12]
/-- Numbers beyond what they name (0x08). -/
def tooLarge : List Instr :=
  [.pand 32 0 0, .por 0 32 0, .pxor 0 0 32, .pandn 32 0 0, .pnot 32 0, .pnot 0 32, .voteAny 32 0, .voteAll 0 32, .voteBallot 0 32, .votePopn 0 32, .htof 0 0 2, .btof 0 0 127,
   .accrd 0 0 32, .accwr 0 0 32, .mzero 32, .tload 0 0 64, .tpref 0 64, .mmac 0 32 0 0, .mmacz 0 63 0 0, .dpload 0 0, .dpload 32 0, .thset 64 0, .thcur 64 0 0,
   .thget 64 0, .scupd 64 0, .mhad 32 0 0, .mhad 0 32 0, .mhad 0 0 64, .mdrain 32 1, .mdrain 0 0, .mdrain 0 32, .rgive 0, .rgive 16, .rtake 0, .rtake 127, .rcvset 16, .rcvwait 16]
/-- Codes that are reserved (0x03), a saturation that the format has not (0x04), FOLD.COUNT and FOLD.PAIR (0x06, 0x07), guards that never
pass (0x09), and ILL (0x01). -/
def reserved : List (Nat × Instr) :=
  [(3, .cmpi 0 0 0 10 0), (3, .shflRdx 0 0 3), (3, .shflRdx 0 0 15), (3, .fcvt 0 0 17 1 0), (3, .fcvt 0 0 1 27 0), (3, .fcvt 0 0 1 1 0), (3, .ld 0 0 7 0), (3, .ldp 0 0 7 0),
   (3, .st 0 0 5 0), (3, .stp 0 0 7 0), (3, .ldq 0 0 0 3 0), (3, .stl 0 0 0 3 0), (3, .atomp 0 0 0 13), (4, .fcvt 0 1 10 1 1), (7, .fold 0 0 0 13), (9, .grd 0 1 0), (9, .bra 0 1 0),
   (9, .call 0 1 0), (9, .pfx 0 1 0 0), (1, .ill), (1, .movC 0 0)]
theorem test_illFormed_groups : ∀ i ∈ misgrouped ++ misgroupedAccesses ++ misgroupedOthers, staticFault i = some 7 ∧ i.wellFormed = false := by decide +kernel
theorem test_illFormed_numbers : ∀ i ∈ tooLarge, staticFault i = some 8 ∧ i.wellFormed = false := by decide +kernel
theorem test_illFormed_codes : ∀ e ∈ reserved, staticFault e.2 = some e.1 ∧ e.2.wellFormed = false := by decide +kernel
/-- The neighbours of those are well formed; a machine event has no word. -/
theorem test_wellFormed : (Instr.addB64 2 4 126).wellFormed = true ∧ (Instr.ldp 124 0 6 0).wellFormed = true ∧ (Instr.pand 31 31 31).wellFormed = true ∧
    (Instr.rgive 15).wellFormed = true ∧ Instr.placeTeam.wellFormed = false := by decide +kernel

-- Reserved words are refused by their sub-code

/-- The sub-code with which bytes are refused. -/
def refusedWith (bs : List Byte) : Option Nat := match decode bs with | .error (.ill n) => some n | _ => none
/-- An unassigned major is 0x02, an unassigned function 0x03, a field that must be zero 0x04, a 16-bit code above 18 0x05. -/
theorem test_reservedWords : refusedWith (leBytes 4 (1 + 2 * 0x3F)) = some 2 ∧ refusedWith (leBytes 4 (1 + 2 * 0x0A + 2 ^ 28 * 14)) = some 3 ∧
    refusedWith (leBytes 4 (1 + 2 * 0x0A + 2 ^ 21 + 2 ^ 28 * 1)) = some 4 ∧ refusedWith (leBytes 2 (2 * 19)) = some 5 := by decide +kernel

-- Decoding: each row of the opcode table that has a word, its match bits (spec/opcode_table.json) with a different value written into
-- each field at the place the table gives it

def words0 : List (Nat × Instr) :=
  [(0x0000, .ill), (0x00513181, .pfx 3 1 9 5)]
theorem test_words0 : ∀ e ∈ words0, decodeTableWord (16 + e.1 % 2 * 16) e.1 = some e.2 := by decide +kernel

def words1 : List (Nat × Instr) :=
  [(0x28E0, .grd 3 1 2), (0x04648483, .add 9 18 35), (0x14648483, .sub 9 18 35), (0x24648483, .mul 9 18 35),
   (0x34648483, .mulhS32 9 18 35), (0x44648483, .mulhN32 9 18 35), (0x54648483, .minS32 9 18 35),
   (0x64648483, .minN32 9 18 35), (0x74648483, .maxS32 9 18 35), (0x84648483, .maxN32 9 18 35), (0x94648483, .andB 9 18 35),
   (0xA4648483, .orB 9 18 35), (0xB4648483, .xorB 9 18 35), (0xC4648483, .shl 9 18 35), (0xD4648483, .shr 9 18 35),
   (0xE4648483, .sar 9 18 35), (0xF4648483, .andn 9 18 35)]
theorem test_words1 : ∀ e ∈ words1, decodeTableWord (16 + e.1 % 2 * 16) e.1 = some e.2 := by decide +kernel

def words2 : List (Nat × Instr) :=
  [(0x04648485, .mad 9 18 35), (0x14648485, .madwS32 9 18 35), (0x24648485, .madwN32 9 18 35), (0x34648485, .addB64 9 18 35),
   (0x44648485, .subB64 9 18 35), (0x54648485, .lea0 9 18 35), (0x64648485, .lea1 9 18 35), (0x74648485, .lea2 9 18 35),
   (0x84648485, .lea3 9 18 35), (0x94648485, .divS32 9 18 35), (0xA4648485, .divN32 9 18 35), (0xB4648485, .remS32 9 18 35),
   (0xC4648485, .remN32 9 18 35), (0xD4648485, .absdS32 9 18 35), (0xE4648485, .prmt 9 18 35), (0xF4648485, .rot 9 18 35)]
theorem test_words2 : ∀ e ∈ words2, decodeTableWord (16 + e.1 % 2 * 16) e.1 = some e.2 := by decide +kernel

def words3 : List (Nat × Instr) :=
  [(0x09A48487, .addi 9 18 77), (0x09A48489, .andi 9 18 77), (0x09A4848B, .ori 9 18 77), (0x09A4848D, .xori 9 18 77),
   (0x0044848F, .shli 9 18 2), (0x0444848F, .shri 9 18 2), (0x0844848F, .sari 9 18 2), (0x0C44848F, .roti 9 18 2),
   (0x00134491, .movi 9 77), (0x00134493, .movhi 9 77)]
theorem test_words3 : ∀ e ∈ words3, decodeTableWord (16 + e.1 % 2 * 16) e.1 = some e.2 := by decide +kernel

def words4 : List (Nat × Instr) :=
  [(0x00048495, .mov 9 18), (0x10048495, .popc 9 18), (0x20048495, .clz 9 18), (0x30048495, .brev 9 18),
   (0x40048495, .ffs 9 18), (0x50048495, .sext8 9 18), (0x60048495, .sext16 9 18), (0x70048495, .zext8 9 18),
   (0x80048495, .zext16 9 18), (0x94648495, .bfeS32 9 18 35), (0xA4648495, .bfeN32 9 18 35), (0xB4648495, .bfi 9 18 35),
   (0xC0048495, .movB64 9 18), (0xD0048495, .notB 9 18)]
theorem test_words4 : ∀ e ∈ words4, decodeTableWord (16 + e.1 % 2 * 16) e.1 = some e.2 := by decide +kernel

def words5 : List (Nat × Instr) :=
  [(0x4464A397, .cmp 7 2 18 35 4), (0x9A84A399, .cmpi 7 2 18 4 77), (0x0324849B, .pand 9 18 25), (0x1324849B, .por 9 18 25),
   (0x2324849B, .pxor 9 18 25), (0x3324849B, .pandn 9 18 25), (0x4004849B, .pnot 9 18), (0x5000049B, .ptov 9),
   (0x6464801B, .vtop 18 35), (0x5464849D, .sel 9 18 35 5)]
theorem test_words5 : ∀ e ∈ words5, decodeTableWord (16 + e.1 % 2 * 16) e.1 = some e.2 := by decide +kernel

def words6 : List (Nat × Instr) :=
  [(0x0004849F, .voteAny 9 18), (0x1004849F, .voteAll 9 18), (0x2004849F, .voteBallot 9 18), (0x3004849F, .voteMatch 9 18),
   (0x4000049F, .voteActive 9), (0x5004849F, .votePopn 9 18), (0x046484A1, .shflIdx 9 18 35), (0x146484A1, .shflUp 9 18 35),
   (0x246484A1, .shflDown 9 18 35), (0x346484A1, .shflXor 9 18 35), (0xC00484A1, .shflRdx 9 18 12)]
theorem test_words6 : ∀ e ∈ words6, decodeTableWord (16 + e.1 % 2 * 16) e.1 = some e.2 := by decide +kernel

def words7 : List (Nat × Instr) :=
  [(0x046484A3, .fadd 9 18 35), (0x146484A3, .fsub 9 18 35), (0x246484A3, .fmul 9 18 35), (0x346484A3, .ffma 9 18 35),
   (0x446484A3, .fmin 9 18 35), (0x546484A3, .fmax 9 18 35), (0x646484A3, .fminn 9 18 35), (0x746484A3, .fmaxn 9 18 35),
   (0x846484A3, .fcopys 9 18 35), (0x946484A3, .fnma 9 18 35), (0xA46484A3, .fldx 9 18 35)]
theorem test_words7 : ∀ e ∈ words7, decodeTableWord (16 + e.1 % 2 * 16) e.1 = some e.2 := by decide +kernel

def words8 : List (Nat × Instr) :=
  [(0x046484A5, .hadd2 9 18 35), (0x146484A5, .hmul2 9 18 35), (0x246484A5, .hfma2 9 18 35), (0x346484A5, .hmin2 9 18 35),
   (0x446484A5, .hmax2 9 18 35), (0x546484A5, .hpk 9 18 35), (0x646484A5, .bpk 9 18 35), (0x846484A5, .badd2 9 18 35),
   (0x946484A5, .bmul2 9 18 35), (0xA46484A5, .bfma2 9 18 35), (0xB46484A5, .bmin2 9 18 35), (0xC46484A5, .bmax2 9 18 35),
   (0xD04484A5, .htof 9 18 2), (0xE04484A5, .btof 9 18 2)]
theorem test_words8 : ∀ e ∈ words8, decodeTableWord (16 + e.1 % 2 * 16) e.1 = some e.2 := by decide +kernel

def words9 : List (Nat × Instr) :=
  [(0x046484A7, .dadd 9 18 35), (0x146484A7, .dsub 9 18 35), (0x246484A7, .dmul 9 18 35), (0x346484A7, .dfma 9 18 35),
   (0x446484A7, .dmin 9 18 35), (0x546484A7, .dmax 9 18 35), (0x246491A9, .fcmp 3 1 18 35 2), (0x000484AB, .ex2 9 18),
   (0x100484AB, .lg2 9 18), (0x200484AB, .rcp 9 18), (0x300484AB, .rsq 9 18), (0x400484AB, .sqrt 9 18),
   (0x500484AB, .sin 9 18), (0x600484AB, .cos 9 18), (0x700484AB, .tanh 9 18), (0x800484AB, .rndn 9 18),
   (0x900484AB, .rndz 9 18), (0xA00484AB, .rndd 9 18), (0xB00484AB, .rndu 9 18), (0xC00484AB, .fclass 9 18)]
theorem test_words9 : ∀ e ∈ words9, decodeTableWord (16 + e.1 % 2 * 16) e.1 = some e.2 := by decide +kernel

def words10 : List (Nat × Instr) :=
  [(0xD00484AB, .sig 9 18), (0x848484AD, .fcvt 9 18 4 1 1), (0x062484B1, .ld 9 18 1 6), (0x062484B3, .st 9 18 1 6),
   (0x062484B5, .ldp 9 18 1 6), (0x062484B7, .stp 9 18 1 6), (0x06A484B9, .ldq 9 18 1 2 6), (0x06A484BB, .stl 9 18 1 2 6),
   (0x146484BD, .atom 9 18 35 1), (0x146484BF, .atomp 9 18 35 1)]
theorem test_words10 : ∀ e ∈ words10, decodeTableWord (16 + e.1 % 2 * 16) e.1 = some e.2 := by decide +kernel

def words11 : List (Nat × Instr) :=
  [(0x00000041, .phaseTeam), (0x10000041, .phaseDev), (0x20000041, .phaseSys), (0x30000041, .fenceOp),
   (0x40000041, .fenceEng), (0x50048041, .pref 18), (0x64648041, .waita 18 35), (0x800004C1, .clk 9),
   (0x00091243, .waitc 4 2 2 1), (0x02A484C5, .accrd 9 18 21), (0x12A484C5, .accwr 9 18 21), (0x22A00045, .mzero 21)]
theorem test_words11 : ∀ e ∈ words11, decodeTableWord (16 + e.1 % 2 * 16) e.1 = some e.2 := by decide +kernel

def words12 : List (Nat × Instr) :=
  [(0x046484C7, .tload 9 18 35), (0x146484C7, .tstore 9 18 35), (0x246484C7, .tgath 9 18 35), (0x346484C7, .tscat 9 18 35),
   (0x446484C7, .tscata 9 18 35), (0x546484C7, .tmcast 9 18 35), (0x64648047, .tpref 18 35), (0x04648049, .binit 18 35),
   (0x146484C9, .barr 9 18 35), (0x24648049, .bwait 18 35), (0x346484C9, .btest 9 18 35), (0x40000049, .tbar),
   (0x50048049, .pfree 18)]
theorem test_words12 : ∀ e ∈ words12, decodeTableWord (16 + e.1 % 2 * 16) e.1 = some e.2 := by decide +kernel

def words13 : List (Nat × Instr) :=
  [(0x000484CB, .rawait 9 18), (0x1004804B, .rrel 18), (0x246484CB, .rpush 9 18 35), (0x346484CB, .chain 9 18 35),
   (0x446484CB, .qlaunch 9 18 35), (0x546484CB, .fork 9 18 35), (0x035526CD, .mma 13 18 21 3),
   (0x235526CD, .mmaz 13 18 21 3), (0x435526CD, .mmas 13 18 21 3), (0x635526CD, .mmasz 13 18 21 3),
   (0x835526CD, .mmac 13 18 21 3), (0xA35526CD, .mmacz 13 18 21 3)]
theorem test_words13 : ∀ e ∈ words13, decodeTableWord (16 + e.1 % 2 * 16) e.1 = some e.2 := by decide +kernel

def words14 : List (Nat × Instr) :=
  [(0x0004804F, .gang 18), (0x100484CF, .dpload 9 18), (0x200484CF, .thset 9 18), (0x346484CF, .thcur 9 18 35),
   (0x400484CF, .thget 9 18), (0x52A484CF, .mhad 9 18 21), (0x62A004CF, .mdrain 9 21), (0x7464804F, .mode 18 35),
   (0x800484CF, .scupd 9 18), (0x946484CF, .tres 9 18 35), (0xA00004CF, .tunres 9)]
theorem test_words14 : ∀ e ∈ words14, decodeTableWord (16 + e.1 % 2 * 16) e.1 = some e.2 := by decide +kernel

def words15 : List (Nat × Instr) :=
  [(0x146484D1, .fold 9 18 35 1), (0x046484D3, .join 9 18 35), (0x146484D3, .rank 9 18 35), (0x246484D3, .rebal 9 18 35),
   (0x300484D3, .rbtot 9 18), (0x00E00055, .rgive 7), (0x10E00055, .rtake 7), (0x200004D5, .rqry 9),
   (0x400484D7, .walk 9 18 4), (0x00000059, .trclr), (0x146484D9, .pdig 9 18 35)]
theorem test_words15 : ∀ e ∈ words15, decodeTableWord (16 + e.1 % 2 * 16) e.1 = some e.2 := by decide +kernel

def words16 : List (Nat × Instr) :=
  [(0x0000D1DB, .bra 3 1 6), (0x0000D1DD, .call 3 1 6), (0x0004805F, .brx 18), (0x1004805F, .callx 18), (0x2000005F, .ret),
   (0x3000005F, .exit), (0x4000005F, .yield), (0x500004DF, .rcvset 9), (0x600004DF, .rcvwait 9), (0x7000005F, .pass),
   (0x8000005F, .brk), (0x9020005F, .trap 1), (0xA000005F, .rtt), (0xB46484DF, .softi 9 18 35), (0xC004805F, .sleepc 18),
   (0xD000005F, .nop32)]
theorem test_words16 : ∀ e ∈ words16, decodeTableWord (16 + e.1 % 2 * 16) e.1 = some e.2 := by decide +kernel

def words17 : List (Nat × Instr) :=
  [(0x002004E1, .sysr 9 1), (0x00248063, .sysw 18 1), (0x04648065, .tlbiVa 18 35), (0x14600065, .tlbiAsid 35),
   (0x24600065, .tlbiAll 35)]
theorem test_words17 : ∀ e ∈ words17, decodeTableWord (16 + e.1 % 2 * 16) e.1 = some e.2 := by decide +kernel

def words18 : List (Nat × Instr) :=
  [(0x1240, .movC 9 2), (0x6A42, .moviC 9 13), (0x1244, .addC 9 2), (0x6A46, .addiC 9 13), (0x1248, .subC 9 2),
   (0x124A, .andC 9 2), (0x124C, .orC 9 2), (0x124E, .xorC 9 2), (0x0A50, .shliC 9 1), (0x0A52, .shriC 9 1),
   (0x0A54, .sariC 9 1), (0x1256, .faddC 9 2), (0x1258, .fmulC 9 2), (0x125A, .fmaxC 9 2), (0x125C, .minS32C 9 2),
   (0x125E, .maxS32C 9 2), (0x01A2, .braS 6), (0x0024, .nopC), (0x0064, .yieldC), (0x00A4, .exitC)]
theorem test_words18 : ∀ e ∈ words18, decodeTableWord (16 + e.1 % 2 * 16) e.1 = some e.2 := by decide +kernel

def words19 : List (Nat × Instr) :=
  [(0x00E4, .retC)]
theorem test_words19 : ∀ e ∈ words19, decodeTableWord (16 + e.1 % 2 * 16) e.1 = some e.2 := by decide +kernel
-- The words that the chapters of spec/ write out, each with its assembly text

def specTable0 : List (Nat × Instr) := [
  (0x00E18283, .add 5 6 7), -- ADD v5, v6, v7
  (0x3144, .addC 5 6), -- ADD.c v5, v6
  (0xFF610187, .addi 3 4 2043), -- ADDI v3, v4, -5
  (0x0040020F, .shli 4 0 2), -- SHLI v4, v0, 2
  (0x3F800713, .movhi 14 65024), -- MOVHI v14, 0xFE00
  (0x016084B1, .ld 9 2 3 1), -- LD.n16 v9, [v2 + 2]
  (0x20A00099, .cmpi 1 0 0 5 16), -- CMPI.GE.s32 p1, v0, 16
  (0x22830129, .fcmp 2 0 12 20 2), -- FCMP.LT p2, v12, v20
  (0x32C54A9D, .sel 21 21 22 3), -- SEL v21, v21, v22, p3
  (0xFFFF805B, .bra 0 0 524284), -- BRA loop
  (0x221441CD, .mmaz 3 4 5 2), -- MMAZ c3, h4, h5, 2
  (0x0007FFC3, .waitc 15 15 15 0), -- WAITC *, *, *, 0
  (0x848101AD, .fcvt 3 4 4 1 1), -- FCVT.e4m3.f32.sat v3, v4
  (0x0060, .grd 1 0 0), -- (p1) EXIT
  (0x00A4, .exitC), -- (p1) EXIT
  (0xD8C6, .addiC 3 27), -- ADDI v3, v3, -5
  (0x00A00001, .pfx 0 0 0 10), -- ATOM.ADD.sys.rel v6, [v2], v7
  (0x00E0833D, .atom 6 2 7 0), -- ATOM.ADD.sys.rel v6, [v2], v7
  (0x30C14223, .ffma 4 5 6), -- FFMA v4, v5, v6, v7
  (0x20800161, .sysr 2 260)] -- SYSR v2, k4
theorem test_specTable0 : ∀ e ∈ specTable0, decodeTableWord (16 + e.1 % 2 * 16) e.1 = some e.2 := by decide +kernel

def specTable1 : List (Nat × Instr) := [
  (0x00808065, .tlbiVa 2 4), -- TLBI.VA v2, v4
  (0x20800065, .tlbiAll 4), -- TLBI.ALL v4
  (0x906080CF, .tres 1 2 3), -- TRES v1, v2, v3
  (0xA00000CF, .tunres 1), -- TUNRES v1
  (0x00410047, .tload 0 4 2), -- TLOAD v0, v4, h2
  (0x20210447, .tgath 8 4 1), -- TGATH v8, v4, h1
  (0x01628049, .binit 10 11), -- BINIT v10, v11
  (0x116286C9, .barr 13 10 11), -- BARR v13, v10, v11
  (0x21828049, .bwait 10 12), -- BWAIT v10, v12
  (0x61828041, .waita 10 12), -- WAITA v10, v12
  (0x208082CB, .rpush 5 2 4), -- RPUSH v5, v2, v4
  (0x308082CB, .chain 5 2 4), -- CHAIN v5, v2, v4
  (0x00E00055, .rgive 7), -- RGIVE 7
  (0x10800055, .rtake 4), -- RTAKE 4
  (0x200004D5, .rqry 9), -- RQRY v9
  (0x00610345, .accrd 6 4 3), -- ACCRD v6, v4, c3
  (0x106102C5, .accwr 5 4 3), -- ACCWR c3, v4, v5
  (0x20E00045, .mzero 7), -- MZERO c7
  (0x02408AB3, .st 21 2 2 2), -- ST.b32 [v2 + 8], v21
  (0xFEA0C435, .ldp 8 3 5 254)] -- LDP.b64 v8, [v3 - 16]
theorem test_specTable1 : ∀ e ∈ specTable1, decodeTableWord (16 + e.1 % 2 * 16) e.1 = some e.2 := by decide +kernel

def specTable2 : List (Nat × Instr) := [
  (0x00804637, .stp 12 1 4 0), -- STP.b128 [v1], v12
  (0x50008041, .pref 2), -- PREF v2
  (0x90C14205, .divS32 4 5 6), -- DIV.s32 v4, v5, v6
  (0xE1220385, .prmt 7 8 9), -- PRMT v7, v8, v9
  (0xA0A10195, .bfeN32 3 4 5), -- BFE.n32 v3, v4, v5
  (0x60406297, .cmp 5 2 1 2 6), -- CMP.LT.n32.or p5, v1, v2
  (0x30A1019B, .pandn 3 4 5), -- PANDN p3, p4, p5
  (0x2000819F, .voteBallot 3 2), -- VOTE.BALLOT v3, p2
  (0x2182C521, .shflDown 10 11 12), -- SHFL.DOWN v10, v11, v12
  (0xC0014321, .shflRdx 6 5 12), -- SHFL.RDX.FADD v6, v5
  (0x606080A3, .fminn 1 2 3), -- FMINN v1, v2, v3
  (0x20C14225, .hfma2 4 5 6), -- HFMA2 v4, v5, v6
  (0x31828427, .dfma 8 10 12), -- DFMA v8, v10, v12
  (0x3000C12B, .rsq 2 3), -- RSQ v2, v3
  (0x104042D1, .fold 5 1 2 1), -- FOLD.ADD.f32 5, v1, v2
  (0x016281D3, .join 3 10 11), -- JOIN 3, v10, v11
  (0x10804353, .rank 6 1 4), -- RANK v6, v1, 4
  (0x2180C453, .rebal 8 3 12), -- REBAL v8, v3, 12
  (0x30024553, .rbtot 10 9), -- RBTOT v10, v9
  (0x200041CF, .thset 3 1)] -- THSET h3, v1
theorem test_specTable2 : ∀ e ∈ specTable2, decodeTableWord (16 + e.1 % 2 * 16) e.1 = some e.2 := by decide +kernel

def specTable3 : List (Nat × Instr) := [
  (0x30E181CF, .thcur 3 6 7), -- THCUR h3, v6, v7
  (0x400041CF, .thget 3 1), -- THGET v1, h3
  (0x0001804F, .gang 6), -- GANG v6
  (0xA01810CD, .mmacz 1 1 6 0), -- MMACZ c1, c1, h6, 0
  (0x50E0814F, .mhad 2 2 7), -- MHAD c2, c2, h7
  (0x1000C14F, .dpload 2 3), -- DPLOAD 2, v3
  (0x6040004F, .mdrain 0 2), -- MDRAIN c0, 2
  (0x7060804F, .mode 2 3), -- MODE v2, v3
  (0x800103CF, .scupd 7 4), -- SCUPD h7, v4
  (0x00004D57, .walk 26 1 0), -- WALK v26, v1, h0
  (0x00000059, .trclr), -- TRCLR
  (0x13608E59, .pdig 28 2 27), -- PDIG v28, v2, v27
  (0x004080B9, .ldq 1 2 0 1 0), -- LDQ.b32.dev v1, [v2]
  (0x00408ABB, .stl 21 2 0 1 0), -- STL.b32.dev [v2], v21
  (0x008041BF, .atomp 3 1 4 0), -- ATOMP.ADD v3, [v1], v4
  (0x408082CB, .qlaunch 5 2 4), -- QLAUNCH v5, v2, v4
  (0x508082CB, .fork 5 2 4), -- FORK v5, v2, v4
  (0x0005005D, .call 0 0 40), -- CALL fn
  (0xFF62, .braS 1021), -- BRA.S loop
  (0x80000541, .clk 10)] -- CLK v10
theorem test_specTable3 : ∀ e ∈ specTable3, decodeTableWord (16 + e.1 % 2 * 16) e.1 = some e.2 := by decide +kernel

def specTable4 : List (Nat × Instr) := [
  (0x8000005F, .brk), -- BRK
  (0x90A0005F, .trap 5), -- TRAP 5
  (0xA000005F, .rtt), -- RTT
  (0xB08082DF, .softi 5 2 4), -- SOFTI v5, v2, v4
  (0x0400C063, .sysw 3 32), -- SYSW $mode, v3
  (0x50008105, .lea0 2 2 0), -- LEA.0 v2, v2, v0
  (0x70C08A05, .lea2 20 2 6), -- LEA.2 v20, v2, v6
  (0x91C347A3, .fnma 15 13 14), -- FNMA v15, v13, v14
  (0x6108104D, .mmasz 0 1 2 1), -- MMASZ c0, h1, h2, relu4
  (0xB121C295, .bfi 5 7 9), -- (p2) BFI v5, v7, v9
  (0x0286CAA3, .fadd 21 27 20), -- FADD v21, v27, v20
  (0xA3000C85, .divN32 25 0 24)] -- DIV.n32 v25, v0, v24
theorem test_specTable4 : ∀ e ∈ specTable4, decodeTableWord (16 + e.1 % 2 * 16) e.1 = some e.2 := by decide +kernel
-- Small states

/-- `s` with the low `n` bytes of `x` at physical address `a`. -/
def stored (s : State) (a n x : Nat) : State := { s with mem := Store.setN memDefault s.mem a (leBytes n x) }
/-- Page tables of VMID 0, ASID 0 (R72, R76, R77): the VMID record, the address-space record, an entry of each level, and the leaves of the
pages 0x10000, 0x20000 and 0x30000, at 0x60000, 0x70000 and 0x80000. -/
def tables : Store Byte :=
  [(0x1000A, 2), (0x10010, 1), (0x20000, 1), (0x20002, 3), (0x30000, 3), (0x30002, 4), (0x40000, 3), (0x40002, 5), (0x50008, 0x0D), (0x50009, 0x0E), (0x5000A, 6),
   (0x50010, 0x0D), (0x50011, 0x0E), (0x50012, 7), (0x50018, 0x0D), (0x50019, 0x0E), (0x5001A, 8)]
/-- The team of `withFetchWord` with one drain slot and no kernel arguments. -/
def small : Team := { fetchTeam 0 with kargs := [], drains := [List.replicate 32 0], desc := { (fetchTeam 0).desc with nd := 1 } }
/-- One thread of a supervisor team executes at 0x10000. -/
def fresh : State :=
  { State.reset with
    nextKey := 5, vmtbase := 0x10000, mem := tables, teams := [(1, small)], quads := [(0, ⟨[(1, 0, 0)], [], [], 0⟩)]
    cur := ⟨1, 0, 1, 0x10000, 0x10000, 0x10004, 0, 0, none, none⟩ }
/-- `s` after a walk of the address `va`. -/
def seen (va : Nat) (s : State) : State := (walkFill s 0 0 va).2
/-- The TLB entry of a page in one slice. -/
def entry (slice page : Nat) : TlbEntry := ⟨slice, 0, 0, page, false, BitVec.ofNat 64 (page + 0x50E0D), 0x50000 + page / 8192, page + 0x50000⟩
/-- `fresh` with its pages in the TLB. -/
def alone : State := { fresh with tlb := [entry 255 0x20000, entry 0 0x10000, entry 0 0x30000, entry 0 0x20000] }
/-- Those entries are what walks leave there. -/
theorem test_translate_fills : (seen 0x2FFFC (seen 0x10000 (seen 0x30000 (seen 0x20000 fresh)))).tlb = alone.tlb := by decide +kernel
/-- The thread of `alone`, changed. -/
def withThread (f : Thread → Thread) (s : State := alone) : State := s.modThread 1 0 f
/-- Registers set in the thread. -/
def withRegs (l : List (Nat × Nat)) (s : State := alone) : State := withThread (fun u => l.foldl (fun u r => u.setReg r.1 (BitVec.ofNat 32 r.2)) u) s
/-- The team changed. -/
def withTeam (f : Team → Team) (s : State := alone) : State := s.modTeam 1 f
/-- Bytes in the pad. -/
def withPad (a n x : Nat) (s : State := alone) : State := withTeam (fun t => { t with pad := Store.setN 0 t.pad a (leBytes n x) }) s
/-- A prefix in force: its x and vc. -/
def withX (x : BitVec 12) (vc : BitVec 7 := 0) (s : State := alone) : State := { s with cur := { s.cur with x := x, vc := vc } }
/-- What `f` reads in the next state. -/
def after {α : Type} (o : Host.Outcome State Fault Refusal) (f : State → α) : Option α := match o with | .next t => some (f t) | _ => none
/-- Register `r` of the thread after `i` on the registers `l`. -/
def lane (i : Instr) (l : List (Nat × Nat)) (r : Nat) : Option Nat := after (exec i (withRegs l)) fun t => ((t.thread 1 0).reg r).toNat
/-- The predicates of the thread after `i`. -/
def preds (i : Instr) (l : List (Nat × Nat)) : Option Nat := after (exec i (withRegs l)) fun t => (t.thread 1 0).preds.toNat
/-- Its trap cause and sub-code. -/
def cause (i : Instr) (s : State) : Option (Nat × Nat) := after (exec i s) fun t => ((t.thread 1 0).tcause.toNat, (t.thread 1 0).tinfo.toNat)

-- Lane arithmetic: the worked examples of spec/07 and its corners

/-- R162: results wrap; SHL, SHR and SAR take the whole amount. -/
theorem test_add_wraps : lane (.add 1 2 3) [(2, 0xFFFFFFFF), (3, 2)] 1 = some 1 := by decide +kernel
theorem test_sub_wraps : lane (.sub 1 1 3) [(1, 0), (3, 1)] 1 = some 0xFFFFFFFF := by decide +kernel
theorem test_mulh : lane (.mulhS32 1 2 3) [(2, 0xFFFFFFFF), (3, 0xFFFFFFFF)] 1 = some 0 ∧ lane (.mulhN32 1 2 3) [(2, 0xFFFFFFFF), (3, 0xFFFFFFFF)] 1 = some 0xFFFFFFFE := by decide +kernel
theorem test_min_max : lane (.minS32 1 2 3) [(2, 0xFFFFFFFF), (3, 1)] 1 = some 0xFFFFFFFF ∧ lane (.minN32 1 2 3) [(2, 0xFFFFFFFF), (3, 1)] 1 = some 1 := by decide +kernel
theorem test_shifts : lane (.shl 1 2 3) [(2, 1), (3, 32)] 1 = some 0 ∧ lane (.sar 1 2 3) [(2, 0x80000000), (3, 40)] 1 = some 0xFFFFFFFF := by decide +kernel
/-- R164's table. -/
theorem test_div : lane (.divS32 1 2 3) [(2, 7), (3, 0xFFFFFFFE)] 1 = some 0xFFFFFFFD ∧ lane (.divN32 1 2 3) [(2, 0xFFFFFFF9), (3, 2)] 1 = some 0x7FFFFFFC := by decide +kernel
theorem test_div_corners : lane (.divS32 1 2 3) [(2, 9), (3, 0)] 1 = some 0xFFFFFFFF ∧ lane (.divS32 1 2 3) [(2, 0x80000000), (3, 0xFFFFFFFF)] 1 = some 0x80000000 := by decide +kernel
theorem test_rem : lane (.remS32 1 2 3) [(2, 0xFFFFFFF9), (3, 2)] 1 = some 0xFFFFFFFF ∧ lane (.remN32 1 2 3) [(2, 5), (3, 0)] 1 = some 5 := by decide +kernel
/-- R163: a pair's carry, a destination that is also a source. -/
theorem test_addB64 : lane (.addB64 2 2 4) [(2, 0xFFFFFFFF), (3, 0), (4, 1), (5, 0)] 3 = some 1 ∧ lane (.lea3 2 2 4) [(2, 8), (3, 1), (4, 0x20000000)] 3 = some 2 := by decide +kernel
theorem test_absd : lane (.absdS32 1 2 3) [(2, 0x80000000), (3, 0x7FFFFFFF)] 1 = some 0xFFFFFFFF := by decide +kernel
/-- R165's example. -/
theorem test_prmt : lane (.prmt 1 2 3) [(1, 0x88776655), (2, 0x44332211), (3, 0xF74)] 1 = some 0x11FF8855 := by decide +kernel
/-- R167. -/
theorem test_counts : lane (.clz 1 2) [(2, 0)] 1 = some 32 ∧ lane (.ffs 1 2) [(2, 0x80000000)] 1 = some 31 := by decide +kernel
theorem test_brev : lane (.brev 1 2) [(2, 1)] 1 = some 0x80000000 ∧ lane (.sext16 1 2) [(2, 0x18000)] 1 = some 0xFFFF8000 := by decide +kernel
theorem test_bfe : lane (.bfeN32 1 2 3) [(2, 0xA0000001), (3, 28 + 256 * 8)] 1 = some 0xA ∧ lane (.bfeS32 1 2 3) [(2, 0xA0000001), (3, 28 + 256 * 8)] 1 = some 0xFFFFFFFA := by decide +kernel
theorem test_bfi : lane (.bfi 1 2 3) [(1, 0xFFFFFFFF), (2, 0), (3, 4 + 256 * 8)] 1 = some 0xFFFFF00F := by decide +kernel
/-- R22: MOVI sign-extends its 18 bits, MOVHI fills the high bits. -/
theorem test_movi : lane (.movi 1 0x3FFFF) [] 1 = some 0xFFFFFFFF ∧ lane (.movhi 1 0xFE00) [] 1 = some 0x3F800000 := by decide +kernel
/-- R168, R169: p1 := 5 < 7; a write to p0 is ignored; VTOP changes the predicates of its mask alone. -/
theorem test_cmp : preds (.cmp 1 0 2 3 2) [(2, 5), (3, 7)] = some 3 ∧ preds (.cmp 0 3 2 3 2) [(2, 5), (3, 7)] = some 1 := by decide +kernel
theorem test_vtop : preds (.vtop 2 3) [(2, 0xFFFFFFFE), (3, 7)] = some 7 := by decide +kernel
theorem test_sel : lane (.sel 1 2 3 0) [(2, 8), (3, 9)] 1 = some 8 ∧ lane (.sel 1 2 3 4) [(2, 8), (3, 9)] 1 = some 9 := by decide +kernel
/-- R161's first example, for the lanes 5 and 7: VOTE.ACTIVE and SHFL.RDX.ADD of lane + 1. -/
def sideways : State :=
  { withTeam fun t => { t with threads := [5, 7].map fun i => (i, { t.thread 0 with regs := (t.thread 0).regs.set 1 (BitVec.ofNat 32 (i + 1)) }) } with
    cur := { alone.cur with mask := 0xA0 } }
theorem test_voteActive : after (exec (.voteActive 2) sideways) (fun t => ((t.thread 1 5).reg 2).toNat) = some 0xA0 := by decide +kernel
theorem test_shflRdx : after (exec (.shflRdx 3 1 4) sideways) (fun t => ((t.thread 1 7).reg 3).toNat) = some 14 := by decide +kernel
/-- R172: a source lane that is no member gives the lane's own value. -/
theorem test_shflDown : after (exec (.shflDown 3 1 2) (sideways.modThread 1 5 (·.setReg 2 2))) (fun t => (((t.thread 1 5).reg 3).toNat, ((t.thread 1 7).reg 3).toNat)) = some (8, 8) := by decide +kernel

-- Floating point: the worked examples of spec/07 and spec/03

theorem test_fadd_even : lane (.fadd 1 2 3) [(2, 0x4B800000), (3, 0x3F800000)] 1 = some 0x4B800000 := by decide +kernel
/-- R176's table, with the canonical NaN of `$mode.nanp` 0. -/
theorem test_fmin : lane (.fmin 1 2 3) [(2, 0), (3, 0x80000000)] 1 = some 0x80000000 ∧ lane (.fmin 1 2 3) [(2, 0x3F800000), (3, 0x7FA00001)] 1 = some 0x7FC00000 := by decide +kernel
theorem test_fminn : lane (.fminn 1 2 3) [(2, 0x3F800000), (3, 0x7FA00001)] 1 = some 0x3F800000 := by decide +kernel
/-- R177's example. -/
theorem test_hfma2 : lane (.hfma2 1 2 3) [(1, 0x38003C00), (2, 0x3C007BFF), (3, 0x40004000)] 1 = some 0x41007C00 := by decide +kernel
/-- R174: infinity minus infinity is invalid. -/
theorem test_dsub_invalid : lane (.dsub 2 4 6) [(5, 0x7FF00000), (7, 0x7FF00000)] 3 = some 0x7FF80000 := by decide +kernel
/-- R180's table. -/
theorem test_rsq : lane (.rsq 1 2) [(2, 0x40800000)] 1 = some 0x3F000000 ∧ lane (.rsq 1 2) [(2, 0x80000000)] 1 = some 0xFF800000 := by decide +kernel
theorem test_ex2 : lane (.ex2 1 2) [(2, 0xC3160000)] 1 = some 0 ∧ lane (.ex2 1 2) [(2, 0xC3150000)] 1 = some 1 := by decide +kernel
theorem test_rcp_overflow : lane (.rcp 1 2) [(2, 0x00200000)] 1 = some 0x7F800000 := by decide +kernel
theorem test_rnd : lane (.rndn 1 2) [(2, 0x40200000)] 1 = some 0x40000000 ∧ lane (.rndu 1 2) [(2, 0xBF000000)] 1 = some 0x80000000 := by decide +kernel
theorem test_fclass : lane (.fclass 1 2) [(2, 0x7FA00001)] 1 = some 0x100 ∧ lane (.fclass 1 2) [(2, 0x7FC00000)] 1 = some 0x200 := by decide +kernel
/-- R179: NE is true of an unordered pair, and EQ of zeros of different sign. -/
theorem test_fcmp : preds (.fcmp 1 0 2 3 1) [(2, 0x7FC00000)] = some 3 ∧ preds (.fcmp 1 0 2 3 0) [(2, 0x80000000)] = some 3 := by decide +kernel

-- Memory, synchronisation and control

/-- R251: ST writes W, and memory keeps its byte until the publish; LD reads it back from W. -/
theorem test_st_buffers : after (exec (.st 4 2 2 0) (withRegs [(2, 0x20000), (4, 0x11223344)])) (fun t => (t.byteAt 0x70000, (t.team 1).w.map (·.pa))) = some (0, [0x70000]) := by decide +kernel
theorem test_ld_signs : after (exec (.ld 4 2 0 0) (withRegs [(2, 0x20000)] (stored alone 0x70000 1 0x80))) (fun t => ((t.thread 1 0).reg 4).toNat) = some 0xFFFFFF80 := by decide +kernel
/-- R254: PHASE.DEV publishes W, lowest byte first (R1). -/
theorem test_phaseDev : after (exec .phaseDev (withTeam fun t => { t with w := [⟨0x20000, 0x70000, leBytes 4 0x11223344⟩] })) (fun t => t.rd 0x70000 4) = some [0x44, 0x33, 0x22, 0x11] := by decide +kernel
/-- R154: the offset is scaled by the size. -/
theorem test_ldp : after (exec (.ldp 4 2 4 1) (withRegs [(2, 8)] (withPad 12 4 0xCAFE))) (fun t => ((t.thread 1 0).reg 4).toNat) = some 0xCAFE := by decide +kernel
theorem test_ldp_outside : cause (.ldp 4 2 4 0) (withRegs [(2, 0x10000)]) = some (0xD, 0) := by decide +kernel
theorem test_stp : after (exec (.stp 4 2 0 0) (withRegs [(2, 3), (4, 0x1FF)])) (fun t => Store.getN 0 (t.team 1).pad 2 3) = some [0, 0xFF, 0] := by decide +kernel
/-- R262: ATOM gives the old value. -/
theorem test_atom : after (exec (.atom 4 2 6 0) (withRegs [(2, 0x20000), (6, 5)] (stored alone 0x70000 4 7))) (fun t => (((t.thread 1 0).reg 4).toNat, t.rdNat 0x70000 4)) = some (7, 12) := by decide +kernel
theorem test_atomp : after (exec (.atomp 4 2 6 0) (withRegs [(2, 8), (6, 0xFFFFFFFF)] (withPad 8 4 1))) (fun t => (((t.thread 1 0).reg 4).toNat, littleEndian (Store.getN 0 (t.team 1).pad 8 4))) = some (1, 0) := by decide +kernel
/-- R118: the second of two arrivals turns the phase. -/
theorem test_barr : after (exec (.barr 4 2 6) (withRegs [(2, 0), (6, 1)] (withPad 0 8 (2 * 2 ^ 32 + 1)))) (fun t => littleEndian (Store.getN 0 (t.team 1).pad 0 8)) = some (2 ^ 63 + 2 * 2 ^ 32 + 2) := by decide +kernel
theorem test_bwait_waits : after (exec (.bwait 2 6) (withRegs [(2, 0), (6, 0)] (withPad 0 8 (2 ^ 32 + 1)))) (fun t => (t.thread 1 0).wait) = some (.barrier 0 false) := by decide +kernel
/-- R288: BRA.S by halfwords from its own address, CALL with its return address. -/
theorem test_braS : after (exec (.braS 0x3FD) alone) (fun t => (t.thread 1 0).pc.toNat) = some 0xFFFA := by decide +kernel
theorem test_call : after (exec (.call 0 0 0x28) alone) (fun t => ((t.thread 1 0).pc.toNat, (t.thread 1 0).lr.toNat)) = some (0x10050, 0x10004) := by decide +kernel
/-- R310, R311, R315. -/
theorem test_ill : cause .ill alone = some (1, 1) ∧ after (exec .ill alone) (fun t => ((t.thread 1 0).pc.toNat, (t.thread 1 0).tpc.toNat)) = some (0x10100, 0x10000) := by decide +kernel
theorem test_trap : cause (.trap 5) alone = some (0x10, 5) ∧ after (exec (.trap 5) alone) (fun t => (t.thread 1 0).tpc.toNat) = some 0x10004 := by decide +kernel
theorem test_rtt : cause .rtt alone = some (1, 0xD) ∧ after (exec .rtt (withThread fun u => { u with handler := true, tpc := 0x20003 })) (fun t => (t.thread 1 0).pc.toNat) = some 0x20002 := by decide +kernel
/-- R35: `$lr` is system register 0x12. -/
theorem test_sysw : after (exec (.sysw 2 0x12) (withRegs [(2, 6), (3, 1)])) (fun t => (t.thread 1 0).lr.toNat) = some (2 ^ 32 + 6) ∧ cause (.sysw 2 0) alone = some (1, 0xA) := by decide +kernel
/-- R71: bit 52 of an address is not canonical. -/
theorem test_nonCanonical : cause (.ld 4 2 4 0) (withRegs [(3, 0x100000)]) = some (3, 1) := by decide +kernel
theorem test_align : cause (.ld 4 2 4 0) (withRegs [(2, 0x20002)]) = some (2, 0) := by decide +kernel
/-- R146. -/
theorem test_rgive : after (exec (.rgive 2) alone) (fun t => (((t.team 1).laneset 0).count, (t.team 1).account)) = some (112, 2) := by decide +kernel
/-- R294: the last thread's EXIT ends the team. -/
theorem test_exit : after (exec .exit alone) (fun t => decide ((t.team 1).phase = .ended)) = some true := by decide +kernel
/-- R151: element 65 of tile 2 stands in row 1, column 1. -/
theorem test_accwr : after (exec (.accwr 4 2 2) (withRegs [(2, 65), (4, 9)])) (fun t => Store.get 0 (t.team 1).tiles (2 * 4096 + 65)) = some 9 := by decide +kernel

-- Witnesses: for each statement with hypotheses, a state and operands that meet them, clause by clause

theorem readyOf {s : State} (h : (decide (s.here.phase ≠ .ended) && !s.cur.never && decide (s.halt = none)) = true) : Ready s := by
  simp only [Bool.and_eq_true, decide_eq_true_eq, Bool.not_eq_true'] at h
  exact ⟨h.1.1, h.1.2, h.2⟩
theorem hasOf {s : State} {regs : List Nat}
    (h : (s.tids.all fun tid => !passes s.cur (s.thread s.cur.team tid) || regs.all (· < s.here.countOf tid)) = true) : Has s regs := by
  intro tid ht hp r hr
  have := List.all_eq_true.mp h tid ht
  simp only [hp, Bool.not_true, Bool.false_or, List.all_eq_true, decide_eq_true_eq] at this
  exact this r hr
theorem canTrapOf {s : State} (h : (decide (s.here.desc.handler ≠ 0) &&
    s.tids.all fun tid => !passes s.cur (s.thread s.cur.team tid) || !(s.thread s.cur.team tid).handler) = true) : CanTrap s := by
  simp only [Bool.and_eq_true, decide_eq_true_eq, List.all_eq_true] at h
  refine ⟨h.1, fun tid ht hp => ?_⟩
  have := h.2 tid ht
  simpa [hp] using this
theorem soloOf {s : State} {tid : Nat} {regs : List Nat} (h : (decide (s.here.phase ≠ .ended) && !s.cur.never && decide (s.halt = none) &&
    (decide (s.tids = [tid]) && passes s.cur (s.thread s.cur.team tid) && regs.all (· < s.here.countOf tid))) = true) : Solo s tid regs := by
  rw [Bool.and_eq_true] at h
  have h2 := h.2
  simp only [Bool.and_eq_true, decide_eq_true_eq, List.all_eq_true] at h2
  exact ⟨readyOf h.1, h2.1.1, h2.1.2, h2.2⟩
theorem getAll {α : Type} {P : α → Prop} {d : α} {m : Store α} (hd : P d) (h : ∀ e ∈ m, P e.2) (i : Nat) : P (Store.get d m i) := by
  induction m with
  | nil => exact hd
  | cons e m ih =>
    unfold Store.get
    split
    · exact h e (by simp)
    · exact ih fun x hx => h x (by simp [hx])
theorem atRestOf {s : State} (h : s.copies = [] ∧ (∀ e ∈ s.teams, e.2.landed = []) ∧ s.mops = [] ∧ s.walks = [] ∧ s.outbound = [] ∧ s.poison = []) : AtRest s :=
  ⟨h.1, getAll (P := fun t : Team => t.landed = []) rfl h.2.1, h.2.2.1, h.2.2.2.1, h.2.2.2.2.1, h.2.2.2.2.2⟩
/-- An access that a current TLB entry answers. -/
theorem hitOf {s : State} {w : Who} {k : Acc} {va n pa : Nat} {sl : Bool} {d : Option Nat} (e : TlbEntry) (h : va < 2 ^ 52 ∧ answerFor s w va = none ∧
    tlbOld s w va = [] ∧ tlbNew s w va = some e ∧ staleDirty s k e = false ∧
    checks s w k va n e.leaf.toNat e.leafAddr (e.frame va) = .ok pa sl d ∧ inPeer pa = false) : translate s w k va n = (.ok pa sl d, s) :=
  translate_hit h.1 h.2.1 h.2.2.1 h.2.2.2.1 h.2.2.2.2.1 h.2.2.2.2.2.1 h.2.2.2.2.2.2
theorem foundOf {s : State} {tid : Nat} {k : Acc} {addr n pa : Nat} {d : Option Nat} (sl : Bool) (ht : translate s (whoThread s tid) k addr n = (.ok pa sl d, s))
    (h : s.halt = none ∧ mapped pa = true ∧ lost s pa = false ∧ pa % 2 ^ 16 = addr % 2 ^ 16 ∧ (k.writes = true → pa / 2 ^ 16 ∉ s.sealMap)) : Found s s tid k addr n pa d :=
  ⟨⟨sl, ht⟩, h.1, h.2.1, h.2.2.1, h.2.2.2.1, h.2.2.2.2⟩
theorem reachesOf {s : State} {tid : Nat} {k : Acc} {addr n pa : Nat} (sl : Bool) (ht : translate s (whoThread s tid) k addr n = (.ok pa sl none, s))
    (h : s.halt = none ∧ mapped pa = true ∧ lost s pa = false ∧ pa % 2 ^ 16 = addr % 2 ^ 16 ∧ (k.writes = true → pa / 2 ^ 16 ∉ s.sealMap))
    (hr : raceMode s s.here.vmid s.here.asid = 0) : Reaches s s tid k addr n pa :=
  ⟨⟨s, none, foundOf sl ht h, rfl⟩, hr⟩
theorem aloneOf {s : State} {tid : Nat} {regs : List Nat} (h : Solo s tid regs) (h2 : Store.wf Thread.unused s.here.threads = true ∧ s.here.live = [tid] ∧
    s.here.phase = .resident ∧ s.here.insts = [] ∧ s.here.claims = [] ∧ ((s.thread s.cur.team tid).ld = 0 ∧ (s.thread s.cur.team tid).st = 0 ∧
      (s.thread s.cur.team tid).cp = 0 ∧ (s.thread s.cur.team tid).tl = 0) ∧ (s.thread s.cur.team tid).failures = []) : Alone s tid regs :=
  ⟨h, h2.1, h2.2.1, h2.2.2.1, h2.2.2.2.1, h2.2.2.2.2.1, h2.2.2.2.2.2.1, h2.2.2.2.2.2.2⟩
theorem codeHalfOf {s : State} {va half pa : Nat} (sl : Bool) (ht : translate s (whoThread s (s.tids.headD 0)) .fetch va 2 = (.ok pa sl none, s))
    (h : poisoned s pa 2 = false ∧ mapped pa = true ∧ mapped (pa + 1) = true ∧ s.rdNat pa 2 = half ∧ ∀ e ∈ s.icache, s.here.grid < e.1 → e.2.1 = pa → e.2.2.toNat = half) :
    CodeHalf s va half :=
  ⟨⟨pa, sl, none, ht, h⟩⟩

-- Encodings and the step

theorem witness_RoundTrip : (Instr.mmac 31 31 63 31).wellFormed = true ∧ (Instr.movC 31 0).wellFormed = true ∧ (Instr.grd 31 1 15).wellFormed = true := by decide +kernel
theorem witness_DecodeInverse : decode ([0x83, 0x82, 0xE1, 0x00] ++ [7]) = .ok (.add 5 6 7, [7]) := rfl
theorem witness_ShortForms : (shortForms 31 31)[15]? = some (.maxS32C 31 31, .maxS32 31 31 31) ∧ 15 + (31 : BitVec 5).toNat + (31 : BitVec 5).toNat ≠ 0 ∧
    (shortForms 0 1)[0]? = some (.movC 0 1, .mov 0 1) ∧ 0 + (0 : BitVec 5).toNat + (1 : BitVec 5).toNat ≠ 0 := by decide +kernel
theorem witness_SixteenBitCodes : (1023 < 2 ^ 10 ∧ 0 < 2 ^ 10) ∧ (19 ≤ 19 ∧ 19 < 32 ∧ 31 < 32) ∧ Ready alone := ⟨by decide, by decide, readyOf (by decide +kernel)⟩
/-- The package about to issue at this word. -/
def loaded (w : Nat) (clock : Nat := 0) : State := { stored alone 0x60000 4 w with cur := Issue.idle, clock := clock }
/-- Its issue group: the one thread, of the one active laneset. -/
def issued (s : State) : State :=
  { s with
    clock := s.clock + 1, turn := 1, cur := { alone.cur with next := 0x10000 }, quads := [(0, ⟨[(1, 0, 0)], [], [], 0⟩)]
    teams := [(1, { small with lastIssue := s.clock + 1 })] }
theorem witness_ZeroHalfwordIsIll : Ready alone ∧ CanTrap alone := ⟨readyOf (by decide +kernel), canTrapOf (by decide +kernel)⟩
/-- A 32-bit word at an even clock, and a 16-bit word at an odd one. -/
theorem witness_StepRuns_long : let s := loaded 0x00E18283
    s.agenda = [] ∧ s.off = false ∧ s.clock % 2 = 0 ∧ nextIssue (tick s) = some (issued s) ∧ Code (issued s) (issued s).cur.pc (leBytes 2 0x8283 ++ leBytes 2 0x00E1) ∧
    decode (leBytes 2 0x8283 ++ leBytes 2 0x00E1) = .ok (.add 5 6 7, []) ∧ (Instr.add 5 6 7).wellFormed = true :=
  ⟨by decide +kernel, by decide +kernel, by decide +kernel, by decide +kernel,
    .long _ _ (by decide) (codeHalfOf (pa := 0x60000) false (hitOf (entry 0 0x10000) (by decide +kernel)) (by decide +kernel)) (codeHalfOf (pa := 0x60002) false (hitOf (entry 0 0x10000) (by decide +kernel)) (by decide +kernel)), rfl, by decide +kernel⟩
theorem witness_StepRuns_short : let s := loaded 0x3144 1
    s.agenda = [] ∧ s.off = false ∧ nextEvent (tick s) = none ∧ nextIssue (tick s) = some (issued s) ∧ Code (issued s) (issued s).cur.pc (leBytes 2 0x3144) ∧
    decode (leBytes 2 0x3144) = .ok (.addC 5 6, []) ∧ (Instr.addC 5 6).wellFormed = true :=
  ⟨by decide +kernel, by decide +kernel, by decide +kernel, by decide +kernel, .short _ (by decide) (codeHalfOf (pa := 0x60000) false (hitOf (entry 0 0x10000) (by decide +kernel)) (by decide +kernel)), rfl, by decide +kernel⟩
/-- The issue group of the next step. -/
def groupOf (s : State) : State := (nextIssue (tick s)).getD s
/-- An instruction that has been issued executes further; and a node read queued for v4:v5 goes before an instruction that reads v4. -/
theorem witness_StepRuns_further :
    (let r : Resume := ⟨some (.add 5 6 7), 0x10000, 0x10004, 0, 0, 7⟩
     let s := withThread (fun u => { u with resume := some r }) (loaded 0)
     s.agenda = [] ∧ s.off = false ∧ s.clock % 2 = 0 ∧ nextIssue (tick s) = some (groupOf s) ∧
       ((groupOf s).thread (groupOf s).cur.team ((groupOf s).tids.headD 0)).resume = some r ∧ r.instr = some (.add 5 6 7) ∧ readsFirst (groupOf s) (.add 5 6 7) = []) ∧
    let s := withThread (fun u => { u with node := some ⟨⟨0, 4, 0⟩, 4, 0, [], []⟩ }) (loaded 0x00E18283)
    nextIssue (tick s) = some (groupOf s) ∧ readsFirst (groupOf s) (.add 6 4 7) ≠ [] ∧ readsFirst (groupOf s) (.add 6 3 7) = [] := by decide +kernel
/-- A reserved word, and a word whose pair is odd. -/
theorem witness_IllegalInstructionTraps_word : let s := loaded 0x0000007F
    nextIssue (tick s) = some (issued s) ∧ Code (issued s) (issued s).cur.pc (leBytes 2 0x007F ++ leBytes 2 0) ∧ decode (leBytes 2 0x007F ++ leBytes 2 0) = .error (.ill 2) ∧
    Ready (issued s) ∧ CanTrap (issued s) ∧ s.agenda = [] ∧ s.off = false ∧ s.clock % 2 = 0 :=
  ⟨by decide +kernel, .long _ _ (by decide) (codeHalfOf (pa := 0x60000) false (hitOf (entry 0 0x10000) (by decide +kernel)) (by decide +kernel)) (codeHalfOf (pa := 0x60002) false (hitOf (entry 0 0x10000) (by decide +kernel)) (by decide +kernel)), rfl,
    readyOf (by decide +kernel), canTrapOf (by decide +kernel), by decide +kernel⟩
theorem witness_IllegalInstructionTraps_fields : let s := loaded 0x30808085
    nextIssue (tick s) = some (issued s) ∧ Code (issued s) (issued s).cur.pc (leBytes 2 0x8085 ++ leBytes 2 0x3080) ∧
    (∃ i, decode (leBytes 2 0x8085 ++ leBytes 2 0x3080) = .ok (i, []) ∧ staticFault i = some 7 ∧ (∀ p n c x, i ≠ .pfx p n c x) ∧ ∀ p n x, i ≠ .grd p n x) ∧
    Ready (issued s) ∧ CanTrap (issued s) ∧ s.agenda = [] ∧ s.off = false ∧ s.clock % 2 = 0 :=
  ⟨by decide +kernel, .long _ _ (by decide) (codeHalfOf (pa := 0x60000) false (hitOf (entry 0 0x10000) (by decide +kernel)) (by decide +kernel)) (codeHalfOf (pa := 0x60002) false (hitOf (entry 0 0x10000) (by decide +kernel)) (by decide +kernel)),
    ⟨.addB64 1 2 4, rfl, by decide +kernel, by simp, by simp⟩, readyOf (by decide +kernel), canTrapOf (by decide +kernel), by decide +kernel⟩
/-- A GRD whose guard never passes, in a thread with a span that suppresses. -/
theorem witness_IllegalInstructionTraps_guard : let s := withThread (fun u => { u with spanLeft := 2, spanPass := false }) (loaded 0x3820 1)
    nextEvent (tick s) = none ∧ nextIssue (tick s) = some (groupOf s) ∧ decode (leBytes 2 0x3820) = .ok (.grd 0 1 3, []) ∧ Code (groupOf s) (groupOf s).cur.pc (leBytes 2 0x3820) ∧
    Ready (groupOf s) ∧ (groupOf s).jam = false ∧ (groupOf s).here.desc.handler ≠ 0 ∧
    ((groupOf s).thread (groupOf s).cur.team ((groupOf s).tids.headD 0)).resume.bind (·.instr) = none ∧
    ∀ tid ∈ (groupOf s).tids, ((groupOf s).thread (groupOf s).cur.team tid).handler = false :=
  ⟨by decide +kernel, by decide +kernel, rfl, .short _ (by decide) (codeHalfOf (pa := 0x60000) false (hitOf (entry 0 0x10000) (by decide +kernel)) (by decide +kernel)),
    readyOf (by decide +kernel), by decide +kernel, by decide +kernel, by decide +kernel, by decide +kernel⟩
/-- A pair that the rules allow, ATOM with an ordering, and one they forbid, ADD with a vc. -/
def prefixed (w : Nat) : State := stored alone 0x60004 4 w
theorem witness_PrefixedInstruction_allowed : let s := prefixed 0x00E0833D
    s.halt = none ∧ ((3, 1) : BitVec 5 × BitVec 1) ≠ (0, 1) ∧ Code s s.cur.next (leBytes 2 0x833D ++ leBytes 2 0x00E0) ∧
    decode (leBytes 2 0x833D ++ leBytes 2 0x00E0) = .ok (.atom 6 2 7 0, []) ∧ prefixedFault 0 10 (.atom 6 2 7 0) = none :=
  ⟨by decide +kernel, by decide, .long _ _ (by decide) (codeHalfOf (pa := 0x60004) false (hitOf (entry 0 0x10000) (by decide +kernel)) (by decide +kernel)) (codeHalfOf (pa := 0x60006) false (hitOf (entry 0 0x10000) (by decide +kernel)) (by decide +kernel)), rfl, by decide +kernel⟩
theorem witness_PrefixedInstruction_forbidden : let s := prefixed 0x00E18283
    s.halt = none ∧ ((0, 0) : BitVec 5 × BitVec 1) ≠ (0, 1) ∧ Code s s.cur.next (leBytes 2 0x8283 ++ leBytes 2 0x00E1) ∧
    decode (leBytes 2 0x8283 ++ leBytes 2 0x00E1) = .ok (.add 5 6 7, []) ∧ prefixedFault 9 0 (.add 5 6 7) = some 6 ∧
    Ready { s with cur := { s.cur with word := s.cur.next, next := s.cur.next + 4#64, x := 0, vc := 9, guard := none } } ∧
    CanTrap { s with cur := { s.cur with word := s.cur.next, next := s.cur.next + 4#64, x := 0, vc := 9, guard := none } } :=
  ⟨by decide +kernel, by decide, .long _ _ (by decide) (codeHalfOf (pa := 0x60004) false (hitOf (entry 0 0x10000) (by decide +kernel)) (by decide +kernel)) (codeHalfOf (pa := 0x60006) false (hitOf (entry 0 0x10000) (by decide +kernel)) (by decide +kernel)), rfl, by decide +kernel,
    readyOf (by decide +kernel), canTrapOf (by decide +kernel)⟩
/-- A thread of eight registers in a team of one tile and no drain slot. -/
def few : State := withTeam fun t => { t with lanesets := [⟨0, 8, 0, false⟩], desc := { t.desc with acctiles := 1, nd := 0 } }
theorem witness_MissingRegisterTraps : (∃ r, inta (.add 1 2 127) = some r ∧ Ready few ∧ CanTrap few) ∧
    (∃ regs, (Instr.ld 4 8 4 0).wellFormed = true ∧ arriving few 0 (.ld 4 8 4 0) = none ∧ (∀ d a b, Instr.ld 4 8 4 0 ≠ .fork d a b) ∧ named few.cur (.ld 4 8 4 0) = regs ∧ Solo few 0 [] ∧ CanTrap few ∧
      ∃ r ∈ regs, few.here.countOf 0 ≤ r) ∧
    few.here.desc.acctiles ≤ (1 : Reg).toNat ∧ matrix (.mmaz 1 4 5 0) = some ([1], 0, false) ∧ (∃ c ∈ [1], few.here.desc.acctiles ≤ c) ∧
    (∃ tiles, matrix (.mdrain 0 1) = some (tiles, 1, true) ∧ few.here.desc.nd < 1) :=
  ⟨⟨_, rfl, readyOf (by decide +kernel), canTrapOf (by decide +kernel)⟩,
    ⟨_, by decide +kernel, rfl, by simp, rfl, soloOf (by decide +kernel), canTrapOf (by decide +kernel), by decide +kernel⟩, by decide +kernel, rfl, by decide +kernel, ⟨_, rfl, by decide +kernel⟩⟩
/-- A JOIN and a FORK that name a register too high: the one live thread of its team, which no FORK suspends. -/
theorem witness_MissingRegisterTraps_arrival : (Instr.join 0 8 4).wellFormed = true ∧ (∃ r ∈ named few.cur (.join 0 8 4), few.here.countOf 0 ≤ r) ∧
    (arriving few 0 (.join 0 8 4)).isSome = true ∧ Alone few 0 [] ∧ (Instr.fork 8 4 6).wellFormed = true ∧ (∃ r ∈ named few.cur (.fork 8 4 6), few.here.countOf 0 ≤ r) ∧
    ∀ r ∈ few.here.reasons, r.isFork = false :=
  ⟨by decide +kernel, by decide +kernel, by decide +kernel, aloneOf (soloOf (by decide +kernel)) (by decide +kernel), by decide +kernel, by decide +kernel, by decide +kernel⟩
/-- `alone` under a guard that never passes. -/
def never : State := { alone with cur := { alone.cur with guard := some (0, 1) } }
theorem witness_MissingRegisterTraps_never : ∃ r, inta (.add 1 2 3) = some r ∧ never.here.phase ≠ .ended ∧ never.cur.guard = some (0, 1) ∧ never.here.desc.handler ≠ 0 ∧
    ∀ tid ∈ never.tids, (never.thread never.cur.team tid).handler = false := ⟨_, rfl, by decide +kernel, by decide +kernel, by decide +kernel, by decide +kernel⟩

-- Lane instructions

theorem ready_alone : Ready alone := readyOf (by decide +kernel)
theorem witness_IntegerResults : (∃ r, inta (.add 127 0 127) = some r ∧ Has alone r.regs) ∧ (∃ r, intb alone.cur (.remS32 1 2 3) = some r ∧ Has alone r.regs) ∧
    (∃ r, immediate (.addi 1 2 1024) = some r ∧ Has alone r.regs) ∧ Ready alone :=
  ⟨⟨_, rfl, hasOf (by decide +kernel)⟩, ⟨_, rfl, hasOf (by decide +kernel)⟩, ⟨_, rfl, hasOf (by decide +kernel)⟩, ready_alone⟩
theorem witness_PairResults : ∃ r, pairs alone.cur (.addB64 126 0 126) = some r ∧ Ready alone ∧ Has alone r.regs := ⟨_, rfl, ready_alone, hasOf (by decide +kernel)⟩
theorem witness_BitwiseResults : ∃ r, bitwise alone.cur (.prmt 127 0 1) = some r ∧ Ready alone ∧ Has alone r.regs := ⟨_, rfl, ready_alone, hasOf (by decide +kernel)⟩
theorem witness_PredicateResults : (∃ r, predicate (.cmp 31 3 126 0 15) = some r ∧ Has alone r.regs) ∧ Ready alone ∧ Has alone [(127 : Reg).toNat, (0 : Reg).toNat] :=
  ⟨⟨_, rfl, hasOf (by decide +kernel)⟩, ready_alone, hasOf (by decide +kernel)⟩
theorem witness_SelResults : Ready alone ∧ Has alone [(127 : Reg).toNat, (0 : Reg).toNat, (1 : Reg).toNat] := ⟨ready_alone, hasOf (by decide +kernel)⟩
theorem witness_VoteResults : (∃ r, voteBit alone (.voteAll 31 0) = some r) ∧ Ready alone ∧
    (∀ (l : Nat) (r : Rule Word), across alone l (.shflXor 127 0 1) = some r → Has alone r.regs) ∧ (across alone 0 (.shflXor 127 0 1)).isSome :=
  ⟨⟨_, rfl⟩, ready_alone, fun _ _ h => by cases h; show Has alone [127, 0, 1]; exact hasOf (by decide +kernel), rfl⟩
theorem witness_FloatResults : (∃ d a b o, scalar (.ffma 127 0 1) = some (d, a, b, o) ∧ Has alone [d.toNat, a.toNat, b.toNat, (third alone.cur d).toNat]) ∧ Ready alone ∧
    ∃ d a b o, double (.dfma 126 0 2) = some (d, a, b, o) ∧ Has alone (two d ++ two a ++ two b ++ two (third alone.cur d)) :=
  ⟨⟨_, _, _, _, rfl, hasOf (by decide +kernel)⟩, ready_alone, ⟨_, _, _, _, rfl, hasOf (by decide +kernel)⟩⟩
theorem witness_PackedResults : (∃ d a b f o, packed (.bfma2 127 0 1) = some (d, a, b, f, o) ∧ Has alone [d.toNat, a.toNat, b.toNat, (third alone.cur d).toNat]) ∧ Ready alone ∧
    (∃ d a b f, packs (.bpk 127 0 1) = some (d, a, b, f) ∧ Has alone [d.toNat, a.toNat, b.toNat]) ∧
    ∃ d a n f, widens (.htof 127 0 1) = some (d, a, n, f) ∧ Has alone [d.toNat, a.toNat] :=
  ⟨⟨_, _, _, _, _, rfl, hasOf (by decide +kernel)⟩, ready_alone, ⟨_, _, _, _, rfl, hasOf (by decide +kernel)⟩, ⟨_, _, _, _, rfl, hasOf (by decide +kernel)⟩⟩
theorem witness_FcvtResults : (Instr.fcvt 126 0 0 30 0).wellFormed = true ∧ Ready alone ∧
    Has alone ((if fmtWidth 0 = 64 then two 126 else [(126 : Reg).toNat]) ++ (if fmtWidth 30 = 64 then two 0 else [(0 : Reg).toNat])) :=
  ⟨by decide +kernel, ready_alone, hasOf (by decide +kernel)⟩
theorem witness_SpecialResults : (∃ l, limits (.rsq 127 0) = some l ∧ Has alone [l.d.toNat, l.a.toNat] ∧ l.below = some qnan) ∧ (∃ l md, limits (.rndu 127 0) = some l ∧ toIntegral (.rndu 127 0) = some md) ∧
    Ready alone ∧ Has alone [(127 : Reg).toNat, (0 : Reg).toNat] :=
  ⟨⟨_, rfl, hasOf (by decide +kernel), rfl⟩, ⟨_, _, rfl, rfl⟩, ready_alone, hasOf (by decide +kernel)⟩

/-- A negative number, and powers of two, whose results are known exactly. -/
theorem witness_SpecialResults_finite : (∃ l order, limits (.rcp 127 0) = some l ∧ l.below = none ∧ f32.decode 0xC0400000 = .num true 12582912 (-22) ∧ exactOrder 12582912 (-22) (.rcp 127 0) = some order) ∧
    (∃ order, exactOrder 1 1 (.sqrt 127 0) = some order) ∧ valEq (f32.decode 0xC3150000) (Val.ofInt (-149)) = true ∧ valEq (f32.decode 0x40000000) (.num false 1 1) = true :=
  ⟨⟨_, _, rfl, by decide +kernel, by decide +kernel, rfl⟩, ⟨_, rfl⟩, by decide +kernel, by decide +kernel⟩

-- Control flow, system registers, traps

theorem witness_BranchResults : (∃ b, branch alone.cur (.callx 126) = some b ∧ Has alone b.regs) ∧ (∃ b, branch alone.cur (.bra 0 0 0x40000) = some b ∧ Has alone b.regs) ∧ Ready alone :=
  ⟨⟨_, rfl, hasOf (by decide +kernel)⟩, ⟨_, rfl, hasOf (by decide +kernel)⟩, ready_alone⟩
theorem witness_ThreadResults : Ready alone ∧ Has alone (two 126) ∧ Has alone [(127 : Reg).toNat] ∧ Has alone (two 126 ++ [(127 : Reg).toNat]) :=
  ⟨ready_alone, hasOf (by decide +kernel), hasOf (by decide +kernel), hasOf (by decide +kernel)⟩
/-- `alone` in handler mode. -/
def handling : State := withThread fun u => { u with handler := true }
theorem witness_SystemRegisterResults : Ready alone ∧ ((system alone 0 0x100).isSome ∧ Has alone [(127 : Reg).toNat]) ∧ ((system alone 0 0x10).isSome ∧ Has alone (two 126)) ∧
    (system alone 0 0x7FF = none ∧ CanTrap alone) ∧ Has alone (if pairSys (0x7FF : BitVec 11).toNat then two 126 else [(126 : Reg).toNat]) ∧ Solo alone 0 [(127 : Reg).toNat] :=
  ⟨ready_alone, ⟨by decide +kernel, hasOf (by decide +kernel)⟩, ⟨by decide +kernel, hasOf (by decide +kernel)⟩, ⟨by decide +kernel, canTrapOf (by decide +kernel)⟩,
    hasOf (by decide +kernel), soloOf (by decide +kernel)⟩
theorem witness_SystemRegisterResults_handler : Ready handling ∧ (0x14 : BitVec 11).toNat ∈ [0x14, 0x16, 0x18, 0x1A, 0x1B] ∧ (0x1B : BitVec 11).toNat ∈ [0x14, 0x16, 0x18, 0x1A, 0x1B] ∧
    Has handling (two 126) ∧ Has handling [(126 : Reg).toNat] ∧
    ∀ tid ∈ handling.tids, passes handling.cur (handling.thread handling.cur.team tid) = true → (handling.thread handling.cur.team tid).handler = true :=
  ⟨readyOf (by decide +kernel), by decide, by decide, hasOf (by decide +kernel), hasOf (by decide +kernel), by decide +kernel⟩
theorem witness_TrapEntry : Ready alone ∧ CanTrap alone := ⟨ready_alone, canTrapOf (by decide +kernel)⟩
/-- In handler mode, and in a team without a handler. -/
theorem witness_TrapEntry_abort : (Solo handling 0 [] ∧ handling.here.frames = [] ∧ (handling.thread handling.cur.team 0).handler = true ∧
      (∀ x ∈ handling.here.threads, x.2.half = none) ∧ (postEvent (endTeam handling handling.cur.team) handling.here.vf 0x1202).halt = none) ∧
    let s := withTeam fun t => { t with desc := { t.desc with handler := 0 } }
    Solo s 0 [] ∧ s.here.frames = [] ∧ s.here.desc.handler = 0 ∧ (∀ x ∈ s.here.threads, x.2.half = none) ∧ (postEvent (endTeam s s.cur.team) s.here.vf 0x1102).halt = none :=
  ⟨⟨soloOf (by decide +kernel), by decide +kernel⟩, soloOf (by decide +kernel), by decide +kernel⟩
theorem witness_ReturnFromTrap : (Ready handling ∧ ∀ tid ∈ handling.tids, passes handling.cur (handling.thread handling.cur.team tid) = true →
    (handling.thread handling.cur.team tid).handler = true) ∧ Ready alone ∧ CanTrap alone :=
  ⟨⟨readyOf (by decide +kernel), by decide +kernel⟩, ready_alone, canTrapOf (by decide +kernel)⟩

-- Memory

/-- The lowest and the highest bit that make an address non-canonical. -/
def beyond : State := withRegs [(3, 0x80000000)]
theorem witness_NonCanonicalAddress : 2 ^ 52 ≤ 2 ^ 52 ∧ Solo beyond 0 [] ∧ CanTrap beyond ∧
    ∀ i ∈ [Instr.ld 4 2 4 0, .ldq 4 2 0 1 0, .st 4 2 2 0, .stl 4 2 0 1 0, .atom 4 2 6 0], i.wellFormed = true ∧ let u := beyond.thread beyond.cur.team 0
      u.ld < 63 ∧ u.st < 63 ∧ u.half = none ∧ ∃ m ∈ memoryForm beyond.cur u i, m.regs.all (· < beyond.here.countOf 0) = true ∧ rangeFor beyond beyond.cur.team m.addr = none ∧
        m.addr % m.size = 0 ∧ 2 ^ 52 ≤ m.addr :=
  ⟨by decide, soloOf (by decide +kernel), canTrapOf (by decide +kernel), by
    intro i hi
    simp only [List.mem_cons, List.not_mem_nil, or_false] at hi
    obtain rfl | rfl | rfl | rfl | rfl := hi <;> exact ⟨by decide +kernel, by decide +kernel, by decide +kernel, by decide +kernel, _, rfl, by decide +kernel, by decide +kernel, by decide +kernel, by decide +kernel⟩⟩
/-- The page 0x20000 with a leaf that no write has used, in memory and in the TLB. -/
def clean : State := { stored alone 0x50010 8 0x70A0D with tlb := [{ entry 0 0x20000 with leaf := 0x70A0D }] }
/-- A thread whose access at v2:v3 = 0x20000 has waited for a walk with this result; it names nothing in the TLB. -/
def answered (r : Walked) : State := withRegs [(2, 0x20000)] { alone with tlb := [], answers := [⟨.thread 1 0, 0, 0, 0x20000, r⟩] }
/-- A store that sets the dirty bit, by the TLB; a miss, and one whose walk is under way. -/
theorem witness_TranslationFrame : translate clean (whoThread clean 0) .store 0x20000 4 = (.ok 0x70000 false (some 0x50010), clean) ∧
    refuses clean 0x50010 8 = false ∧ refuses { clean with sealMap := [5] } 0x50010 8 = true ∧
    (let s := { alone with tlb := [] }
     0x20000 < 2 ^ 52 ∧ answerFor s (whoThread s 0) 0x20000 = none ∧ tlbHit s 0 0 0x20000 = none ∧ ∀ y ∈ s.walks, ¬(y.2.vmid = 0)) ∧
    let s := { alone with tlb := [], walks := [(7, ⟨0, 0, 0x20000, []⟩)] }
    answerFor s (whoThread s 0) 0x20000 = none ∧ tlbHit s 0 0 0x20000 = none ∧
      s.walks.find? (fun y => decide (y.2.vmid = 0 ∧ y.2.asid = 0 ∧ sameWalk y.2.va 0x20000 = true)) = some (7, ⟨0, 0, 0x20000, []⟩) := by decide +kernel
/-- A load that is misaligned; and one that traps PROT, meets an error, waits for a walk, or faults, minor and major. -/
theorem witness_TranslationFrame_access :
    (let s := withRegs [(2, 0x20002)]
     Solo s 0 (two 2 ++ spanRegs 4 4) ∧ CanTrap s ∧ ∃ m ∈ memoryForm s.cur (s.thread s.cur.team 0) (.ld 4 2 4 0), m.addr % m.size ≠ 0) ∧
    (∀ e ∈ [(Walked.format 1, Xlat.prot 0x403), (.ecc, .ecc), (.invalid 1, .major 2 1), (.leaf 0x7002D 0x50010 0x70000 false false [], .minor 0x50010 false)],
      let s := answered e.1
      (translate s (whoThread s 0) .load 0x20000 4).1 = e.2 ∧ rangeFor s s.cur.team 0x20000 = none ∧ (s.thread s.cur.team 0).ld < 63 ∧
        (openFault (translate s (whoThread s 0) .load 0x20000 4).2 (whoOf s s.cur.team) 0x20000 Acc.load.code e.2).2.halt = none) ∧
    (∀ r : Walked, Solo (answered r) 0 (two 2 ++ spanRegs 4 4) ∧ CanTrap (answered r)) ∧
    let s := withRegs [(2, 0x20000)] { alone with tlb := [] }
    Solo s 0 (two 2 ++ spanRegs 4 4) ∧ (translate s (whoThread s 0) .load 0x20000 4).1 = .walking s.nextKey ∧ (∃ m ∈ memoryForm s.cur (s.thread s.cur.team 0) (.ld 4 2 4 0), m.addr = 0x20000) :=
  ⟨⟨soloOf (by decide +kernel), canTrapOf (by decide +kernel), _, rfl, by decide +kernel⟩, by decide +kernel, fun r => ⟨have b : Solo (answered .ecc) 0 (two 2 ++ spanRegs 4 4) := soloOf (by decide +kernel); ⟨⟨b.ready.team, b.ready.guard, b.ready.halt⟩, b.group, b.guard, b.regs⟩, have c : CanTrap (answered .ecc) := canTrapOf (by decide +kernel); ⟨c.1, c.2⟩⟩, soloOf (by decide +kernel), by decide +kernel, _, rfl, by decide +kernel⟩
/-- An open fault on the page, and none. -/
theorem witness_TranslationFrame_fault :
    (let f : FaultRec := ⟨4, 0, 0, 0x20000, 0, 0x50010, 0, none, 0, none, none, none⟩
     let s := { alone with faults := [f] }
     s.faults.find? (fun f => decide (f.vmid = (whoOf s 1).vmid ∧ f.asid = (whoOf s 1).asid ∧ f.page = 0x20000)) = some f) ∧
    (∀ f ∈ alone.faults, ¬(f.page = 0x20000) ∧ f.id ≠ alone.nextKey) ∧ eventsFull alone (whoOf alone 1).vf = false := by decide +kernel
/-- v2:v3 names the last word of the page, and v4 a pad word. -/
def pointed : State := withRegs [(2, 0x2FFFC), (4, 0xFFFC), (8, 0x20010), (10, 0x10)]
theorem reaches_pointed (k : Acc) (h : translate pointed (whoThread pointed 0) k 0x2FFFC 4 = (.ok 0x7FFFC false none, pointed)) : Reaches pointed pointed 0 k 0x2FFFC 4 0x7FFFC :=
  reachesOf false h ⟨by decide +kernel, by decide +kernel, by decide +kernel, by decide, fun _ => by decide +kernel⟩ (by decide +kernel)
theorem witness_LoadResults_ld : (Instr.ld 127 2 4 0).wellFormed = true ∧ Solo pointed 0 (two 2 ++ spanRegs 127 4) ∧ AtRest pointed ∧ (pointed.thread pointed.cur.team 0).ld < 63 ∧
    globalAt (pointed.thread pointed.cur.team 0) 2 0 4 = 0x2FFFC ∧ rangeFor pointed pointed.cur.team 0x2FFFC = none ∧ Reaches pointed pointed 0 .load 0x2FFFC 4 0x7FFFC :=
  ⟨by decide +kernel, soloOf (by decide +kernel), atRestOf (by decide +kernel), by decide +kernel, by decide +kernel, by decide +kernel, reaches_pointed .load (hitOf (entry 255 0x20000) (by decide +kernel))⟩
/-- A live range over the page's last 1 KiB, whose byte 0 has been written in memory since. -/
def ranged : State :=
  { pointed with cores := [(0, ⟨some (64, 192, 1024), [⟨small.grid, 0, 0, 0x2FC00, 1024, 0, true, List.replicate 1024 7, (1, 0), [0x7FC00, 0x7FD00, 0x7FE00, 0x7FF00], [0]⟩]⟩)] }
theorem witness_LoadResults_range : Solo ranged 0 (two 2 ++ spanRegs 127 4) ∧ AtRest ranged ∧ ∃ r, rangeFor ranged ranged.cur.team 0x2FFFC = some r ∧
    ∀ i < 4, 0x2FFFC - r.base + i ∉ r.stale ∧ r.moved ranged (0x2FFFC + i) = false := ⟨soloOf (by decide +kernel), atRestOf (by decide +kernel), _, rfl, by decide +kernel⟩
theorem witness_LoadResults_ldq : (Instr.ldq 127 2 0 2 0).wellFormed = true ∧ Solo pointed 0 (two 2 ++ spanRegs 127 4) ∧ AtRest pointed ∧
    globalAt (pointed.thread pointed.cur.team 0) 2 0 4 = 0x2FFFC ∧ Reaches pointed pointed 0 .load 0x2FFFC 4 0x7FFFC ∧ (pointed.thread pointed.cur.team 0).ld < 63 ∧
    (publishFor pointed pointed.cur.team 2 0x2FFFC 4).halt = none ∧ (publishFor pointed pointed.cur.team 2 0x2FFFC 4).outbound = [] :=
  ⟨by decide +kernel, soloOf (by decide +kernel), atRestOf (by decide +kernel), by decide +kernel, reaches_pointed .load (hitOf (entry 255 0x20000) (by decide +kernel)), by decide +kernel, by decide +kernel, by decide +kernel⟩
theorem witness_StoreResults : (Instr.st 127 2 2 0).wellFormed = true ∧ (Instr.stl 127 2 0 0 0).wellFormed = true ∧ (Instr.stl 127 2 0 2 0).wellFormed = true ∧
    Solo pointed 0 (two 2 ++ spanRegs 127 4) ∧ AtRest pointed ∧ (pointed.thread pointed.cur.team 0).st < 63 ∧ globalAt (pointed.thread pointed.cur.team 0) 2 0 4 = 0x2FFFC ∧
    Reaches pointed pointed 0 .store 0x2FFFC 4 0x7FFFC ∧ (publish pointed pointed.cur.team 2).halt = none ∧ inHbm 0x7FFFC = true :=
  ⟨by decide +kernel, by decide +kernel, by decide +kernel, soloOf (by decide +kernel), atRestOf (by decide +kernel), by decide +kernel, by decide +kernel,
    reaches_pointed .store (hitOf (entry 255 0x20000) (by decide +kernel)), by decide +kernel, by decide +kernel⟩
/-- The last word of the pad; and any address at all in a thread that can trap. -/
theorem witness_PadLoadResults : (Instr.ldp 127 4 4 0).wellFormed = true ∧ Ready pointed ∧ Has pointed ((4 : Reg).toNat :: spanRegs 127 4) ∧ AtRest pointed ∧ CanTrap pointed ∧
    ∀ tid ∈ pointed.tids, passes pointed.cur (pointed.thread pointed.cur.team tid) = true →
      padAt (pointed.thread pointed.cur.team tid) 4 0 4 % 4 = 0 ∧ padAt (pointed.thread pointed.cur.team tid) 4 0 4 + 4 ≤ pointed.here.padSize :=
  ⟨by decide +kernel, readyOf (by decide +kernel), hasOf (by decide +kernel), atRestOf (by decide +kernel), canTrapOf (by decide +kernel), by decide +kernel⟩
theorem witness_PadStoreResults : ((Instr.stp 127 4 2 0).wellFormed = true ∧ Solo pointed 0 ((4 : Reg).toNat :: spanRegs 127 4) ∧ AtRest pointed ∧
      padAt (pointed.thread pointed.cur.team 0) 4 0 4 % 4 = 0 ∧ padAt (pointed.thread pointed.cur.team 0) 4 0 4 + 4 ≤ pointed.here.padSize) ∧
    (12 : BitVec 4).toNat < 13 ∧ Solo pointed 0 ([(127 : Reg).toNat, (4 : Reg).toNat, (0 : Reg).toNat, (third pointed.cur 127).toNat]) ∧
      ((pointed.thread pointed.cur.team 0).reg (4 : Reg).toNat).toNat % 4 = 0 ∧ ((pointed.thread pointed.cur.team 0).reg (4 : Reg).toNat).toNat + 4 ≤ pointed.here.padSize :=
  ⟨⟨by decide +kernel, soloOf (by decide +kernel), atRestOf (by decide +kernel), by decide +kernel, by decide +kernel⟩, by decide, soloOf (by decide +kernel), by decide +kernel, by decide +kernel⟩
/-- ATOM.CAS.b128 with its four registers, and the two executions of a packed form. -/
theorem witness_AtomicResults : (Instr.atom 124 8 0 15).wellFormed = true ∧ Solo pointed 0 (two 8 ++ spanRegs 0 16 ++ spanRegs 124 16 ++ spanRegs (third pointed.cur 124) 16) ∧ AtRest pointed ∧
    inHbm 0x70010 = true ∧ (pointed.thread pointed.cur.team 0).half = none ∧ (pointed.thread pointed.cur.team 0).ld < 63 ∧ (pointed.thread pointed.cur.team 0).st < 63 ∧
    ((pointed.thread pointed.cur.team 0).pair (8 : Reg).toNat).toNat = 0x20010 ∧ 0x20010 % 16 = 0 ∧ Reaches pointed pointed 0 .atomic 0x20010 16 0x70010 ∧
    (publishFor (if releases pointed.cur then publish pointed pointed.cur.team (scopeOf pointed.cur) else pointed) pointed.cur.team (scopeOf pointed.cur) 0x20010 16).halt = none ∧
    (publishFor (if releases pointed.cur then publish pointed pointed.cur.team (scopeOf pointed.cur) else pointed) pointed.cur.team (scopeOf pointed.cur) 0x20010 16).outbound = [] :=
  ⟨by decide +kernel, soloOf (by decide +kernel), atRestOf (by decide +kernel), by decide +kernel, by decide +kernel, by decide +kernel, by decide +kernel, by decide +kernel, by decide,
    reachesOf false (hitOf (entry 0 0x20000) (by decide +kernel)) (by decide +kernel) (by decide +kernel), by decide +kernel, by decide +kernel⟩
theorem witness_AtomicResults_packed : (Instr.atom 127 8 0 11).wellFormed = true ∧ Solo pointed 0 (two 8 ++ spanRegs 0 4 ++ spanRegs 127 4 ++ spanRegs (third pointed.cur 127) 4) ∧
    ((pointed.thread pointed.cur.team 0).pair (8 : Reg).toNat).toNat % 4 = 0 ∧
    let h : Half := ⟨0x70010, 0x20010, 5, 11, 7, 1, 0⟩
    let s := withThread (fun u => { u with half := some h }) pointed
    Solo s 0 (two 8 ++ spanRegs 0 4 ++ spanRegs 127 4 ++ spanRegs (third s.cur 127) 4) ∧ AtRest s ∧ (s.thread s.cur.team 0).half = some h ∧ inHbm h.pa = true ∧ h.pa % 4 = 0 ∧
      h.pa / 2 ^ 16 ∉ s.sealMap :=
  ⟨by decide +kernel, soloOf (by decide +kernel), by decide +kernel, soloOf (by decide +kernel), atRestOf (by decide +kernel), by decide +kernel, by decide +kernel, by decide, by decide +kernel⟩
/-- Two entries, the second over half of the first. -/
def buffered : State := withTeam fun t => { t with w := [⟨0x20000, 0x70000, leBytes 8 1⟩, ⟨0x20004, 0x70004, leBytes 8 2⟩] }
theorem witness_PublishResults : 0 < 2 ∧ AtRest buffered ∧ buffered.halt = none ∧ raceMode buffered (buffered.team 1).vmid (buffered.team 1).asid = 0 ∧
    let record := buffered.vmtbase.toNat + 64 * (buffered.team 1).vmid + 8
    let space := vmidRec buffered (buffered.team 1).vmid 8 + 32 * (buffered.team 1).asid
    ∀ e ∈ (buffered.team 1).w, 0 < e.bytes.length ∧ e.pa + e.bytes.length ≤ 2 ^ 39 ∧ (e.pa + e.bytes.length ≤ record ∨ record + 8 ≤ e.pa) ∧
      (e.pa + e.bytes.length ≤ space ∨ space + 8 ≤ e.pa) ∧ e.pa / 2 ^ 16 ∉ buffered.sealMap ∧ (e.pa + e.bytes.length - 1) / 2 ^ 16 ∉ buffered.sealMap :=
  ⟨by decide, atRestOf (by decide +kernel), by decide +kernel, by decide +kernel, by decide +kernel⟩
theorem witness_OrderingResults : Solo buffered 0 [] ∧ (publish buffered buffered.cur.team 0).halt = none ∧ (publish buffered buffered.cur.team 1).halt = none ∧
    (publish buffered buffered.cur.team 2).halt = none ∧ ∀ r ∈ two 126, r < buffered.here.countOf 0 :=
  ⟨soloOf (by decide +kernel), by decide +kernel, by decide +kernel, by decide +kernel, by decide +kernel⟩
/-- A barrier at the pad's end in phase 1: v6 = 0 passes, v5 = 1 waits, and v7 = 0 arrives with nothing. -/
def barrier : State := withRegs [(4, 0xFFF8), (5, 1), (6, 0)] (withPad 0xFFF8 8 (2 ^ 63 + 2 ^ 32 + 1))
theorem witness_BarrierResults : 2 ^ 64 - 1 < 2 ^ 64 ∧ Solo barrier 0 [(127 : Reg).toNat, (4 : Reg).toNat, (5 : Reg).toNat] ∧ Solo barrier 0 [(127 : Reg).toNat, (4 : Reg).toNat, (6 : Reg).toNat] ∧ AtRest barrier ∧
    let u := barrier.thread barrier.cur.team 0
    let word := littleEndian (Store.getN 0 barrier.here.pad (u.reg (4 : Reg).toNat).toNat 8)
    (u.reg (4 : Reg).toNat).toNat % 8 = 0 ∧ (u.reg (4 : Reg).toNat).toNat + 8 ≤ barrier.here.padSize ∧ (u.reg (5 : Reg).toNat).toNat ≠ 0 ∧ (u.reg (6 : Reg).toNat).toNat = 0 ∧
    word / 2 ^ 63 = (u.reg (5 : Reg).toNat).toNat % 2 ∧ word / 2 ^ 63 ≠ (u.reg (6 : Reg).toNat).toNat % 2 :=
  ⟨by decide, soloOf (by decide +kernel), soloOf (by decide +kernel), atRestOf (by decide +kernel), by decide +kernel⟩
/-- Counters at their limits and a failed copy before a failed tile operation. -/
def waiting : State := withThread (fun u => { u with ld := 63, cp := 3, tl := 1, failures := [⟨false, 3, 5, 0x20000, 0x10010⟩, ⟨true, 5, 1, 0, 0x10020⟩] }) pointed
theorem witness_WaitResults : Solo pointed 0 [] ∧ Solo waiting 0 [] ∧ CanTrap waiting ∧ (∀ r ∈ [(4 : Reg).toNat, (5 : Reg).toNat], r < pointed.here.countOf 0) ∧
    (let u := pointed.thread pointed.cur.team 0
     let word := littleEndian (Store.getN 0 pointed.here.pad (u.reg (4 : Reg).toNat).toNat 4)
     (u.reg (4 : Reg).toNat).toNat % 4 = 0 ∧ (u.reg (4 : Reg).toNat).toNat + 4 ≤ pointed.here.padSize ∧ word = (u.reg (5 : Reg).toNat).toNat ∧ word ≠ (u.reg (4 : Reg).toNat).toNat ∧
     u.wait ≠ .flag (u.reg (4 : Reg).toNat).toNat (u.reg (4 : Reg).toNat).toNat true ∧ u.failures = [] ∧ u.ld = 0 ∧
     ∀ x ∈ (List.range 4).map ((u.reg (4 : Reg).toNat).toNat + ·), copyStores pointed pointed.cur.team x = false ∧ drainStores pointed 0 (padSpot pointed.cur.team x) = false) ∧
    let v := waiting.thread waiting.cur.team 0
    v.ld ≠ 0 ∧ ¬(v.ld ≤ (14 : BitVec 4).toNat) ∧ v.failures = [⟨false, 3, 5, 0x20000, 0x10010⟩] ++ ⟨true, 5, 1, 0, 0x10020⟩ :: [] ∧ (127 : Reg).toNat < waiting.here.countOf 0 :=
  ⟨soloOf (by decide +kernel), soloOf (by decide +kernel), canTrapOf (by decide +kernel), by decide +kernel, by decide +kernel, by decide +kernel⟩
theorem witness_TileElementResults : Solo pointed 0 [(127 : Reg).toNat, (4 : Reg).toNat] ∧ AtRest pointed ∧ (31 : Reg).toNat < pointed.here.desc.acctiles :=
  ⟨soloOf (by decide +kernel), atRestOf (by decide +kernel), by decide +kernel⟩


-- Copy engines, rings, launches

/-- An answer and what it leaves. -/
theorem pairOf {α β : Type} {p : α × β} {a : α} (h : p.1 = a) : p = (a, p.2) := by rw [← h]
theorem okPairOf {α β ε : Type} {p : Except ε α × β} {a : α} (h : p.1.toOption = some a) : p = (.ok a, p.2) := by
  obtain ⟨_ | b, s⟩ := p
  · cases h
  · cases h; rfl
/-- A handle: base, rows, columns, stride, box, scale base, format, kind, space, and the rest. -/
def handle (base rows cols stride brows bcols sb fmt kind : Nat) (space : Bool) (rest : Nat := 0) : BitVec 512 :=
  BitVec.ofNat 512 (base + rows * 2 ^ 64 + cols * 2 ^ 96 + stride * 2 ^ 128 + brows * 2 ^ 160 + bcols * 2 ^ 176 + sb * 2 ^ 192 + fmt * 2 ^ 256 + kind * 2 ^ 261 +
    (if space then 2 ^ 263 else 0) + rest)
/-- Handle 5 is a box of four rows of FP16 in memory; v8 to v11 name pad byte 64 and the box at its origin. -/
def boxed (copyslots cp pad : Nat) : State :=
  withRegs [(8, pad)] (withThread (fun u => { u with cp := cp }) (withTeam fun t =>
    { t.setHandle 5 (handle 0x20000 4 64 128 4 64 0 2 0 false) with desc := { t.desc with copyslots := copyslots } }))
theorem witness_CopyIssueResults : copyForm (.tload 127 8 5) = some (0, 127, 8, 5) ∧
    (let s := boxed 1 62 64
     Solo s 0 ((127 : Reg).toNat :: four 8) ∧ (s.thread s.cur.team 0).cp < 63 ∧ copiesOf s s.cur.team < s.here.desc.copyslots ∧
       firstFailing (copyTable s.here (command s 0 0 127 8 5) (5 : BitVec 7).toNat) = none) ∧
    (let s := boxed 1 0 8
     Solo s 0 ((127 : Reg).toNat :: four 8) ∧ (s.thread s.cur.team 0).cp < 63 ∧ copiesOf s s.cur.team < s.here.desc.copyslots ∧
       firstFailing (copyTable s.here (command s 0 0 127 8 5) (5 : BitVec 7).toNat) = some (2, 0, 8) ∧ CanTrap s) ∧
    (let s := boxed 0 0 64
     Solo s 0 ((127 : Reg).toNat :: four 8) ∧ (s.thread s.cur.team 0).cp < 63 ∧ s.here.desc.copyslots ≤ copiesOf s s.cur.team) ∧
    let s := boxed 1 63 64
    Solo s 0 ((127 : Reg).toNat :: four 8) ∧ 63 ≤ (s.thread s.cur.team 0).cp :=
  ⟨rfl, ⟨soloOf (by decide +kernel), by decide +kernel⟩, ⟨soloOf (by decide +kernel), by decide +kernel, by decide +kernel, by decide +kernel, canTrapOf (by decide +kernel)⟩,
    ⟨soloOf (by decide +kernel), by decide +kernel⟩, soloOf (by decide +kernel), by decide +kernel⟩
/-- A ring whose header stands at 0x20040 and whose two entries of 64 bytes stand at 0x30000; v8 names it, and v4 pad byte 16. It is
ring 1 of the function's table. -/
def ringed (rp wp : Nat) (s : State := alone) : State :=
  let t := withRegs [(8, 0x20040), (4, 16)] (stored s 0x70040 64 (0x30000 + rp * 2 ^ 64 + wp * 2 ^ 96 + 1 * 2 ^ 128 + 8 * 2 ^ 136))
  t.setVf 0 { t.vf 0 with ringCopy := [0, BitVec.ofNat 128 (0x70040 + 2 ^ 64 + 5 * 2 ^ 72)] }
theorem found_ring (rp wp : Nat) (k : Acc) (h : translate (ringed rp wp) (whoThread (ringed rp wp) 0) k 0x20040 64 = (.ok 0x70040 false none, ringed rp wp))
    (hh : (ringed rp wp).halt = none ∧ lost (ringed rp wp) 0x70040 = false ∧ 0x70040 / 2 ^ 16 ∉ (ringed rp wp).sealMap) : Found (ringed rp wp) (ringed rp wp) 0 k 0x20040 64 0x70040 none :=
  foundOf false h ⟨hh.1, by decide, hh.2.1, by decide, fun _ => hh.2.2⟩
theorem solo_ring (rp wp : Nat) (h : (decide ((ringed rp wp).here.phase ≠ .ended) && !(ringed rp wp).cur.never && decide ((ringed rp wp).halt = none) &&
    (decide ((ringed rp wp).tids = [0]) && passes (ringed rp wp).cur ((ringed rp wp).thread (ringed rp wp).cur.team 0) && ([127, 126, 4] ++ two 8).all (· < (ringed rp wp).here.countOf 0))) = true) :
    Solo (ringed rp wp) 0 (two 126 ++ two 8 ++ [(4 : Reg).toNat]) ∧ Solo (ringed rp wp) 0 ((127 : Reg).toNat :: (4 : Reg).toNat :: two 8) := by
  have b := soloOf h
  exact ⟨⟨b.ready, b.group, b.guard, fun r hr => b.regs r (by revert r; decide)⟩, ⟨b.ready, b.group, b.guard, fun r hr => b.regs r (by revert r; decide)⟩⟩
/-- A ring with an entry, and an empty one. -/
theorem witness_RingResults_wait : (∀ e ∈ [(1, 2), (2, 2)], let s := ringed e.1 e.2
      ((s.thread s.cur.team 0).pair (8 : Reg).toNat).toNat = 0x20040 ∧ 0x20040 % 64 = 0 ∧ mapped (0x70040 + 63) = true ∧ (s.thread s.cur.team 0).ld < 63 ∧ (ringAt s 0x70040).okHdr = true ∧
      let s2 := publishFor s s.cur.team (scopeAt 0x70040) (0x20040 + 12) 4
      s2.halt = none ∧ s2.outbound = [] ∧ (ringAt s2 0x70040).rp = e.1 ∧ (ringAt s2 0x70040).wp = e.2) ∧
    (Solo (ringed 1 2) 0 (two 126 ++ two 8 ++ [(4 : Reg).toNat]) ∧ AtRest (ringed 1 2) ∧ Reaches (ringed 1 2) (ringed 1 2) 0 .load 0x20040 64 0x70040) ∧
    Solo (ringed 2 2) 0 (two 126 ++ two 8 ++ [(4 : Reg).toNat]) ∧ AtRest (ringed 2 2) ∧ Reaches (ringed 2 2) (ringed 2 2) 0 .load 0x20040 64 0x70040 :=
  ⟨by decide +kernel,
    ⟨(solo_ring 1 2 (by decide +kernel)).1, atRestOf (by decide +kernel), ⟨_, none, found_ring 1 2 .load (hitOf (entry 0 0x20000) (by decide +kernel)) (by decide +kernel), rfl⟩, by decide +kernel⟩,
    (solo_ring 2 2 (by decide +kernel)).1, atRestOf (by decide +kernel), ⟨_, none, found_ring 2 2 .load (hitOf (entry 0 0x20000) (by decide +kernel)) (by decide +kernel), rfl⟩, by decide +kernel⟩
/-- A full ring, one whose positions wrap, and an empty one. -/
theorem witness_RingResults_push : (∀ e ∈ [(0, 2), (0xFFFFFFFF, 0), (2, 2)], let s := ringed e.1 e.2
      (s.thread s.cur.team 0).st < 63 ∧ ((s.thread s.cur.team 0).reg (4 : Reg).toNat).toNat % 16 = 0 ∧
      let s2 := publish s s.cur.team (scopeAt 0x70040)
      s2.halt = none ∧ s2.outbound = [] ∧ (ringAt s2 0x70040).okHdr = true ∧ ((s.thread s.cur.team 0).reg (4 : Reg).toNat).toNat + 8 * (ringAt s2 0x70040).esc ≤ s.here.padSize ∧
        (((ringAt s2 0x70040).wp + 2 ^ 32 - (ringAt s2 0x70040).rp) % 2 ^ 32 = 2 ^ (ringAt s2 0x70040).n ↔ e = (0, 2)) ∧ ((ringAt s2 0x70040).rp = (ringAt s2 0x70040).wp ↔ e = (2, 2))) ∧
    (Solo (ringed 0 2) 0 (two 126 ++ two 8 ++ [(4 : Reg).toNat]) ∧ AtRest (ringed 0 2) ∧ Found (ringed 0 2) (ringed 0 2) 0 .store 0x20040 64 0x70040 none) ∧
    (let s := ringed 0xFFFFFFFF 0
     Solo s 0 (two 126 ++ two 8 ++ [(4 : Reg).toNat]) ∧ AtRest s ∧ Found s s 0 .store 0x20040 64 0x70040 none ∧
       ∃ dirts w, translateRange (bump (publish s s.cur.team (scopeAt 0x70040)) s.cur.team) (whoThread s 0) .store 0x30000 64 = (.ok ([(0x30000, 0x80000, 64)], dirts), w) ∧ refuses w 0x80000 64 = false) ∧
    mapped 0x80000 = true ∧ mapped (0x80000 + 64 - 1) = true ∧
    Solo (ringed 2 2) 0 (two 126 ++ two 8 ++ [(4 : Reg).toNat]) ∧ AtRest (ringed 2 2) ∧ Found (ringed 2 2) (ringed 2 2) 0 .store 0x20040 64 0x70040 none :=
  ⟨by decide +kernel,
    ⟨(solo_ring 0 2 (by decide +kernel)).1, atRestOf (by decide +kernel), found_ring 0 2 .store (hitOf (entry 0 0x20000) (by decide +kernel)) (by decide +kernel)⟩,
    ⟨(solo_ring 0xFFFFFFFF 0 (by decide +kernel)).1, atRestOf (by decide +kernel), found_ring 0xFFFFFFFF 0 .store (hitOf (entry 0 0x20000) (by decide +kernel)) (by decide +kernel),
      [], _, okPairOf (by decide +kernel), by decide +kernel⟩, by decide, by decide,
    (solo_ring 2 2 (by decide +kernel)).1, atRestOf (by decide +kernel), found_ring 2 2 .store (hitOf (entry 0 0x20000) (by decide +kernel)) (by decide +kernel)⟩
/-- A header that is no ring of the function, a full ring, and one with room; and the channels of a function that has eight from 60 on. -/
theorem witness_LaunchResults : (∀ e ∈ [(0, 2), (1, 2)], let s := ringed e.1 e.2
      ((s.thread s.cur.team 0).reg (4 : Reg).toNat).toNat % 16 = 0 ∧ ((s.thread s.cur.team 0).reg (4 : Reg).toNat).toNat + 64 ≤ s.here.padSize ∧ (s.thread s.cur.team 0).st < 63 ∧
      s.here.phase = .resident ∧ s.here.reasons = [] ∧ s.clock < s.here.lastIssue + 4096 ∧ ringIndex s s.here.vf 0x70040 = some 1 ∧
      ringIndex (s.setVf 0 { s.vf 0 with ringCopy := [] }) s.here.vf 0x70040 = none ∧
      let s2 := publish s s.cur.team (scopeAt 0x70040)
      s2.halt = none ∧ s2.outbound = [] ∧ (ringAt s2 0x70040).okHdr = true ∧ (((ringAt s2 0x70040).wp + 2 ^ 32 - (ringAt s2 0x70040).rp) % 2 ^ 32 = 2 ^ (ringAt s2 0x70040).n ↔ e = (0, 2))) ∧
    (Solo (ringed 0 2) 0 ((127 : Reg).toNat :: (4 : Reg).toNat :: two 8) ∧ AtRest (ringed 0 2) ∧ Found (ringed 0 2) (ringed 0 2) 0 .store 0x20040 64 0x70040 none) ∧
    let s := ringed 1 2
    Solo s 0 ((127 : Reg).toNat :: (4 : Reg).toNat :: two 8) ∧ AtRest s ∧ Found s s 0 .store 0x20040 64 0x70040 none ∧
      ∃ dirts w, translateRange (bump (publish s s.cur.team (scopeAt 0x70040)) s.cur.team) (whoThread s 0) .store 0x30000 64 = (.ok ([(0x30000, 0x80000, 64)], dirts), w) ∧ refuses w 0x80000 64 = false :=
  ⟨by decide +kernel,
    ⟨(solo_ring 0 2 (by decide +kernel)).2, atRestOf (by decide +kernel), found_ring 0 2 .store (hitOf (entry 0 0x20000) (by decide +kernel)) (by decide +kernel)⟩,
    (solo_ring 1 2 (by decide +kernel)).2, atRestOf (by decide +kernel), found_ring 1 2 .store (hitOf (entry 0 0x20000) (by decide +kernel)) (by decide +kernel),
    [], _, okPairOf (by decide +kernel), by decide +kernel⟩
/-- `alone` in a function with eight channels from 60 on; v4 names the last, and v5 one beyond them. -/
def channelled : State := withRegs [(4, 7), (5, 8)] (alone.setVf 0 { alone.vf 0 with cfg := BitVec.ofNat 128 (60 * 2 ^ 28 + 8 * 2 ^ 34) })
theorem witness_LaunchResults_chain :
    Solo channelled 0 ((127 : Reg).toNat :: (4 : Reg).toNat :: two 8) ∧ Solo channelled 0 ((127 : Reg).toNat :: (5 : Reg).toNat :: two 8) ∧
    (let n (r : Nat) := ((channelled.thread channelled.cur.team 0).reg r).toNat
     n 4 < (channelled.vf channelled.here.vf).cfg.toNat / 2 ^ 34 % 2 ^ 7 ∧ (channelled.vf channelled.here.vf).cfg.toNat / 2 ^ 34 % 2 ^ 7 ≤ n 5) ∧
    (publish channelled channelled.cur.team 1).halt = none ∧ ((publish channelled channelled.cur.team 1).chan 3).phase = .stopped ∧
    let s := { channelled with chans := [(3, { channelled.chan 3 with phase := .follow })] }
    Solo s 0 ((127 : Reg).toNat :: (4 : Reg).toNat :: two 8) ∧ (publish s s.cur.team 1).halt = none ∧ ((publish s s.cur.team 1).chan 3).phase ≠ .stopped :=
  ⟨soloOf (by decide +kernel), soloOf (by decide +kernel), by decide +kernel, by decide +kernel, by decide +kernel, soloOf (by decide +kernel), by decide +kernel, by decide +kernel⟩

-- The matrix engine

/-- Handles 5 and 6 are block formats with statistics and one scale, in memory and in the pad; v2 is 0, v4 names the pad's last 128 bytes, and v8:v9 laneset 0. -/
def scaled : State :=
  withRegs [(2, 0), (4, 0xFF80), (8, 1)] (withTeam fun t => (t.setHandle 5 (handle 0x20000 2 64 64 64 64 0x30000 20 0 false (4 * 2 ^ 288 + 2 ^ 306))).setHandle 6
    (handle 0x40 2 64 64 64 64 0x400 20 0 true (4 * 2 ^ 288 + 2 ^ 306)))
theorem witness_MatrixTableResults : Solo scaled 0 [(4 : Reg).toNat, (127 : Reg).toNat] ∧ Solo scaled 0 [(2 : Reg).toNat, (127 : Reg).toNat] ∧ Solo scaled 0 [(8 : Reg).toNat, (127 : Reg).toNat] ∧
    AtRest scaled ∧ 0xFF80 % 16 = 0 ∧ 0xFF80 + 128 ≤ scaled.here.padSize ∧ 1 ≤ scaled.here.desc.nd ∧
    (let u := scaled.thread scaled.cur.team 0
     let m := u.pair (8 : Reg).toNat
     (u.reg (4 : Reg).toNat).toNat = 0xFF80 ∧ (8 : Reg).toNat + 1 < scaled.here.countOf 0 ∧ m.getLsbD (0 / 32) = true ∧ ((List.range 64).filter (m.getLsbD ·)).length ≤ 6 ∧
       (∀ i < 64, m.getLsbD i = true → i < scaled.here.lanesets.length ∧ (scaled.here.laneset i).retired = false) ∧ u.tl = 0 ∧ (u.reg (2 : Reg).toNat).toNat = 0) ∧
    (∀ n ∈ [5, 6], let h := parseHandle (scaled.here.handle n)
      h.check scaled.here.padSize { origin := true } = none ∧ blocked h.fmt = true ∧ h.statv = true ∧ 0 < h.ns) ∧
    (parseHandle (scaled.here.handle 6)).space = true ∧ (parseHandle (scaled.here.handle 5)).space = false ∧ (parseHandle (scaled.here.handle 5)).sb + 4 * 0 = 0x30000 ∧
    Found scaled scaled 0 .store 0x30000 4 0x80000 none ∧ inHbm 0x80000 = true ∧ inHbm (0x80000 + 3) = true :=
  ⟨soloOf (by decide +kernel), soloOf (by decide +kernel), soloOf (by decide +kernel), atRestOf (by decide +kernel), by decide, by decide +kernel, by decide +kernel, by decide +kernel, by decide +kernel,
    by decide +kernel, by decide +kernel, by decide +kernel, 
    foundOf false (hitOf (entry 0 0x30000) (by decide +kernel)) ⟨by decide +kernel, by decide, by decide +kernel, by decide, fun _ => by decide +kernel⟩, by decide, by decide⟩
/-- Handles 4 and 5 are operands of FP16 in memory, and laneset 0 stands in the gang `g`. -/
def operands (g : BitVec 64) : State :=
  withTeam fun t => { (t.setHandle 4 (handle 0x20000 64 128 256 64 128 0 2 0 false)).setHandle 5 (handle 0x20000 128 64 128 128 64 0 2 0 false) with lanesets := [⟨0, 128, g, false⟩, ⟨0, 128, g, false⟩] }
theorem witness_MatrixIssueResults : matrix (.mmaz 31 4 5 0) = some ([31], 0, false) ∧ matrix (.mma 31 4 6 0) = some ([31], 0, false) ∧
    (let s := operands 0
     Solo s 0 [] ∧ AtRest s ∧ Listed s ∧ s.here.liveIn s.cur.laneset = [0] ∧ s.here.latches = [] ∧ s.here.unfenced = [] ∧ s.here.unseen = [] ∧ (s.thread s.cur.team 0).tl < 63 ∧
       31 < s.here.desc.acctiles ∧ firstFailing (openTable s.here (.mmaz 31 4 5 0)) = none ∧ firstFailing (openTable s.here (.mma 31 4 6 0)) = some (0xE, 2 + 6 * 2 ^ 8) ∧ CanTrap s) ∧
    (let s := operands 3
     Solo s 0 [] ∧ AtRest s ∧ Listed s ∧ s.here.liveIn s.cur.laneset = [0] ∧ s.here.latches = [] ∧ s.here.unfenced = [] ∧ s.here.unseen = [] ∧
       ∃ j < 64, j ≠ s.cur.laneset ∧ (s.here.laneset s.cur.laneset).gang.getLsbD j = true) ∧
    ((operands 1).here.laneset (operands 1).cur.laneset).gang = BitVec.twoPow 64 (operands 1).cur.laneset :=
  ⟨rfl, rfl, ⟨soloOf (by decide +kernel), atRestOf (by decide +kernel), by unfold Listed; decide +kernel, by decide +kernel, by decide +kernel, by decide +kernel, by decide +kernel, by decide +kernel,
      by decide +kernel, by decide +kernel, by decide +kernel, canTrapOf (by decide +kernel)⟩,
    ⟨soloOf (by decide +kernel), atRestOf (by decide +kernel), by unfold Listed; decide +kernel, by decide +kernel, by decide +kernel, by decide +kernel, by decide +kernel, by decide +kernel⟩, by decide +kernel⟩
/-- The core has taken the signature with 1,024 resident bytes; v8:v9 names the page and v5 their number. -/
def warmed : State := withRegs [(8, 0x20000), (5, 1024)] (withTeam fun t => { t with desc := { t.desc with sig := (64, 192, 1024) } })
/-- The TLB entries of that page's first four sectors of 256 bytes. -/
def warmedTlb : State := { warmed with tlb := [entry 0 0x20000, entry 1 0x20000, entry 2 0x20000, entry 3 0x20000] }
theorem witness_ResidentRangeResults : ∃ place, let s := warmedTlb
    Solo s 0 ((4 : Reg).toNat :: (5 : Reg).toNat :: two 8) ∧ AtRest s ∧ s.here.place = some place ∧ raceMode s s.here.vmid s.here.asid = 0 ∧ (s.thread s.cur.team 0).ld < 63 ∧
    firstFailing (tresTable s.here (s.core place.core).ranges 0x20000 1024 0) = none ∧ (∀ r ∈ (s.core place.core).ranges, r.filler ≠ (s.cur.team, 0)) ∧
    ∀ i < 1024 / 256, mapped (0x70000 + 256 * i) = true ∧ lost s (0x70000 + 256 * i) = false ∧ (0x70000 + 256 * i) % 256 = 0 ∧
      ∃ sl, translate s (whoThread s 0) .load (0x20000 + 256 * i) 256 = (.ok (0x70000 + 256 * i) sl none, s) := by
  refine ⟨_, soloOf (by decide +kernel), atRestOf (by decide +kernel), rfl, by decide +kernel, by decide +kernel, by decide +kernel, by decide +kernel, fun i hi => ⟨?_, ?_, ?_, false, ?_⟩⟩
  · revert i; decide +kernel
  · revert i; decide +kernel
  · revert i; decide +kernel
  · obtain rfl | rfl | rfl | rfl : i = 0 ∨ i = 1 ∨ i = 2 ∨ i = 3 := by omega
    · exact hitOf (entry 0 0x20000) (by decide +kernel)
    · exact hitOf (entry 1 0x20000) (by decide +kernel)
    · exact hitOf (entry 2 0x20000) (by decide +kernel)
    · exact hitOf (entry 3 0x20000) (by decide +kernel)
/-- A length that is no multiple of 1,024, and an offset that leaves no room. -/
theorem witness_ResidentRangeResults_checks : ∃ place, let s := warmedTlb
    s.here.place = some place ∧ CanTrap s ∧ firstFailing (tresTable s.here (s.core place.core).ranges 0x20000 256 0) = some (2, 0, 0x20000) ∧
      firstFailing (tresTable s.here (s.core place.core).ranges 0x20000 1024 (2 ^ 22 - 2 ^ 10 * s.here.desc.sig.2.2)) = some (0xD, 0, 0) :=
  ⟨_, rfl, canTrapOf (by decide +kernel), by decide +kernel, by decide +kernel⟩

-- Relations, barriers between threads, exit

/-- `alone` with a JOIN spec at pad byte 128, which v2 names: entry, keys in v2, side p1. -/
def related : State := withRegs [(2, 128), (4, 5)] (withPad 128 64 (0x10000 + 2 * 2 ^ 64 + 2 * 2 ^ 72 + 2 ^ 80))
/-- Beside its thread another that can go on, whose lane every barrier mask of the first names. -/
def beside : State := related.modTeam 1 fun t => { t with threads := [(0, { t.thread 0 with rcvs := Vector.ofFn fun _ => 2 }), (1, t.thread 0)] }
theorem alone_related (regs : List Nat) (h : regs.all (· < related.here.countOf 0) = true) : Alone related 0 regs :=
  have b : Solo related 0 [] := soloOf (by decide +kernel)
  aloneOf ⟨b.ready, b.group, b.guard, fun r hr => by simpa using List.all_eq_true.mp h r hr⟩ (by decide +kernel)
theorem witness_RelationalResults_alone :
    (∃ r, arriving related 0 (.fold 3 4 5 12) = some r ∧ Alone related 0 r.regs) ∧ (∃ r, arriving related 0 (.rank 127 4 7) = some r ∧ Alone related 0 r.regs) ∧
    (∃ r, arriving related 0 (.rebal 126 4 7) = some r ∧ Alone related 0 r.regs) ∧
    ∃ r, arriving related 0 (.join 127 2 4) = some r ∧ Alone related 0 r.regs ∧ r.extra.1 % 64 = 0 ∧ r.extra.1 + 64 ≤ related.here.padSize ∧
      joinValid related.here (parseJoin (related.here.padNat r.extra.1 64)) [r.arrival related 0] = true ∧ AtRest related :=
  ⟨⟨_, rfl, alone_related _ (by decide +kernel)⟩, ⟨_, rfl, alone_related _ (by decide +kernel)⟩, ⟨_, rfl, alone_related _ (by decide +kernel)⟩,
    ⟨_, rfl, alone_related _ (by decide +kernel), by decide +kernel, by decide +kernel, by decide +kernel, atRestOf (by decide +kernel)⟩⟩
theorem witness_RelationalResults_beside : ∃ r, arriving beside 0 (.fold 3 4 5 12) = some r ∧ Solo beside 0 r.regs ∧ Listed beside ∧ beside.here.phase = .resident ∧
    beside.here.insts = [] ∧ beside.here.claims = [] ∧
    ((beside.thread beside.cur.team 0).ld = 0 ∧ (beside.thread beside.cur.team 0).st = 0 ∧ (beside.thread beside.cur.team 0).cp = 0 ∧ (beside.thread beside.cur.team 0).tl = 0 ∧
      (beside.thread beside.cur.team 0).failures = []) ∧
    (∀ l ∈ beside.here.live, l ≠ 0 → (beside.thread beside.cur.team l).wait = .ready) ∧ 1 ≠ 0 ∧ 1 ∈ population beside.here r.unit :=
  ⟨_, rfl, soloOf (by decide +kernel), by unfold Listed; decide +kernel, by decide +kernel, by decide +kernel, by decide +kernel, by decide +kernel, by decide +kernel, by decide, by decide +kernel⟩
/-- RGIVE of all but the last block, RTAKE of the whole account, RTAKE beyond it, and a publish that leaves the package running. -/
theorem witness_ArrivalAndExitResults_alone :
    (Alone related 0 [] ∧ 0 / 32 < related.here.lanesets.length ∧ 8 * (15 : BitVec 7).toNat + 8 ≤ (related.here.laneset (0 / 32)).count) ∧
    (let s := related.modTeam 1 fun t => { t with lanesets := [⟨0, 8, 0, false⟩], account := 15 }
     Alone s 0 [] ∧ 0 / 32 < s.here.lanesets.length ∧ (15 : BitVec 7) ≠ 0 ∧ (s.here.laneset (0 / 32)).count + 8 * (15 : BitVec 7).toNat ≤ 128 ∧ (15 : BitVec 7).toNat ≤ s.here.account) ∧
    (let s := related.modTeam 1 fun t => { t with lanesets := [⟨0, 8, 0, false⟩], account := 14 }
     Alone s 0 [] ∧ 0 / 32 < s.here.lanesets.length ∧ (s.here.laneset (0 / 32)).count + 8 * (15 : BitVec 7).toNat ≤ 128 ∧ s.here.account < (15 : BitVec 7).toNat) ∧
    (publish related related.cur.team 1).halt = none ∧ related.here.latches = [] ∧ teamBlocked (related.thread related.cur.team 0).wait = none :=
  ⟨⟨alone_related _ (by decide +kernel), by decide +kernel, by decide +kernel⟩, ⟨aloneOf (soloOf (by decide +kernel)) (by decide +kernel), by decide +kernel⟩,
    ⟨aloneOf (soloOf (by decide +kernel)) (by decide +kernel), by decide +kernel⟩, by decide +kernel, by decide +kernel, by decide +kernel⟩
theorem witness_ArrivalAndExitResults_beside : Solo beside 0 [] ∧ Listed beside ∧ beside.here.phase = .resident ∧ beside.here.insts = [] ∧ beside.here.claims = [] ∧ 1 ≠ 0 ∧
    1 ∈ beside.here.liveIn (0 / 32) ∧ 0 ∈ beside.here.liveIn (0 / 32) ∧ (∀ i ∈ beside.here.live, i ≠ 0 → (beside.thread beside.cur.team i).wait = .ready) ∧
    ((beside.thread beside.cur.team 0).rcvs[(15 : BitVec 7).toNat % 16]'(Nat.mod_lt _ (by decide))).getLsbD (1 % 32) = true ∧
    ((beside.thread beside.cur.team 0).ld = 0 ∧ (beside.thread beside.cur.team 0).st = 0 ∧ (beside.thread beside.cur.team 0).cp = 0 ∧ (beside.thread beside.cur.team 0).tl = 0) ∧
    (beside.thread beside.cur.team 0).failures = [] :=
  ⟨soloOf (by decide +kernel), by unfold Listed; decide +kernel, by decide +kernel, by decide +kernel, by decide +kernel, by decide, by decide +kernel, by decide +kernel, by decide +kernel,
    by decide +kernel, by decide +kernel, by decide +kernel⟩
/-- Nine lanesets of one quadrant can go on; eight are active, the thread's among them. -/
def crowded : State :=
  { withTeam fun t => { t with threads := (List.range 9).map (fun i => (128 * i, t.thread 0)), lanesets := List.replicate 33 ⟨0, 128, 0, false⟩ } with
    quads := [(0, ⟨(List.range 8).map fun i => (1, 4 * i, 0), [(1, 32, some 0)], [], 0⟩)] }
theorem witness_YieldAndPassResults : (∀ s ∈ [alone, crowded],
      quadOf s s.cur.team s.cur.laneset = some 0 ∧ (∃ tid ∈ s.tids, passes s.cur (s.thread s.cur.team tid) = true) ∧
      let q := (refreshQuad (s.modThread 1 0 (·.done s.cur.next)) 0).quad 0
      (s.cur.team, s.cur.laneset, 0) ∈ q.active ∧ (readySince q = [] ↔ s = alone)) ∧
    Ready alone ∧ Ready crowded ∧ Moves crowded (crowded.modThread 1 0 (·.done crowded.cur.next)) fun _ => stepThread crowded.cur id := by
  refine ⟨by decide +kernel, ready_alone, readyOf (by decide +kernel), ⟨rfl, by decide +kernel, fun k hk => ?_⟩, by decide +kernel, fun tid ht => ?_⟩
  · rw [State.team_modThread]
    exact if_neg hk
  · rw [State.thread_modThread, if_neg]
    rintro ⟨-, rfl⟩
    exact ht (by decide +kernel)

-- Trees, signals, invalidation

/-- Handles 3, 4 and 5 are trees of eight nodes, in memory, in the pad, and in sealed memory; their first nodes test feature 1, their second are leaves (by 0xFFFF). The thread
stands at node `x`, with its features at pad byte `row`. -/
def tree (x : Nat) (row : Nat := 64) : State :=
  let h (base : Nat) (space sealed : Bool) := BitVec.ofNat 512 (base + 8 * 2 ^ 64 + 16 * 2 ^ 96 + 4 * 2 ^ 136 + 8 * 2 ^ 144 + 12 * 2 ^ 152 + 4 * 2 ^ 160 + 3 * 2 ^ 168 + 2 ^ 176 + 2 ^ 181 + 2 ^ 186 +
    (if sealed then 2 ^ 196 else 0) + 2 * 2 ^ 200 + 2 ^ 261 + (if space then 2 ^ 263 else 0))
  withRegs [(6, x), (4, row)] (withTeam (fun t =>
      { ((t.setHandle 3 (h 0x20000 false false)).setHandle 4 (h 0 true false)).setHandle 5 (h 0x20000 false true) with pad := Store.setN 0 t.pad 0 (leBytes 18 (1 + 0xFFFF * 2 ^ 128)) })
    (stored alone 0x70000 18 (1 + 0xFFFF * 2 ^ 128)))
/-- The walk unit has the thread's command. -/
def walking (n x : Nat) (row : Nat := 64) (s : State := tree x row) : State := withThread (fun u => { u with command := some ⟨s.here.handle n, x, row⟩ }) s
/-- The end of a path, a node that is none of the tree, a path that is too deep, and a node that is read. -/
theorem witness_WalkResults_issue :
    (∀ x ∈ [0xFFFFFFFF, 8, 0], let s := tree x
      ((s.thread 1 0).reg (6 : Reg).toNat).toNat = x ∧ (s.thread 1 0).command = none ∧ (s.thread 1 0).ld < 63 ∧
      let h := parseTree (s.here.handle (3 : BitVec 4).toNat)
      h.check s.here.padSize = none ∧ h.leafEnc = false ∧ (h.nodes ≤ x ↔ x ≠ 0) ∧ (s.thread 1 0).steps < h.maxDepth) ∧
    Solo (tree 0xFFFFFFFF) 0 ((4 : Reg).toNat :: two 6) ∧ (Solo (tree 8) 0 ((4 : Reg).toNat :: two 6) ∧ CanTrap (tree 8)) ∧ Solo (tree 0) 0 ((4 : Reg).toNat :: two 6) ∧
    let s := withThread (fun u => { u with steps := 3 }) (tree 0)
    Solo s 0 ((4 : Reg).toNat :: two 6) ∧ CanTrap s ∧ (s.thread 1 0).command = none ∧ (s.thread 1 0).ld < 63 ∧ (parseTree (s.here.handle (3 : BitVec 4).toNat)).maxDepth ≤ (s.thread 1 0).steps :=
  ⟨by decide +kernel, soloOf (by decide +kernel), ⟨soloOf (by decide +kernel), canTrapOf (by decide +kernel)⟩, soloOf (by decide +kernel),
    soloOf (by decide +kernel), canTrapOf (by decide +kernel), by decide +kernel⟩
/-- An inner node and a leaf in the pad, and a node whose feature is beyond it. -/
theorem witness_WalkResults_pad :
    (∀ x ∈ [0, 1], let s := walking 4 x
      (s.thread s.cur.team 0).command = some ⟨s.here.handle 4, x, 64⟩ ∧ x < 2 ^ 32 ∧ (parseTree (s.here.handle 4)).space = true ∧
      let f := littleEndian ((Store.getN 0 s.here.pad (16 * x) 16).take 2)
      f = 0xFFFF ∨ 64 + f * 4 + 4 ≤ s.here.padSize) ∧
    (Solo (walking 4 0) 0 ((4 : Reg).toNat :: two 6) ∧ AtRest (walking 4 0)) ∧ (Solo (walking 4 1) 0 ((4 : Reg).toNat :: two 6) ∧ AtRest (walking 4 1)) ∧
    let s := walking 4 0 (row := 0xFFFC)
    Solo s 0 ((4 : Reg).toNat :: two 6) ∧ AtRest s ∧ CanTrap s ∧ ¬0xFFFC + littleEndian ((Store.getN 0 s.here.pad 0 16).take 2) * 4 + 4 ≤ s.here.padSize :=
  ⟨by decide +kernel, ⟨soloOf (by decide +kernel), atRestOf (by decide +kernel)⟩, ⟨soloOf (by decide +kernel), atRestOf (by decide +kernel)⟩,
    soloOf (by decide +kernel), atRestOf (by decide +kernel), canTrapOf (by decide +kernel), by decide +kernel⟩
/-- A node in memory, in sealed memory, and in memory that is not sealed though a seal is asked for. -/
theorem witness_WalkResults_memory :
    (let s := walking 3 0
     Solo s 0 ((4 : Reg).toNat :: two 6) ∧ AtRest s ∧ (s.thread s.cur.team 0).command = some ⟨s.here.handle 3, 0, 64⟩ ∧
       (parseTree (s.here.handle 3)).space = false ∧ (parseTree (s.here.handle 3)).stride = 16 ∧ (parseTree (s.here.handle 3)).sealReq = false ∧
       rangeFor s s.cur.team 0x20000 = none ∧ Reaches s s 0 .load 0x20000 16 0x70000 ∧ 64 + littleEndian ((s.rd 0x70000 16).take 2) * 4 + 4 ≤ s.here.padSize) ∧
    let s := walking 5 0
    (parseTree (s.here.handle 5)).sealReq = true ∧ Solo s 0 ((4 : Reg).toNat :: two 6) ∧ AtRest s ∧ CanTrap s ∧ s.halt = none ∧ lost s 0x70000 = false ∧
      translate s (whoThread s 0) .load 0x20000 16 = (.ok 0x70000 false none, s) ∧ 0x70000 / 2 ^ 16 ∉ s.sealMap :=
  ⟨⟨soloOf (by decide +kernel), atRestOf (by decide +kernel), by decide +kernel, by decide +kernel, by decide +kernel, by decide +kernel, by decide +kernel,
      reachesOf false (hitOf (entry 0 0x20000) (by decide +kernel)) ⟨by decide +kernel, by decide, by decide +kernel, by decide, fun h => by cases h⟩ (by decide +kernel), by decide +kernel⟩,
    by decide +kernel, soloOf (by decide +kernel), atRestOf (by decide +kernel), canTrapOf (by decide +kernel), by decide +kernel, by decide +kernel, hitOf (entry 0 0x20000) (by decide +kernel), by decide +kernel⟩
/-- A thread has gone on behind a node read; the page is mapped as it was, or elsewhere now. -/
def behind (pa : Nat) : State :=
  (tree 0).modThread 1 0 fun u => { u with ld := 1, node := some ⟨⟨(tree 0).here.handle 3, 0, 64⟩, 6, 3, [(0x20000, pa, 16)], leBytes 16 (0xFFFF + 7 * 2 ^ 32)⟩ }
theorem witness_WalkResults_node : (∀ pa ∈ [0x70000, 0x80000], let s := behind pa
      (∃ n, (s.thread 1 0).node = some n ∧ n.cmd.node < 2 ^ 32 ∧ n.parts = [(0x20000, pa, 16)] ∧ (parseTree n.cmd.handle).sealReq = false ∧ littleEndian ((n.bytes.drop (parseTree n.cmd.handle).offFeat).take 2) = 0xFFFF) ∧
      rangeFor s 1 0x20000 = none ∧ raceMode s (s.team 1).vmid (s.team 1).asid = 0 ∧ mapped pa = true ∧ mapped (pa + 16 - 1) = true ∧
      (peek s (s.team 1).vmid (s.team 1).asid 0x20000 = some pa ↔ pa = 0x70000) ∧ lost s pa = false ∧
      64 + littleEndian ((s.rd 0x70000 16).take 2) * 4 + 4 ≤ (s.team 1).padSize) ∧
    AtRest (behind 0x70000) ∧ AtRest (behind 0x80000) := by
  refine ⟨fun pa hpa => ?_, atRestOf (by decide +kernel), atRestOf (by decide +kernel)⟩
  simp only [List.mem_cons, List.not_mem_nil, or_false] at hpa
  obtain rfl | rfl := hpa
  · exact ⟨⟨_, rfl, by decide +kernel, rfl, by decide +kernel, by decide +kernel⟩, by decide +kernel⟩
  · exact ⟨⟨_, rfl, by decide +kernel, rfl, by decide +kernel, by decide +kernel⟩, by decide +kernel⟩
/-- The page's leaf has the sealed bit, and the map its frame. -/
def sealedTree : State := { walking 5 0 (s := stored (tree 0) 0x50010 8 0x70E19) with tlb := [{ entry 0 0x20000 with leaf := 0x70E19 }], sealMap := [7] }
/-- A live range holds the node. -/
def rangedTree : State := { walking 3 0 with cores := [(0, ⟨some (64, 192, 1024), [⟨small.grid, 0, 0, 0x20000, 1024, 0, true, leBytes 1024 1, (1, 0), [0x70000, 0x70100, 0x70200, 0x70300], []⟩]⟩)] }
theorem witness_WalkResults_sealed : Solo sealedTree 0 ((4 : Reg).toNat :: two 6) ∧ AtRest sealedTree ∧ (parseTree (sealedTree.here.handle 5)).sealReq = true ∧
    (sealedTree.thread sealedTree.cur.team 0).command = some ⟨sealedTree.here.handle 5, 0, 64⟩ ∧ rangeFor sealedTree sealedTree.cur.team 0x20000 = none ∧
    translate sealedTree (whoThread sealedTree 0) .load 0x20000 16 = (.ok 0x70000 true none, sealedTree) ∧ Reaches sealedTree sealedTree 0 .load 0x20000 16 0x70000 ∧ 0x70000 / 2 ^ 16 ∈ sealedTree.sealMap :=
  ⟨soloOf (by decide +kernel), atRestOf (by decide +kernel), by decide +kernel, by decide +kernel, by decide +kernel, hitOf { entry 0 0x20000 with leaf := 0x70E19 } (by decide +kernel),
    reachesOf true (hitOf { entry 0 0x20000 with leaf := 0x70E19 } (by decide +kernel)) ⟨by decide +kernel, by decide, by decide +kernel, by decide, fun h => by cases h⟩ (by decide +kernel), by decide +kernel⟩
theorem witness_WalkResults_range : Solo rangedTree 0 ((4 : Reg).toNat :: two 6) ∧ AtRest rangedTree ∧ (parseTree (rangedTree.here.handle 3)).sealReq = false ∧
    (rangedTree.thread rangedTree.cur.team 0).command = some ⟨rangedTree.here.handle 3, 0, 64⟩ ∧
    ∃ r, rangeFor rangedTree rangedTree.cur.team 0x20000 = some r ∧ (∀ i < 16, 0x20000 - r.base + i ∉ r.stale ∧ r.moved rangedTree (0x20000 + i) = false) ∧
      64 + littleEndian ((((r.bytes.drop (0x20000 - r.base)).take 16)).take 2) * 4 + 4 ≤ rangedTree.here.padSize :=
  ⟨soloOf (by decide +kernel), atRestOf (by decide +kernel), by decide +kernel, by decide +kernel, _, rfl, by decide +kernel, by decide +kernel⟩
theorem witness_WalkResults_audit : Solo alone 0 ((127 : Reg).toNat :: (two 126 ++ two 0)) ∧ (alone.vf alone.here.vf).auditSeq - (alone.vf alone.here.vf).auditTaken < Config.auditRing ∧
    let s := alone.setVf 0 { alone.vf 0 with auditSeq := 16384 }
    Solo s 0 ((127 : Reg).toNat :: (two 126 ++ two 0)) ∧ Config.auditRing ≤ (s.vf s.here.vf).auditSeq - (s.vf s.here.vf).auditTaken :=
  ⟨soloOf (by decide +kernel), by decide +kernel, soloOf (by decide +kernel), by decide +kernel⟩
/-- v8:v9 is 0; it names a ring of the table; it names none. -/
theorem witness_SignalAndInvalidateResults :
    (∀ x ∈ [0, 0x70040, 0x70080], let s := withRegs [(8, x)] (ringed 1 2)
      ((s.thread 1 0).pair (8 : Reg).toNat).toNat = x ∧ (publish s s.cur.team 2).halt = none ∧ (publish s s.cur.team 1).halt = none ∧
      (ringEntry (publish s s.cur.team 2) s.here.vf x).isSome = decide (x = 0x70040) ∧ s.here.super = true ∧ (s.thread 1 0).wait = .ready ∧
      (∀ e ∈ (publish s s.cur.team 1).teams, ∀ y ∈ e.2.threads, y.2.half = none) ∧ (publish s s.cur.team 1).chans = []) ∧
    (let s := withRegs [(8, 0)] (ringed 1 2)
     Solo s 0 ((127 : Reg).toNat :: (4 : Reg).toNat :: two 8) ∧ AtRest s) ∧
    (let s := withRegs [(8, 0x70040)] (ringed 1 2)
     Solo s 0 ((127 : Reg).toNat :: (4 : Reg).toNat :: two 8) ∧ AtRest s) ∧
    (let s := withRegs [(8, 0x70080)] (ringed 1 2)
     Solo s 0 ((127 : Reg).toNat :: (4 : Reg).toNat :: two 8) ∧ AtRest s) ∧
    (let s := withThread fun u => { u with wait := .tlbi [.chunk 3 0 1] }
     Solo s 0 ((127 : Reg).toNat :: (4 : Reg).toNat :: two 8) ∧ AtRest s ∧ s.here.super = true ∧ (s.thread s.cur.team 0).wait = .tlbi [.chunk 3 0 1]) ∧
    (let s := { alone with chans := [(3, { alone.chan 3 with phase := .moving 0 0 0x70000 0x80000, vmid := 0, asid := 0 })] }
     Solo s 0 ((127 : Reg).toNat :: (4 : Reg).toNat :: two 8) ∧ AtRest s ∧ s.here.super = true ∧ (publish s s.cur.team 1).halt = none ∧
       (publish s s.cur.team 1).chans ≠ [] ∧ ∀ e ∈ (publish s s.cur.team 1).chans, e.2.vmid = s.here.vmid ∧ e.2.asid = ((s.thread s.cur.team 0).reg (4 : Reg).toNat).toNat % 2 ^ 16 ∧
         e.2.phase = .moving 0 0 0x70000 0x80000) ∧
    let s := withTeam fun t => { t with super := false }
    Solo s 0 ((127 : Reg).toNat :: (4 : Reg).toNat :: two 8) ∧ AtRest s ∧ s.here.super = false ∧ CanTrap s :=
  ⟨by decide +kernel, ⟨soloOf (by decide +kernel), atRestOf (by decide +kernel)⟩, ⟨soloOf (by decide +kernel), atRestOf (by decide +kernel)⟩, ⟨soloOf (by decide +kernel), atRestOf (by decide +kernel)⟩,
    ⟨soloOf (by decide +kernel), atRestOf (by decide +kernel), by decide +kernel, by decide +kernel⟩,
    ⟨soloOf (by decide +kernel), atRestOf (by decide +kernel), by decide +kernel, by decide +kernel, by decide +kernel, by decide +kernel⟩,
    soloOf (by decide +kernel), atRestOf (by decide +kernel), by decide +kernel, canTrapOf (by decide +kernel)⟩

-- Machine events

/-- The leaf that a walk ends in. -/
def leafOf : Walked → Option Nat
  | .leaf pte .. => some pte
  | _ => none
/-- A walk that a thread of team 1 waits for; two queued writes to a peer; and `buffered`, at rest but for those. -/
def eventful : State :=
  { stored buffered 0x50010 8 0x7000D with
    walks := [(7, ⟨0, 0, 0x20000, [.thread 1 0]⟩)], outbound := [⟨1, 2 ^ 42, [1, 2], false⟩, ⟨1, 2 ^ 42 + 8, [3], false⟩] }
theorem witness_MemoryEventResults_walk : AtRest { eventful with walks := [], outbound := [] } ∧ eventful.halt = none ∧
    eventful.walks.find? (·.1 = 7) = some (7, ⟨0, 0, 0x20000, [.thread 1 0]⟩) ∧ eventful.ntlb = [] ∧ lost eventful (eventful.vmtbase.toNat + 64 * 0) = false ∧
    (walkFill eventful 0 0 0x20000).2.halt = none ∧
    walk eventful 0 0 0x20000 = .leaf 0x7000D 0x50010 0x70000 false false [] ∧ leafState 0x7000D = .local ∧
    refuses eventful 0x50010 8 = false ∧ refuses { eventful with sealMap := [5] } 0x50010 8 = true ∧ tlbHit { eventful with tlb := [] } 0 0 0x20000 = none ∧
    let s := { eventful with walks := (List.range 17).map fun i => (i, ⟨0, 0, 0x40000 + 0x10000 * i, []⟩) }
    (s.walks.find? (·.1 = 16)).isSome = true ∧ ((s.walks.takeWhile fun e => e.1 ≠ 16).countP fun e => e.2.va / 2 ^ 8 % 2 ^ 8 = 0x140000 / 2 ^ 8 % 2 ^ 8) = 16 :=
  ⟨atRestOf (by decide +kernel), by decide +kernel, by rfl, by decide +kernel, by decide +kernel, by decide +kernel, by decide +kernel, by decide +kernel, by decide +kernel⟩
/-- A walk that ends in no leaf, and one that ends in a leaf of the tier. -/
theorem witness_MemoryEventResults_others : (walkFill eventful 0 0 0x40000).2.halt = none ∧ walk eventful 0 0 0x40000 = .invalid 1 ∧
    let s := stored eventful 0x50020 8 (2 ^ 40 + 0x7072D)
    (walkFill s 0 0 0x40000).2.halt = none ∧ (leafOf (walk s 0 0 0x40000)).map leafState = some .tier := by decide +kernel
theorem witness_MemoryEventResults_buffers : AtRest { buffered with walks := [], outbound := [] } ∧ buffered.halt = none ∧ buffered.outbound = [] ∧ (buffered.team 1).phase = .resident ∧
    translate buffered (whoOf buffered 1) .load (0x2FFFC : BitVec 64).toNat 1 = (.ok 0x7FFFC false none, buffered) ∧ mapped 0x7FFFC = true ∧ lost buffered 0x7FFFC = false ∧
    Store.get [] (buffered.team 1).snap ((0x2FFFC : BitVec 64).toNat / 32) = [] ∧
    (∃ e, (buffered.team 1).w[0]? = some e ∧ (∀ o ∈ (buffered.team 1).w.take 0, ¬(o.va < e.va + e.bytes.length ∧ e.va < o.va + o.bytes.length)) ∧ 0 < e.bytes.length ∧
      e.pa + e.bytes.length ≤ 2 ^ 39 ∧ e.pa / 2 ^ 16 ∉ buffered.sealMap ∧ (e.pa + e.bytes.length - 1) / 2 ^ 16 ∉ buffered.sealMap) ∧
    raceMode buffered (buffered.team 1).vmid (buffered.team 1).asid = 0 :=
  ⟨atRestOf (by decide +kernel), by decide +kernel, by decide +kernel, by decide +kernel, hitOf (entry 255 0x20000) (by decide +kernel), by decide, by decide +kernel, by decide +kernel,
    ⟨_, rfl, by decide +kernel, by decide +kernel, by decide +kernel, by decide +kernel, by decide +kernel⟩, by decide +kernel⟩
/-- The younger of two writes to different addresses of a peer, that is out of reach or not. -/
theorem witness_MemoryEventResults_outbound : (∃ o, eventful.outbound[1]? = some o ∧ (∀ e ∈ eventful.outbound.take 1, outOrdered e o = false) ∧ mapped o.pa = true ∧
      mapped (o.pa + o.bytes.length - 1) = true ∧ lost eventful o.pa = true) ∧
    let s := { eventful with peerroute := [(0, 1)], portsUp := 1 }
    ∃ o, s.outbound[1]? = some o ∧ (∀ e ∈ s.outbound.take 1, outOrdered e o = false) ∧ lost s o.pa = false :=
  ⟨⟨_, rfl, by decide +kernel, by decide +kernel, by decide +kernel, by decide +kernel⟩, _, rfl, by decide +kernel, by decide +kernel⟩
/-- The rings of VMID 0: two free frames, room for tier frames and for event records. -/
def rings (s : State := alone) (frames : Nat := 2) : State :=
  let ring (base wp n esc : Nat) := base + wp * 2 ^ 96 + n * 2 ^ 128 + esc * 2 ^ 136
  stored (stored (stored (stored (stored (stored (stored s 0x10018 8 0x70100) 0x10020 8 0x70140) 0x10028 8 0x70180) 0x70100 64 (ring 0x71000 frames 2 1)) 0x70140 64 (ring 0x71100 0 2 1)) 0x70180 64
    (ring 0x71200 0 2 8)) 0x71000 16 (0x90000 + 0xA0000 * 2 ^ 64)
/-- An open fault on the page 0x40000, whose leaf is a tier leaf of a page of zeros, with the tags given. -/
def tiered (tags : List (List Byte)) (frames : Nat := 2) : State :=
  let s := rings (stored alone 0x50020 8 (2 ^ 40 + 0x7072D)) frames
  { s with faults := [⟨4, 0, 0, 0x40000, 0, 0x50020, 0, none, 0, none, none, none⟩], keys := [(0, some (List.replicate 32 0))]
           tierRecs := [((2 ^ 40 + 0x70000) / 2 ^ 16, (1, tags))] }
/-- The fault. -/
def tierFault : FaultRec := ⟨4, 0, 0, 0x40000, 0, 0x50020, 0, none, 0, none, none, none⟩
/-- The page's own tags. -/
def ownTags : List (List Byte) := pageTags (List.replicate 32 0) 1 (2 ^ 40 + 0x70000) 0 (List.replicate 65536 0)
theorem witness_PagingEventResults_promotion : let s := tiered ownTags
    let t := (takeFrame s 0).2
    let tier := pteFrame (s.rdNat tierFault.pteAddr 8)
    s.poison = [] ∧ s.halt = none ∧ findFault s tierFault.id = some tierFault ∧ promotable s tierFault = true ∧ leafState (s.rdNat tierFault.pteAddr 8) = .tier ∧ vmidRead s tierFault.vmid = s ∧
    takeFrame s tierFault.vmid = (some 0x90000, t) ∧ tierRec t tier = (1, ownTags) ∧ workKey t tierFault.vmid tierFault.key = (List.replicate 32 0, t) ∧
    (∃ page, decryptPage (List.replicate 32 0) 1 tier (recVf t tierFault.vmid) ownTags (t.rd tier 65536) = some page ∧ page.length = 65536) ∧
    mapped tier = true ∧ mapped (tier + 65535) = true ∧ mapped 0x90000 = true ∧ mapped (0x90000 + 65535) = true ∧
    refuses t 0x90000 65536 = false ∧ refuses t tierFault.pteAddr 8 = false := by
  have hf : pteFrame ((tiered ownTags).rdNat tierFault.pteAddr 8) = 2 ^ 40 + 0x70000 := by decide +kernel
  obtain ⟨page, hp, hl⟩ := decryptPage_own (List.replicate 32 0) 1 (2 ^ 40 + 0x70000) 0 (List.replicate 65536 0) (by decide +kernel) List.length_replicate
  refine ⟨by decide +kernel, by decide +kernel, by decide +kernel, by decide +kernel, by decide +kernel, ?_, pairOf (by decide +kernel), ?_, ?_, ⟨page, ?_, hl⟩, ?_⟩
  · rw [vmidRead, coreRead, if_neg (by decide +kernel)]
  · rw [tierRec, (takeFrame_kept (tiered ownTags) 0).1, hf]; rfl
  · have hk : keySlot (takeFrame (tiered ownTags) 0).2 0 = 0 := by decide +kernel
    rw [show tierFault.key = none from rfl, show tierFault.vmid = 0 from rfl, workKey, tenantKey, (takeFrame_kept (tiered ownTags) 0).2, hk]; rfl
  · have hv : recVf (takeFrame (tiered ownTags) 0).2 tierFault.vmid = 0 := by decide +kernel
    rw [hf, hv, State.rd, getN_beyond _ _ _ _ (by decide +kernel)]; exact hp
  · rw [hf]; decide +kernel
/-- An empty tag, and a function without a free frame. -/
theorem witness_PagingEventResults_failure : (let s := tiered [[]]
     let t := (takeFrame s 0).2
     let tier := pteFrame (s.rdNat tierFault.pteAddr 8)
     findFault s tierFault.id = some tierFault ∧ promotable s tierFault = true ∧ leafState (s.rdNat tierFault.pteAddr 8) = .tier ∧ vmidRead s tierFault.vmid = s ∧
       takeFrame s tierFault.vmid = (some 0x90000, t) ∧ tierRec t tier = (1, [[]]) ∧ workKey t tierFault.vmid tierFault.key = (List.replicate 32 0, t) ∧
       mapped tier = true ∧ mapped (tier + 65535) = true) ∧
    (∀ version tier vf page, decryptPage (List.replicate 32 0) version tier vf [[]] page = none) ∧
    let s := tiered [] 0
    findFault s tierFault.id = some tierFault ∧ promotable s tierFault = true ∧ leafState (s.rdNat tierFault.pteAddr 8) = .tier ∧ vmidRead s tierFault.vmid = s ∧
      (takeFrame s tierFault.vmid).1 = none ∧ (makeMajor (takeFrame s tierFault.vmid).2 tierFault.id 0x10).halt = none :=
  ⟨by decide +kernel, fun _ _ _ _ => decryptPage_none _ _ _ _ _ _ (by decide +kernel) rfl, by decide +kernel⟩
/-- The page 0x20000 exported to tenant 5. -/
def exporting : State := { rings with exports := [(7, 6)], peerid := 3 }
/-- The peer asks for the page. -/
def asked : MigRequest := ⟨2, 5, 0, 0, 0x20000, 0x70000, 0x123450000, 2⟩
theorem witness_PagingEventResults_migration : exporting.poison = [] ∧ exporting.halt = none ∧ exporting.off = false ∧ exporting.moves = [] ∧
    (let r : MigRequest := ⟨2, 5, 0, 0, 0x20000, 0x80000, 0x123450000, 0⟩
     exported exporting r.frame ≠ r.tenant.toNat + 1) ∧
    exported exporting asked.frame = asked.tenant.toNat + 1 ∧ vmidRead exporting (vmidOf exporting asked.vf) = exporting ∧
      asked.page.toNat / 2 ^ 16 * 2 ^ 16 = 0x20000 ∧ walk exporting (vmidOf exporting asked.vf) asked.asid.toNat 0x20000 = .leaf 0x70E0D 0x50010 asked.frame false false [] ∧
      leafState 0x70E0D = .local ∧ inHbm asked.frame = true ∧ bit 0x70E0D 4 = false ∧ asked.frame / 2 ^ 16 ∉ exporting.sealMap ∧ pteCount 0x70E0D ≠ 3 ∧
      (∀ m ∈ exporting.moves, m.request ≠ some asked) ∧ refuses exporting 0x50010 8 = false := by decide +kernel
/-- The page's leaf is remote, of the tier, or has migrated three times; no leaf; the device is off. -/
theorem witness_PagingEventResults_migrationRefused :
    (∀ e ∈ [(0x70E0D + 2 ^ 63, Leaf.remote, 0), (2 ^ 40 + 0x7072D, .tier, 0), (0x70ECD, .local, 3)], let s := stored exporting 0x50010 8 e.1
      exported s asked.frame = asked.tenant.toNat + 1 ∧ vmidRead s (vmidOf s asked.vf) = s ∧
      (leafOf (walk s (vmidOf s asked.vf) asked.asid.toNat 0x20000)).map (fun l => (leafState l, pteCount l)) = some e.2) ∧
    (let s := stored exporting 0x50010 8 0
     vmidRead s (vmidOf s asked.vf) = s ∧ exported s asked.frame = asked.tenant.toNat + 1 ∧ walk s (vmidOf s asked.vf) asked.asid.toNat 0x20000 = .invalid 1) ∧
    ({ exporting with off := true } : State).off = true := by decide +kernel
/-- The page is in transit, and a channel's chunk is to complete, or nothing is. -/
def moving (wait : List Flight) : State :=
  { exporting with
    moves := [⟨0, 0, 0, 0x20000, 0x50010, 0x70E0D, 0x70000, none, some asked, wait, none⟩]
    chans := [(3, { exporting.chan 3 with phase := .moving 0 0 0x70000 0x80000, rec_ := 0 })] }
theorem witness_PagingEventResults_moving : ∀ wait ∈ [[], [Flight.chunk 3 0 0]], let s := moving wait
    s.poison = [] ∧ s.halt = none ∧ s.off = false ∧ ∃ m ∈ s.moves, s.moves.find? (fun m => m.request = some asked) = some m ∧ (m.wait.any (inFlight s) = decide (wait ≠ [])) ∧
      inHbm (m.frame + 65535) = true ∧ (giveFrame s m.vmid m.frame).halt = none ∧
      refuses (giveFrame s m.vmid m.frame) m.leafAddr 8 = false := by decide +kernel
/-- A migration that awaits its page, and the halts of what it does. -/
theorem witness_PagingEventResults_complete : let f : FaultRec := ⟨4, 0, 0, 0x20000, 0, 0x50010, 1, none, 0, some 0x90000, none, none⟩
    let s : State := { exporting with faults := [f] }
    findFault s f.id = some f ∧ f.held = some 0x90000 ∧ s.halt = none ∧ s.poison = [] ∧ mapped 0x90000 = true ∧ mapped (0x90000 + 65535) = true ∧ refuses s 0x90000 65536 = false ∧ refuses s f.pteAddr 8 = false ∧ (dropHeld s f).halt = none ∧
      (makeMajor (dropHeld s f) f.id 0x11).halt = none := by decide +kernel
/-- A resolved and a failed access of the thread. -/
def replaying (st : ParkState) : State := { alone with parks := [⟨3, .thread 1 0, 1, 0x20000, 0, 0, 0, 0, some ⟨.ld 4 8 4 0, 0x10000, 0x10000, 0x10004, 0, 0, 0⟩, st⟩] }
theorem witness_PagingEventResults_replay : (∃ p q, nextReplay (replaying (.resolved 1)) = some p ∧ p.owner = .thread 1 0 ∧ p.instr = some q ∧ p.state = .resolved 1 ∧ p.kind ≠ 2) ∧
    (replaying (.resolved 1)).halt = none ∧ (replaying (.resolved 1)).poison = [] ∧
    let s := replaying (.failed 1 4 2)
    (∃ p q, nextReplay s = some p ∧ p.owner = .thread 1 0 ∧ p.instr = some q ∧ p.state = .failed 1 4 2) ∧ 4 ≠ 6 ∧ (s.team 1).phase ≠ .ended ∧ (s.team 1).desc.handler ≠ 0 ∧ (s.thread 1 0).handler = false :=
  ⟨⟨_, _, rfl, rfl, rfl, rfl, by decide⟩, by decide +kernel, by decide +kernel, ⟨_, _, rfl, rfl, rfl, rfl⟩, by decide +kernel⟩
/-- A fetch that waited for its page, and the instruction that stands there. -/
theorem witness_PagingEventResults_fetch :
    let s : State := { prefixed 0x00E18283 with parks := [⟨3, .thread 1 0, 1, 0x10004, 2, 0, 0, 0, some ⟨.ill, 0x10004, 0x10004, 0x10004, 0, 0, 0⟩, .resolved 1⟩] }
    (∃ p q, nextReplay s = some p ∧ p.owner = .thread 1 0 ∧ p.instr = some q ∧ p.state = .resolved 1 ∧ p.kind = 2 ∧ q.pc = 0x10004) ∧
    Code { s with parks := [], cur := ⟨1, 0, 1, 0x10004, 0x10004, 0x10004, 0, 0, none, none⟩ } 0x10004 (leBytes 2 0x8283 ++ leBytes 2 0x00E1) ∧
    decode (leBytes 2 0x8283 ++ leBytes 2 0x00E1) = .ok (.add 5 6 7, []) ∧ (Instr.add 5 6 7).wellFormed = true ∧ ∀ p n c x, Instr.add 5 6 7 ≠ .pfx p n c x :=
  ⟨⟨_, _, rfl, rfl, rfl, rfl, rfl, rfl⟩, .long _ _ (by decide) (codeHalfOf (pa := 0x60004) false (hitOf (entry 0 0x10000) (by decide +kernel)) (by decide +kernel))
    (codeHalfOf (pa := 0x60006) false (hitOf (entry 0 0x10000) (by decide +kernel)) (by decide +kernel)), rfl, by decide +kernel, by simp⟩

-- Copy engines, channels, the matrix engine

/-- A command of form `f` on the box of `boxed`, at a piece of its second row: tensor row `row`. -/
def copying (f cpl : Nat) (phase : CopyPhase := .queued) (rows : Nat := 4) : Copy :=
  let list := f = 2 ∨ f = 3 ∨ f = 4
  { id := 9, team := 1, tid := 0, tia := 0x10000, f := f, pad := 64, a1 := 0, a2 := if list then 2 else 0, cpl := cpl, flag := 7, h := handle 0x20000 rows 64 128 4 64 0 2 0 false
    link := handle 0x30000 1 64 256 1 64 0 28 0 false, mode := 0, row := 1, off := 0, idx := if list then [0, 1] else [], stage := leBytes 16 1, phase := phase, clash := [], arrived := 0 }
/-- `alone` with the command alone in the engine. -/
def copyOf (c : Copy) : State := { alone with copies := [c] }
theorem witness_CopyEventResults : ∀ f ∈ List.range 7, let c := copying f 0
    let s := copyOf c
    let h := parseHandle c.h
    let lists : Bool := c.f = 2 ∨ c.f = 3 ∨ c.f = 4
    s.copies = [c] ∧ s.mops = [] ∧ s.outbound = [] ∧ s.poison = [] ∧ s.halt = none ∧ (s.team c.team).phase = .resident ∧ (lists = true → c.a2 ≤ c.idx.length) ∧
    (if lists then c.idx[c.row]? = some 1 ∧ c.row < c.a2 ∧ 1 < h.rows else ((1 : Nat) : Int) = h.row + toSigned 32 c.a1 + c.row ∧ 1 < h.rows) ∧
    ((0 : Nat) : Int) = max 0 (-(c.col * h.width)) ∧ ((1024 : Nat) : Int) = (min (h.bcols * h.width) (h.cols * h.width - c.col * h.width) : Int) ∧
    (h.rowAddr 1 + c.col * h.width / 8 + (0 / 8 : Nat)).toNat + c.off = 0x20080 ∧ (if c.f = 4 then h.width / 8 else min 256 (128 - c.off)) = (if f = 4 then 2 else 128) ∧
    0x20080 % 2 ^ 10 + 128 ≤ 2 ^ 10 ∧ 0x20080 % 2 ^ 16 + 128 ≤ 2 ^ 16 ∧ rangeFor s 1 0x20080 = none ∧ raceMode s (s.team 1).vmid (s.team 1).asid = 0 ∧
    mapped 0x70080 = true ∧ lost s 0x70080 = false ∧ inHbm 0x70080 = true ∧ 0x70080 % 2 ^ 16 = 0x20080 % 2 ^ 16 ∧ scataFmt h.fmt = true := by decide +kernel
/-- Their translations. -/
theorem witness_CopyEventResults_found : (∀ f ∈ [0, 2, 5], let s := copyOf (copying f 0)
      translate s ((copying f 0).who s) .load 0x20080 128 = (.ok 0x70080 false none, s)) ∧
    (∀ f ∈ [1, 3], let s := copyOf (copying f 0)
      translate s ((copying f 0).who s) .store 0x20080 128 = (.ok 0x70080 false none, s)) ∧
    let s := copyOf (copying 4 0)
    translate s ((copying 4 0).who s) .atomic 0x20080 128 = (.ok 0x70080 false none, s) := by
  refine ⟨fun f hf => hitOf (entry 0 0x20000) ?_, fun f hf => hitOf (entry 0 0x20000) ?_, hitOf (entry 0 0x20000) (by decide +kernel)⟩
  · revert f; decide +kernel
  · revert f; decide +kernel
/-- The row from a resident range. -/
theorem witness_CopyEventResults_range : let s := { copyOf (copying 0 0) with
      cores := [(0, ⟨some (64, 192, 1024), [⟨small.grid, 0, 0, 0x20000, 1024, 0, true, List.replicate 1024 7, (1, 0), [0x70000, 0x70100, 0x70200, 0x70300], []⟩]⟩)] }
    ∃ e, rangeFor s 1 0x20080 = some e ∧ (∀ i < 128, 0x20080 - e.base + i ∉ e.stale ∧ e.moved s (0x20080 + i) = false) ∧ ((e.bytes.drop (0x20080 - e.base)).take 128).length = 128 :=
  ⟨_, rfl, by decide +kernel, by decide +kernel⟩
/-- A piece whose access is denied, is to an invalid or a tier page, or waits for a walk. -/
theorem witness_CopyEventResults_denied :
    (∀ e ∈ [(Walked.format 1, some 3), (.invalid 1, none), (.leaf 0x7072D 0x50010 0x70000 false false [], none)], let c := copying 1 0
      let s := { copyOf c with tlb := [], answers := [⟨.copy 9, 0, 0, 0x20080, e.1⟩] }
      let x := translate s (c.who s) .store 0x20080 128
      x.2.halt = none ∧ (match x.1 with | .prot _ => e.2 = some 3 | .minor _ _ => e.2 = none | .major _ _ => e.2 = none | _ => False) ∧
        (openFault x.2 (whoOf x.2 1) 0x20080 5 x.1).2.halt = none) ∧
    let c := copying 1 0
    let s := { copyOf c with tlb := [] }
    let x := translate s (c.who s) .store 0x20080 128
    x.2.halt = none ∧ match x.1 with | .walking _ => True | _ => False := by
  constructor
  · intro e he
    simp only [List.mem_cons, List.not_mem_nil, or_false] at he
    obtain rfl | rfl | rfl := he
    · exact ⟨by decide +kernel, rfl, by decide +kernel⟩
    · exact ⟨by decide +kernel, rfl, by decide +kernel⟩
    · exact ⟨by decide +kernel, rfl, by decide +kernel⟩
  · exact ⟨by decide +kernel, trivial⟩
/-- The box's second row lies beyond a tensor of one row; the units of a store's rows count one by one. -/
theorem witness_CopyEventResults_beyond : (∀ f ∈ List.range 7, let c := { copying f 0 (rows := 1) with arrived := 0 }
      ¬1 < (parseHandle c.h).rows ∧ (c.f = 2 ∨ c.f = 3 ∨ c.f = 4 → c.idx[c.row]? = some 1) ∧ (parseHandle c.h).row + toSigned 32 c.a1 + c.row = 1) ∧
    let c := copying 1 0x1000002 (rows := 1)
    c.cpl / 2 ^ 24 % 2 ^ 4 = 1 ∧ 0 < min (c.row + 1) ((parseHandle c.h).brows - 1) * 1 - c.arrived ∧ min (c.row + 1) ((parseHandle c.h).brows - 1) * 1 - { c with arrived := 2 }.arrived = 0 := by decide +kernel
/-- Index lists in memory and in the pad; completed commands; a TMCAST whose buffer is free. -/
theorem witness_CopyEventResults_list : (let c := { copying 2 0 with idx := [] }
      let s := copyOf c
      c.idx.length < c.a2 ∧ (parseHandle c.link).space = false ∧ ((parseHandle c.link).base + c.a1 + 4 * c.idx.length) = 0x30000 ∧ min ((32 - 0x30000 % 32) / 4) (c.a2 - c.idx.length) = 2 ∧
        translate s (c.who s) .load 0x30000 (4 * 2) = (.ok 0x80000 false none, s) ∧ mapped 0x80000 = true ∧ lost s 0x80000 = false ∧ raceMode s (s.team 1).vmid (s.team 1).asid = 0) ∧
    (let c := { copying 2 0 with idx := [], link := handle 0 1 64 256 1 64 0 28 0 true }
     c.idx.length < c.a2 ∧ (parseHandle c.link).space = true ∧ ((parseHandle c.link).base + c.a1 + 4 * c.idx.length) % 4 = 0) ∧
    (∀ f ∈ List.range 7, ∀ m ∈ [0, 1, 2, 3], (copying f (0x1000000 * m + 2) .done).phase = .done ∧ (copying f (0x1000000 * m + 2) .done).cpl / 2 ^ 24 % 2 ^ 4 = m) ∧
    let c := copying 5 0xF0000000 .staged
    let s := { withTeam fun t => { t with bufFree := 0x8000 } with copies := [c] }
    c.phase = .staged ∧ c.team ∈ bondOf s c.team ∧ (bondOf s c.team).Nodup ∧ ∀ j ∈ bondOf s c.team, (s.team j).phase = .resident ∧ (s.team j).bufFree.getLsbD (c.cpl / 2 ^ 28 % 2 ^ 4) = true :=
  ⟨⟨by decide +kernel, by decide +kernel, by decide +kernel, by decide +kernel, hitOf (entry 0 0x30000) (by decide +kernel), by decide, by decide +kernel, by decide +kernel⟩, by decide +kernel, by decide +kernel, by decide +kernel⟩
/-- Channel 3 on a record at 0x20040: own, from 0x20000 to 0x30000, with a completion at 0x20010 and nothing after it. -/
def chained (phase : ChanPhase) (len : Nat := 0x200) : State :=
  let x := 1 + 5 * 2 ^ 160 + 0x20010 * 2 ^ 192 + len * 2 ^ 256 + 0x30000 * 2 ^ 320 + 0x20000 * 2 ^ 384
  { stored alone 0x70040 64 x with chans := [(3, ⟨phase, 0x20040, leBytes 64 x, 0, 0, 0, true⟩)] }
theorem hit_chained (phase : ChanPhase) (k : Acc) (n page va : Nat) (h : va < 2 ^ 52 ∧ answerFor (chained phase) (((chained phase).chan 3).who 3) va = none ∧
    tlbOld (chained phase) (((chained phase).chan 3).who 3) va = [] ∧ tlbNew (chained phase) (((chained phase).chan 3).who 3) va = some (entry 0 page) ∧ staleDirty (chained phase) k (entry 0 page) = false ∧
    checks (chained phase) (((chained phase).chan 3).who 3) k va n (entry 0 page).leaf.toNat (entry 0 page).leafAddr ((entry 0 page).frame va) = .ok (va + 0x50000) false none ∧
    inPeer (va + 0x50000) = false) :
    translate (chained phase) (((chained phase).chan 3).who 3) k va n = (.ok (va + 0x50000) false none, chained phase) := hitOf (entry 0 page) h
theorem witness_ChainEventResults : (∀ phase ∈ [.readRecord, .chunk 0, .moving 0 256 0x70000 0x80000, .ending 1 1 0, .completing 1, .follow], let s := chained phase
      s.copies = [] ∧ s.mops = [] ∧ s.walks = [] ∧ s.outbound = [] ∧ s.poison = [] ∧ (∀ e ∈ s.teams, e.2.landed = []) ∧ chanParked s 3 = false ∧ s.halt = none ∧ (s.chan 3).phase = phase ∧
      lost s 0x70000 = false ∧ lost s 0x70040 = false ∧ lost s 0x70078 = false ∧ lost s 0x80000 = false ∧ refuses s 0x70040 16 = false) ∧
    (translate (chained .readRecord) (((chained .readRecord).chan 3).who 3) .load 0x20040 64 = (.ok 0x70040 false none, chained .readRecord) ∧ mapped (0x70040 + 63) = true) ∧
    (let r := parseChain ((chained (.chunk 0)).chan 3).bytes
     r.dst + (r.chunk 0).1 = 0x30000 ∧ r.src + (r.chunk 0).1 = 0x20000 ∧ (r.chunk 0).2 = 0x200 ∧
       translate (chained (.chunk 0)) (((chained (.chunk 0)).chan 3).who 3) .store 0x30000 0x200 = (.ok 0x80000 false none, chained (.chunk 0)) ∧
       translate (chained (.chunk 0)) (((chained (.chunk 0)).chan 3).who 3) .load 0x20000 0x200 = (.ok 0x70000 false none, chained (.chunk 0))) ∧
    (let s := chained (.moving 0 256 0x70000 0x80000)
     let r := parseChain (s.chan 3).bytes
     0 < min 256 ((r.chunk 0).2 - 256) ∧ lost s (0x70000 + 256) = false ∧ mapped (0x70000 + 256) = true ∧ mapped (0x70000 + 256 + 256 - 1) = true ∧ inHbm (0x80000 + 256 + 256) = true ∧
       refuses s 0x80000 (r.chunk 0).2 = false ∧ refuses { s with sealMap := [8] } 0x80000 (r.chunk 0).2 = true ∧ lost s (2 ^ 42) = true) ∧
    (translate (chained (.ending 1 1 0)) (((chained (.ending 1 1 0)).chan 3).who 3) .store 0x20040 16 = (.ok 0x70040 false none, chained (.ending 1 1 0)) ∧ inHbm (0x70040 + 15) = true) ∧
    (let r := parseChain ((chained (.completing 1)).chan 3).bytes
     r.cpladdr = 0x20010 ∧ r.cpladdr ≠ 0 ∧ translate (chained (.completing 1)) (((chained (.completing 1)).chan 3).who 3) .store 0x20010 4 = (.ok 0x70010 false none, chained (.completing 1)) ∧
       mapped 0x70010 = true ∧ mapped (0x70010 + 3) = true) ∧
    translate (chained .follow) (((chained .follow).chan 3).who 3) .load (0x20040 + 56) 8 = (.ok 0x70078 false none, chained .follow) ∧ mapped (0x70078 + 7) = true :=
  ⟨by decide +kernel, ⟨hit_chained _ .load 64 0x20000 0x20040 (by decide +kernel), by decide⟩,
    ⟨by decide +kernel, by decide +kernel, by decide +kernel, hit_chained _ .store 0x200 0x30000 0x30000 (by decide +kernel), hit_chained _ .load 0x200 0x20000 0x20000 (by decide +kernel)⟩, by decide +kernel,
    ⟨hit_chained _ .store 16 0x20000 0x20040 (by decide +kernel), by decide⟩, ⟨by decide +kernel, by decide +kernel, hit_chained _ .store 4 0x20000 0x20010 (by decide +kernel), by decide⟩,
    hit_chained _ .load 8 0x20000 0x20078 (by decide +kernel), by decide⟩
/-- A destination that is denied, or whose page is invalid, and the record, to which the progress goes. -/
theorem witness_ChainEventResults_denied : ∀ e ∈ [(Walked.format 1, true), (.invalid 1, false)], let s := { chained (.chunk 0) with answers := [⟨.chan 3, 0, 0, 0x30000, e.1⟩] }
    let x := translate s ((s.chan 3).who 3) .store 0x30000 0x200
    x.2.halt = none ∧ (match x.1 with | .prot _ => e.2 = true | .major _ _ => e.2 = false | _ => False) ∧
      translate x.2 ((s.chan 3).who 3) .store 0x20040 16 = (.ok 0x70040 false none, x.2) ∧ refuses x.2 0x70040 16 = false ∧ inHbm (0x70040 + 15) = true := by
  intro e he
  simp only [List.mem_cons, List.not_mem_nil, or_false] at he
  obtain rfl | rfl := he
  · exact ⟨by decide +kernel, rfl, hitOf (entry 0 0x20000) (by decide +kernel), by decide +kernel, by decide⟩
  · exact ⟨by decide +kernel, rfl, hitOf (entry 0 0x20000) (by decide +kernel), by decide +kernel, by decide⟩
/-- An operation on boxes whose tensors have one row, with a drain of `out`. -/
def multiplying (phase : MopPhase) (w : Instr := .mmaz 1 4 5 1) (ha hb : BitVec 512) (out : Nat := 21 + 7 * 2 ^ 8 + 2 * 2 ^ 16) : Mop :=
  { id := 9, team := 1, mask := 1, word := w, issuers := [(0, 0x10000, [0])], ha := ha, hb := hb, hm := handle 0 1 8 32 64 8 0 28 0 true, mode := 0
    slot := (List.range 32).map fun i => BitVec.ofNat 32 (if i = 1 then out else 0), outs := [(5, handle 0x20000 64 64 256 64 64 0 1 0 false), (6, handle 0 64 64 256 64 64 0 1 0 true)]
    vecs := [], scales := [], pages := [], phase := phase, pad := [], clash := [], taint := [], undef := [], counted := [0] }
/-- `alone` with the operation alone in the queue. -/
def engaged (m : Mop) : State := { alone with mops := [m] }
/-- Operands in the pad: FP32, FP64, sparse FP16, a tile and a box of FP32, an elementwise product. -/
def inPad (phase : MopPhase) : List Mop :=
  [multiplying phase (.mmaz 1 4 5 1) (handle 0 1 32 256 64 32 0 1 0 true) (handle 0 1 64 256 32 64 0 1 0 true),
   multiplying phase (.mma 2 4 5 0) (handle 0 1 16 512 64 16 0 0 0 true) (handle 0 1 64 512 16 64 0 0 0 true),
   multiplying phase (.mmas 1 4 5 1) (handle 0 1 128 256 64 128 0 2 0 true) (handle 0 1 64 256 256 64 0 2 0 true),
   multiplying phase (.mmac 1 2 5 0) 0 (handle 0 1 64 256 64 64 0 1 0 true), multiplying phase (.mhad 1 2 5) 0 (handle 0 1 64 256 1 64 0 1 0 true)]
theorem no_ranges {s : State} (h : s.cores = []) (k x : Nat) : rangeFor s k x = none := by
  unfold rangeFor
  split
  · rw [rangeAt, State.core, h]; rfl
  · rfl
theorem witness_MatrixEventResults : (∀ phase ∈ [MopPhase.queued, .fetched, .granted], ∀ m ∈ inPad phase, let s := engaged m
      s.mops = [m] ∧ s.copies = [] ∧ s.outbound = [] ∧ s.poison = [] ∧ s.halt = none ∧ (s.team m.team).phase = .resident ∧ m.undef = [] ∧ m.clash = [] ∧ m.taint = [] ∧ m.phase = phase ∧ m.qnts = []) ∧
    (∀ phase m k x, rangeFor (engaged (multiplying phase m 0 0)) k x = none) ∧
    (∀ m ∈ inPad .queued, ∀ e ∈ m.fetches, e.1 = true) ∧
    ∀ m ∈ inPad .granted, let w := mword m.word
      let a := parseHandle m.ha
      let b := parseHandle m.hb
      (∀ h ∈ [b, metaBox m.ha m.hm], h.space = true) ∧ (w.kind = .dense ∨ w.kind = .sparse → a.space = true ∧ boxIs 64 (classK (opClass a.fmt)) a = true) ∧
      (w.kind = .dense → boxIs (classK (opClass a.fmt)) 64 b = true) ∧ (w.kind = .sparse → boxIs (2 * classK (opClass a.fmt)) 64 b = true ∧ sparseFmt a.fmt = true) ∧
      (w.kind = .tile → boxIs 64 64 b = true) ∧ (w.kind = .had → boxIs 1 64 b = true) :=
  ⟨by decide +kernel, fun _ _ => no_ranges rfl, by decide +kernel, by decide +kernel⟩
/-- The metadata of the sparse one, all legal or illegal from its first nibble on. -/
theorem witness_MatrixEventResults_sparse : ∀ pad ∈ [[], Store.setN 0 [] 0 (List.replicate 32 0x88)],
    let m := { multiplying .queued (.mmas 1 4 5 1) (handle 0 1 128 256 64 128 0 2 0 true) (handle 0 1 64 256 256 64 0 2 0 true) with pad := pad }
    let mt := metaBox m.ha m.hm
    let nib (i g : Nat) : Nat := if mt.inside (mt.row + i) (mt.col + (g / 8 : Nat)) then
      littleEndian (Store.getN 0 m.pad (mt.rowAddr (mt.row + i).toNat + 4 * (mt.col + (g / 8 : Nat)).toNat) 4) / 2 ^ (4 * (g % 8)) % 16 else 8
    classK (opClass (parseHandle m.ha).fmt) / 2 = 64 ∧ (pad = [] → ¬nib 0 0 % 4 < nib 0 0 / 4) ∧ (pad ≠ [] → ∀ i < 64, ∀ g < 64, nib i g % 4 < nib i g / 4) := by decide +kernel
/-- Operands of FP16 in the pages 0x20000 and 0x30000. -/
def inMemory : Mop := multiplying .queued (.mmaz 1 4 5 0) (handle 0x20000 64 128 256 64 128 0 2 0 false) (handle 0x30000 128 64 128 128 64 0 2 0 false)
theorem lost_hbm {s : State} {x : Nat} (h : x < 2 ^ 42) : lost s x = false := by
  have ht : tib = 2 ^ 40 := rfl
  have : inPeer x = false := by
    rw [inPeer, ht, decide_eq_false (by omega)]; rfl
  rw [lost, this]; rfl
theorem witness_MatrixEventResults_fetch : let m := inMemory
    let s := engaged m
    let a := parseHandle m.ha
    let b := parseHandle m.hb
    (mword m.word).kind = .dense ∧ a.space = false ∧ b.space = false ∧ (∀ e ∈ a.ranges, 0 < e.2 ∧ e.1 / 2 ^ 16 = 2 ∧ (e.1 + e.2 - 1) / 2 ^ 16 = 2) ∧
    (∀ e ∈ b.ranges, 0 < e.2 ∧ e.1 / 2 ^ 16 = 3 ∧ (e.1 + e.2 - 1) / 2 ^ 16 = 3) ∧ (0x20000, 256) ∈ a.ranges ∧ (∀ e ∈ a.ranges, 0x20000 ≤ e.1) ∧ (0x30000, 128) ∈ b.ranges ∧ (∀ e ∈ b.ranges, 0x30000 ≤ e.1) ∧
    translate s (m.who s) .load 0x20000 1 = (.ok 0x70000 false none, s) ∧ translate s (m.who s) .load 0x30000 1 = (.ok 0x80000 false none, s) ∧ s.halt = none ∧
    (∀ x, x / 2 ^ 16 = 2 → lost s (0x70000 - 0x20000 % 2 ^ 16 + x % 2 ^ 16) = false) ∧ ∀ x, x / 2 ^ 16 = 3 → lost s (0x80000 - 0x30000 % 2 ^ 16 + x % 2 ^ 16) = false :=
  ⟨by decide +kernel, by decide +kernel, by decide +kernel, by decide +kernel, by decide +kernel, by decide +kernel, by decide +kernel, by decide +kernel, by decide +kernel,
    hitOf (entry 0 0x20000) (by decide +kernel), hitOf (entry 0 0x30000) (by decide +kernel), by decide +kernel, fun x _ => lost_hbm (by omega), fun x _ => lost_hbm (by omega)⟩
/-- A page that is denied or invalid. -/
theorem witness_MatrixEventResults_denied : ∀ e ∈ [(Walked.format 1, true), (.invalid 1, false)], let m := inMemory
    let s := { engaged m with answers := [⟨.mop 9, 0, 0, 0x20000, e.1⟩] }
    let x := translate s (m.who s) .load 0x20000 1
    x.2.halt = none ∧ (match x.1 with | .prot _ => e.2 = true | .major _ _ => e.2 = false | _ => False) ∧ (openFault x.2 (whoOf x.2 1) 0x20000 4 x.1).2.halt = none ∧
      (openFault x.2 (whoOf x.2 1) 0x20000 4 x.1).2.mops = [m] := by
  intro e he
  simp only [List.mem_cons, List.not_mem_nil, or_false] at he
  obtain rfl | rfl := he
  · exact ⟨by decide +kernel, rfl, by decide +kernel, by decide +kernel⟩
  · exact ⟨by decide +kernel, rfl, by decide +kernel, by decide +kernel⟩
/-- A drain whose rows write a tile alone, store their maximum into the pad, or store it into memory; an MDRAIN's first row. -/
theorem witness_MatrixEventResults_drain : (∀ out ∈ [21 + 7 * 2 ^ 8 + 2 * 2 ^ 16, 19 + 7 * 2 ^ 8 + 6 * 2 ^ 16], let m := multiplying (.draining 63) (.mmaz 1 4 5 1) 0 0 out
      let row := drainRow m 63 (Store.getN 0 ((engaged m).team 1).tiles (4096 * m.tile + 64 * 63) 64)
      (∀ r ∈ row.stores, r.pad = true) ∧ (row.stores = [] ↔ out % 32 = 21)) ∧
    (let m := multiplying (.draining 0) (.mmaz 1 4 5 1) 0 0 (19 + 7 * 2 ^ 8 + 5 * 2 ^ 16)
     let s := engaged m
     let row := drainRow m 0 (Store.getN 0 (s.team 1).tiles (4096 * m.tile) 64)
     row.stats = [] ∧ row.stores.length = 1 ∧ (∀ r ∈ row.stores, r.pad = false ∧ 0 < r.w ∧ r.addr = 0x20000 ∧ r.size = 4) ∧
       translate s (m.who s) .store 0x20000 4 = (.ok 0x70000 false none, s) ∧ s.halt = none ∧ inHbm 0x70000 = true ∧ raceMode s (s.team 1).vmid (s.team 1).asid = 0) ∧
    let m := multiplying .granted (.mdrain 1 1) 0 0
    m.phase = .granted ∧ m.word = .mdrain 1 1 :=
  ⟨by decide +kernel, ⟨by decide +kernel, by decide +kernel, by decide +kernel, hitOf (entry 0 0x20000) (by decide +kernel), by decide +kernel, by decide, by decide +kernel⟩, rfl, rfl⟩

/-- Team 1's thread waits as `w` says, since clock 0; the clock stands late, and an access has been parked since clock 0. -/
def late (w : Wait) (phase : Phase := .resident) : State :=
  { withTeam (fun t => { t with phase := phase }) (withThread fun u => { u with wait := w }) with
    clock := 100000, parks := [⟨3, .thread 1 0, 1, 0x20000, 0, 0, 0, 0, none, .waiting 1⟩] }
theorem witness_SchedulerEventResults : (∀ phase ∈ [Phase.resident, .swapping], let s := late .parked phase
      (s.team 1).phase = phase ∧ ∃ p ∈ ownParks s 1, p.waits = true ∧ p.origin + (s.team 1).desc.park * 1500 ≤ s.clock) ∧
    (let s := late .parked
     let parked := (s.team 1).live.filter fun i => (s.thread 1 i).wait = .parked
     parked ≠ [] ∧ (s.team 1).live.length ≤ 2 * parked.length ∧ (s.team 1).lastIssue + 4096 ≤ s.clock) ∧
    (let s := late .tbar
     stalled s 1 = true ∧ s.halt = none ∧ Store.wf Thread.unused (s.team 1).threads = true ∧ (s.team 1).latches = [] ∧ (s.team 1).desc.handler ≠ 0 ∧
       ∀ i ∈ (s.team 1).live, (s.thread 1 i).handler = false) ∧
    ((late (.sleep 100000)).thread 1 0).wait = .sleep 100000 ∧ 100000 ≤ (late (.sleep 100000)).clock ∧ ((late (.sleep 100000)).team 1).phase = .resident :=
  ⟨by decide +kernel, by decide +kernel, by decide +kernel, by decide +kernel, by decide +kernel, by decide +kernel⟩
theorem firstOf {l : List (Nat × Nat × Nat)} {e : Nat × Nat × Nat} (h : l.head? = some e ∧ ∀ x ∈ l, e.2.2 ≤ x.2.2) : FirstOf l e :=
  ⟨0, by rw [← List.head?_eq_getElem?]; exact h.1, fun _ x hx => ⟨h.2 x (List.mem_of_getElem? hx), fun hj => absurd hj (Nat.not_lt_zero _)⟩⟩
/-- An exchange that is due, and one that the last exchange holds off. -/
theorem witness_SchedulerEventResults_exchange : (let s := { crowded with clock := 2048 }
      let q := (refreshQuad s 0).quad 0
      FirstOf (readySince q) (1, 32, 0) ∧ 8 ≤ q.active.length ∧ 0 + 2048 ≤ s.clock ∧ q.lastExchange + 2048 ≤ s.clock ∧ FirstOf q.active (1, 0, 0)) ∧
    let s := { crowded with clock := 2047 }
    s.clock < ((refreshQuad s 0).quad 0).lastExchange + 2048 :=
  ⟨⟨firstOf (by decide +kernel), by decide +kernel, by decide +kernel, by decide +kernel, firstOf (by decide +kernel)⟩, by decide +kernel⟩
/-- A descriptor of one laneset of 64 registers, or as given. -/
def descriptor (lanesets : Nat := 1) (regs : Nat := 64) (park : Nat := 5) : Nat :=
  0x10000 + 0x10100 * 2 ^ 64 + lanesets * 2 ^ 192 + regs * 2 ^ 224 + 4 * 2 ^ 256 + 2 * 2 ^ 268 + 3 * 2 ^ 274 + park * 2 ^ 288 + 4 * 2 ^ 320 + 8 * 2 ^ 330 + 16 * 2 ^ 340
/-- Ring 1 of VF 0 holds one packet: its type and completion address; descriptor at 0x30000, arguments at 0x30100. -/
def packeted (type cpladdr : Nat) (desc : Nat := descriptor) (x : Nat := 2) (table : Nat := 2 ^ 65) : State :=
  let packet := type + 2 ^ 12 + 0x30000 * 2 ^ 64 + x * 2 ^ 128 + 2 ^ 144 + 2 ^ 160 + cpladdr * 2 ^ 256 + 7 * 2 ^ 320 + 0x30100 * 2 ^ 384
  let s := stored (stored (stored alone 0x70040 64 (0x73000 + 2 ^ 96 + 8 * 2 ^ 136)) 0x73000 64 packet) 0x80000 64 desc
  { s.setVf 0 { s.vf 0 with cfg := 0x2000000, ringCopy := [0, BitVec.ofNat 128 (0x70040 + 2 ^ 64 + table)] } with
    teams := [], tlb := [entry 0 0x30000, entry 1 0x30000, entry 1 0x20000] }
/-- The packet at the head of that ring. -/
def packet (type cpladdr : Nat) (x : Nat := 2) : Packet := parsePacket ((packeted type cpladdr (x := x)).rdNat 0x73000 64)
theorem witness_DispatcherEventResults_packets : (∀ e ∈ [(0, 0), (2, 0x20100), (1, 0), (3, 0)], let s := packeted e.1 e.2
      let p := packet e.1 e.2
      s.poison = [] ∧ s.outbound = [] ∧ s.halt = none ∧ s.fatal = false ∧ headPacket s 0 1 = some (0x70040, ringAt s 0x70040, p) ∧ nextPacket s = some (0, 1) ∧ packetFailed s 0 1 4 = false ∧ packetFailed s 0 1 5 = false ∧ refuses s (0x70040 + 8) 4 = false ∧
      headPoisoned s 0x70040 (ringAt s 0x70040) = false ∧ mapped (0x70040 + 8) = true ∧ mapped (0x70040 + 11) = true ∧ childOf s 0 1 (ringAt s 0x70040).rp = none ∧ p.type = e.1 ∧ p.cpladdr = e.2) ∧
    (∀ type ∈ [0, 2], let s := packeted type 0x20100
      let x := translate s { packetWho s 0 1 (packet type 0x20100) with super := false } .store 0x20100 4
      0x20100 % 4 = 0 ∧ x.1 = .ok 0x70100 false none ∧ x.2.halt = none ∧ x.2.parks = s.parks ∧ x.2.rrPos = s.rrPos ∧ x.2.teams = s.teams ∧ mapped 0x70100 = true ∧ mapped (0x70100 + 3) = true ∧ refuses s 0x70100 4 = false) ∧
    let s := { packeted 1 0 with parks := [⟨3, .packet 0 1, 0, 0x30000, 4, 0, 0, 0, none, .failed 1 4 2⟩] }
    nextPacket s = some (0, 1) ∧ packetFailed s 0 1 4 = true ∧ packetFailed s 0 1 5 = false := by decide +kernel
/-- A pair whose answer is `ok`. -/
theorem gotOf {α β : Type} {p : Got α × β} (P : α → β → Bool) (h : (match p with | (.ok l, s) => P l s | _ => false) = true) : ∃ l s, p = (.ok l, s) ∧ P l s = true := by
  obtain ⟨_ | _ | _ | _, s⟩ := p
  · exact ⟨_, _, rfl, h⟩
  · cases h
  · cases h
  · cases h
/-- An answer that could not be read. -/
def isBad {α : Type} : Got α → Bool
  | .bad => true
  | _ => false
/-- What the reads leave alone. -/
def quietly (s t : State) : Bool := decide (t.halt = none ∧ t.parks = s.parks ∧ t.rrPos = s.rrPos ∧ t.teams = s.teams)
/-- A launch that no check refuses, and one refused by each of the codes 3 to 6. -/
theorem witness_DispatcherEventResults_launch : ∀ e ∈ [(packeted 1 0, packet 1 0, 0), (packeted 1 0 (desc := descriptor (park := 0)), packet 1 0, 3), (packeted 1 0 (desc := descriptor 64 128), packet 1 0, 4),
      (packeted 1 0 (x := 0), packet 1 0 0, 5), (packeted 1 0 (table := 0), packet 1 0, 6)], ∃ l s1, readLaunch e.1 (packetWho e.1 0 1 e.2.1) e.2.1 = (.ok l, s1) ∧
    (quietly e.1 s1 && (l.valid == decide (e.2.2 ≠ 3)) && (decide (e.2.2 = 3) || ((fitBeside [] l.desc).isSome == decide (e.2.2 ≠ 4))) && decide (e.2.1.x ≠ 0 ↔ e.2.2 ≠ 5) &&
      decide (e.2.1.y = 1 ∧ e.2.1.z = 1 ∧ l.desc.bond = 0 ∧ e.2.1.super = true) &&
      (match (e.1.vf 0).ringCopy[1]? with | some t => t.toNat.testBit 65 == decide (e.2.2 ≠ 6) | none => false)) = true := by
  intro e he
  refine gotOf (fun (l : Launch) (s1 : State) => quietly e.1 s1 && (l.valid == decide (e.2.2 ≠ 3)) && (decide (e.2.2 = 3) || ((fitBeside [] l.desc).isSome == decide (e.2.2 ≠ 4))) &&
    decide (e.2.1.x ≠ 0 ↔ e.2.2 ≠ 5) && decide (e.2.1.y = 1 ∧ e.2.1.z = 1 ∧ l.desc.bond = 0 ∧ e.2.1.super = true) &&
    (match (e.1.vf 0).ringCopy[1]? with | some t => t.toNat.testBit 65 == decide (e.2.2 ≠ 6) | none => false)) ?_
  revert e
  decide +kernel
/-- A packet with a field that is none; a descriptor that cannot be read. -/
theorem witness_DispatcherEventResults_refused : 3 ≤ (packet 3 0).type ∧ (let p := packet 1 0
      ¬(3 ≤ p.type ∨ p.reserved = true ∨ p.kdesc % 64 ≠ 0 ∨ p.kargs % 64 ≠ 0 ∨ (p.cpladdr ≠ 0 ∧ p.cpladdr % 4 ≠ 0))) ∧
    let s := { packeted 1 0 with answers := [⟨.packet 0 1, 0, 0, 0x30000, .format 1⟩] }
    let x := readLaunch s (packetWho s 0 1 (packet 1 0)) (packet 1 0)
    isBad x.1 = true ∧ quietly s x.2 = true := by decide +kernel
/-- A descriptor that fits any free core. -/
def launchable : Desc := { small.desc with lanesets := [1], regs := [64], padKiB := 4, copyslots := 2, acctiles := 3, nd := 0, park := 5, sig := (64, 128, 256) }
/-- A grid of two teams, `next` of them placed, with a completion address. -/
def gridded (next cpladdr : Nat) (s : State := { alone with teams := [] }) : State :=
  { s with grids := [(4, some { vf := 0, vmid := 0, ring := 0, id := 0x77, level := 0, x := 2, y := 1, z := 1, asid := 0, super := true, mode := 3, desc := launchable, kargs := [1], images := []
                                cpladdr := cpladdr, cplval := 7, next := next, waitSince := none, order := 0, pteam := none, pkt := 0 })] }
theorem witness_DispatcherEventResults_grid : (∃ g, nextReadmit (gridded 1 0) = none ∧ placeOrder (gridded 1 0) = [(4, g)] ∧ (gridded 1 0).grid 4 = some g ∧ g.desc.bond = 0 ∧ 4 < (gridded 1 0).nextKey ∧ 0 < Config.cores ∧
      fitCore (gridded 1 0) 4 g.desc 0 = some ⟨0, 0, 64⟩) ∧
    (∀ c ∈ [0, 0x20000], ∃ g, (gridded 2 c).grid 4 = some g ∧ gridOver (gridded 2 c) 4 g = true ∧ g.cpladdr = c ∧ ∀ q ∈ (gridded 2 c).parks, q.owner ≠ .grid 4) ∧
    ∃ g, (gridded 2 0x20000).grid 4 = some g ∧ let x := translate (gridded 2 0x20000) ⟨g.vmid, g.asid, g.vf, g.super, 0, none, some (.grid 4)⟩ .store g.cpladdr 4
      g.cpladdr % 4 = 0 ∧ x.1 = .ok 0x70000 false none ∧ x.2.halt = none ∧ x.2.grids = (gridded 2 0x20000).grids ∧ mapped 0x70000 = true ∧ mapped (0x70000 + 3) = true ∧ refuses (gridded 2 0x20000) 0x70000 4 = false :=
  ⟨⟨_, by decide +kernel, rfl, by decide +kernel⟩, fun c hc => by
    obtain rfl | rfl : c = 0 ∨ c = 0x20000 := by simpa using hc
    · exact ⟨_, rfl, by decide +kernel⟩
    · exact ⟨_, rfl, by decide +kernel⟩, _, rfl, by decide +kernel⟩
/-- A grid of bonds of two on cores that fit them from core 0 on; and core 46, whose bond would leave the die. -/
theorem witness_DispatcherEventResults_bond : let d : Desc := { launchable with bond := 2 }
    let s := { gridded 0 0 with grids := (gridded 0 0).grids.map fun e => (e.1, e.2.map fun g => { g with desc := d }) }
    ∃ g, nextReadmit s = none ∧ placeOrder s = [(4, g)] ∧ s.grid 4 = some g ∧ g.desc.bond = 2 ∧ 4 < s.nextKey ∧ 0 % 48 + g.desc.bond ≤ 48 ∧ ¬47 % 48 + g.desc.bond ≤ 48 ∧
      ∀ j < g.desc.bond, fitCore s 4 g.desc (0 + j) = some ⟨j, 0, 64⟩ := ⟨_, by decide +kernel, rfl, by decide +kernel⟩
/-- A core whose pad window is full. -/
theorem witness_DispatcherEventResults_fit : fitCore (gridded 1 0) 4 launchable 0 = some ⟨0, 0, 64⟩ ∧ fitCore (gridded 1 0) 4 { launchable with padKiB := 65 } 0 = none := by decide +kernel
/-- Team 1 on its way to its carafe, and away. -/
def swapping : State := withTeam (fun t => { t with phase := .swapping, reasons := [.park] }) rings
def away : State := withTeam (fun t => { t with desc := launchable, phase := .away, place := none, reasons := [.park], frames := [0xB0000] }) rings
/-- The spec leaves the number of frames open: here for each number up to what the ring holds. -/
theorem witness_DispatcherEventResults_swap : (swapping.team 1).phase = .swapping ∧ saveable swapping 1 = true ∧ swapping.vacates = [] ∧
    (∀ m ≤ 2, let x := takeFrames swapping (swapping.team 1).vmid m
      x.1 = some ([0x90000, 0xA0000].take m) ∧ x.2.halt = none) ∧ ∀ f ∈ [0x90000, 0xA0000], mapped f = true ∧ mapped (f + 65535) = true := by decide +kernel
theorem witness_DispatcherEventResults_readmit : nextReadmit away = some (1, [(1, ⟨0, 0, 64⟩)]) ∧ carafePoisoned away 1 = false ∧ (settle (admitTeam away 1 ⟨0, 0, 64⟩) 1 []).halt = none := by decide +kernel

-- Management commands: each case of each, with the package running after the answer

/-- The memory of `rings` with the header of a management queue at 0x701C0, and the command that is to stand at 0x72000. -/
def served (x : Nat) : Store Byte :=
  [(0x1000A, 2), (0x10010, 1), (0x10019, 1), (0x1001A, 7), (0x10020, 64), (0x10021, 1), (0x10022, 7), (0x10028, 128), (0x10029, 1), (0x1002A, 7), (0x20000, 1), (0x20002, 3), (0x30000, 3), (0x30002, 4), (0x40000, 3), (0x40002, 5), (0x50008, 13), (0x50009, 14), (0x5000A, 6), (0x50010, 13), (0x50011, 14), (0x50012, 7), (0x50018, 13), (0x50019, 14), (0x5001A, 8)] ++
  [(0x70101, 16), (0x70102, 7), (0x7010C, 2), (0x70110, 2), (0x70111, 1), (0x70141, 17), (0x70142, 7), (0x70150, 2), (0x70151, 1), (0x70181, 18), (0x70182, 7), (0x70190, 2), (0x70191, 8), (0x701C1, 32), (0x701C2, 7), (0x701CC, 1), (0x701D0, 1), (0x701D1, 8), (0x71002, 9), (0x7100A, 10)] ++
  Store.setN memDefault [] 0x72000 (leBytes 64 x)
theorem test_served : served 5 = (stored (stored rings 0x701C0 64 (0x72000 + 2 ^ 96 + 2 ^ 128 + 8 * 2 ^ 136)) 0x72000 64 5).mem := by decide +kernel
/-- `s` with the rings and a command at the head of a function's queue. -/
def commanded (fn op a0 a1 a2 a3 : Nat) (s : State := alone) : State :=
  let t := { s with mem := served (op + 0x1234 * 2 ^ 32 + a0 * 2 ^ 256 + a1 * 2 ^ 320 + a2 * 2 ^ 384 + a3 * 2 ^ 448) }
  { t.setVf 0 { t.vf 0 with cfg := 0x2000000, mqhdr := if fn = pf then 0 else 0x701C0, auditSeq := 20, auditTaken := 3, auditSigned := 10 } with pfmq := if fn = pf then 0x701C0 else 0 }
/-- A command answered, as the statement has it. -/
def replied (fn h c : Nat) (r : RingHdr) (u : State) (status result : Nat) : State :=
  post (setMqBell (u.sysPut (linkOf u fn) (h + 8) (leBytes 4 (r.rp + 1))) fn r.wp (decide ((r.rp + 1) % 2 ^ 32 ≠ r.wp))) fn 4 status (c / 2 ^ 32 % 2 ^ 32) (c % 2 ^ 8) result
/-- The head of the queue is command `op`, `f` gives an answer to it, and the answer leaves the package running. -/
def answers (s : State) (fn op : Nat) (f : Nat → Option (State × Nat × Nat)) : Bool :=
  match headCommand s fn with
  | some (h, r, c) => decide (s.poison = [] ∧ s.outbound = [] ∧ s.halt = none ∧ headPoisoned s h r = false ∧ c % 2 ^ 8 = op) &&
      (match f c with | some (u, st, res) => decide ((replied fn h c r u st res).halt = none) | none => false)
  | none => false
/-- The record of VMID 0 reads well. -/
def readsWell (s : State) : Prop := poisoned s (s.vmtbase.toNat + 64 * 0) 64 = false
  deriving Decidable
theorem readsWell_read {s : State} (h : readsWell s) : vmidRead s 0 = s := by rw [vmidRead, coreRead, if_neg (by rw [show poisoned s _ 64 = false from h]; decide)]
def arg (c n : Nat) : Nat := c / 2 ^ (256 + 64 * n) % 2 ^ 64
/-- `alone` with a major fault of the physical function, a grid of number 0x77, a frame sealed, and a vacate of that grid that is closed. -/
def managed : State :=
  { gridded 2 0 alone with
    faults := [⟨4, 0, 0, 0x20000, 256, 0x50010, 0, some (5, 2), 1, none, none, none⟩], sealMap := [0xF], vacates := [⟨4, 0x77, 0, [], 256, [], true, true⟩] }
/-- RESOLVE and REJECT of a fault that is open, and of one that is not. -/
theorem witness_CommandResults_faults :
    (let s := commanded pf 1 0 5 0 0 managed
     answers s pf 1 fun c => (faultByFid s pf (arg c 1)).map fun x => (endFault s x.id fun n => .resolved n, 0, 0)) ∧
    (let s := commanded pf 1 0 6 0 0 managed
     answers s pf 1 fun c => if faultByFid s pf (arg c 1) = none then some (s, 4, 0) else none) ∧
    (let s := commanded pf 2 0 5 0 0 managed
     answers s pf 2 fun c => (faultByFid s pf (arg c 1)).map fun x => (endFault s x.id fun n => .failed n 4 (2 + 2 ^ 10 * x.stage), 0, 0)) ∧
    (let s := commanded pf 2 0 6 0 0 managed
     answers s pf 2 fun c => if faultByFid s pf (arg c 1) = none then some (s, 4, 0) else none) := by decide +kernel
/-- DEMOTE of the page 0x20000, whose leaf is as given. -/
def demoted (leaf : Nat) (s : State := managed) : State := stored (commanded pf 3 0 0x20000 0 0 s) 0x50010 8 leaf
/-- A demotion refused by each code: an address that is none, no leaf, a leaf that is remote, sealed, of host memory, demoted twice; and a large page. -/
theorem witness_CommandResults_demoteRefused :
    (let s := commanded pf 3 0 (2 ^ 52) 0 0 managed
     answers s pf 3 fun c => if 2 ^ 52 ≤ arg c 1 / 2 ^ 16 * 2 ^ 16 ∧ readsWell s then some (post s pf 7 1 (2 ^ 52) 0 0, 0, 0) else none) ∧
    (let s := commanded pf 3 0 0x40000 0 0 managed
     answers s pf 3 fun _ => if leafOf (walk s 0 0 0x40000) = none ∧ readsWell s ∧ s.moves = [] then some (post s pf 7 1 0x40000 0 0, 0, 0) else none) ∧
    (∀ e ∈ [(0x70E0D + 2 ^ 63 + 2 ^ 56, 1), (0x70E1D, 2), (2 ^ 50 + 0x0E0D, 3), (0x70E8D, 4)], let s := demoted e.1
      (leafOf (walk s 0 0 0x20000)).map (fun l => (decide (leafState l ≠ .local), bit l 4, inHost (l / 2 ^ 16 % 2 ^ 36 * 2 ^ 16), pteCount l)) = some (decide (e.2 = 1), decide (e.2 = 2), decide (e.2 = 3), if e.2 = 4 then 2 else 0) ∧
      answers s pf 3 fun _ => some (post s pf 7 e.2 0x20000 0 0, 0, 0)) ∧
    let s := stored (commanded pf 3 0 0x20000 0 0 managed) 0x40000 8 0x0E0D
    walk s 0 0 0x20000 = .leaf 0x0E0D 0x40000 0x20000 true true [] ∧ readsWell s ∧ answers s pf 3 fun _ => some (s, 5, 0) := by decide +kernel
/-- A ring with one tier frame. -/
def withTier (s : State) : State := stored (stored s 0x7014C 1 1) 0x71100 8 (2 ^ 40 + 0x90000)
/-- A page that may be demoted: no tier frame, one, and one whose version is exhausted. -/
theorem witness_CommandResults_demote :
    (let s := demoted 0x70E0D
     walk s 0 0 0x20000 = .leaf 0x70E0D 0x50010 0x70000 false false [] ∧ leafState 0x70E0D = .local ∧ bit 0x70E0D 4 = false ∧ 0x70000 / 2 ^ 16 ∉ s.sealMap ∧ inHost 0x70000 = false ∧ pteCount 0x70E0D < 2 ∧
       readsWell s ∧ s.moves = [] ∧ (popTier s 0).1 = none ∧ answers s pf 3 fun _ => some (post (popTier s 0).2 pf 7 5 0x20000 0 0, 0, 0)) ∧
    (let s := withTier (demoted 0x70E0D)
     (popTier s 0).1 = some (2 ^ 40 + 0x90000) ∧ (tierRec (popTier s 0).2 (2 ^ 40 + 0x90000)).1 < 2 ^ 32 - 1 ∧ (popTier s 0).2.halt = none ∧ refuses s 0x50010 8 = false ∧ (headCommand s pf).isSome = true) ∧
    let s := withTier (demoted 0x70E0D { managed with tierRecs := [((2 ^ 40 + 0x90000) / 2 ^ 16, (2 ^ 32 - 1, []))] })
    2 ^ 32 - 1 ≤ (tierRec (popTier s 0).2 (2 ^ 40 + 0x90000)).1 ∧ (popTier (post (popTier s 0).2 pf 9 0x13 (2 ^ 40 + 0x90000) 0 0) 0).1 = none := by decide +kernel
/-- The demotion waits for a chunk, or for nothing. -/
theorem witness_CommandResults_demoting : ∀ wait ∈ [[], [Flight.chunk 3 0 0]], let m : Move := ⟨pf, 0, 0, 0x20000, 0x50010, 0x70E0D, 0x70000, some (2 ^ 40 + 0x90000), none, wait, none⟩
    let s := { demoted (0x70E0D + 2 ^ 63 + 0x20) with
      moves := [m], keys := [(0, some (List.replicate 32 0))], chans := [(3, { alone.chan 3 with phase := .moving 0 0 0x70000 0x80000, rec_ := 0 })] }
    s.poison = [] ∧ s.outbound = [] ∧ s.halt = none ∧ s.moves.find? (fun m => m.fn = pf ∧ m.tier.isSome) = some m ∧ readsWell s ∧ (m.wait.any (inFlight s) = decide (wait ≠ [])) ∧
      eventsFull s pf = false ∧ tierRec s (2 ^ 40 + 0x90000) = (0, []) ∧ workKey s m.vmid m.key = (List.replicate 32 0, s) ∧ mapped m.frame = true ∧ mapped (m.frame + 65535) = true ∧
      mapped (2 ^ 40 + 0x90000) = true ∧ mapped (2 ^ 40 + 0x90000 + 65535) = true ∧ refuses s m.leafAddr 8 = false := by decide +kernel
/-- SEAL in the debug state, and of no range; FREE by a VF, and of no range; each of a page that is not mapped, and FREE of one that is not sealed. -/
theorem witness_CommandResults_sealRefused :
    (let s := { commanded pf 4 0 0x20000 0x10000 0 managed with debug := 2 }
     answers s pf 4 fun _ => if s.debug = 2 then some (s, 2, 0) else none) ∧
    (∀ op ∈ [4, 5], let s := commanded pf op 0 0x20001 0x10000 0 managed
     answers s pf op fun c => if s.debug ≠ 2 ∧ ¬(arg c 1 % 2 ^ 16 = 0 ∧ arg c 2 % 2 ^ 16 = 0 ∧ arg c 2 ≠ 0) ∧ s.jobs = [] ∧ readsWell s then some (s, 1, 0) else none) ∧
    (let s := commanded 0 5 0 0x20000 0x10000 0 managed
     answers s 0 5 fun _ => some (s, 2, 0)) ∧
    (∀ op ∈ [4, 5], let s := commanded pf op 0 0x40000 0x10000 0 managed
     answers s pf op fun c => if walk s 0 0 0x40000 = .invalid 1 ∧ 0 < arg c 2 / 2 ^ 16 then some (s, 4, 0) else none) ∧
    (∀ e ∈ [(0x70E0D + 2 ^ 63 + 2 ^ 56, Leaf.remote), (2 ^ 50 + 0x0E0D, .local)], let s := stored (commanded pf 4 0 0x20000 0x10000 0 managed) 0x50010 8 e.1
     (leafOf (walk s 0 0 0x20000)).map leafState = some e.2 ∧ answers s pf 4 fun _ => some (s, 3, 0)) ∧
    (let s := stored (commanded pf 4 0 0x20000 0x10000 0 managed) 0x40000 8 0x0E0D
     walk s 0 0 0x20000 = .leaf 0x0E0D 0x40000 0x20000 true true [] ∧ answers s pf 4 fun _ => some (s, 5, 0)) ∧
    let s := commanded pf 5 0 0x20000 0x10000 0 managed
    walk s 0 0 0x20000 = .leaf 0x70E0D 0x50010 0x70000 false false [] ∧ bit 0x70E0D 4 = false ∧ answers s pf 5 fun _ => some (s, 4, 0) := by decide +kernel
theorem sealableOf {s : State} {vmid asid va leaf addr pa : Nat} (wide : Bool) (fills : List NtlbEntry) (h : va < 2 ^ 52 ∧ walk s vmid asid va = .leaf leaf addr pa false wide fills ∧
    leafState leaf = .local ∧ inHbm pa = true) : Sealable s vmid asid va leaf addr pa := ⟨h.1, ⟨wide, fills, h.2.1⟩, h.2.2.1, h.2.2.2⟩
/-- SEAL of the page 0x20000, and FREE of it sealed. -/
theorem witness_CommandResults_seal : (let s := commanded pf 4 0 0x20000 0x10000 0xF0000 managed
      Sealable s 0 0 0x20000 0x70E0D 0x50010 0x70000 ∧ s.debug ≠ 2 ∧ s.jobs = [] ∧ readsWell s ∧ refuses s 0x50010 8 = false ∧ (headCommand s pf).isSome = true) ∧
    let s := { stored (commanded pf 5 0 0x20000 0x10000 0 managed) 0x50010 8 0x70E19 with sealMap := [7, 0xF] }
    Sealable s 0 0 0x20000 0x70E19 0x50010 0x70000 ∧ bit 0x70E19 4 = true ∧ 0x70000 / 2 ^ 16 ∈ s.sealMap ∧ s.jobs = [] ∧ readsWell s ∧ refuses s 0x50010 8 = false ∧ (headCommand s pf).isSome = true :=
  ⟨⟨sealableOf false [] (by decide +kernel), by decide +kernel⟩, sealableOf false [] (by decide +kernel), by decide +kernel⟩
/-- Their last steps, with a chunk to complete, and with nothing; the measurement goes to a frame that takes writes, or to one that is sealed. -/
theorem witness_CommandResults_sealing : ∀ op ∈ [4, 5], ∀ wait ∈ [[], [Flight.chunk 3 0 0]], ∀ out ∈ [0x90000, 0xF0000],
    let j : Job := ⟨pf, op + 0x1234 * 2 ^ 32 + 0x20000 * 2 ^ 320 + 0x10000 * 2 ^ 384 + out * 2 ^ 448, [0x70000], wait⟩
    let s := { commanded pf op 0 0x20000 0x10000 out managed with jobs := [j], chans := [(3, { alone.chan 3 with phase := .moving 0 0 0x70000 0x80000, rec_ := 0 })] }
    (headCommand s pf).map (fun e => jobOf s pf e.2.2) = some (some j) ∧ (j.wait.any (inFlight s) = decide (wait ≠ [])) ∧ (∀ a ∈ j.frames, lost s a = false ∧ mapped a = true ∧ mapped (a + 65535) = true) ∧
      (mapped out = true ∧ mapped (out + 64 - 1) = true ∧ lost s out = false) ∧ (out / 2 ^ 16 ∈ s.sealMap ↔ out = 0xF0000) ∧ ((out + 64 - 1) / 2 ^ 16 ∈ s.sealMap ↔ out = 0xF0000) := by decide +kernel
/-- VACATE and RELEASE of a grid that is, and of one that is not. -/
theorem witness_CommandResults_grids :
    (let s := commanded pf 6 0 0x77 1 0 managed
     answers s pf 6 fun c => if ∀ e ∈ s.teams, ∀ p ∈ e.2.place, p.core < 192 then (gridOf s 0 (arg c 1)).map fun e => (vacate s pf e.1 e.2.id (arg c 2), 0, 0) else none) ∧
    (let s := commanded pf 6 0 0x78 1 0 managed
     answers s pf 6 fun c => if gridOf s 0 (arg c 1) = none then some (s, 4, 0) else none) ∧
    (let s := commanded pf 7 0 0x77 0 0 managed
     let hit (v : Vacate) := v.closed && decide (v.vmid = 0) && decide (v.id.toNat = 0x77)
     answers s pf 7 fun c => if arg c 1 = 0x77 ∧ s.vacates.any hit = true then some (settleVacates { s with vacates := s.vacates.map fun v => if hit v then { v with closed := false } else v }, 0, 0) else none) ∧
    (let s := commanded pf 7 0 0x78 0 0 managed
     answers s pf 7 fun c => if s.vacates.any (fun v => v.closed && decide (v.vmid = 0) && decide (v.id.toNat = arg c 1)) = false then some (s, 4, 0) else none) := by decide +kernel
/-- AUDITTAKE and AUDITFLUSH of VF 0; ATTEST into a frame that takes writes; LOADKEY with its two outcomes, whichever the cipher gives, and while a demotion of the slot runs. -/
theorem witness_CommandResults_audit :
    (let s := commanded 0 8 0 100 0 0 managed
     let f := s.vf 0
     answers s 0 8 fun c => some (s.setVf 0 { f with auditTaken := f.auditTaken + min (arg c 1) (f.auditSigned - f.auditTaken) }, 0, f.auditTaken + min (arg c 1) (f.auditSigned - f.auditTaken))) ∧
    (let s := commanded 0 9 0 0 0 0 managed
     (s.vf 0).auditSeq - (s.vf 0).auditSigned ≤ 2 ^ 14 ∧ answers s 0 9 fun _ => some (s.setVf 0 (signedBlock (s.vf 0) 10), 0, 0)) ∧
    (let s := commanded pf 10 0 0 0x90000 0 managed
     mapped 0x90000 = true ∧ mapped (0x90000 + 12288 - 1) = true ∧ lost s 0x90000 = false ∧ 0x90000 / 2 ^ 16 ∉ s.sealMap ∧ (0x90000 + 12288 - 1) / 2 ^ 16 ∉ s.sealMap ∧ answers s pf 10 fun _ => some (s, 0, 0)) ∧
    (let s := commanded 0 11 0 0x74000 0 0 managed
     mapped 0x74000 = true ∧ mapped (0x74000 + 1607) = true ∧ lost s 0x74000 = false ∧ vmidOf s 0 = 0 ∧ readsWell s ∧ slotBusy s (keySlot s (vmidOf s 0)) = false ∧ answers s 0 11 (fun _ => some (s, 1, 0)) ∧
       answers s 0 11 fun _ => some ({ s with keys := Store.set none s.keys (keySlot s (vmidOf s 0)) (some (List.replicate 32 7)) }, 0, 0)) ∧
    let s := { commanded 0 11 0 0x74000 0 0 managed with moves := [⟨pf, 0, 0, 0x20000, 0x50010, 0x70E0D, 0x70000, some (2 ^ 40 + 0x90000), none, [], none⟩] }
    slotBusy s (keySlot s (vmidOf s 0)) = true := by decide +kernel
/-- EXPORT of no range, on, and off; DBGNONCE and DEBUG by a VF and by the physical function; an unknown code at each end of their range. -/
theorem witness_CommandResults_security :
    (let s := commanded pf 12 0 0x20001 0x10000 5 managed
     answers s pf 12 fun c => if ¬(arg c 1 % 2 ^ 16 = 0 ∧ arg c 2 % 2 ^ 16 = 0 ∧ arg c 2 ≠ 0) ∧ readsWell s then some (s, 1, 0) else none) ∧
    (let s := commanded pf 12 0 0x20000 0x10000 0x10005 managed
     walk s 0 0 0x20000 = .leaf 0x70E0D 0x50010 0x70000 false false [] ∧ answers s pf 12 fun c => if arg c 3 / 2 ^ 16 % 2 = 1 then some (setExport s 0x70000 (arg c 3 % 2 ^ 16 + 1), 0, 0) else none) ∧
    (let s := commanded pf 12 0 0x20000 0x10000 5 managed
     answers s pf 12 fun c => if arg c 3 / 2 ^ 16 % 2 = 0 then some (if exported s 0x70000 = arg c 3 % 2 ^ 16 + 1 then setExport s 0x70000 0 else s, 0, 0) else none) ∧
    (let s := commanded 0 13 0 0x90000 0 0 managed
     answers s 0 13 fun _ => some (s, 2, 0)) ∧
    (let s := commanded pf 13 0 0x90000 0 0 managed
     mapped 0x90000 = true ∧ mapped (0x90000 + 32 - 1) = true ∧ lost s 0x90000 = false ∧ 0x90000 / 2 ^ 16 ∉ s.sealMap ∧ (0x90000 + 32 - 1) / 2 ^ 16 ∉ s.sealMap ∧ answers s pf 13 fun _ => some (s, 0, 0)) ∧
    (let s := commanded 0 14 0 1 0 0 managed
     answers s 0 14 fun _ => some (s, 2, 0)) ∧
    (∀ d ∈ [0, 3], let s := commanded pf 14 0 d 0 0 managed
     answers s pf 14 fun c => if BitVec.ofNat 2 (arg c 1) = s.debug ∨ BitVec.ofNat 2 (arg c 1) = 3 then some (s, if d = 3 then 1 else 0, 0) else none) ∧
    (let s := commanded pf 14 0 1 0 0 managed
     answers s pf 14 fun c => if BitVec.ofNat 2 (arg c 1) ≠ s.debug ∧ BitVec.ofNat 2 (arg c 1) = 1 then some (setDebug s 1, 0, 0) else none) ∧
    (let s := commanded pf 14 0 2 0x74000 0 managed
     s.debug ≠ 2 ∧ mapped 0x74000 = true ∧ mapped (0x74000 + 4626) = true ∧ lost s 0x74000 = false ∧ answers s pf 14 (fun _ => some (setDebug { s with nonce := none } 2, 0, 0)) ∧
       answers s pf 14 fun _ => some ({ s with nonce := none }, 2, 0)) ∧
    ∀ op ∈ [0, 15, 255], let s := commanded pf op 0 0 0 0 managed
     answers s pf op fun _ => some (s, 1, 0) := by decide +kernel

-- Resets, registers, power, errors, accesses from outside

/-- Two functions, one enabled; a record that waits for room; a write to the wake register; an audit block that is full; errors counted. -/
def serviced : State :=
  let s := rings managed
  { (s.setVf 3 { s.vf 3 with cfg := 0x2000005 }).setVf 4 { s.vf 4 with auditSeq := 4096 } with
    teams := [], evWait := [(0, leBytes 64 9)], wakeReg := [(0, 2)], errCounts := [(3, 2)], errClock := [(3, 1)], vacates := [], clock := 1500000001 }
/-- VF 0 with a command in its queue, and VF 3 without a queue; what a write of VFCFG that ends VF 3 holds. -/
theorem witness_DeviceEventResults_resets : (∀ e ∈ [(commanded 0 8 0 0 0 0 serviced, 0, true), (serviced, 3, false)], let s := e.1
      let h := mqHeader s e.2.1
      let r := ringAt s h
      (h ≠ 0 ∧ r.formed = true ∧ r.esc = 8 ∧ r.empty = false ↔ e.2.2 = true) ∧ (resetVf s e.2.1).halt = none ∧ (∀ t ∈ s.teams, t.2.vf = e.2.1 → t.2.phase = .ended) ∧
      (∀ f ∈ s.faults, f.vf = e.2.1 → f.held = none) ∧ s.outbound = [] ∧ s.poison = [] ∧ mapped (0x701C0 + 8) = true ∧ mapped (0x701C0 + 11) = true ∧
      refuses s (h + 8) 4 = false ∧ (e.2.2 = true → s.vmtbase.toNat + 64 * vmidOf s 0 + 16 + 8 ≤ h + 8) ∧ s.vacates = [] ∧ (s.vf e.2.1).auditSeq - (s.vf e.2.1).auditSigned ≤ 2 ^ 14) ∧
    (resetVf { serviced with idle := false } 3).halt = none ∧ (5 : BitVec 128) &&& 0xFFFF01FFF3000FFF = 5 ∧ (5 : BitVec 128).getLsbD 25 = false ∧
    (5 : BitVec 128).toNat % 2 ^ 12 = (serviced.vf 3).cfg.toNat % 2 ^ 12 := by decide +kernel
theorem witness_DeviceEventResults_functions : ((0x2000000 : BitVec 128) &&& 0xFFFF01FFF3000FFF = 0x2000000 ∧ (0x2000000 : BitVec 128).getLsbD 25 = true) ∧
    ((0x2000005 : BitVec 128) &&& 0xFFFF01FFF3000FFF = 0x2000005 ∧ (0x2000005 : BitVec 128).getLsbD 25 = true) ∧
    ((0x2000006 : BitVec 128) &&& 0xFFFF01FFF3000FFF = 0x2000006 ∧ (0x2000006 : BitVec 128).getLsbD 25 = true) ∧
    ((0xFFFF01FFF3000FFF : BitVec 128) &&& 0xFFFF01FFF3000FFF = 0xFFFF01FFF3000FFF ∧ (0xFFFF01FFF3000FFF : BitVec 128).getLsbD 25 = true) ∧
    (0x2000000 : BitVec 128).toNat % 2 ^ 12 = 0 ∧ (serviced.vf 3).cfg.getLsbD 25 = true ∧ (serviced.vf 4).cfg.getLsbD 25 = false ∧
    (0x2000006 : BitVec 128).toNat % 2 ^ 12 ≠ (serviced.vf 3).cfg.toNat % 2 ^ 12 ∧ (0x2000005 : BitVec 128).toNat % 2 ^ 12 = (serviced.vf 3).cfg.toNat % 2 ^ 12 ∧
    (0xFFFF01FFF3000FFF : BitVec 128).toNat % 2 ^ 12 ≠ 0 ∧ serviced.halt = none ∧ mapped ((0x703FF : BitVec 64).toNat / 2 ^ 10 * 2 ^ 10) = true ∧
    mapped ((0x703FF : BitVec 64).toNat / 2 ^ 10 * 2 ^ 10 + 1023) = true ∧ poisoned serviced ((0x703FF : BitVec 64).toNat / 2 ^ 10 * 2 ^ 10) 1024 = false := by decide +kernel
theorem witness_DeviceEventResults_power : ((9 : BitVec 32).toNat % 8 = 1 ∧ (8 : BitVec 32).toNat % 8 = 0 ∧ serviced.off = false ∧ { serviced with off := true }.off = true ∧ (7 : BitVec 32).toNat % 8 ∉ [0, 1, 4] ∧
      (4 : BitVec 32).toNat % 8 = 4) ∧
    (∃ e ∈ serviced.vfs, bit e.2.cfg.toNat 25 = true) ∧ (∀ e ∈ alone.vfs, bit e.2.cfg.toNat 25 = false) ∧ workless { alone with teams := [] } = true ∧ { alone with teams := [] }.off = false := by decide +kernel
theorem witness_DeviceEventResults_records : (∃ e, serviced.evWait.find? (·.1 = 0) = some e ∧ (tryEvent serviced 0 e.2).1 = true ∧ (tryEvent serviced 0 e.2).2.halt = none ∧
      ∀ f ∈ (tryEvent serviced 0 e.2).2.faults, f.vf = 0 → f.pend = none) ∧
    (let f : FaultRec := ⟨4, 0, 0, 0x20000, 0, 0, 4, none, 1, none, some (2, 7), none⟩
     let s := { serviced with faults := [f] }
     ∃ e, s.evWait.find? (·.1 = 0) = some e ∧ (tryEvent s 0 e.2).1 = true ∧ (tryEvent s 0 e.2).2.faults.find? (fun f => f.vf = 0 && f.pend.isSome) = some f ∧
       (makeMajorAt { (tryEvent s 0 e.2).2 with evWait := [] } f.id 2 7).halt = none) ∧
    (serviced.vf 4).auditSigned + 4096 ≤ (serviced.vf 4).auditSeq ∧ (∀ x ∈ [1, 2, 3], let s := { serviced with wakeReg := [(0, x)] }
      s.wakeReg = (0, x) :: [] ∧ (s.vf 0).auditSeq - (s.vf 0).auditSigned ≤ 2 ^ 14) ∧ serviced.poison.contains (0x70010 / 32) = false ∧
    (∀ u ∈ [0, 1], (post { serviced with poison := serviced.poison ++ [0x70010 / 32] } pf 11 1 (32 * (0x70010 / 32)) u 1).halt = none) ∧
    (let total := Store.get 0 serviced.errCounts 3 + 1
     0 < total ∧ Store.get 0 serviced.errClock 3 + 1500000000 ≤ serviced.clock ∧ Store.wf 0 serviced.errCounts = true ∧
       (post { serviced with freeCount := serviced.freeCount + 1, errCounts := Store.set 0 serviced.errCounts 3 0, errClock := Store.set 0 serviced.errClock 3 (max serviced.clock 1) }
         pf 11 0 (Config.freeWord serviced.freeCount).toNat 3 total).halt = none) :=
  ⟨⟨_, rfl, by decide +kernel⟩, ⟨_, rfl, by decide +kernel⟩, by decide +kernel, by decide +kernel, by decide +kernel, by decide +kernel, by decide +kernel⟩
/-- An error in team 1's registers; in an accumulator of a team that drains it, whichever the free choice is; and in the management core. -/
theorem witness_DeviceEventResults_errors :
    (let u := post { alone with freeCount := alone.freeCount + 2 } pf 11 1 (Config.freeWord alone.freeCount).toNat 2 1
     (alone.team 1).phase ≠ .ended ∧ alone.mops = [] ∧
       (settleVacates (abortTeam { u with freeCount := u.freeCount + 1 } 1 true 6 0 0 0xFFFFFFFF 0 (Config.freeWord (alone.freeCount + 1)).toNat 0)).halt = none) ∧
    (let m := multiplying (.draining 0) (ha := 0) (hb := 0)
     m.team = 1 ∧ draining m = true ∧ m.undef = [] ∧ (post { engaged m with freeCount := 2 } pf 11 1 (Config.freeWord 0).toNat 3 1).halt = none) ∧
    (failDevice (post { alone with freeCount := alone.freeCount + 1, fatal := true } pf 11 1 (Config.freeWord alone.freeCount).toNat 5 1)).halt = none := by decide +kernel
/-- The frame of 0x70000 granted to tenant 5, the frame of 0x80000 sealed, and no shadow entry; a word at the frame's end. -/
def granting : State := { exporting with sealMap := [8] }
theorem witness_OutsideAccessResults : granting.poison = [] ∧ granting.halt = none ∧ granting.off = false ∧ (∀ q, conflict granting 0 q true = none) ∧ inHbm 0x7FFFC = true ∧
    inHbm (0x7FFFC + 4 - 1) = true ∧ (∀ i < 4, exported granting (0x7FFFC + i) = (5 : BitVec 16).toNat + 1) ∧ (∀ i < 4, (0x7FFFC + i) / 2 ^ 16 ∉ granting.sealMap) ∧
    (inHbm 0x80000 = true ∧ 0x80000 / 2 ^ 16 ∈ granting.sealMap) ∧ atomicBytes (0 : BitVec 4).toNat = 4 ∧ 0x7FFFC % 4 = 0 ∧ exported granting 0x7FFFC ≠ (6 : BitVec 16).toNat + 1 ∧
    0 < agentSize (.load 4) :=
  ⟨by decide +kernel, by decide +kernel, by decide +kernel, fun _ => rfl, by decide +kernel⟩
/-- A device that is off, whose physical function has a queue at 0x701C0. -/
theorem witness_OutsideAccessResults_off : let s := { commanded pf 1 0 0 0 0 managed with off := true }
    s.poison = [] ∧ s.halt = none ∧ s.off = true ∧ 0x701C0 ∈ doorbells s ∧ 0x701CC < 0x701C0 + 16 ∧ 0x701C0 + 12 < 0x701CC + 4 ∧ inHbm 0x701CC = true ∧ inHbm (0x701CC + 4 - 1) = true := by decide +kernel

-- Invariants

/-- A sound package that executes an instruction. -/
theorem witness_SoundKept : Sound (loaded 0x00E18283) ∧ ∃ t, step (loaded 0x00E18283) = .next t := by
  refine ⟨⟨by decide +kernel, by decide +kernel, by decide +kernel, by decide +kernel, by decide +kernel, by decide +kernel, by decide +kernel, fun p => ?_⟩, ?_⟩
  · show (0 : BitVec 32).toNat < 2 ^ 12
    decide
  · have h : (match step (loaded 0x00E18283) with | .next _ => true | _ => false) = true := by decide +kernel
    cases e : step (loaded 0x00E18283) with
    | next t => exact ⟨t, rfl⟩
    | fault => rw [e] at h; cases h
    | refused => rw [e] at h; cases h

end Sys2Proof.Tests
end

section
/-! The instruction words of spec/02: the all-zero halfword (R18), the 16-bit short forms beside their 32-bit instructions (R26), and
BRA.S (R27). -/

namespace Sys2Proof.InstructionWords

open Sys2Proof.Machine Sys2Proof.Rules Sys2Proof.Laws

-- The all-zero halfword (R18)

theorem decode_zeroHalfword (rest : List Byte) : decode ([0, 0] ++ rest) = .ok (.ill, rest) := rfl

/-- An illegal instruction traps in every thread of the group that its guards let execute (R25, R28, R311). -/
theorem eachLane_ill_moves {s : State} (r : Ready s) (h : CanTrap s) (sub : Nat) :
    Moves s (eachLane [] (fun tid s => ill s tid sub) s) fun _ => actThread s.cur (trapAt s 1 sub 0) := by
  obtain ⟨hhandler, houtside⟩ := h
  refine eachLane_reads r [] _ (fun _ => trapAt s 1 sub 0) (fun _ _ _ _ hq => absurd hq List.not_mem_nil) ?_
  intro s' tid a ht hs hp
  exact trapHere_enters a r hhandler tid hs (houtside tid ht hp) 1 sub 0

theorem exec_ill_moves {s : State} (r : Ready s) (h : CanTrap s) :
    ∃ t, exec .ill s = .next t ∧ Moves s t fun _ => actThread s.cur (trapAt s 1 1 0) :=
  have m := eachLane_ill_moves r h 1
  ⟨_, m.finish r, m⟩

/-- Settles O4: the zero bytes decode to ILL by the decoder's first test, and each thread that executes ILL takes the trap. -/
theorem zeroHalfwordIsIll : Obligations.ZeroHalfwordIsIll :=
  ⟨decode_zeroHalfword, fun _ r h => exec_ill_moves r h⟩

-- The short forms (R26)

theorem shortForms_map_encode (d v : BitVec 5) :
    (shortForms d v).map (fun p => (p.1.nbits, encode p.1)) = (List.range 16).map fun k => (16, wordH k d v) := rfl

/-- The `k`-th short form is a halfword with op16 `k`. -/
theorem shortForms_bytes {d v : BitVec 5} {k : Nat} {p : Instr × Instr} (h : (shortForms d v)[k]? = some p) :
    p.1.bytes = leBytes 2 (wordH k d v) := by
  have hk : k < 16 := (List.getElem?_eq_some_iff.mp h).1
  have hmap := congrArg (·[k]?) (shortForms_map_encode d v)
  obtain ⟨hn, he⟩ : p.1.nbits = 16 ∧ encode p.1 = wordH k d v := by simpa [h, hk] using hmap
  rw [Instr.bytes, hn, he]

/-- MOV v0, v0 alone would be the all-zero halfword (R18). -/
theorem movC_wellFormed {d v : BitVec 5} (h : wordH 0 d v ≠ 0) : (Instr.movC d v).wellFormed = true := by
  have hdv : d = 0 → v ≠ 0 := by
    rintro rfl rfl
    exact h rfl
  simpa [Instr.wellFormed, Instr.hasWord, staticFault, ownFaults, lowest] using hdv

theorem shortForms_tail_wellFormed (d v : BitVec 5) : (shortForms d v).tail.all (·.1.wellFormed) = true := rfl

theorem shortForms_wellFormed {d v : BitVec 5} {k : Nat} {p : Instr × Instr} (h : (shortForms d v)[k]? = some p)
    (hne : wordH k d v ≠ 0) : p.1.wellFormed = true := by
  cases k with
  | zero =>
    obtain rfl : (.movC d v, .mov (low d) (low v)) = p := Option.some.inj h
    exact movC_wellFormed hne
  | succ n =>
    have htail : (shortForms d v).tail[n]? = some p := h
    exact List.all_eq_true.mp (shortForms_tail_wellFormed d v) p (List.mem_of_getElem? htail)

theorem shortForms_roundTrip (d v : BitVec 5) : ∀ p ∈ shortForms d v, RoundTrip.Statement p.1 := by
  simp only [shortForms, List.forall_mem_cons]
  exact ⟨RoundTrip.movC d v, RoundTrip.moviC d v, RoundTrip.addC d v, RoundTrip.addiC d v, RoundTrip.subC d v, RoundTrip.andC d v,
    RoundTrip.orC d v, RoundTrip.xorC d v, RoundTrip.shliC d v, RoundTrip.shriC d v, RoundTrip.sariC d v, RoundTrip.faddC d v,
    RoundTrip.fmulC d v, RoundTrip.fmaxC d v, RoundTrip.minS32C d v, RoundTrip.maxS32C d v, by simp⟩

/-- A five-bit immediate that a long form widens first is the same word (R22, R26). -/
theorem signExtend_imm5 (i : BitVec 5) {w : Nat} (h5 : 5 ≤ w) (h32 : w ≤ 32) : (i.signExtend w).signExtend 32 = i.signExtend 32 := by
  apply BitVec.eq_of_toInt_eq
  rw [BitVec.toInt_signExtend_of_le h32, BitVec.toInt_signExtend_of_le h5, BitVec.toInt_signExtend_of_le (by decide)]

theorem exec_moviC (d i : BitVec 5) (s : State) : exec (.moviC d i) s = exec (.movi (low d) (i.signExtend 18)) s := by
  have hd : (low d).toNat = d.toNat := by simp [low]; omega
  show execMoviC d i s = execMovi (low d) (i.signExtend 18) s
  rw [execMoviC, execMovi, hd, signExtend_imm5 i (by decide) (by decide)]

theorem exec_addiC (d i : BitVec 5) (s : State) : exec (.addiC d i) s = exec (.addi (low d) (low d) (i.signExtend 11)) s := by
  show execAddiC d i s = execAddi (low d) (low d) (i.signExtend 11) s
  rw [execAddi, signExtend_imm5 i (by decide) (by decide)]
  rfl

theorem shortForms_exec (d v : BitVec 5) : ∀ p ∈ shortForms d v, ∀ s, exec p.1 s = exec p.2 s := by
  simp only [shortForms, List.forall_mem_cons]
  exact ⟨fun _ => rfl, exec_moviC d v, fun _ => rfl, exec_addiC d v, fun _ => rfl, fun _ => rfl, fun _ => rfl, fun _ => rfl,
    fun _ => rfl, fun _ => rfl, fun _ => rfl, fun _ => rfl, fun _ => rfl, fun _ => rfl, fun _ => rfl, fun _ => rfl, by simp⟩

/-- Settles O5, from the words of the short forms, their round trip and their meanings. -/
theorem shortFormsEqualLongForms : Obligations.ShortFormsEqualLongForms := by
  intro d v k p h
  have hp := List.mem_of_getElem? h
  refine ⟨fun rest hne => ?_, shortForms_exec d v p hp⟩
  have hword : wordH k d v ≠ 0 := by
    simp only [wordH]
    omega
  have hdecode := shortForms_roundTrip d v p hp (shortForms_wellFormed h hword) rest
  rwa [shortForms_bytes h] at hdecode

-- BRA.S (R27)

/-- BRA.S takes every thread that executes it to the target with bit 0 cleared (R17, R27). -/
theorem exec_braS_moves {s : State} (r : Ready s) (o : BitVec 10) :
    ∃ t, exec (.braS o) s = .next t ∧ Moves s t fun _ => actThread s.cur (·.jump (target s.cur o)) :=
  have m : Moves s (eachLane [] (fun tid s => jumpTo s tid fun _ => target s.cur o) s) fun _ => actThread s.cur (·.jump (target s.cur o)) :=
    eachLane_acts r [] _ (fun _ t => t.jump (target s.cur o)) (fun _ _ _ _ hq => absurd hq List.not_mem_nil)
      fun s' tid a _ _ _ => by simp only [jumpTo, a.cur]
  ⟨_, m.finish r, m⟩

/-- Thread 0 of a resident team at an instruction whose address has bit 0 set. R17 says that no such address arises, but `Ready` admits it. -/
def oddWord : State :=
  { State.reset with cur := { Issue.idle with mask := 1, word := 1 }, teams := [(0, { Team.absent with phase := .resident })] }

theorem oddWord_ready : Ready oddWord := ⟨by decide, by decide, rfl⟩

/-- Refutes O6 in its last clause: at an odd address BRA.S clears bit 0 of its target (R17), and the clause names the sum uncleared. -/
theorem not_sixteenBitCodes : ¬ Obligations.SixteenBitCodes := by
  rintro ⟨-, -, -, -, -, hbraS⟩
  obtain ⟨t, ht, claimed⟩ := hbraS 0 oddWord oddWord_ready
  obtain ⟨t', ht', moves⟩ := exec_braS_moves oddWord_ready 0
  obtain rfl : t = t' := Host.Outcome.next.inj (ht.symm.trans ht')
  have hmem : 0 ∈ oddWord.tids := by decide
  have hpass : passes oddWord.cur (oddWord.thread oddWord.cur.team 0) = true := by decide
  have hpc := congrArg Thread.pc ((claimed.group 0 hmem).symm.trans (moves.group 0 hmem))
  simp only [actThread, hpass, if_true] at hpc
  have hclash : (1 : BitVec 64) = 0 := hpc
  exact absurd hclash (by decide)

end Sys2Proof.InstructionWords
end

section
/-! R71: a global access at an address beyond 52 bits traps PROT with translation code 0x01, and nothing is translated. -/

namespace Sys2Proof.NonCanonical

open Sys2Proof.Machine Sys2Proof.Rules

-- Addresses, sizes and registers of the global accesses, as the model computes them and as the rules state them (R154, R155, R262)

theorem globalAddr_eq_globalAt (u : Thread) (a : Reg) (o : BitVec 8) (n : Nat) : globalAddr u a o n = globalAt u a o n := by
  have hsum : u.pair a.toNat + o.signExtend 64 * BitVec.ofNat 64 n = BitVec.ofInt 64 ((u.pair a.toNat).toNat + o.toInt * n) := by
    rw [BitVec.ofInt_add, BitVec.ofInt_mul, BitVec.ofInt_natCast, BitVec.ofInt_natCast, BitVec.ofNat_toNat, BitVec.setWidth_eq]
    rfl
  rw [globalAddr, globalAt, hsum, BitVec.toNat_ofInt]
  rfl

theorem dataRegs_eq_spanRegs (d : Reg) {n : Nat} (h : n ∈ [1, 2, 4, 8, 16]) : dataRegs d n = spanRegs d n := by
  have hcount : max 1 (n / 4) = (n + 3) / 4 := by
    revert n
    decide
  rw [dataRegs, spanRegs, hcount]

theorem loadBytesOf_eq_loadSize : ∀ z : BitVec 3, z.toNat ≠ 7 → loadBytesOf z = loadSize z.toNat := by decide
theorem storeBytesOf_eq_storeSize : ∀ z : BitVec 3, z.toNat < 5 → storeBytesOf z = storeSize z.toNat := by decide
theorem loadSize_mem : ∀ z : BitVec 3, loadSize z.toNat ∈ [1, 2, 4, 8, 16] := by decide
theorem storeSize_mem : ∀ z : BitVec 3, storeSize z.toNat ∈ [1, 2, 4, 8, 16] := by decide
theorem atomicBytes_eq_atomSize (f : Nat) : atomicBytes f = atomSize f := by simp [atomicBytes, atomSize]
theorem atomSize_mem : ∀ f : BitVec 4, atomSize f.toNat ∈ [1, 2, 4, 8, 16] := by decide

/-- The access size of LDQ and STL (R256). -/
def quadSize (z : BitVec 1) : Nat := if z = 1 then 8 else 4

theorem quadSize_eq : ∀ z : BitVec 1, quadSize z = if z = 0 then 4 else 8 := by decide
theorem quadSize_mem : ∀ z : BitVec 1, quadSize z ∈ [1, 2, 4, 8, 16] := by decide

theorem lowest_eq_none {l : List (Nat × Bool)} (h : lowest l = none) : ∀ e ∈ l, e.2 = false := by
  induction l with
  | nil => simp
  | cons e l ih =>
    obtain ⟨c, b⟩ := e
    cases b with
    | true => cases hl : lowest l <;> simp [lowest, hl] at h
    | false =>
      have hl : lowest l = none := by cases hl : lowest l <;> simp [lowest, hl] at h ⊢
      exact List.forall_mem_cons.mpr ⟨rfl, ih hl⟩

/-- A well-formed instruction breaks none of the checks of its own fields (R25). -/
theorem ownFaults_of_wellFormed {i : Instr} (h : i.wellFormed = true) : ∀ e ∈ ownFaults 0 0 i, e.2 = false := by
  rw [Instr.wellFormed, Bool.and_eq_true, Option.isNone_iff_eq_none] at h
  exact lowest_eq_none h.2

theorem ld_code_of_wellFormed {d a : Reg} {z : BitVec 3} {o : BitVec 8} (h : (Instr.ld d a z o).wellFormed = true) : z.toNat ≠ 7 :=
  of_decide_eq_false (ownFaults_of_wellFormed h _ List.mem_cons_self)

theorem st_code_of_wellFormed {d a : Reg} {z : BitVec 3} {o : BitVec 8} (h : (Instr.st d a z o).wellFormed = true) : z.toNat < 5 :=
  Nat.not_le.mp (of_decide_eq_false (ownFaults_of_wellFormed h _ List.mem_cons_self))

-- One thread alone

theorem solo_of_subset {s : State} {tid : Nat} {regs regs' : List Nat} (h : Solo s tid regs) (sub : regs' ⊆ regs) : Solo s tid regs' :=
  ⟨h.ready, h.group, h.guard, fun r hr => h.regs r (sub hr)⟩

section
variable {s : State} {tid : Nat} {regs : List Nat} (solo : Solo s tid regs) (canTrap : CanTrap s)
include solo canTrap

/-- The trap of a thread that executes alone is all that happens (R311). -/
theorem trapHere_acts (cause info tfa : Nat) :
    Acts (trapHere s tid cause info tfa) s tid s.here (trapAt s cause info (BitVec.ofNat 64 tfa)) := by
  obtain ⟨hhandler, houtside⟩ := canTrap
  have hout := houtside tid (by simp [solo.group]) solo.guard
  obtain ⟨agree, hthread⟩ := trapHere_enters (Agree.refl s) solo.ready hhandler tid rfl hout cause info tfa
  exact ⟨agree.state, agree.team, by rw [hthread, if_pos rfl], fun j hj => by rw [hthread, if_neg hj], agree.others⟩

theorem trapHere_phase (cause info tfa : Nat) : (trapHere s tid cause info tfa).here.phase ≠ .ended := by
  rw [(trapHere_acts solo canTrap cause info tfa).team]
  exact solo.ready.team

theorem finish_trapHere (cause info tfa : Nat) : finish (trapHere s tid cause info tfa) = .next (trapHere s tid cause info tfa) := by
  apply finish_next
  rw [(trapHere_acts solo canTrap cause info tfa).state]
  exact solo.ready.halt

end

-- The five forms at a non-canonical address

/-- The access of LD, LDQ, ST or STL at the registers and the address that the model computes. -/
def plainForm (u : Thread) (d a : Reg) (o : BitVec 8) (n : Nat) (k : Acc) (store : Bool) : MemoryForm :=
  ⟨two a ++ dataRegs d n, globalAddr u a o n, n, k, store⟩

/-- The access of ATOM. -/
def atomForm (c : Issue) (u : Thread) (d a b : Reg) (f : BitVec 4) : MemoryForm :=
  let n := atomSize f.toNat
  ⟨(if atomNoret c then [] else dataRegs d n) ++ two a ++ dataRegs b n ++ (if isCas f.toNat then dataRegs (third c d) n else []),
    (u.pair a.toNat).toNat, n, .atomic, atomNoret c⟩

theorem plainForm_eq (u : Thread) (d a : Reg) (o : BitVec 8) {n : Nat} (h : n ∈ [1, 2, 4, 8, 16]) (k : Acc) (store : Bool) :
    plainForm u d a o n k store = ⟨two a ++ spanRegs d n, globalAt u a o n, n, k, store⟩ := by
  rw [plainForm, dataRegs_eq_spanRegs d h, globalAddr_eq_globalAt]

theorem memoryForm_ld {c : Issue} {u : Thread} {d a : Reg} {z : BitVec 3} {o : BitVec 8} (h : (Instr.ld d a z o).wellFormed = true) :
    memoryForm c u (.ld d a z o) = some (plainForm u d a o (loadSize z.toNat) .load false) := by
  rw [plainForm_eq u d a o (loadSize_mem z), ← loadBytesOf_eq_loadSize z (ld_code_of_wellFormed h), memoryForm]

theorem memoryForm_st {c : Issue} {u : Thread} {d a : Reg} {z : BitVec 3} {o : BitVec 8} (h : (Instr.st d a z o).wellFormed = true) :
    memoryForm c u (.st d a z o) = some (plainForm u d a o (storeSize z.toNat) .store true) := by
  rw [plainForm_eq u d a o (storeSize_mem z), ← storeBytesOf_eq_storeSize z (st_code_of_wellFormed h), memoryForm]

theorem memoryForm_ldq (c : Issue) (u : Thread) (d a : Reg) (z : BitVec 1) (sc : BitVec 2) (o : BitVec 8) :
    memoryForm c u (.ldq d a z sc o) = some (plainForm u d a o (quadSize z) .load false) := by
  rw [plainForm_eq u d a o (quadSize_mem z), quadSize_eq, memoryForm]

theorem memoryForm_stl (c : Issue) (u : Thread) (d a : Reg) (z : BitVec 1) (sc : BitVec 2) (o : BitVec 8) :
    memoryForm c u (.stl d a z sc o) = some (plainForm u d a o (quadSize z) .store true) := by
  rw [plainForm_eq u d a o (quadSize_mem z), quadSize_eq, memoryForm]

theorem memoryForm_atom (c : Issue) (u : Thread) (d a b : Reg) (f : BitVec 4) :
    memoryForm c u (.atom d a b f) = some (atomForm c u d a b f) := by
  simp only [memoryForm, atomForm, atomicBytes_eq_atomSize, dataRegs_eq_spanRegs _ (atomSize_mem f)]
  rfl

/-- A thread that executes alone and can trap makes an aligned access at an address beyond 52 bits, with room in its counters, no half of
a packed atomic under way, and no resident range that serves the load. -/
structure Stray (s : State) (tid : Nat) (m : MemoryForm) : Prop where
  solo : Solo s tid m.regs
  canTrap : CanTrap s
  loads : (s.here.thread tid).ld < 63
  stores : (s.here.thread tid).st < 63
  half : (s.here.thread tid).half = none
  unserved : m.kind = .load → rangeFor s s.cur.team m.addr = none
  aligned : m.addr % m.size = 0
  far : 2 ^ 52 ≤ m.addr

/-- PROT with translation code 0x01 at the thread's instruction (R71, R84). -/
def protTrap (s : State) (tid : Nat) (k : Acc) (addr : Nat) : State := trapHere s tid 3 (1 + 2 ^ 8 * k.code) addr

theorem xinfo_nonCanonical (k : Acc) : xinfo 1 k 0 = 1 + 2 ^ 8 * k.code := by rw [xinfo, Nat.zero_mul, Nat.add_zero, Nat.mul_comm]

section
variable {s : State} {tid : Nat} {d a b : Reg} {o : BitVec 8}

theorem access_nonCanonical (n : Nat) (k : Acc) (isStore : Bool) (i : Instr) (piece : Nat) (body : State → Nat → Bool → State)
    {va : Nat} (h : 2 ^ 52 ≤ va) : access s tid va n k isStore i piece body = protTrap s tid k va := by
  simp only [access, accessWith, translate_nonCanonical _ _ _ _ h, notReached, xinfo_nonCanonical, protTrap]

section
variable {n : Nat} {k : Acc} {store : Bool} (h : Stray s tid (plainForm (s.here.thread tid) d a o n k store))
include h

theorem Stray.plainSolo : Solo s tid (dataRegs d n ++ two a) :=
  solo_of_subset h.solo fun _ hr => List.mem_append.mpr (List.mem_append.mp hr).symm

/-- The counter has room and the address is aligned, so that neither check turns the access away (R155, R158). -/
theorem Stray.pastChecks {count : Nat} (room : count < 63) (full misaligned x : State) :
    (if 63 ≤ count then full else if globalAddr (s.here.thread tid) a o n % n ≠ 0 then misaligned else x) = x := by
  have haligned : globalAddr (s.here.thread tid) a o n % n = 0 := h.aligned
  rw [if_neg (Nat.not_le.mpr room), if_neg (fun hne => hne haligned)]

end

theorem exec_ld_nonCanonical {z : BitVec 3} (h : Stray s tid (plainForm (s.here.thread tid) d a o (loadSize z.toNat) .load false)) :
    exec (.ld d a z o) s = finish (protTrap s tid .load (globalAddr (s.here.thread tid) a o (loadSize z.toNat))) := by
  have hrange : rangeFor s s.cur.team (globalAddr (s.here.thread tid) a o (loadSize z.toNat)) = none := h.unserved rfl
  show execLd d a z o s = _
  rw [execLd, lanes_solo h.plainSolo]
  simp only [hrange]
  exact congrArg finish ((h.pastChecks h.loads _ _ _).trans (access_nonCanonical _ _ _ _ _ _ h.far))

theorem exec_ldq_nonCanonical {z : BitVec 1} {sc : BitVec 2} (h : Stray s tid (plainForm (s.here.thread tid) d a o (quadSize z) .load false)) :
    exec (.ldq d a z sc o) s = finish (protTrap s tid .load (globalAddr (s.here.thread tid) a o (quadSize z))) := by
  have hrange : rangeFor s s.cur.team (globalAddr (s.here.thread tid) a o (quadSize z)) = none := h.unserved rfl
  show execLdq d a z sc o s = _
  rw [execLdq, ← quadSize, lanes_solo h.plainSolo]
  simp only [hrange]
  exact congrArg finish ((h.pastChecks h.loads _ _ _).trans (access_nonCanonical _ _ _ _ _ _ h.far))

theorem exec_st_nonCanonical {z : BitVec 3} (h : Stray s tid (plainForm (s.here.thread tid) d a o (storeSize z.toNat) .store true)) :
    exec (.st d a z o) s = finish (protTrap s tid .store (globalAddr (s.here.thread tid) a o (storeSize z.toNat))) := by
  show execSt d a z o s = _
  rw [execSt, lanes_solo h.plainSolo]
  exact congrArg finish ((h.pastChecks h.stores _ _ _).trans (access_nonCanonical _ _ _ _ _ _ h.far))

theorem exec_stl_nonCanonical {z : BitVec 1} {sc : BitVec 2} (h : Stray s tid (plainForm (s.here.thread tid) d a o (quadSize z) .store true)) :
    exec (.stl d a z sc o) s = finish (protTrap s tid .store (globalAddr (s.here.thread tid) a o (quadSize z))) := by
  show execStl d a z sc o s = _
  rw [execStl, ← quadSize, lanes_solo h.plainSolo]
  exact congrArg finish ((h.pastChecks h.stores _ _ _).trans (access_nonCanonical _ _ _ _ _ _ h.far))

/-- The lane of an atomic traps, and hands the unit no request (R263). -/
theorem gatherLane_nonCanonical {c : Reg} {f : BitVec 4} {regs : List Nat} {i : Instr} (solo : Solo s tid regs)
    (h : Stray s tid (atomForm s.cur (s.here.thread tid) d a b f)) :
    gatherLane a b c f.toNat regs i ⟨s, [], none⟩ tid = ⟨protTrap s tid .atomic ((s.here.thread tid).pair a.toNat).toNat, [], none⟩ := by
  have hpasses : passes s.cur (s.here.thread tid) = true := solo.guard
  have hregs : (regs.any fun r => decide (s.here.countOf tid ≤ r)) = false := by
    simpa using solo.regs
  have haligned : ((s.here.thread tid).pair a.toNat).toNat % atomSize f.toNat = 0 := h.aligned
  have hfar : 2 ^ 52 ≤ ((s.here.thread tid).pair a.toNat).toNat := h.far
  have hroom : ¬ (if atomNoret s.cur then 63 ≤ (s.here.thread tid).st else 63 ≤ (s.here.thread tid).ld) := by
    split
    · exact Nat.not_le.mpr h.stores
    · exact Nat.not_le.mpr h.loads
  simp only [gatherLane, solo.ready.team, hpasses, hregs, h.half, hroom, haligned, translate_nonCanonical _ _ _ _ hfar, notReached,
    xinfo_nonCanonical, Option.isSome_none, decide_false, Bool.not_true, Bool.or_false, Bool.false_eq_true, ne_eq, not_true, if_false]
  exact if_neg (trapHere_phase solo h.canTrap _ _ _)

theorem exec_atom_nonCanonical {f : BitVec 4} (h : Stray s tid (atomForm s.cur (s.here.thread tid) d a b f)) :
    exec (.atom d a b f) s = finish (protTrap s tid .atomic ((s.here.thread tid).pair a.toNat).toNat) := by
  show execAtom d a b f s = _
  have solo := h.solo
  simp only [atomForm] at solo
  simp only [execAtom, solo.group, List.foldl_cons, List.foldl_nil, gatherLane_nonCanonical solo h]
  rfl

end

theorem exec_nonCanonical {s : State} {tid : Nat} {i : Instr} {m : MemoryForm} (wf : i.wellFormed = true)
    (form : memoryForm s.cur (s.here.thread tid) i = some m) (h : Stray s tid m) :
    exec i s = finish (protTrap s tid m.kind m.addr) := by
  cases i with
  | ld d a z o =>
    obtain rfl := Option.some.inj ((memoryForm_ld wf).symm.trans form)
    exact exec_ld_nonCanonical h
  | st d a z o =>
    obtain rfl := Option.some.inj ((memoryForm_st wf).symm.trans form)
    exact exec_st_nonCanonical h
  | ldq d a z sc o =>
    obtain rfl := Option.some.inj ((memoryForm_ldq ..).symm.trans form)
    exact exec_ldq_nonCanonical h
  | stl d a z sc o =>
    obtain rfl := Option.some.inj ((memoryForm_stl ..).symm.trans form)
    exact exec_stl_nonCanonical h
  | atom d a b f =>
    obtain rfl := Option.some.inj ((memoryForm_atom ..).symm.trans form)
    exact exec_atom_nonCanonical h
  | _ => exact absurd form (by simp [memoryForm])

/-- Settles O26: each of the five forms reaches the translation, which refuses the address before it looks at any table. -/
theorem nonCanonicalAddress : Obligations.NonCanonicalAddress := by
  refine ⟨fun s w k va n h => ?_, fun i m s tid wf form solo loads stores half unserved aligned far canTrap => ?_⟩
  · rw [translate_nonCanonical s w k n h, xinfo_nonCanonical]
  · have stray : Stray s tid m := ⟨solo, canTrap, loads, stores, half, unserved, aligned, far⟩
    exact ⟨_, (exec_nonCanonical wf form stray).trans (finish_trapHere solo canTrap _ _ _), trapHere_acts solo canTrap _ _ _⟩

end Sys2Proof.NonCanonical
end

section
/-! SEL (R170): its word, what a PFX may give it, and its result. -/

namespace Sys2Proof.Select

open Sys2Proof.Machine Sys2Proof.Laws

-- Its word (R21, R24)

/-- SEL has no field of a smaller kind and no pair, so each of its words is well formed. -/
theorem sel_wellFormed (d a b : Reg) (q : BitVec 4) : (Instr.sel d a b q).wellFormed = true := rfl

theorem sel_bytes (d a b : Reg) (q : BitVec 4) : (Instr.sel d a b q).bytes = leBytes 4 (wordR 0x0E q.toNat d a b) := by
  have hbits : (Instr.sel d a b q).nbits = 32 := rfl
  have hword : encode (.sel d a b q) = wordR 0x0E q.toNat d a b := rfl
  rw [Instr.bytes, hbits, hword]

theorem decode_sel (d a b : Reg) (q : BitVec 4) (rest : List Byte) :
    decode (leBytes 4 (wordR 0x0E q.toNat d a b) ++ rest) = .ok (.sel d a b q, rest) := by
  rw [← sel_bytes]
  exact RoundTrip.sel d a b q (sel_wellFormed d a b q) rest

-- What a PFX may give it (R31, R32)

/-- No sub-code is reported exactly when no check is broken (R25). -/
theorem lowest_eq_none_iff (l : List (Nat × Bool)) : lowest l = none ↔ ∀ e ∈ l, e.2 = false := by
  refine ⟨NonCanonical.lowest_eq_none, fun h => ?_⟩
  induction l with
  | nil => rfl
  | cons e l ih =>
    obtain ⟨he, hl⟩ := List.forall_mem_cons.mp h
    simp [lowest, ih hl, he]

/-- An instruction that accepts a guard only, and breaks no rule of its own, accepts a PFX exactly when vc and x are zero. -/
theorem prefixedFault_guard_eq_none_iff {i : Instr} (c : BitVec 7) (x : BitVec 12) (kind : prefixKind i = .guard)
    (own : ownFaults c x i = []) : prefixedFault c x i = none ↔ c = 0 ∧ x = 0 := by
  rw [prefixedFault, kind, own, lowest_eq_none_iff]
  simp [prefixFaults]

-- Its result

/-- p0 reads 1, so q = 0 always selects (R33). -/
theorem pred_eq_true_iff (u : Thread) (q : BitVec 4) : u.pred q.toNat = true ↔ q = 0 ∨ u.preds.getLsbD q.toNat = true := by
  simp [Thread.pred, ← BitVec.toNat_inj]

/-- SEL in one thread: a register moves whole, with no reading of its bits as a number. -/
def select (d a b : Reg) (q : BitVec 4) (u : Thread) : Thread :=
  u.setReg d.toNat (if q = 0 ∨ u.preds.getLsbD q.toNat then u.reg a.toNat else u.reg b.toNat)

theorem exec_sel (d a b : Reg) (q : BitVec 4) (s : State) :
    exec (.sel d a b q) s = laneOp [d.toNat, a.toNat, b.toNat] (fun _ => select d a b q) s := by
  show execSel d a b q s = _
  simp only [execSel, pred_eq_true_iff]
  rfl

theorem exec_sel_moves {s : State} (r : Ready s) (d a b : Reg) (q : BitVec 4) (h : Has s [d.toNat, a.toNat, b.toNat]) :
    ∃ t, exec (.sel d a b q) s = .next t ∧ Moves s t fun _ => stepThread s.cur (select d a b q) := by
  rw [exec_sel]
  exact laneOp_moves r _ (fun _ => select d a b q) h

/-- Settles O15: the result from the rule of lane operations, the encoding from the round trip of its word, and what a PFX may
give it from what every guard-only instruction accepts. -/
theorem selResults : Obligations.SelResults :=
  ⟨fun d a b q _ r h => exec_sel_moves r d a b q h, decode_sel,
    fun _ _ _ _ c x => prefixedFault_guard_eq_none_iff c x rfl rfl⟩

end Sys2Proof.Select
end
